-- ==== Sys2Proof/Word.lean ====
section
/-!
DEFINITION. The word type of the block, the ports and slots as finite numbers, and small fixed tables.
-/
namespace Sys2Proof

/-- A word is 32 bits (0.4, "Word"). -/
abbrev Word := BitVec 32

/-- One byte of an I2C transaction (R172). -/
abbrev Byte := BitVec 8

/-- A port number p is 0 to 3 (0.5). -/
abbrev Port := Fin 4

/-- A compose slot number s is 0 to 3 within its port (0.5). -/
abbrev ComposeNo := Fin 4

/-- A receive slot number r is 0 or 1 within its port (0.5). -/
abbrev ReceiveNo := Fin 2

/-- A queue number q is 0 to 31 (0.5). -/
abbrev QueueNo := Fin 32

/-- A cell index is 0 to 2047 (0.4, "Cell"). -/
abbrev CellNo := Fin 2048

/-- A node index is 0 to 1023 (0.4, "Node"). -/
abbrev NodeNo := Fin 1024

/-- A descriptor index is 0 to 511 (0.4, "Descriptor"). -/
abbrev DescNo := Fin 512

/-- Four like things: one for each port, each compose slot, or each memory name. -/
structure Quad (α : Type) where
  q0 : α
  q1 : α
  q2 : α
  q3 : α
  deriving DecidableEq, Repr

namespace Quad

def get {α : Type} (q : Quad α) (i : Fin 4) : α :=
  match i with
  | 0 => q.q0
  | 1 => q.q1
  | 2 => q.q2
  | 3 => q.q3

def set {α : Type} (q : Quad α) (i : Fin 4) (v : α) : Quad α :=
  match i with
  | 0 => { q with q0 := v }
  | 1 => { q with q1 := v }
  | 2 => { q with q2 := v }
  | 3 => { q with q3 := v }

def all {α : Type} (v : α) : Quad α := ⟨v, v, v, v⟩

def map {α β : Type} (f : α → β) (q : Quad α) : Quad β := ⟨f q.q0, f q.q1, f q.q2, f q.q3⟩

end Quad

/-- Two like things: one for each receive slot of a port. -/
structure Pair (α : Type) where
  r0 : α
  r1 : α
  deriving DecidableEq, Repr

namespace Pair

def get {α : Type} (q : Pair α) (i : Fin 2) : α :=
  match i with
  | 0 => q.r0
  | 1 => q.r1

def set {α : Type} (q : Pair α) (i : Fin 2) (v : α) : Pair α :=
  match i with
  | 0 => { q with r0 := v }
  | 1 => { q with r1 := v }

def all {α : Type} (v : α) : Pair α := ⟨v, v⟩

end Pair

end Sys2Proof
end

