-- ==== Sys2Proof/Config.lean ====
section
/-!
DEFINITION. What an implementation of the part fixes, the sizes and constants of the part, and the free values: constants
without a body that stand where the spec states no value.
-/
namespace Sys2Proof

/-- What the check of a stored word gives the reading block (R10): a value (and whether a correction was made), or the
mark "uncorrectable" and no value. -/
inductive Check (α : Type) where
  | clean (value : α)
  | corrected (value : α)
  | uncorrectable
  deriving DecidableEq, Repr, Inhabited

namespace Config

/-- FREE VALUE (log 7). A stored word with three or more inverted bits may give any of the three outcomes of the check,
and the spec does not say which; the classification depends on the stored word alone (R13). -/
opaque multiBitCheck {α : Type} (written : α) (inverted : List Nat) : Check α

/-- FREE VALUE (log 8). The cell a reader goes to where the spec gives none: a chain advance whose link holds END, which
"does not arise while the chain is intact" (R7). -/
opaque freeCell : Nat → CellNo

/-- FREE VALUE (log 8). The node a FETCH or a drain step reads where the queue holds no head node though its depth is not
0, which R56 says does not arise. -/
opaque freeNode : Nat → NodeNo

/-- The identification word (0.1; 11.2). -/
def identification : Word := 0x2A412801

/-- The longest message is 16,384 bytes (R83). -/
def maxLength : Nat := 16384

/-- An event queue holds 0 to 16 entries (R115). -/
def eventQueueSize : Nat := 16

/-- The fault list holds 0 to 4 records (R137). -/
def faultListSize : Nat := 4

/-- The I2C address of the part is 0x38 plus the value on MA[1:0] (R171). -/
def i2cBase : BitVec 7 := 0x38

/-- The index of the MINT_N interrupt enable register (11.6). -/
def mintEnableIndex : BitVec 8 := 0x03

/-- The index of management parameter register 0; parameter k lies k above it (11.6). -/
def mgmtParamIndex : BitVec 8 := 0xF0

/-- The index of the management command register (11.6). -/
def mgmtCommandIndex : BitVec 8 := 0xF4

end Config
end Sys2Proof
end

