-- ==== Sys2Proof/Syntax.lean ====
section
/-!
DEFINITION. The commands of the block: one constructor for each row of spec/opcode_table.json, with the operands that the
rules give the row (the table lists none).
-/
namespace Sys2Proof

/-- The direction of an access on an agent bus and, for a write, its data word (R160). -/
inductive Access where
  | read
  | write (data : Word)
  deriving DecidableEq, Repr

/-- The slot and queue fields of an agent command word: slot [11:8], queue [23:16] (11.3). A field that a command does not
use is not read (R166). -/
structure CommandFields where
  slot : BitVec 4
  queue : BitVec 8
  deriving DecidableEq, Repr

/-- How much of a BEGIN a row makes: the whole of it, with no request between its link requests, or, for a BEGIN of declared
length 0, one of its two link requests, with other rows in between (R77; log 29). -/
inductive BeginPart where
  | whole | first | second
  deriving DecidableEq, Repr

/-- The operands of a BEGIN. The second part ends the BEGIN that its port has begun, and its fields are not read. -/
structure BeginFields where
  fields : CommandFields
  part : BeginPart
  deriving DecidableEq, Repr

/-- The operand fields of a management command word: port [11:8], operand A [19:16], operand B [23:20] (11.6). -/
structure MgmtFields where
  port : BitVec 4
  a : BitVec 4
  b : BitVec 4
  deriving DecidableEq, Repr

/-- The one to three data bytes of a word that a write transaction leaves unfinished (R172). -/
inductive WordPart where
  | one (b0 : Byte)
  | two (b0 b1 : Byte)
  | three (b0 b1 b2 : Byte)
  deriving DecidableEq, Repr

/-- The four data bytes of a word of a write transaction, in the order received (R172). -/
structure WordBytes where
  b3 : Byte
  b2 : Byte
  b1 : Byte
  b0 : Byte
  deriving DecidableEq, Repr

/-- The START, the seven address bits of the address byte, and the index byte of a write transaction (R171, R172). -/
structure WriteStart where
  addr : BitVec 7
  index : Byte
  deriving DecidableEq, Repr

/-- The commands. Every row of the table is one whole step of the block (spec/95_what_each_step_holds.md), but for a BEGIN of
declared length 0, which may come in two. A row of data bytes or
of a register read starts its transaction where it carries a `start`, and otherwise belongs to the open one (R171 to R173). -/
inductive Instr where
  /-- RESET_N_ASSERT (R146); `ma` is the level of MA[1:0], sampled while RESET_N is asserted (R171). -/
  | resetNAssert (ma : BitVec 2)
  /-- RESET_N_RELEASE (R146). -/
  | resetNRelease
  /-- INIT_REBUILD_END (R146). -/
  | initRebuildEnd
  /-- RESTART_REBUILD_END (R148). -/
  | restartRebuildEnd
  /-- ACCESS_DECODE_ERROR (R161): an access of port `p` at a byte address that decode refuses. -/
  | accessDecodeError (p : Port) (addr : BitVec 16) (access : Access)
  /-- REGISTER_WRITE (R165): a write to a port register that has no row of its own. -/
  | registerWrite (p : Port) (offset : BitVec 16) (data : Word)
  /-- COMMAND_CODE_INVALID (R166). -/
  | commandCodeInvalid (p : Port) (code : BitVec 8) (f : CommandFields)
  /-- OPEN_QUEUE (R45). -/
  | openQueue (p : Port) (f : CommandFields)
  /-- MODIFY_QUEUE (R47). -/
  | modifyQueue (p : Port) (f : CommandFields)
  /-- CLOSE_QUEUE (R60). -/
  | closeQueue (p : Port) (f : CommandFields)
  /-- QUERY_QUEUE (R48). -/
  | queryQueue (p : Port) (f : CommandFields)
  /-- BEGIN (R74). -/
  | beginMessage (p : Port) (f : BeginFields)
  /-- SEAL (R84). -/
  | sealMessage (p : Port) (f : CommandFields)
  /-- ABANDON (R91). -/
  | abandonMessage (p : Port) (f : CommandFields)
  /-- FETCH (R99). -/
  | fetchMessage (p : Port) (f : CommandFields)
  /-- REWIND (R111). -/
  | rewindMessage (p : Port) (f : CommandFields)
  /-- RELEASE (R112). -/
  | releaseMessage (p : Port) (f : CommandFields)
  /-- PORT_RESET (R151). -/
  | portReset (p : Port) (f : CommandFields)
  /-- COMPOSE_APERTURE_WRITE (R80): a data write at word `word` of the aperture of slot `s`. -/
  | composeApertureWrite (p : Port) (s : ComposeNo) (word : BitVec 8) (data : Word)
  /-- COMPOSE_APERTURE_READ (R79). -/
  | composeApertureRead (p : Port) (s : ComposeNo) (word : BitVec 8)
  /-- RECEIVE_APERTURE_READ (R102). -/
  | receiveApertureRead (p : Port) (r : ReceiveNo) (word : BitVec 8)
  /-- RECEIVE_APERTURE_WRITE (R98). -/
  | receiveApertureWrite (p : Port) (r : ReceiveNo) (word : BitVec 8) (data : Word)
  /-- EVENT_HEAD_READ (R120). -/
  | eventHeadRead (p : Port)
  /-- EVENT_ENABLE_WRITE (R117). -/
  | eventEnableWrite (p : Port) (data : Word)
  /-- INTERRUPT_ENABLE_WRITE (R123). -/
  | interruptEnableWrite (p : Port) (data : Word)
  /-- I2C_INDEX_BYTE (R172): START or repeated START, the address byte of a write, and the index byte. -/
  | i2cIndexByte (addr : BitVec 7) (index : Byte)
  /-- PARTIAL (R172): a write transaction ends with one to three bytes of a word received. -/
  | partialWord (start : Option WriteStart) (bytes : WordPart)
  /-- MANAGEMENT_UNMAPPED_READ (R173): one register of a read transaction, of which `last + 1` bytes are sent; `start` is the
  address byte where this register is the first of its transaction. -/
  | managementUnmappedRead (start : Option (BitVec 7)) (last : Fin 4)
  /-- MANAGEMENT_REGISTER_WRITE (R174): a word for the register that the index pointer names. -/
  | managementRegisterWrite (start : Option WriteStart) (bytes : WordBytes)
  /-- MINT_N_ENABLE_WRITE (R127). -/
  | mintNEnableWrite (start : Option WriteStart) (bytes : WordBytes)
  /-- MANAGEMENT_CODE_INVALID (R176). This and the rows below are the four bytes of a word for the command register. -/
  | managementCodeInvalid (start : Option WriteStart) (code : BitVec 8) (f : MgmtFields)
  /-- REFUSED_BUSY (R176). -/
  | refusedBusy (start : Option WriteStart) (code : BitVec 8) (f : MgmtFields)
  /-- RESTART (R147). -/
  | restartExchange (start : Option WriteStart) (f : MgmtFields)
  /-- RESET_PORT (R150). -/
  | resetPort (start : Option WriteStart) (f : MgmtFields)
  /-- FENCE_PORT (R150). -/
  | fencePort (start : Option WriteStart) (f : MgmtFields)
  /-- UNFENCE_PORT (R158). -/
  | unfencePort (start : Option WriteStart) (f : MgmtFields)
  /-- SET_PARTITION (R35). -/
  | setPartition (start : Option WriteStart) (f : MgmtFields)
  /-- SET_POOL_MARKS (R38). -/
  | setPoolMarks (start : Option WriteStart) (f : MgmtFields)
  /-- SET_TIMEOUT (R178). -/
  | setTimeout (start : Option WriteStart) (f : MgmtFields)
  /-- SET_POLICY (R132). -/
  | setPolicy (start : Option WriteStart) (f : MgmtFields)
  /-- ACK_FAULT (R138). -/
  | ackFault (start : Option WriteStart) (f : MgmtFields)
  /-- CLEAR_COUNTERS (R140). -/
  | clearCounters (start : Option WriteStart) (f : MgmtFields)
  /-- INJECT (R15, R179). -/
  | inject (start : Option WriteStart) (f : MgmtFields)
  /-- UNIT_BOUNDARY (R92). -/
  | unitBoundary
  /-- TIMER_EXPIRY (R93). -/
  | timerExpiry (p : Port) (s : ComposeNo)
  /-- DRAIN_STEP (R61). -/
  | drainStep (q : QueueNo)
  /-- FENCE_REQUEST (R133). -/
  | fenceRequest
  /-- STOP_REQUEST (R149). -/
  | stopRequest
  /-- TEARDOWN_ABANDON (R96). -/
  | teardownAbandon (p : Port)
  /-- TEARDOWN_RELEASE (R113). -/
  | teardownRelease (p : Port)
  /-- TEARDOWN_CLOSE (R153). -/
  | teardownClose (p : Port)
  /-- TEARDOWN_CLOSE_COMPLETE (R153). -/
  | teardownCloseComplete (p : Port)
  /-- TEARDOWN_EVENT_RESET (R154). -/
  | teardownEventReset (p : Port)
  /-- TEARDOWN_END (R155). -/
  | teardownEnd (p : Port)
  /-- MANAGEMENT_REGISTER_READ (R173), with the operands of MANAGEMENT_UNMAPPED_READ. -/
  | managementRegisterRead (start : Option (BitVec 7)) (last : Fin 4)
  deriving DecidableEq, Repr

end Sys2Proof
end

