-- ==== Sys2Proof/Decode.lean ====
section
/-!
DEFINITION. Decoding: the agent window and its registers (R161, 11.2), the agent command codes (11.3), the management
register indices and command codes (11.6), and decodeTableWord. The opcode table gives no row any bits, so no table word
spells a command.
-/
namespace Sys2Proof

/-- The port registers of the agent window (11.2). -/
inductive PortRegister where
  | identification
  | portStatus
  | errorRecord
  | command
  | param (k : Fin 4)
  | result0
  | result1
  | eventHead
  | eventTag
  | eventStatus
  | eventEnable
  | interruptEnable
  | composeStatusA (s : ComposeNo)
  | composeStatusB (s : ComposeNo)
  | receiveStatusA (r : ReceiveNo)
  | receiveStatusB (r : ReceiveNo)
  | receiveStatusC (r : ReceiveNo)
  | pool (k : Fin 4)
  | partition (k : Fin 2)
  deriving DecidableEq, Repr

/-- What an access's byte address names (R161). -/
inductive Target where
  | misaligned
  | unmapped
  | register (reg : PortRegister)
  | compose (s : ComposeNo)
  | receive (r : ReceiveNo)
  deriving DecidableEq, Repr

/-- The register at a word offset of the range 0x0000 to 0x00FF, where one is assigned (11.2). -/
def decodeRegister (n : Nat) : Option PortRegister :=
  if n = 0x00 then some .identification
  else if n = 0x04 then some .portStatus
  else if n = 0x08 then some .errorRecord
  else if n = 0x0C then some .command
  else if 0x10 ≤ n ∧ n ≤ 0x1C then some (.param (Fin.ofNat 4 ((n - 0x10) / 4)))
  else if n = 0x20 then some .result0
  else if n = 0x24 then some .result1
  else if n = 0x28 then some .eventHead
  else if n = 0x2C then some .eventTag
  else if n = 0x30 then some .eventStatus
  else if n = 0x34 then some .eventEnable
  else if n = 0x38 then some .interruptEnable
  else if 0x40 ≤ n ∧ n ≤ 0x5C then
    if (n - 0x40) % 8 = 0 then some (.composeStatusA (Fin.ofNat 4 ((n - 0x40) / 8)))
    else some (.composeStatusB (Fin.ofNat 4 ((n - 0x40) / 8)))
  else if 0x60 ≤ n ∧ n ≤ 0x74 then
    if (n - 0x60) % 12 = 0 then some (.receiveStatusA (Fin.ofNat 2 ((n - 0x60) / 12)))
    else if (n - 0x60) % 12 = 4 then some (.receiveStatusB (Fin.ofNat 2 ((n - 0x60) / 12)))
    else some (.receiveStatusC (Fin.ofNat 2 ((n - 0x60) / 12)))
  else if 0x80 ≤ n ∧ n ≤ 0x8C then some (.pool (Fin.ofNat 4 ((n - 0x80) / 4)))
  else if n = 0x90 then some (.partition 0)
  else if n = 0x94 then some (.partition 1)
  else none

/-- R161: the checks of decode, in order: alignment, then the ranges of the window. -/
def decodeAddress (addr : BitVec 16) : Target :=
  let n := addr.toNat
  if n % 4 ≠ 0 then .misaligned
  else if n ≤ 0x00FF then
    match decodeRegister n with
    | some reg => .register reg
    | none => .unmapped
  else if 0x1000 ≤ n ∧ n ≤ 0x1FFF then .compose (Fin.ofNat 4 ((n - 0x1000) / 0x400))
  else if 0x2000 ≤ n ∧ n ≤ 0x27FF then .receive (Fin.ofNat 2 ((n - 0x2000) / 0x400))
  else .unmapped

/-- The byte address of word `word` of the compose aperture of slot `s` (R161). -/
def composeAddress (s : ComposeNo) (word : BitVec 8) : BitVec 16 :=
  BitVec.ofNat 16 (0x1000 + 0x400 * s.val + 4 * word.toNat)

/-- The byte address of word `word` of the receive aperture of slot `r` (R161). -/
def receiveAddress (r : ReceiveNo) (word : BitVec 8) : BitVec 16 :=
  BitVec.ofNat 16 (0x2000 + 0x400 * r.val + 4 * word.toNat)

/-- The eleven agent commands (R166). -/
inductive AgentCommand where
  | openQueue | modifyQueue | closeQueue | queryQueue
  | beginMessage | sealMessage | abandonMessage
  | fetchMessage | rewindMessage | releaseMessage
  | portReset
  deriving DecidableEq, Repr

/-- The command codes of 11.3. -/
def AgentCommand.code : AgentCommand → BitVec 8
  | .openQueue => 0x01
  | .modifyQueue => 0x02
  | .closeQueue => 0x03
  | .queryQueue => 0x04
  | .beginMessage => 0x10
  | .sealMessage => 0x11
  | .abandonMessage => 0x12
  | .fetchMessage => 0x20
  | .rewindMessage => 0x21
  | .releaseMessage => 0x22
  | .portReset => 0x30

/-- The command that a code names, where 11.3 assigns it. -/
def decodeAgentCommand (code : BitVec 8) : Option AgentCommand :=
  if code = 0x01 then some .openQueue
  else if code = 0x02 then some .modifyQueue
  else if code = 0x03 then some .closeQueue
  else if code = 0x04 then some .queryQueue
  else if code = 0x10 then some .beginMessage
  else if code = 0x11 then some .sealMessage
  else if code = 0x12 then some .abandonMessage
  else if code = 0x20 then some .fetchMessage
  else if code = 0x21 then some .rewindMessage
  else if code = 0x22 then some .releaseMessage
  else if code = 0x30 then some .portReset
  else none

/-- The eleven management commands (R176, R177). -/
inductive MgmtCommand where
  | restartExchange | resetPort | fencePort | unfencePort
  | setPartition | setPoolMarks | setTimeout
  | setPolicy | ackFault | clearCounters | inject
  deriving DecidableEq, Repr

/-- The management command codes of 11.6. -/
def MgmtCommand.code : MgmtCommand → BitVec 8
  | .restartExchange => 0x01
  | .resetPort => 0x02
  | .fencePort => 0x03
  | .unfencePort => 0x04
  | .setPartition => 0x10
  | .setPoolMarks => 0x11
  | .setTimeout => 0x12
  | .setPolicy => 0x20
  | .ackFault => 0x21
  | .clearCounters => 0x22
  | .inject => 0x23

/-- The management command that a code names, where 11.6 assigns it. -/
def decodeMgmtCommand (code : BitVec 8) : Option MgmtCommand :=
  if code = 0x01 then some .restartExchange
  else if code = 0x02 then some .resetPort
  else if code = 0x03 then some .fencePort
  else if code = 0x04 then some .unfencePort
  else if code = 0x10 then some .setPartition
  else if code = 0x11 then some .setPoolMarks
  else if code = 0x12 then some .setTimeout
  else if code = 0x20 then some .setPolicy
  else if code = 0x21 then some .ackFault
  else if code = 0x22 then some .clearCounters
  else if code = 0x23 then some .inject
  else none

/-- The registers of the management register file (11.6). -/
inductive MgmtRegister where
  | identification
  | status
  | result
  | mintEnable
  | mintConditions
  | teardown (p : Port)
  | pool (k : Fin 4)
  | partition (p : Port) (k : Fin 2)
  | timeouts
  | queue (q : QueueNo)
  | eventStatus (p : Port)
  | faultRecordA (k : Fin 4)
  | faultRecordB (k : Fin 4)
  | faultList
  | nextSequence
  | counters
  | overflows
  | policy
  | arm
  | lastInjection
  | param (k : Fin 4)
  | command
  deriving DecidableEq, Repr

/-- The register at a management index, where 11.6 assigns one. -/
def decodeMgmtRegister (index : BitVec 8) : Option MgmtRegister :=
  let n := index.toNat
  if n = 0x00 then some .identification
  else if n = 0x01 then some .status
  else if n = 0x02 then some .result
  else if n = 0x03 then some .mintEnable
  else if n = 0x04 then some .mintConditions
  else if 0x08 ≤ n ∧ n ≤ 0x0B then some (.teardown (Fin.ofNat 4 (n - 0x08)))
  else if 0x10 ≤ n ∧ n ≤ 0x13 then some (.pool (Fin.ofNat 4 (n - 0x10)))
  else if 0x14 ≤ n ∧ n ≤ 0x1B then
    some (.partition (Fin.ofNat 4 ((n - 0x14) / 2)) (Fin.ofNat 2 ((n - 0x14) % 2)))
  else if n = 0x1C then some .timeouts
  else if 0x20 ≤ n ∧ n ≤ 0x3F then some (.queue (Fin.ofNat 32 (n - 0x20)))
  else if 0x40 ≤ n ∧ n ≤ 0x43 then some (.eventStatus (Fin.ofNat 4 (n - 0x40)))
  else if n = 0x48 then some (.faultRecordA 0)
  else if n = 0x49 then some (.faultRecordB 0)
  else if n = 0x4A then some .faultList
  else if n = 0x4B then some .nextSequence
  else if 0x4C ≤ n ∧ n ≤ 0x51 then
    if (n - 0x4C) % 2 = 0 then some (.faultRecordA (Fin.ofNat 4 ((n - 0x4C) / 2 + 1)))
    else some (.faultRecordB (Fin.ofNat 4 ((n - 0x4C) / 2 + 1)))
  else if n = 0x52 then some .counters
  else if n = 0x53 then some .overflows
  else if n = 0x54 then some .policy
  else if n = 0x58 then some .arm
  else if n = 0x59 then some .lastInjection
  else if 0xF0 ≤ n ∧ n ≤ 0xF3 then some (.param (Fin.ofNat 4 (n - 0xF0)))
  else if n = 0xF4 then some .command
  else none

/-- The command that a table word spells: the table gives no row any bits, so none. -/
def decodeTableWord (_nbits _w : Nat) : Option Instr := none

end Sys2Proof
end

