-- ==== Sys2Proof/Machine/State.lean ====
section
/-!
DEFINITION. The state of the SQ4128 as plain data, with the value after power-on reset. Each record is named after the rule
of the spec that gives it; a record that is absent in some state of its owner is carried by the constructor of the state in
which it is present.
-/
namespace Sys2Proof.Machine

/-- No command of the block ends in a fault: an uncorrectable error is contained and the block goes on (R128 to R143). The
type has no constructor, so "no fault" is a fact of the type. Safe: nothing is hidden behind a stop. -/
inductive Fault where
  deriving DecidableEq, Repr

/-- The reasons to refuse a command. -/
inductive Refusal where
  /-- Raised by an arm of Dispatch whose command has no meaning yet; no meaning raises it. Safe: the model stops where the
  hardware goes on. -/
  | notModelled (mnemonic : String)
  deriving DecidableEq, Repr

/-! ### Stored words (R1 to R3, R10, R13) -/

/-- A word as a memory stores it: the value last written and the positions of the stored bits, check bits included, that are
inverted (R13; log 7). -/
structure Stored (α : Type) where
  written : α
  inverted : List Nat
  deriving DecidableEq, Repr

/-- A word array: (address, word) pairs, addresses strictly rising, no entry equal to what an unlisted address reads as. -/
abbrev Memory (α : Type) := List (Nat × α)

/-- A cell link word holds a cell index or END (R2); `none` is END. -/
abbrev CellLink := Option CellNo

/-- A node link word holds a node index or END (R3); `none` is END. -/
abbrev NodeLink := Option NodeNo

/-- The names of the memories in reports and counters (R14). -/
inductive MemoryName where
  | payloadBank0 | payloadBank1 | cellLink | node
  deriving DecidableEq, Repr

/-- Which word of a memory a report or an injection record concerns (R12, R16). -/
inductive WordKind where
  | payload (position : Fin 16)
  | link
  | content
  deriving DecidableEq, Repr

/-- The accesses that read a memory (R12). -/
inductive ReadAccess where
  | headRead | chainAdvance | payloadRead | freeNodeTake | fetch | drain
  deriving DecidableEq, Repr

/-! ### The error injection arm (R15, R16) -/

inductive InjectTarget where
  | payload | cellLink | node
  deriving DecidableEq, Repr

inductive InjectKind where
  | single | double
  deriving DecidableEq, Repr

structure Arm where
  target : InjectTarget
  kind : InjectKind
  deriving DecidableEq, Repr

structure InjectionRecord where
  memory : MemoryName
  word : WordKind
  index : Nat
  kind : InjectKind
  deriving DecidableEq, Repr

/-! ### Descriptors (R18) -/

/-- The state of a non-FREE descriptor. -/
inductive MessageState where
  | filling | isSealed | abandoned
  deriving DecidableEq, Repr

inductive Disposition where
  | pending | linked | droppedFull | droppedClosed
  deriving DecidableEq, Repr

structure Destination where
  queue : QueueNo
  disposition : Disposition
  deriving DecidableEq, Repr

/-- The record of a non-FREE descriptor (R18). -/
structure Message where
  state : MessageState
  port : Port
  slot : ComposeNo
  tag : BitVec 16
  declared : Option Nat
  written : Nat
  final : Option Nat
  first : Option CellNo
  last : Option CellNo
  cells : Nat
  holders : Nat
  dests : List Destination
  poison : Option Nat
  linkBroken : Bool
  deriving DecidableEq, Repr

/-- The record that stands where a holder names a FREE descriptor, which R21 rules out (log 22). -/
def Message.blank : Message := ⟨.filling, 0, 0, 0, none, 0, none, none, none, 0, 0, [], none, false⟩

/-- A descriptor is FREE, with every optional field absent, its counts 0 and its flags clear, or holds a message. -/
inductive Descriptor where
  | free
  | live (m : Message)
  deriving DecidableEq, Repr

/-! ### Queues (R42) -/

inductive QueueMode where
  | cut | store
  deriving DecidableEq, Repr

inductive FullPolicy where
  | refuse | skip
  deriving DecidableEq, Repr

/-- The close record of a DRAINING queue. -/
structure CloseRecord where
  owner : Port
  agent : Bool
  teardown : Bool
  drained : Nat
  stranded : Nat
  deriving DecidableEq, Repr

/-- The state of a queue that is not CLOSED. -/
inductive QueuePhase where
  | opened
  | draining (close : CloseRecord)
  | quarantined
  deriving DecidableEq, Repr

structure LiveQueue where
  phase : QueuePhase
  consumer : Port
  mask : BitVec 4
  mode : QueueMode
  policy : FullPolicy
  limit : Nat
  threshold : Nat
  armed : Bool
  depth : Nat
  head : Option NodeNo
  tail : Option NodeNo
  deriving DecidableEq, Repr

inductive Queue where
  | closed
  | live (q : LiveQueue)
  deriving DecidableEq, Repr

/-! ### The pool (R19, R24, R29, R31 to R37) -/

inductive LowWater where
  | armed | tripped
  deriving DecidableEq, Repr

structure Pool where
  fifo : List DescNo
  cellHead : Option CellNo
  cellTail : Option CellNo
  freeCells : Nat
  nodeHead : Option NodeNo
  nodeTail : Option NodeNo
  freeNodes : Nat
  strandedCells : Nat
  strandedNodes : Nat
  lowMark : Nat
  recoverMark : Nat
  lowWater : LowWater
  deriving DecidableEq, Repr

/-- One port's share of the pool: its partition entry, its charge, its refused-allocation counter and its starvation
episode with the slot of its most recent refused grant. -/
structure Share where
  reserve : Nat
  limit : Nat
  charged : Nat
  refused : Nat
  starving : Bool
  refusedSlot : Option ComposeNo
  deriving DecidableEq, Repr

/-! ### Compose and receive slots (R71, R97) -/

/-- What a FILLING or HELD slot holds; `due` says that a unit boundary has expired the timer (R92, R93; log 13). -/
structure Composing where
  desc : DescNo
  cell : Option CellNo
  timer : Nat
  due : Bool
  deriving DecidableEq, Repr

inductive ComposePhase where
  | idle
  | filling (c : Composing)
  | held (c : Composing) (length : Nat)
  deriving DecidableEq, Repr

structure ComposeSlot where
  phase : ComposePhase
  starved : Bool
  lengthError : Bool
  deriving DecidableEq, Repr

structure Holding where
  source : QueueNo
  node : NodeNo
  desc : DescNo
  offset : Nat
  cell : Option CellNo
  deriving DecidableEq, Repr

inductive ReceivePhase where
  | idle
  | holding (h : Holding)
  deriving DecidableEq, Repr

structure ReceiveSlot where
  phase : ReceivePhase
  overread : Bool
  poisonHit : Bool
  abandonSeen : Bool
  linkHit : Bool
  deriving DecidableEq, Repr

/-! ### Events (R115 to R125) -/

inductive EventKind where
  | queueReady | queueClosed | queueQuarantined | sealDone | sealHeld | slotExpired
  | messagePoisoned | allocAvailable | poolLow | poolRecovered | portResetDone | exchangeRestarted
  deriving DecidableEq, Repr

structure EventEntry where
  kind : EventKind
  subject : Option Nat
  tag : Option (BitVec 16)
  detail : Nat
  deriving DecidableEq, Repr

structure EventPort where
  queue : List EventEntry
  overflow : Bool
  enables : BitVec 12
  interrupt : Bool
  tagLatch : Option (BitVec 16)
  deriving DecidableEq, Repr

/-! ### Integrity (R14, R128 to R137) -/

inductive FaultClass where
  | payload | cellLink | freeLink | nodeContent | nodeLink
  deriving DecidableEq, Repr

inductive Escalation where
  | none | fence | stop
  deriving DecidableEq, Repr

inductive BaseAction where
  | poison | quarantine | strand | truncate
  deriving DecidableEq, Repr

/-- The error report of an uncorrectable read (R12). -/
structure ErrorReport where
  memory : MemoryName
  word : WordKind
  index : Nat
  access : ReadAccess
  port : Port
  queue : Option QueueNo
  desc : Option DescNo
  deriving DecidableEq, Repr

structure FaultRecord where
  sequence : BitVec 8
  cls : FaultClass
  memory : MemoryName
  index : Nat
  port : Port
  queue : Option QueueNo
  desc : Option DescNo
  position : Option (Fin 16)
  base : BaseAction
  escalation : Escalation
  deriving DecidableEq, Repr

/-- A correction tracking counter and its overflow flag (R14). -/
structure Tracking where
  count : Nat
  overflow : Bool
  deriving DecidableEq, Repr

structure Policy where
  payload : Escalation
  cellLink : Escalation
  freeLink : Escalation
  nodeContent : Escalation
  nodeLink : Escalation
  deriving DecidableEq, Repr

/-- A report whose step 3 (R130) is still to come: its class and port, and the place of its record in the fault list while that
holds it (log 11). -/
structure Waiting where
  cls : FaultClass
  port : Port
  record : Option Nat
  deriving DecidableEq, Repr

/-- How far a request that made reports has come (R130, R141): a BEGIN of port `p` between its two link requests, completed, or
completed with some of its escalations already applied. -/
inductive RequestStage where
  | inProgress (p : Port)
  | completed
  | escalating
  deriving DecidableEq, Repr

/-- A request with the reports whose step 3 is still to come, in the order in which it made them (R141; log 10). -/
structure ReportingRequest where
  stage : RequestStage
  reports : List Waiting
  deriving DecidableEq, Repr

structure Integrity where
  tracking : Quad Tracking
  policy : Policy
  faults : List FaultRecord
  full : Bool
  nextSequence : BitVec 8
  waiting : List ReportingRequest
  deriving DecidableEq, Repr

/-- The five enables of MINT_N (R127). -/
structure MintEnables where
  fault : Bool
  overflow : Quad Bool
  deriving DecidableEq, Repr

/-! ### Exchange and port states (R144, R145) -/

inductive TeardownOrigin where
  | portReset | resetPort | fencePort | escalation
  deriving DecidableEq, Repr

inductive TeardownEnd where
  | active | fenced
  deriving DecidableEq, Repr

/-- The teardown record; `cursor` is the slot or queue number that the teardown takes next, and `reported` says that the
close the teardown waits for has reported its completion (log 21). -/
structure Teardown where
  origin : TeardownOrigin
  endState : TeardownEnd
  step : Nat
  queue : Option QueueNo
  cursor : Nat
  reported : Bool
  deriving DecidableEq, Repr

inductive PortState where
  | active
  | resetting (t : Teardown)
  | fenced
  deriving DecidableEq, Repr

/-- A port state without its teardown record. -/
inductive PortTag where
  | active | resetting | fenced
  deriving DecidableEq, Repr

/-- From where a RESTART was taken (R148). -/
structure RestartOrigin where
  stopped : Bool
  ports : Quad PortTag
  deriving DecidableEq, Repr

inductive Exchange where
  | init
  | running
  | stopped
  | restarting (origin : RestartOrigin)
  deriving DecidableEq, Repr

/-! ### The agent port front end (R160 to R168) -/

inductive ErrorReason where
  | misaligned | unmapped | stopped | fenced | readOnly | apertureRead | notFilling | length
  | apertureWrite | notHolding | abandoned | poisoned | link
  deriving DecidableEq, Repr

/-- An error record with a reason other than NONE. -/
structure ErrorRecord where
  reason : ErrorReason
  offset : BitVec 16
  deriving DecidableEq, Repr

/-- The response to an access, with the data that a read answered OKAY returns (R160). -/
inductive Answer where
  | okayRead (data : Word)
  | okayWrite
  | retry
  | error
  deriving DecidableEq, Repr

/-- The result codes (11.3). -/
inductive ResultCode where
  | ok | pending | empty | refusedState | refusedParam | refusedOwner | refusedDest | refusedFull
  | refusedNoDesc | refusedNoNode | refusedQuarantined | refusedFault | refusedBusy
  deriving DecidableEq, Repr

inductive QueueTag where
  | closed | opened | draining | quarantined
  deriving DecidableEq, Repr

/-- The fields that QUERY_QUEUE reports present for a queue that is not CLOSED (R48). -/
structure QueryLive where
  limit : Nat
  consumer : Port
  mask : BitVec 4
  mode : QueueMode
  deriving DecidableEq, Repr

/-- The RESULT1 fields of BEGIN, SEAL, ABANDON and RELEASE (11.3). -/
structure MessageResult where
  desc : Option DescNo := none
  poisoned : Option Bool := none
  linked : Option Nat := none
  dropped : Option Nat := none
  holders : Option Nat := none
  failing : Option Nat := none
  sealOutcome : Option ResultCode := none
  deriving DecidableEq, Repr

/-- The RESULT1 fields of FETCH and REWIND (R100). -/
structure FetchResult where
  desc : DescNo
  tag : BitVec 16
  source : Port
  state : MessageState
  poisoned : Bool
  linkBroken : Bool
  deriving DecidableEq, Repr

/-- RESULT1: the fields that the owning rule gives; a field it does not give is absent (R168). -/
inductive Result1 where
  | absent
  | depth (n : Nat)
  | query (state : QueueTag) (depth : Nat) (live : Option QueryLive)
  | close (drained stranded : Nat)
  | message (m : MessageResult)
  | fetch (f : FetchResult)
  deriving DecidableEq, Repr

/-- An agent command word (11.3). -/
structure CommandWord where
  code : BitVec 8
  fields : CommandFields
  deriving DecidableEq, Repr

/-- The command unit: IDLE, or BUSY with the long command being run (R166). -/
inductive CommandUnit where
  | idle
  | closing (queue : QueueNo)
  | resetting
  deriving DecidableEq, Repr

/-- A BEGIN of declared length 0 between its two link requests: its command word and its compose slot (R77; log 29). The access
that carried it is not yet answered. -/
structure Opening where
  command : CommandWord
  slot : ComposeNo
  deriving DecidableEq, Repr

structure FrontEnd where
  params : Quad Word
  unit : CommandUnit
  opening : Option Opening
  lastCommand : Option CommandWord
  result0 : ResultCode
  result1 : Result1
  errorRecord : Option ErrorRecord
  answer : Option Answer
  deriving DecidableEq, Repr

/-! ### The management port (R171 to R176) -/

/-- A management command word (11.6). -/
structure MgmtWord where
  code : BitVec 8
  fields : MgmtFields
  deriving DecidableEq, Repr

inductive MgmtReason where
  | unmapped | readOnly | incomplete
  deriving DecidableEq, Repr

structure MgmtRecord where
  reason : MgmtReason
  index : BitVec 8
  deriving DecidableEq, Repr

structure MgmtResult where
  code : Option (BitVec 8)
  result : ResultCode
  detail : Option (BitVec 16)
  deriving DecidableEq, Repr

/-- The I2C transaction that the target takes part in: none, a write after its index byte, or a read (R171 to R173). -/
inductive Transaction where
  | none | write | read
  deriving DecidableEq, Repr

/-- The management port. `assembly` holds the data bytes of a word that is not yet complete, `capture` the register captured by the
last read and `sent` the bytes of it that were sent (R172, R173; log 20). -/
structure Mgmt where
  pointer : BitVec 8
  transaction : Transaction
  assembly : List Byte
  capture : Option Word
  sent : List Byte
  acknowledged : Option Bool
  record : Option MgmtRecord
  params : Quad Word
  lastCommand : Option MgmtWord
  busy : Bool
  result : MgmtResult
  deriving DecidableEq, Repr

/-! ### The whole block -/

structure State where
  resetAsserted : Bool
  ma : BitVec 2
  exchange : Exchange
  ports : Quad PortState
  fronts : Quad FrontEnd
  compose : Quad (Quad ComposeSlot)
  timeouts : Quad Nat
  receive : Quad (Pair ReceiveSlot)
  events : Quad EventPort
  payload : Memory (Stored Word)
  cellLinks : Memory (Stored CellLink)
  nodeContents : Memory (Stored DescNo)
  nodeLinks : Memory (Stored NodeLink)
  arm : Option Arm
  lastInjection : Option InjectionRecord
  descriptors : Memory Descriptor
  pool : Pool
  shares : Quad Share
  queues : Memory Queue
  integrity : Integrity
  mint : MintEnables
  mgmt : Mgmt
  /-- The MODEL's own counter of free values taken (log 8). -/
  fresh : Nat
  /-- The MODEL's own queue of waiting commands, first in first out. -/
  pending : List Instr
  deriving DecidableEq, Repr

/-! ### The values after power-on reset (R146 and the tables of the owning chapters) -/

/-- The default enable set (R117): bit k - 1 for kind k of 11.4; kinds 2, 3, 6, 11 and 12. -/
def defaultEnables : BitVec 12 := 0xC26

def ComposeSlot.reset : ComposeSlot := ⟨.idle, false, false⟩

def ReceiveSlot.reset : ReceiveSlot := ⟨.idle, false, false, false, false⟩

def EventPort.reset : EventPort := ⟨[], false, defaultEnables, false, none⟩

def FrontEnd.reset : FrontEnd := ⟨.all 0, .idle, none, none, .ok, .absent, none, none⟩

/-- R19, R24, R29, R36, R37 after power-on reset. -/
def Pool.reset : Pool where
  fifo := List.finRange 512
  cellHead := some 0
  cellTail := some 2047
  freeCells := 2048
  nodeHead := some 0
  nodeTail := some 1023
  freeNodes := 1024
  strandedCells := 0
  strandedNodes := 0
  lowMark := 64
  recoverMark := 128
  lowWater := .armed

def Share.reset : Share := ⟨128, 1024, 0, 0, false, none⟩

def Policy.reset : Policy := ⟨.none, .none, .stop, .none, .none⟩

def Integrity.reset : Integrity := ⟨.all ⟨0, false⟩, Policy.reset, [], false, 0, []⟩

def MintEnables.reset : MintEnables := ⟨true, .all false⟩

def Mgmt.reset : Mgmt := ⟨0, .none, [], none, [], none, none, .all 0, none, false, ⟨none, .ok, none⟩⟩

/-- The block right after RESET_N is asserted at power-on: the exchange is INIT and every record has its power-on value.
RESET_N is still asserted; RESET_N_RELEASE and then INIT_REBUILD_END lead to RUNNING (R146; log 3). -/
def State.reset : State where
  resetAsserted := true
  ma := 0
  exchange := .init
  ports := .all .active
  fronts := .all .reset
  compose := .all (.all .reset)
  timeouts := .all 0
  receive := .all (.all .reset)
  events := .all .reset
  payload := []
  cellLinks := []
  nodeContents := []
  nodeLinks := []
  arm := none
  lastInjection := none
  descriptors := []
  pool := .reset
  shares := .all .reset
  queues := []
  integrity := .reset
  mint := .reset
  mgmt := .reset
  fresh := 0
  pending := []

end Sys2Proof.Machine
end

