-- ==== Sys2Proof/Machine/Memory.lean ====
section
/-!
DEFINITION. Word arrays as sorted lists: reading one word, writing one word, the canonical form, what an unlisted address
of each array reads as, and the check of a stored word (R10, R13).
-/
namespace Sys2Proof.Machine

namespace Memory

variable {α : Type}

/-- The word at address `k`; `d` is what an unlisted address reads as. -/
def get (d : Nat → α) : Memory α → Nat → α
  | [], k => d k
  | (a, w) :: m, k => if k = a then w else get d m k

/-- Store `v` at address `k`, keeping the canonical form: storing what an unlisted address reads as removes the entry. -/
def set [DecidableEq α] (d : Nat → α) : Memory α → Nat → α → Memory α
  | [], k, v => if v = d k then [] else [(k, v)]
  | (a, w) :: m, k, v =>
    if k < a then (if v = d k then (a, w) :: m else (k, v) :: (a, w) :: m)
    else if k = a then (if v = d k then m else (k, v) :: m)
    else (a, w) :: set d m k v

/-- Every address of the list lies above `lo`, the addresses rise strictly, and no entry equals what an unlisted address
reads as. -/
def wfAbove [DecidableEq α] (d : Nat → α) : Nat → Memory α → Bool
  | _, [] => true
  | lo, (a, w) :: m => lo ≤ a && !(decide (w = d a)) && wfAbove d (a + 1) m

/-- The canonical form of a word array. -/
def wf [DecidableEq α] (d : Nat → α) (m : Memory α) : Bool := wfAbove d 0 m

end Memory

/-- A payload word that nothing has written since power-on: DESIGN CHOICE 0, clean (R17; log 5). -/
def payloadDefault (_ : Nat) : Stored Word := ⟨0, []⟩

/-- A node content word that nothing has written since power-on: DESIGN CHOICE 0, clean (R17; log 5). -/
def contentDefault (_ : Nat) : Stored DescNo := ⟨0, []⟩

/-- The rebuilt value of a cell link word: index + 1 for cells 0 to 2046, END for cell 2047 (R6, R17). -/
def cellLinkDefault (k : Nat) : Stored CellLink :=
  ⟨if h : k + 1 < 2048 then some ⟨k + 1, h⟩ else none, []⟩

/-- The rebuilt value of a node link word: index + 1 for nodes 0 to 1022, END for node 1023 (R8, R17). -/
def nodeLinkDefault (k : Nat) : Stored NodeLink :=
  ⟨if h : k + 1 < 1024 then some ⟨k + 1, h⟩ else none, []⟩

/-- An unlisted descriptor is FREE. -/
def descDefault (_ : Nat) : Descriptor := .free

/-- An unlisted queue is CLOSED. -/
def queueDefault (_ : Nat) : Queue := .closed

/-- The address of a payload word: cell index and word position (R1). -/
def payloadAddress (c : CellNo) (position : Nat) : Nat := 16 * c.val + position

/-- The check of a stored word (R10, R13): one inverted bit is corrected, two are uncorrectable, and the outcome of three or
more is free (log 7). -/
def Stored.check {α : Type} (w : Stored α) : Check α :=
  match w.inverted with
  | [] => .clean w.written
  | [_] => .corrected w.written
  | [_, _] => .uncorrectable
  | _ => Config.multiBitCheck w.written w.inverted

/-- All six word arrays and tables are in canonical form. -/
def State.memoriesWf (s : State) : Bool :=
  Memory.wf payloadDefault s.payload && Memory.wf cellLinkDefault s.cellLinks &&
  Memory.wf contentDefault s.nodeContents && Memory.wf nodeLinkDefault s.nodeLinks &&
  Memory.wf descDefault s.descriptors && Memory.wf queueDefault s.queues

end Sys2Proof.Machine
end

