-- ==== Sys2Proof/Machine/Operands.lean ====
section
/-!
DEFINITION. Fields of words: extraction and packing of bit ranges, the operand forms of the commands that carry parameters
(11.3, 11.6, R181), and the codes of the enumerated fields (chapter 11).
-/
namespace Sys2Proof.Machine

/-- Bits [lo + width - 1 : lo] of a word, as a number. -/
def bits (w : Word) (lo width : Nat) : Nat := w.toNat / 2 ^ lo % 2 ^ width

/-- A word from fields (lo, width, value); bits that no field names are 0 (R180). -/
def pack : List (Nat × Nat × Nat) → Word
  | [] => 0
  | (lo, width, v) :: fs => BitVec.ofNat 32 (v % 2 ^ width * 2 ^ lo) ||| pack fs

/-- An optional field: absent is all ones (R180). -/
def optional (width : Nat) (v : Option Nat) : Nat := v.getD (2 ^ width - 1)

def boolBit (b : Bool) : Nat := if b then 1 else 0

/-- A word whose fields are all absent (R180). -/
def absentWord : Word := 0xFFFFFFFF

/-- A count capped at 255, as the event details carry it (11.4). -/
def cap255 (n : Nat) : Nat := min n 255

/-! ### Operand forms of the agent commands (11.3) -/

/-- The parameters of OPEN_QUEUE and MODIFY_QUEUE. -/
structure QueueParams where
  mode : Nat
  policy : Nat
  mask : BitVec 4
  limit : Nat
  threshold : Nat
  deriving DecidableEq, Repr

def queueParams (params : Quad Word) : QueueParams where
  mode := bits params.q0 0 2
  policy := bits params.q0 2 2
  mask := BitVec.ofNat 4 (bits params.q0 8 4)
  limit := bits params.q1 0 16
  threshold := bits params.q1 16 16

/-- 0 CUT, 1 STORE (11.3). -/
def decodeMode (n : Nat) : Option QueueMode :=
  if n = 0 then some .cut else if n = 1 then some .store else none

/-- 0 REFUSE, 1 SKIP (11.3). -/
def decodePolicy (n : Nat) : Option FullPolicy :=
  if n = 0 then some .refuse else if n = 1 then some .skip else none

/-- The parameters of BEGIN (R74). -/
structure BeginParams where
  tag : BitVec 16
  count : Nat
  declared : Option Nat
  queues : List Nat
  deriving DecidableEq, Repr

/-- The queue numbers beyond the destination count are not read (R74 check 2). -/
def beginParams (params : Quad Word) : BeginParams where
  tag := BitVec.ofNat 16 (bits params.q0 0 16)
  count := bits params.q0 16 3
  declared := if bits params.q1 0 15 = 0x7FFF then none else some (bits params.q1 0 15)
  queues := [bits params.q2 0 8, bits params.q2 8 8, bits params.q2 16 8, bits params.q2 24 8].take
    (bits params.q0 16 3)

/-- The final length L that SEAL carries. -/
def sealLength (params : Quad Word) : Nat := bits params.q0 0 16

/-- The position of the first queue number that is above 31 or stands earlier in the list: a duplicate fails at its second
appearance (R74 check 2, R78; log 17). -/
def firstBadQueue (seen : List Nat) (position : Nat) : List Nat → Option Nat
  | [] => none
  | q :: qs => if 31 < q ∨ q ∈ seen then some position else firstBadQueue (q :: seen) (position + 1) qs

/-- Check 2 of BEGIN: `some pos` is a refusal with its failing position, where one is given. -/
def beginParamRefusal (b : BeginParams) : Option (Option Nat) :=
  if b.count = 0 ∨ 4 < b.count then some none
  else
    match firstBadQueue [] 0 b.queues with
    | some pos => some (some pos)
    | none =>
      match b.declared with
      | some n => if Config.maxLength < n then some none else none
      | none => none

/-- L is valid for the written bytes W: 0 when W is 0, else W - 4 < L and L at most W (R84). -/
def validLength (length written : Nat) : Bool :=
  if written = 0 then length = 0 else written < length + 4 && length ≤ written

/-! ### Operand forms of the management commands (11.6) -/

/-- The port that a management command names, where it is not above 3. -/
def mgmtPort (f : MgmtFields) : Option Port :=
  if h : f.port.toNat < 4 then some ⟨f.port.toNat, h⟩ else none

/-- The classes as coded in the fault record (11.5). -/
def decodeClass (n : Nat) : Option FaultClass :=
  match n with
  | 0 => some .payload
  | 1 => some .cellLink
  | 2 => some .freeLink
  | 3 => some .nodeContent
  | 4 => some .nodeLink
  | _ => none

def decodeEscalation (n : Nat) : Option Escalation :=
  match n with
  | 0 => some .none
  | 1 => some .fence
  | 2 => some .stop
  | _ => none

/-- The injection targets (11.6, index 0x58). -/
def decodeTarget (n : Nat) : Option InjectTarget :=
  match n with
  | 0 => some .payload
  | 1 => some .cellLink
  | 2 => some .node
  | _ => none

def decodeKind (n : Nat) : Option InjectKind :=
  match n with
  | 0 => some .single
  | 1 => some .double
  | _ => none

/-- The management command word of a 32-bit word (11.6). -/
def mgmtWordOf (w : Word) : MgmtWord :=
  ⟨BitVec.ofNat 8 (bits w 0 8),
    ⟨BitVec.ofNat 4 (bits w 8 4), BitVec.ofNat 4 (bits w 16 4), BitVec.ofNat 4 (bits w 20 4)⟩⟩

/-- The 32-bit word of a management command word; unassigned bits are 0 (R180). -/
def MgmtWord.toWord (c : MgmtWord) : Word :=
  pack [(0, 8, c.code.toNat), (8, 4, c.fields.port.toNat), (16, 4, c.fields.a.toNat), (20, 4, c.fields.b.toNat)]

/-- Four bytes as one word, most significant byte first (R172). -/
def joinBytes (b3 b2 b1 b0 : Byte) : Word := b3 ++ b2 ++ b1 ++ b0

/-- The bytes of a word, most significant byte first (R172, R173). -/
def bytesOf (w : Word) : List Byte :=
  [w.extractLsb' 24 8, w.extractLsb' 16 8, w.extractLsb' 8 8, w.extractLsb' 0 8]

/-- The agent command word of a 32-bit word (11.3). -/
def commandWordOf (w : Word) : CommandWord :=
  ⟨BitVec.ofNat 8 (bits w 0 8), ⟨BitVec.ofNat 4 (bits w 8 4), BitVec.ofNat 8 (bits w 16 8)⟩⟩

/-- The 32-bit word of an agent command word; unassigned bits are 0 (R180). -/
def CommandWord.toWord (c : CommandWord) : Word :=
  pack [(0, 8, c.code.toNat), (8, 4, c.fields.slot.toNat), (16, 8, c.fields.queue.toNat)]

/-- The slot field of a compose command, where it is not above 3 (R72). -/
def composeNo (f : CommandFields) : Option ComposeNo :=
  if h : f.slot.toNat < 4 then some ⟨f.slot.toNat, h⟩ else none

/-- The slot field of a receive command, where it is not above 1 (R98). -/
def receiveNo (f : CommandFields) : Option ReceiveNo :=
  if h : f.slot.toNat < 2 then some ⟨f.slot.toNat, h⟩ else none

/-- The queue field of a command, where it is not above 31. -/
def queueNo (f : CommandFields) : Option QueueNo :=
  if h : f.queue.toNat < 32 then some ⟨f.queue.toNat, h⟩ else none

/-! ### Codes of enumerated fields (chapter 11) -/

/-- 11.3, result codes. -/
def ResultCode.value : ResultCode → Nat
  | .ok => 0
  | .pending => 1
  | .empty => 2
  | .refusedState => 3
  | .refusedParam => 4
  | .refusedOwner => 5
  | .refusedDest => 6
  | .refusedFull => 7
  | .refusedNoDesc => 8
  | .refusedNoNode => 9
  | .refusedQuarantined => 10
  | .refusedFault => 11
  | .refusedBusy => 12

/-- 11.2, error record reasons. -/
def ErrorReason.value : ErrorReason → Nat
  | .misaligned => 1
  | .unmapped => 2
  | .stopped => 3
  | .fenced => 4
  | .readOnly => 5
  | .apertureRead => 6
  | .notFilling => 7
  | .length => 8
  | .apertureWrite => 9
  | .notHolding => 10
  | .abandoned => 11
  | .poisoned => 12
  | .link => 13

/-- 11.6, management access record reasons. -/
def MgmtReason.value : MgmtReason → Nat
  | .unmapped => 1
  | .readOnly => 2
  | .incomplete => 3

/-- 11.4, event kinds. -/
def EventKind.value : EventKind → Nat
  | .queueReady => 1
  | .queueClosed => 2
  | .queueQuarantined => 3
  | .sealDone => 4
  | .sealHeld => 5
  | .slotExpired => 6
  | .messagePoisoned => 7
  | .allocAvailable => 8
  | .poolLow => 9
  | .poolRecovered => 10
  | .portResetDone => 11
  | .exchangeRestarted => 12

/-- 11.2, exchange states. -/
def Exchange.value : Exchange → Nat
  | .init => 0
  | .running => 1
  | .stopped => 2
  | .restarting _ => 3

def PortState.tag : PortState → PortTag
  | .active => .active
  | .resetting _ => .resetting
  | .fenced => .fenced

/-- 11.2, port states. -/
def PortTag.value : PortTag → Nat
  | .active => 0
  | .resetting => 1
  | .fenced => 2

/-- 11.6, teardown origins. -/
def TeardownOrigin.value : TeardownOrigin → Nat
  | .portReset => 0
  | .resetPort => 1
  | .fencePort => 2
  | .escalation => 3

def TeardownEnd.value : TeardownEnd → Nat
  | .active => 0
  | .fenced => 1

/-- 11.2, descriptor states in receive status A, FETCH and REWIND. -/
def MessageState.value : MessageState → Nat
  | .filling => 1
  | .isSealed => 2
  | .abandoned => 3

/-- 11.3, queue states in QUERY_QUEUE. -/
def QueueTag.value : QueueTag → Nat
  | .closed => 0
  | .opened => 1
  | .draining => 2
  | .quarantined => 3

def QueueMode.value : QueueMode → Nat
  | .cut => 0
  | .store => 1

/-- 11.5. -/
def FaultClass.value : FaultClass → Nat
  | .payload => 0
  | .cellLink => 1
  | .freeLink => 2
  | .nodeContent => 3
  | .nodeLink => 4

/-- 11.5. -/
def MemoryName.value : MemoryName → Nat
  | .payloadBank0 => 0
  | .payloadBank1 => 1
  | .cellLink => 2
  | .node => 3

/-- The place of a memory name in the four counters (R14, 11.6). -/
def MemoryName.index : MemoryName → Fin 4
  | .payloadBank0 => 0
  | .payloadBank1 => 1
  | .cellLink => 2
  | .node => 3

/-- 11.5. -/
def BaseAction.value : BaseAction → Nat
  | .poison => 0
  | .quarantine => 1
  | .strand => 2
  | .truncate => 3

/-- 11.5. -/
def Escalation.value : Escalation → Nat
  | .none => 0
  | .fence => 1
  | .stop => 2

/-- 11.6, index 0x58. -/
def InjectTarget.value : InjectTarget → Nat
  | .payload => 0
  | .cellLink => 1
  | .node => 2

def InjectKind.value : InjectKind → Nat
  | .single => 0
  | .double => 1

/-- 11.6, index 0x59. -/
def WordKind.value : WordKind → Nat
  | .payload _ => 0
  | .link => 1
  | .content => 2

/-- The word position of a payload word; absent for a link or content word. -/
def WordKind.position : WordKind → Option (Fin 16)
  | .payload w => some w
  | .link => none
  | .content => none

end Sys2Proof.Machine
end

