-- ==== Sys2Proof/Machine/Flags.lean ====
section
/-!
DEFINITION. Every flag computation of the spec: the enables and flags of an event queue, INT_N, MINT_N and its conditions, the
correction tracking counters and their overflow flags, the threshold armed flag, the quota rule, the low-water state, and the
classification of an error report.
-/
namespace Sys2Proof.Machine

/-! ### Events and interrupts (R116 to R127) -/

/-- Whether a kind is enabled: bit k - 1 for kind k (11.2). -/
def EventPort.enabled (e : EventPort) (k : EventKind) : Bool := e.enables.getLsbD (k.value - 1)

/-- R116: an arrival is discarded as disabled, lost with the overflow flag set, or joins the tail. -/
def EventPort.arrive (e : EventPort) (x : EventEntry) : EventPort :=
  if !e.enabled x.kind then e
  else if Config.eventQueueSize ≤ e.queue.length then { e with overflow := true }
  else { e with queue := e.queue ++ [x] }

/-- The enable set that a write gives: PORT_RESET_DONE and EXCHANGE_RESTARTED stay enabled (R117). -/
def enablesOf (data : Word) : BitVec 12 := BitVec.ofNat 12 (bits data 0 12) ||| 0xC00

/-- INT_N[p] is asserted while the queue holds an entry and the interrupt enable is set (R123). -/
def EventPort.intAsserted (e : EventPort) : Bool := !e.queue.isEmpty && e.interrupt

/-- The first condition of MINT_N: the fault list holds a record (R126). -/
def State.faultCondition (s : State) : Bool := !s.integrity.faults.isEmpty

/-- The second condition of MINT_N, whatever its enables: an overflow flag is set (R126, R127). -/
def State.overflowCondition (s : State) : Bool :=
  s.integrity.tracking.q0.overflow || s.integrity.tracking.q1.overflow ||
  s.integrity.tracking.q2.overflow || s.integrity.tracking.q3.overflow

/-- The third condition of MINT_N: the exchange is STOPPED (R126). -/
def State.stoppedCondition (s : State) : Bool := decide (s.exchange = .stopped)

/-- MINT_N is asserted while a condition holds whose enable is set; the third always counts (R126). -/
def State.mintAsserted (s : State) : Bool :=
  (s.faultCondition && s.mint.fault) ||
  (s.integrity.tracking.q0.overflow && s.mint.overflow.q0) ||
  (s.integrity.tracking.q1.overflow && s.mint.overflow.q1) ||
  (s.integrity.tracking.q2.overflow && s.mint.overflow.q2) ||
  (s.integrity.tracking.q3.overflow && s.mint.overflow.q3) ||
  s.stoppedCondition

/-! ### Correction tracking (R14) -/

/-- One correction: below 255 the counter rises; at 255 the overflow flag is set. -/
def Tracking.count1 (t : Tracking) : Tracking :=
  if t.count < 255 then { t with count := t.count + 1 } else { t with overflow := true }

/-! ### Thresholds (R53, R54) -/

/-- Whether an append that left this depth sends QUEUE_READY. -/
def LiveQueue.ready (q : LiveQueue) : Bool := q.armed && decide (q.threshold ≤ q.depth)

/-- The threshold evaluation after an append: the flag is cleared when QUEUE_READY is sent. -/
def LiveQueue.afterAppend (q : LiveQueue) : LiveQueue := { q with armed := q.armed && !q.ready }

/-- The re-arm evaluation of an OPEN queue after its depth fell. -/
def LiveQueue.rearm (q : LiveQueue) : LiveQueue :=
  if q.phase = .opened ∧ q.depth < q.threshold then { q with armed := true } else q

/-- R54: the flag after a MODIFY_QUEUE: set below the new threshold, cleared at or above it. -/
def LiveQueue.afterModify (q : LiveQueue) : LiveQueue := { q with armed := decide (q.depth < q.threshold) }

/-- q is at its limit (R49). -/
def LiveQueue.atLimit (q : LiveQueue) : Bool := decide (q.depth = q.limit)

/-- The list without its head, where `x` is the head's link word: END empties it (R56, R57, R61, R62). -/
def LiveQueue.behead (q : LiveQueue) (x : NodeLink) : LiveQueue :=
  { q with head := x, tail := if x = none then none else q.tail, depth := q.depth - 1 }

/-! ### The quota rule (R32) -/

/-- The part of a reserve that its port has not filled. -/
def Share.outstanding (h : Share) : Nat := h.reserve - h.charged

/-- The outstanding reserves of the three ports other than `p`. -/
def othersOutstanding (shares : Quad Share) (p : Port) : Nat :=
  (if p = 0 then 0 else shares.q0.outstanding) + (if p = 1 then 0 else shares.q1.outstanding) +
  (if p = 2 then 0 else shares.q2.outstanding) + (if p = 3 then 0 else shares.q3.outstanding)

/-- Whether the quota rule grants a request from port `p` now. -/
def State.quotaGrants (s : State) (p : Port) : Bool :=
  s.pool.cellHead.isSome &&
  decide ((s.shares.get p).charged < (s.shares.get p).limit) &&
  (decide ((s.shares.get p).charged < (s.shares.get p).reserve) ||
    decide (othersOutstanding s.shares p < s.pool.freeCells))

/-! ### Integrity (R128, R131) -/

/-- R128: the class of a report, by its access and its word. -/
def ErrorReport.cls (r : ErrorReport) : FaultClass :=
  match r.access with
  | .payloadRead => .payload
  | .chainAdvance => .cellLink
  | .headRead => .freeLink
  | .freeNodeTake => .nodeLink
  | .fetch | .drain =>
    match r.word with
    | .content => .nodeContent
    | .link | .payload _ => .nodeLink

/-- The policy entry of a class. -/
def Policy.of (t : Policy) : FaultClass → Escalation
  | .payload => t.payload
  | .cellLink => t.cellLink
  | .freeLink => t.freeLink
  | .nodeContent => t.nodeContent
  | .nodeLink => t.nodeLink

/-- The policy table with one entry replaced (R132). -/
def Policy.put (t : Policy) (c : FaultClass) (e : Escalation) : Policy :=
  match c with
  | .payload => { t with payload := e }
  | .cellLink => { t with cellLink := e }
  | .freeLink => { t with freeLink := e }
  | .nodeContent => { t with nodeContent := e }
  | .nodeLink => { t with nodeLink := e }

/-- The name of the memory that holds a payload word of cell `c` (R1). -/
def bankOf (c : CellNo) : MemoryName := if c.val % 2 = 0 then .payloadBank0 else .payloadBank1

end Sys2Proof.Machine
end

