-- ==== Sys2Proof/Machine/Ops.lean ====
section
/-!
DEFINITION. The named operations over the state that several blocks share: accessors, the accesses to the word arrays with
their checking, correction and injection (R4 to R16), the sending of events (R116), the handling of error reports (R128 to
R137), and the requests on exchange and port states (R149 to R152).
-/
namespace Sys2Proof.Machine

namespace State

/-! ### Accessors: one home for each record -/

def port (s : State) (p : Port) : PortState := s.ports.get p

@[simps] def setPort (s : State) (p : Port) (x : PortState) : State := { s with ports := s.ports.set p x }

def front (s : State) (p : Port) : FrontEnd := s.fronts.get p

@[simps] def setFront (s : State) (p : Port) (x : FrontEnd) : State := { s with fronts := s.fronts.set p x }

def composeSlot (s : State) (p : Port) (c : ComposeNo) : ComposeSlot := (s.compose.get p).get c

@[simps] def setComposeSlot (s : State) (p : Port) (c : ComposeNo) (x : ComposeSlot) : State :=
  { s with compose := s.compose.set p ((s.compose.get p).set c x) }

def receiveSlot (s : State) (p : Port) (r : ReceiveNo) : ReceiveSlot := (s.receive.get p).get r

@[simps] def setReceiveSlot (s : State) (p : Port) (r : ReceiveNo) (x : ReceiveSlot) : State :=
  { s with receive := s.receive.set p ((s.receive.get p).set r x) }

def event (s : State) (p : Port) : EventPort := s.events.get p

@[simps] def setEvent (s : State) (p : Port) (x : EventPort) : State := { s with events := s.events.set p x }

def share (s : State) (p : Port) : Share := s.shares.get p

@[simps] def setShare (s : State) (p : Port) (x : Share) : State := { s with shares := s.shares.set p x }

def desc (s : State) (d : DescNo) : Descriptor := Memory.get descDefault s.descriptors d.val

@[simps] def setDesc (s : State) (d : DescNo) (x : Descriptor) : State :=
  { s with descriptors := Memory.set descDefault s.descriptors d.val x }

/-- The message that a non-FREE descriptor holds. -/
def message (s : State) (d : DescNo) : Option Message :=
  match s.desc d with
  | .free => none
  | .live m => some m

/-- The message of a descriptor that one of its holders names. A holder's descriptor is never FREE (R21), so the blank record
stands only in states that no run reaches (log 22). -/
def messageOf (s : State) (d : DescNo) : Message := (s.message d).getD .blank

/-- Change the fields of a non-FREE descriptor (R20); a FREE one stays FREE. -/
def updMessage (s : State) (d : DescNo) (f : Message → Message) : State :=
  match s.desc d with
  | .free => s
  | .live m => s.setDesc d (.live (f m))

def queue (s : State) (q : QueueNo) : Queue := Memory.get queueDefault s.queues q.val

@[simps] def setQueue (s : State) (q : QueueNo) (x : Queue) : State :=
  { s with queues := Memory.set queueDefault s.queues q.val x }

@[simps] def setPool (s : State) (x : Pool) : State := { s with pool := x }

@[simps] def setIntegrity (s : State) (x : Integrity) : State := { s with integrity := x }

@[simps] def setMgmt (s : State) (x : Mgmt) : State := { s with mgmt := x }

/-! ### The word arrays: plain storage, used by write-backs and by the writes below -/

def payloadWord (s : State) (c : CellNo) (w : Fin 16) : Stored Word :=
  Memory.get payloadDefault s.payload (payloadAddress c w.val)

def cellLinkWord (s : State) (c : CellNo) : Stored CellLink := Memory.get cellLinkDefault s.cellLinks c.val

def contentWord (s : State) (n : NodeNo) : Stored DescNo := Memory.get contentDefault s.nodeContents n.val

def nodeLinkWord (s : State) (n : NodeNo) : Stored NodeLink := Memory.get nodeLinkDefault s.nodeLinks n.val

@[simps] def putPayload (s : State) (c : CellNo) (w : Fin 16) (x : Stored Word) : State :=
  { s with payload := Memory.set payloadDefault s.payload (payloadAddress c w.val) x }

@[simps] def putCellLink (s : State) (c : CellNo) (x : Stored CellLink) : State :=
  { s with cellLinks := Memory.set cellLinkDefault s.cellLinks c.val x }

@[simps] def putContent (s : State) (n : NodeNo) (x : Stored DescNo) : State :=
  { s with nodeContents := Memory.set contentDefault s.nodeContents n.val x }

@[simps] def putNodeLink (s : State) (n : NodeNo) (x : Stored NodeLink) : State :=
  { s with nodeLinks := Memory.set nodeLinkDefault s.nodeLinks n.val x }

/-! ### Events (R116) -/

/-- One arrival at port p's event queue. -/
def sendEvent (s : State) (p : Port) (x : EventEntry) : State := s.setEvent p ((s.event p).arrive x)

/-- An entry sent to all four ports is four arrivals, each decided on its own (R116). -/
def sendAll (s : State) (x : EventEntry) : State :=
  (((s.sendEvent 0 x).sendEvent 1 x).sendEvent 2 x).sendEvent 3 x

/-! ### Corrections (R11, R14) -/

def tracking (s : State) (m : MemoryName) : Tracking := s.integrity.tracking.get m.index

/-- A correction reported for a memory. -/
def countCorrection (s : State) (m : MemoryName) : State :=
  s.setIntegrity { s.integrity with
    tracking := s.integrity.tracking.set m.index (s.tracking m).count1 }

/-! ### Error reports (R128, R130, R135 to R137) -/

/-- The fault record of a report, with the escalation that the policy gives when it is made (R135). -/
def faultRecord (s : State) (r : ErrorReport) (base : BaseAction) : FaultRecord where
  sequence := s.integrity.nextSequence
  cls := r.cls
  memory := r.memory
  index := r.index
  port := r.port
  queue := r.queue
  desc := r.desc
  position := r.word.position
  base := base
  escalation := s.integrity.policy.of r.cls

/-- Steps 1 and 2 of R130: the report is classified and numbered, its record is offered to the fault list, and its step 3 waits for the
completion of the request that made it (`completeRequest`). -/
def report (s : State) (r : ErrorReport) (base : BaseAction) : State :=
  let i := s.integrity
  let room := decide (i.faults.length < Config.faultListSize)
  s.setIntegrity { i with
    nextSequence := i.nextSequence + 1
    faults := if room then i.faults ++ [s.faultRecord r base] else i.faults
    full := i.full || !room
    waiting := i.waiting ++ [⟨.completed, [⟨r.cls, r.port, if room then some i.faults.length else none⟩]⟩] }

end State

/-! ### Step 3 of R130: the escalation (R131, R132, R135, R141; log 10) -/

/-- The record of a report, where the fault list still holds it, shows the escalation applied (R135). -/
def Waiting.settle (w : Waiting) (e : Escalation) (fs : List FaultRecord) : List FaultRecord :=
  match w.record with
  | none => fs
  | some k => fs.modify k fun r => { r with escalation := e }

/-- The oldest record has left the fault list: the other records move up, and a report whose record it was changes none (R138). -/
def Waiting.acknowledge (w : Waiting) : Waiting :=
  { w with record := match w.record with | some (k + 1) => some k | some 0 | none => none }

/-- Step 3 of the first reports of a request, as long as their class gives NONE, which asks for nothing: the reports left, and the
fault list. -/
def passReports (table : Policy) : List Waiting → List FaultRecord → List Waiting × List FaultRecord
  | [], fs => ([], fs)
  | w :: ws, fs => if table.of w.cls = .none then passReports table ws (w.settle .none fs) else (w :: ws, fs)

/-- The request with the reports that it has left, if any. -/
def remaining (stage : RequestStage) (ws : List Waiting) : List ReportingRequest :=
  match ws with
  | [] => []
  | _ :: _ => [⟨stage, ws⟩]

/-- Step 3, under a new table, of the reports of completed requests that now give NONE. -/
def passRequests (table : Policy) :
    List ReportingRequest → List FaultRecord → List ReportingRequest × List FaultRecord
  | [], fs => ([], fs)
  | g :: gs, fs =>
    match g.stage with
    | .inProgress _ => (g :: (passRequests table gs fs).1, (passRequests table gs fs).2)
    | .completed | .escalating =>
      let x := passReports table g.reports fs
      let y := passRequests table gs x.2
      (remaining g.stage x.1 ++ y.1, y.2)

/-- The report of a request whose step 3 comes next; a request in progress has none (R130). -/
def ReportingRequest.next (g : ReportingRequest) : Option Waiting :=
  match g.stage with
  | .inProgress _ => none
  | .completed | .escalating => g.reports.head?

/-- Step 3 of the first request whose next report gives `e` (FENCE or STOP), and of the reports of that request behind it that give
NONE: the report escalated, the requests left, and the fault list. -/
def escalate (table : Policy) (e : Escalation) :
    List ReportingRequest → List FaultRecord → Option (Waiting × List ReportingRequest × List FaultRecord)
  | [], _ => none
  | g :: gs, fs =>
    let later := (escalate table e gs fs).map fun x => (x.1, g :: x.2.1, x.2.2)
    match g.next with
    | none => later
    | some w =>
      if table.of w.cls = e then
        let x := passReports table g.reports.tail (w.settle e fs)
        some (w, remaining .escalating x.1 ++ gs, x.2)
      else later

/-- The reports of the requests from the `n`-th on, which are those of one request (R141). -/
def Integrity.reportsFrom (i : Integrity) (n : Nat) : List Waiting := (i.waiting.drop n).flatMap (·.reports)

/-- The request whose reports are those from the `n`-th on has completed: its reports that give NONE make their step 3. -/
def Integrity.complete (i : Integrity) (n : Nat) : Integrity :=
  let x := passReports i.policy (i.reportsFrom n) i.faults
  { i with waiting := i.waiting.take n ++ remaining .completed x.1, faults := x.2 }

/-- The request whose reports are those from the `n`-th on, a BEGIN of port p, stands between its link requests. -/
def Integrity.suspend (i : Integrity) (p : Port) (n : Nat) : Integrity :=
  { i with waiting := i.waiting.take n ++ remaining (.inProgress p) (i.reportsFrom n) }

/-- The requests other than a BEGIN of port p in progress. -/
def Integrity.others (i : Integrity) (p : Port) : List ReportingRequest :=
  i.waiting.filter fun g => decide (g.stage ≠ .inProgress p)

/-- The BEGIN of port p goes on: its reports stand last. -/
def Integrity.resume (i : Integrity) (p : Port) : Integrity :=
  { i with waiting := i.others p ++ i.waiting.filter fun g => decide (g.stage = .inProgress p) }

/-- Step 3 of every report that waits. -/
def Integrity.settleAll (i : Integrity) : Integrity :=
  { i with
    waiting := []
    faults := (i.reportsFrom 0).foldl (fun fs w => w.settle (i.policy.of w.cls) fs) i.faults }

namespace State

/-- The completion of the request that made the reports from the `n`-th reporting request on (R130, R141). -/
def completeRequest (s : State) (n : Nat) : State := s.setIntegrity (s.integrity.complete n)

/-- The number of requests with reports that wait. -/
def requests (s : State) : Nat := s.integrity.waiting.length

end State

namespace State

/-! ### Reads (R5, R7, R8, R10 to R12): the value, or `none` for an uncorrectable word -/

/-- A correctable word is written back clean and counted; a clean word and an uncorrectable one stay as stored. -/
def readPayload (s : State) (c : CellNo) (w : Fin 16) : State × Option Word :=
  match (s.payloadWord c w).check with
  | .clean v => (s, some v)
  | .corrected v => ((s.putPayload c w ⟨v, []⟩).countCorrection (bankOf c), some v)
  | .uncorrectable => (s, none)

def readCellLink (s : State) (c : CellNo) : State × Option CellLink :=
  match (s.cellLinkWord c).check with
  | .clean v => (s, some v)
  | .corrected v => ((s.putCellLink c ⟨v, []⟩).countCorrection .cellLink, some v)
  | .uncorrectable => (s, none)

def readContent (s : State) (n : NodeNo) : State × Option DescNo :=
  match (s.contentWord n).check with
  | .clean v => (s, some v)
  | .corrected v => ((s.putContent n ⟨v, []⟩).countCorrection .node, some v)
  | .uncorrectable => (s, none)

def readNodeLink (s : State) (n : NodeNo) : State × Option NodeLink :=
  match (s.nodeLinkWord n).check with
  | .clean v => (s, some v)
  | .corrected v => ((s.putNodeLink n ⟨v, []⟩).countCorrection .node, some v)
  | .uncorrectable => (s, none)

/-! ### Writes (R4, R6, R8) and the injection arm (R16) -/

/-- The positions that an injection inverts: value bit 0, or value bits 0 and 1 (R15). -/
def invertedBits : InjectKind → List Nat
  | .single => [0]
  | .double => [0, 1]

/-- The inverted positions that a write to `target` stores: none, or those of the arm where it is set for that memory. -/
def armBits (s : State) (target : InjectTarget) : List Nat :=
  match s.arm with
  | some a => if a.target = target then invertedBits a.kind else []
  | none => []

/-- A write to `target` takes the arm where it is set for that memory: the arm is disarmed and the location recorded. -/
def takeArm (s : State) (target : InjectTarget) (memory : MemoryName) (word : WordKind) (index : Nat) : State :=
  match s.arm with
  | some a =>
    if a.target = target then { s with arm := none, lastInjection := some ⟨memory, word, index, a.kind⟩ } else s
  | none => s

def writePayload (s : State) (c : CellNo) (w : Fin 16) (v : Word) : State :=
  (s.takeArm .payload (bankOf c) (.payload w) c.val).putPayload c w ⟨v, s.armBits .payload⟩

def writeCellLink (s : State) (c : CellNo) (v : CellLink) : State :=
  (s.takeArm .cellLink .cellLink .link c.val).putCellLink c ⟨v, s.armBits .cellLink⟩

def writeContent (s : State) (n : NodeNo) (v : DescNo) : State :=
  (s.takeArm .node .node .content n.val).putContent n ⟨v, s.armBits .node⟩

def writeNodeLink (s : State) (n : NodeNo) (v : NodeLink) : State :=
  (s.takeArm .node .node .link n.val).putNodeLink n ⟨v, s.armBits .node⟩

/-! ### Exchange and port states (R145, R149 to R152) -/

/-- R152: the start of a teardown: RESETTING with step 1, and the port's starvation episode closes without an event (R34).
The timers of its slots stop because UNIT_BOUNDARY and TIMER_EXPIRY ask for an ACTIVE port. -/
def startTeardown (s : State) (p : Port) (origin : TeardownOrigin) (endState : TeardownEnd) : State :=
  (s.setShare p { s.share p with starving := false }).setPort p
    (.resetting ⟨origin, endState, 1, none, 0, false⟩)

/-- A request to end port p FENCED, from FENCE_PORT or an escalation, by p's state in a RUNNING exchange (R133, R150). -/
def fenceBy (s : State) (p : Port) (origin : TeardownOrigin) : State :=
  match s.port p with
  | .active => s.startTeardown p origin .fenced
  | .resetting t => s.setPort p (.resetting { t with endState := .fenced })
  | .fenced => s

/-- R150, third column: a fence request taken in a state other than RUNNING changes nothing. -/
def fenceRequested (s : State) (p : Port) : State :=
  match s.exchange with
  | .running => s.fenceBy p .escalation
  | .init | .stopped | .restarting _ => s

/-- R149: a stop request taken in RUNNING makes the exchange STOPPED, discards every teardown record and makes every port
FENCED; in another state it changes nothing. -/
def stopRequested (s : State) : State :=
  match s.exchange with
  | .running => { s with exchange := .stopped, ports := .all .fenced }
  | .init | .stopped | .restarting _ => s

end State

end Sys2Proof.Machine
end

