-- ==== Sys2Proof/Machine/Pool.lean ====
section
/-!
DEFINITION. The Pool Manager's shared operations (chapter 2): grants and their refusal, truncation, splices, the freeing of a
descriptor, the starvation, low-water and recovery evaluations, the node free list, the descriptor FIFO, and the rebuild.
-/
namespace Sys2Proof.Machine

/-! ### Messages (R22, R25) -/

/-- Step 4 of R25. -/
def Message.addCell (h : CellNo) (m : Message) : Message :=
  { m with first := if m.cells = 0 then some h else m.first, last := some h, cells := m.cells + 1 }

/-- The chain of a message that goes back to the free list when it is freed: absent for a message without cells and for one
marked link broken (R22 step 1). -/
def Message.chain (m : Message) : Option (CellNo × CellNo) :=
  if m.cells = 0 ∨ m.linkBroken then none
  else
    match m.first, m.last with
    | some c1, some cn => some (c1, cn)
    | _, _ => none

namespace State

/-! ### Pool events (R34, R37) -/

/-- A pool entry: no tag, and the free cell count capped at 255 as its detail. -/
def poolEntry (s : State) (kind : EventKind) (subject : Option Nat) : EventEntry :=
  ⟨kind, subject, none, cap255 s.pool.freeCells⟩

/-- R37, after every grant: an ARMED state below the low-water mark trips and POOL_LOW goes to all four ports. -/
def lowWaterEvaluation (s : State) : State :=
  if s.pool.lowWater = .armed ∧ s.pool.freeCells < s.pool.lowMark then
    (s.setPool { s.pool with lowWater := .tripped }).sendAll (s.poolEntry .poolLow none)
  else s

/-- R37, after every splice: a TRIPPED state at or above the recover mark re-arms and POOL_RECOVERED goes to all four. -/
def recoveryEvaluation (s : State) : State :=
  if s.pool.lowWater = .tripped ∧ s.pool.recoverMark ≤ s.pool.freeCells then
    (s.setPool { s.pool with lowWater := .armed }).sendAll (s.poolEntry .poolRecovered none)
  else s

/-- R34, at a splice, for one port: an open episode whose request R32 would grant now closes, and ALLOC_AVAILABLE is sent. -/
def starvationEvaluation (s : State) (p : Port) : State :=
  if (s.share p).starving ∧ s.quotaGrants p then
    (s.setShare p { s.share p with starving := false }).sendEvent p
      (s.poolEntry .allocAvailable ((s.share p).refusedSlot.map (·.val)))
  else s

/-- R34: every port is evaluated against the same counts; closing an episode changes none of them. -/
def starvationEvaluations (s : State) : State :=
  (((s.starvationEvaluation 0).starvationEvaluation 1).starvationEvaluation 2).starvationEvaluation 3

/-! ### Grants (R25 to R27) -/

/-- Step 1 of R25 for head cell `h`: the head read gives the new head; an uncorrectable read truncates the list at `h` and
strands the cells after it (R27). The free count falls by 1, or becomes 0 at a truncation. -/
def takeHeadCell (s : State) (p : Port) (h : CellNo) : State :=
  match s.readCellLink h with
  | (s1, some x) =>
    s1.setPool { s1.pool with
      cellHead := x
      cellTail := if x = none then none else s1.pool.cellTail
      freeCells := s1.pool.freeCells - 1 }
  | (s1, none) =>
    (s1.setPool { s1.pool with
      cellHead := none
      cellTail := none
      freeCells := 0
      strandedCells := s1.pool.strandedCells + (s1.pool.freeCells - 1) }).report
      ⟨.cellLink, .link, h.val, .headRead, p, none, none⟩ .truncate

/-- A granted request (R25, R27): the head cell `h` goes to descriptor `d` of port `p`. -/
def grantCell (s : State) (p : Port) (d : DescNo) (h : CellNo) : State :=
  let s1 := (s.takeHeadCell p h).writeCellLink h none
  let s2 := s1.setShare p { s1.share p with charged := (s1.share p).charged + 1, starving := false }
  (s2.updMessage d (Message.addCell h)).lowWaterEvaluation

/-- A refused request (R26): the counter rises, unless it holds 65,535, and the episode opens with this slot recorded. -/
def refuseGrant (s : State) (p : Port) (c : ComposeNo) : State :=
  s.setShare p { s.share p with
    refused := min 65535 ((s.share p).refused + 1)
    starving := true
    refusedSlot := some c }

/-! ### Splices and the freeing of descriptors (R22, R28) -/

/-- R28: the chain from `c1` to `cn` of `k` cells joins the tail of the cell free list. -/
def splice (s : State) (c1 cn : CellNo) (k : Nat) : State :=
  match s.pool.cellTail with
  | some t =>
    let s1 := s.writeCellLink t (some c1)
    s1.setPool { s1.pool with cellTail := some cn, freeCells := s1.pool.freeCells + k }
  | none =>
    s.setPool { s.pool with cellHead := some c1, cellTail := some cn, freeCells := s.pool.freeCells + k }

/-- R22 step 1: the chain is spliced, or its cells are added to the stranded count. -/
def returnCells (s : State) (m : Message) : State :=
  match m.chain with
  | some (c1, cn) => s.splice c1 cn m.cells
  | none => s.setPool { s.pool with strandedCells := s.pool.strandedCells + m.cells }

/-- R22: the steps that free descriptor `d`, which holds message `m`. -/
def freeDescriptor (s : State) (d : DescNo) (m : Message) : State :=
  let s1 := s.returnCells m
  let s2 := s1.setShare m.port { s1.share m.port with charged := (s1.share m.port).charged - m.cells }
  let s3 := s2.setDesc d .free
  let s4 := s3.setPool { s3.pool with fifo := s3.pool.fifo ++ [d] }
  match m.chain with
  | some _ => s4.starvationEvaluations.recoveryEvaluation
  | none => s4

/-- A decrement of the holder count of `d`; the one that brings it to 0 frees `d` within the same request (R21, R22). -/
def dropHolder (s : State) (d : DescNo) : State :=
  match s.message d with
  | none => s
  | some m =>
    if m.holders = 0 then s
    else if m.holders = 1 then s.freeDescriptor d m
    else s.setDesc d (.live { m with holders := m.holders - 1 })

/-- The holder count of a descriptor, 0 when it is FREE (R18). -/
def holders (s : State) (d : DescNo) : Nat :=
  match s.message d with
  | none => 0
  | some m => m.holders

/-! ### The node free list (R29, R30) -/

/-- The return access of R8: node `n` joins the tail of the node free list. -/
def returnNode (s : State) (n : NodeNo) : State :=
  let s1 := s.writeNodeLink n none
  match s.pool.nodeTail with
  | some t =>
    let s2 := s1.writeNodeLink t (some n)
    s2.setPool { s2.pool with nodeTail := some n, freeNodes := s2.pool.freeNodes + 1 }
  | none =>
    s1.setPool { s1.pool with nodeHead := some n, nodeTail := some n, freeNodes := s1.pool.freeNodes + 1 }

def returnNodes (s : State) : List NodeNo → State
  | [] => s
  | n :: ns => (s.returnNode n).returnNodes ns

/-- One take of R29 from head `n`: the link read gives the new head; an uncorrectable read truncates the list at `n` and
strands the nodes after it (R30). -/
def takeHeadNode (s : State) (p : Port) (n : NodeNo) : State :=
  match s.readNodeLink n with
  | (s1, some x) =>
    s1.setPool { s1.pool with
      nodeHead := x
      nodeTail := if x = none then none else s1.pool.nodeTail
      freeNodes := s1.pool.freeNodes - 1 }
  | (s1, none) =>
    (s1.setPool { s1.pool with
      nodeHead := none
      nodeTail := none
      freeNodes := 0
      strandedNodes := s1.pool.strandedNodes + (s1.pool.freeNodes - 1) }).report
      ⟨.node, .link, n.val, .freeNodeTake, p, none, none⟩ .truncate

/-- The takes of one allocation request, `k` still to make: the nodes taken in order, and whether all could be taken. -/
def takeNodes (p : Port) : Nat → State → List NodeNo → State × List NodeNo × Bool
  | 0, s, acc => (s, acc, true)
  | k + 1, s, acc =>
    match s.pool.nodeHead with
    | none => (s, acc, false)
    | some n => takeNodes p k (s.takeHeadNode p n) (acc ++ [n])

/-- One allocation request for `k` nodes, for which enough free nodes were counted. If a truncation leaves too few, every
node taken is returned in the order taken and the request is refused (R30). -/
def allocateNodes (s : State) (p : Port) (k : Nat) : State × Option (List NodeNo) :=
  match takeNodes p k s [] with
  | (s1, ns, true) => (s1, some ns)
  | (s1, ns, false) => (s1.returnNodes ns, none)

/-! ### The rebuild (R17, R41) -/

/-- Every link word of both memories gets its rebuilt value with fresh check bits; no word is read, the arm is not taken
(R16, R17), and no content or payload word is written. -/
def rebuildLinks (s : State) : State := { s with cellLinks := [], nodeLinks := [] }

/-- The Pool Manager's items that both rebuilds set (R41): the table, the FIFO, the free lists, the stranded and charged
counts, the episodes and the low-water state. The marks, the partition and the refused counters stay. -/
def rebuildPool (s : State) : State :=
  { s with
    descriptors := []
    pool := { Pool.reset with lowMark := s.pool.lowMark, recoverMark := s.pool.recoverMark }
    shares := s.shares.map fun h => { h with charged := 0, starving := false, refusedSlot := none } }

end State

end Sys2Proof.Machine
end

