-- ==== Sys2Proof/Machine/Links.lean ====
section
/-!
DEFINITION. The Queue Engine's shared operations (chapter 3): admission, appends, the reads of a head node, quarantine, and the
close of a queue; and the seal and abandon of a compose slot (R85 to R87, R91), which link requests and teardowns share.
-/
namespace Sys2Proof.Machine

/-- A queue event: the queue number as subject, no tag, a count capped at 255 (R69). -/
def queueEntry (kind : EventKind) (q : QueueNo) (count : Nat) : EventEntry := ⟨kind, some q.val, none, cap255 count⟩

/-! ### Destination lists (R18, R85, R87) and the queue record of an append (R51) -/

/-- The queue record after node `n` is appended, before the threshold evaluation. -/
def LiveQueue.append (lq : LiveQueue) (n : NodeNo) : LiveQueue :=
  { lq with head := if lq.depth = 0 then some n else lq.head, tail := some n, depth := lq.depth + 1 }

/-- The disposition of one destination replaced. -/
def Message.dispose (q : QueueNo) (x : Disposition) (m : Message) : Message :=
  { m with dests := m.dests.map fun t => if t.queue = q then { t with disposition := x } else t }

/-- Step 5 of R51 at the descriptor. -/
def Message.link (q : QueueNo) (m : Message) : Message :=
  { Message.dispose q .linked m with holders := m.holders + 1 }

/-- The PENDING destinations, with their positions in the destination list. -/
def Message.pendingDests (m : Message) : List (Nat × QueueNo) :=
  (m.dests.zipIdx.filter fun t => t.1.disposition = .pending).map fun t => (t.2, t.1.queue)

def Message.countDests (m : Message) (x : Disposition) : Nat := (m.dests.filter fun t => t.disposition = x).length

/-- The number of destinations LINKED, and of those dropped (R87). -/
def Message.linkedCount (m : Message) : Nat := m.countDests .linked

def Message.droppedCount (m : Message) : Nat := m.countDests .droppedFull + m.countDests .droppedClosed

namespace State

/-! ### Admission (R49) -/

/-- The record of a destination that admits port `p`: OPEN with `p` in its producer mask. -/
def admitted (s : State) (p : Port) (q : QueueNo) : Option LiveQueue :=
  match s.queue q with
  | .closed => none
  | .live lq => if lq.phase = .opened ∧ lq.mask.getLsbD p.val = true then some lq else none

/-! ### Appends (R51, R53) -/

/-- Step 1 of R51: the content word, the node's link word, then the old tail's link word. -/
def appendWords (s : State) (n : NodeNo) (d : DescNo) (lq : LiveQueue) : State :=
  let s1 := (s.writeContent n d).writeNodeLink n none
  if lq.depth = 0 then s1
  else
    match lq.tail with
    | some t => s1.writeNodeLink t (some n)
    | none => s1

/-- R51: node `n`, naming `d`, joins the tail of queue `q`, whose record is `lq`; the threshold evaluation may send
QUEUE_READY to the consumer. -/
def appendNode (s : State) (n : NodeNo) (d : DescNo) (q : QueueNo) (lq : LiveQueue) : State :=
  let after := lq.append n
  let s1 := ((s.appendWords n d lq).setQueue q (.live after.afterAppend)).updMessage d (Message.link q)
  if after.ready then s1.sendEvent after.consumer (queueEntry .queueReady q after.depth) else s1

/-- The appends of one link request, in destination-list order: the first node taken goes to the first destination (R50). -/
def appendAll (s : State) (d : DescNo) : List QueueNo → List NodeNo → State
  | q :: qs, n :: ns =>
    match s.queue q with
    | .live lq => (s.appendNode n d q lq).appendAll d qs ns
    | .closed => s.appendAll d qs ns
  | _, _ => s

/-! ### Reading a head node (R8, R55, R61) -/

/-- The head node of a queue. Where the record holds none though its depth is not 0, which R56 says does not arise, the node
is a free value (log 8). -/
def headNode (s : State) (lq : LiveQueue) : State × NodeNo :=
  match lq.head with
  | some h => (s, h)
  | none => ({ s with fresh := s.fresh + 1 }, Config.freeNode s.fresh)

/-- Both words of a node are read, content first; if the content is uncorrectable, the link is still read (R8). -/
def readNode (s : State) (n : NodeNo) : State × Option DescNo × Option NodeLink :=
  match s.readContent n with
  | (s1, c) =>
    match s1.readNodeLink n with
    | (s2, l) => (s2, c, l)

/-- The report of an uncorrectable content word of node `n` (R57, R62), with the base action that its link word decides
(R135, R141). -/
def reportContent (s : State) (n : NodeNo) (a : ReadAccess) (p : Port) (q : QueueNo) (base : BaseAction) : State :=
  s.report ⟨.node, .content, n.val, a, p, some q, none⟩ base

/-- The report of an uncorrectable link word of node `n` (R58, R63). -/
def reportLink (s : State) (n : NodeNo) (a : ReadAccess) (p : Port) (q : QueueNo) : State :=
  s.report ⟨.node, .link, n.val, a, p, some q, none⟩ .quarantine

/-- The reports of a node whose link word is uncorrectable: where the content is too, the CONTENT report first and the LINK report
after it (R12, R141). -/
def reportBroken (s : State) (n : NodeNo) (content : Option DescNo) (a : ReadAccess) (p : Port) (q : QueueNo) : State :=
  match content with
  | none => (s.reportContent n a p q .quarantine).reportLink n a p q
  | some _ => s.reportLink n a p q

/-- Nodes added to the stranded count (R36). -/
def strandNodes (s : State) (k : Nat) : State :=
  s.setPool { s.pool with strandedNodes := s.pool.strandedNodes + k }

/-- R58: the queue becomes QUARANTINED, keeping depth, head and tail, and QUEUE_QUARANTINED goes to the consumer. -/
def quarantine (s : State) (q : QueueNo) (lq : LiveQueue) : State :=
  (s.setQueue q (.live { lq with phase := .quarantined })).sendEvent lq.consumer
    (queueEntry .queueQuarantined q lq.depth)

/-! ### Closing a queue (R60, R64, R68) -/

/-- The record becomes CLOSED and QUEUE_CLOSED goes to the consumer with the nodes stranded by the close. -/
def closeRecord (s : State) (q : QueueNo) (consumer : Port) (stranded : Nat) : State :=
  (s.setQueue q .closed).sendEvent consumer (queueEntry .queueClosed q stranded)

/-- R64: a completed close is reported to the consumer's command unit where that is still BUSY with it. -/
def completeCommand (s : State) (p : Port) (q : QueueNo) (drained stranded : Nat) : State :=
  if (s.front p).unit = .closing q then
    s.setFront p { s.front p with unit := .idle, result0 := .ok, result1 := .close drained stranded }
  else s

/-- R64, R153: a completed teardown close is reported to the Exchange Controller, which takes the report in
TEARDOWN_CLOSE_COMPLETE. -/
def completeTeardown (s : State) (p : Port) (q : QueueNo) : State :=
  match s.port p with
  | .resetting t => if t.queue = some q then s.setPort p (.resetting { t with reported := true }) else s
  | .active | .fenced => s

/-- R64: the close that a drain ends. -/
def finishClose (s : State) (q : QueueNo) (consumer : Port) (c : CloseRecord) : State :=
  let s1 := s.closeRecord q consumer c.stranded
  let s2 := if c.agent then s1.completeCommand consumer q c.drained c.stranded else s1
  if c.teardown then s2.completeTeardown c.owner q else s2

/-- R68, R60: a QUARANTINED queue closes at once with its depth stranded; an OPEN queue of depth 0 closes with nothing
drained. -/
def closeAtOnce (s : State) (q : QueueNo) (lq : LiveQueue) : State :=
  match lq.phase with
  | .quarantined => (s.strandNodes lq.depth).closeRecord q lq.consumer lq.depth
  | .opened | .draining _ => s.closeRecord q lq.consumer 0

/-! ### The seal (R85 to R87) -/

/-- The pending destinations that admit the port, with their records. -/
def admittedDests (s : State) (p : Port) (ds : List (Nat × QueueNo)) : List (Nat × QueueNo × LiveQueue) :=
  ds.filterMap fun t => (s.admitted p t.2).map fun lq => (t.1, t.2, lq)

/-- The pending destinations that do not admit the port (R85 step 1). -/
def closedDests (s : State) (p : Port) (ds : List (Nat × QueueNo)) : List QueueNo :=
  (ds.filter fun t => (s.admitted p t.2).isNone).map (·.2)

/-- The position of the first REFUSE destination at its limit (R85 step 2). -/
def fullPosition (ds : List (Nat × QueueNo × LiveQueue)) : Option Nat :=
  (ds.find? fun t => decide (t.2.2.policy = .refuse) && t.2.2.atLimit).map (·.1)

/-- The destinations that receive a node: those below their limit. -/
def roomDests (ds : List (Nat × QueueNo × LiveQueue)) : List QueueNo :=
  (ds.filter fun t => !t.2.2.atLimit).map (·.2.1)

/-- The destinations that a successful request drops as full: those at their limit, whose policy is SKIP. -/
def fullDests (ds : List (Nat × QueueNo × LiveQueue)) : List QueueNo :=
  (ds.filter fun t => t.2.2.atLimit).map (·.2.1)

/-- Each queue of a list takes a disposition in the message's destination list. -/
def disposeAll (s : State) (d : DescNo) (x : Disposition) : List QueueNo → State
  | [] => s
  | q :: qs => (s.updMessage d (Message.dispose q x)).disposeAll d x qs

/-- The examination of R85: a refusal with its code and failing position, or the appended and dropped destinations. -/
inductive Examination where
  | refused (code : ResultCode) (failing : Option Nat)
  | passed
  deriving DecidableEq, Repr

/-- The result code that an examination stands for. -/
def Examination.code : Examination → ResultCode
  | .refused code _ => code
  | .passed => .ok

/-- The position of the destination on which a seal was refused. -/
def Examination.failing : Examination → Option Nat
  | .refused _ failing => failing
  | .passed => none

/-- R85, with the dispositions of R87 step 1: what the link request of a seal does. -/
def examine (s : State) (p : Port) (d : DescNo) (m : Message) : State × Examination :=
  let ds := m.pendingDests
  let adm := s.admittedDests p ds
  match fullPosition adm with
  | some pos => (s, .refused .refusedFull (some pos))
  | none =>
    let room := roomDests adm
    if s.pool.freeNodes < room.length then (s, .refused .refusedNoNode none)
    else
      match s.allocateNodes p room.length with
      | (s1, none) => (s1, .refused .refusedNoNode none)
      | (s1, some ns) =>
        let s2 := s1.appendAll d room ns
        let s3 := s2.disposeAll d .droppedClosed (s.closedDests p ds)
        (s3.disposeAll d .droppedFull (fullDests adm), .passed)

/-- The slot lets go: IDLE, its two flags kept (R73, R87, R91). -/
def idleSlot (s : State) (p : Port) (c : ComposeNo) : State :=
  s.setComposeSlot p c { s.composeSlot p c with phase := .idle }

/-- What a seal did: the message as it stood when the slot let go, and the outcome. -/
structure SealOutcome where
  state : State
  message : Message
  outcome : Examination

/-- R85 to R87 for slot `c`, composing `k`, with the length fixed by R84: the seal succeeds and the slot lets go, or the slot
is HELD with that length. The timer is restarted either way (R84, R92). -/
def sealSlot (s : State) (p : Port) (c : ComposeNo) (k : Composing) (m : Message) (length : Nat) : SealOutcome :=
  match s.examine p k.desc m with
  | (s1, .refused code pos) =>
    ⟨s1.setComposeSlot p c { s1.composeSlot p c with phase := .held { k with timer := 0, due := false } length },
      s1.messageOf k.desc, .refused code pos⟩
  | (s1, .passed) =>
    let s2 := s1.updMessage k.desc fun x => { x with state := .isSealed, final := some length }
    let sealedMessage := s2.messageOf k.desc
    ⟨(s2.idleSlot p c).dropHolder k.desc, sealedMessage, .passed⟩

/-! ### Abandoning a slot (R91, R93, R96) -/

/-- R91: the descriptor becomes ABANDONED, the slot becomes IDLE with its flags kept, and the holder count falls by 1. -/
def abandonSlot (s : State) (p : Port) (c : ComposeNo) (k : Composing) : State :=
  ((s.updMessage k.desc fun m => { m with state := .abandoned }).idleSlot p c).dropHolder k.desc

/-! ### Releasing a receive slot (R112, R113) -/

/-- R112: the node returns to the free list, the holder count falls by 1, and the slot becomes IDLE with its flags kept. -/
def releaseSlot (s : State) (p : Port) (r : ReceiveNo) (h : Holding) : State :=
  let s1 := (s.returnNode h.node).dropHolder h.desc
  s1.setReceiveSlot p r { s1.receiveSlot p r with phase := .idle }

end State

end Sys2Proof.Machine
end

