-- ==== Sys2Proof/Machine/Views.lean ====
section
/-!
DEFINITION. What the registers show: the port registers of an agent (R169, R170, 11.2, 11.3) and the management register file
(R175, 11.5, 11.6), each as a function of the state. A status read changes nothing (R162, R173).
-/
namespace Sys2Proof.Machine

/-! ### Result words (11.3) -/

def MessageResult.word (m : MessageResult) : Word :=
  if m = {} then absentWord
  else
    pack [(0, 10, optional 10 (m.desc.map (·.val))), (10, 2, optional 2 (m.poisoned.map boolBit)),
      (12, 3, optional 3 m.linked), (16, 3, optional 3 m.dropped), (20, 3, optional 3 m.holders),
      (24, 3, optional 3 m.failing), (28, 4, optional 4 (m.sealOutcome.map (·.value)))]

def FetchResult.word (f : FetchResult) : Word :=
  pack [(0, 10, f.desc.val), (10, 2, f.source.val), (12, 2, f.state.value), (14, 1, boolBit f.poisoned),
    (15, 1, boolBit f.linkBroken), (16, 16, f.tag.toNat)]

/-- The RESULT1 word; a word whose fields are all absent reads all ones (R180). -/
def Result1.word : Result1 → Word
  | .absent => absentWord
  | .depth n => pack [(0, 11, n)]
  | .query st n lv =>
    pack [(0, 11, n), (11, 11, optional 11 (lv.map (·.limit))), (22, 2, st.value),
      (24, 2, optional 2 (lv.map (·.consumer.val))), (26, 4, optional 4 (lv.map (·.mask.toNat))),
      (30, 2, optional 2 (lv.map (·.mode.value)))]
  | .close drained stranded => pack [(0, 11, drained), (16, 11, stranded)]
  | .message m => m.word
  | .fetch f => f.word

/-! ### Queue fields (R48) -/

def QueuePhase.tag : QueuePhase → QueueTag
  | .opened => .opened
  | .draining _ => .draining
  | .quarantined => .quarantined

def Queue.tag : Queue → QueueTag
  | .closed => .closed
  | .live q => q.phase.tag

/-- A CLOSED queue has depth 0 (R42). -/
def Queue.depth : Queue → Nat
  | .closed => 0
  | .live q => q.depth

def Queue.consumer : Queue → Option Port
  | .closed => none
  | .live q => some q.consumer

/-- The fields of QUERY_QUEUE that are absent for a CLOSED queue. -/
def Queue.queryLive : Queue → Option QueryLive
  | .closed => none
  | .live q => some ⟨q.limit, q.consumer, q.mask, q.mode⟩

/-! ### Slot fields (R71, R97) -/

def ComposePhase.value : ComposePhase → Nat
  | .idle => 0
  | .filling _ => 1
  | .held _ _ => 2

def ComposePhase.composing : ComposePhase → Option Composing
  | .idle => none
  | .filling k => some k
  | .held k _ => some k

def ComposePhase.heldLength : ComposePhase → Option Nat
  | .idle => none
  | .filling _ => none
  | .held _ n => some n

def ReceivePhase.holds : ReceivePhase → Option Holding
  | .idle => none
  | .holding h => some h

/-- The final length of a SEALED message, otherwise its written bytes (R102, R114). -/
def Message.readable (m : Message) : Nat :=
  match m.state with
  | .isSealed => m.final.getD m.written
  | .filling | .abandoned => m.written

/-! ### Event words (11.4) -/

/-- The event head word of a popped entry with its two indications. -/
def EventEntry.headWord (x : EventEntry) (overflow more : Bool) : Word :=
  pack [(0, 4, x.kind.value), (4, 1, boolBit x.tag.isSome), (5, 1, boolBit overflow), (6, 1, boolBit more),
    (8, 6, optional 6 x.subject), (16, 8, x.detail)]

/-- The event head word of a pop of an empty queue: kind NO_EVENT, subject and tag absent, detail 0 (R120). -/
def noEventWord : Word := pack [(0, 4, 0), (8, 6, optional 6 none), (16, 8, 0)]

def EventPort.statusWord (e : EventPort) : Word :=
  pack [(0, 5, e.queue.length), (8, 1, boolBit e.overflow), (9, 1, boolBit e.interrupt),
    (10, 1, boolBit e.intAsserted)]

def EventPort.tagWord (e : EventPort) : Word :=
  pack [(0, 16, optional 16 (e.tagLatch.map (·.toNat))), (16, 1, boolBit e.tagLatch.isSome)]

/-! ### Unit and record words -/

/-- The command code and queue number in progress (R167, 11.2); PORT_RESET has no queue number (R151). -/
def CommandUnit.progress : CommandUnit → Option Nat × Option Nat
  | .idle => (none, none)
  | .closing q => (some 0x03, some q.val)
  | .resetting => (some 0x30, none)

def FrontEnd.errorWord (f : FrontEnd) : Word :=
  match f.errorRecord with
  | none => pack [(0, 4, 0), (16, 16, optional 16 none)]
  | some r => pack [(0, 4, r.reason.value), (16, 16, r.offset.toNat)]

/-- The teardown record of a port; all ones when the port is not RESETTING (11.6). -/
def PortState.teardownWord : PortState → Word
  | .active => absentWord
  | .fenced => absentWord
  | .resetting t =>
    pack [(0, 2, t.origin.value), (2, 1, t.endState.value), (4, 3, t.step), (8, 6, optional 6 (t.queue.map (·.val)))]

/-- Word A of a fault record (11.5). -/
def FaultRecord.wordA (r : FaultRecord) : Word :=
  pack [(0, 8, r.sequence.toNat), (8, 3, r.cls.value), (12, 2, r.memory.value), (16, 2, r.base.value),
    (18, 2, r.escalation.value), (20, 2, r.port.val), (24, 6, optional 6 (r.queue.map (·.val)))]

/-- Word B of a fault record (11.5). -/
def FaultRecord.wordB (r : FaultRecord) : Word :=
  pack [(0, 12, r.index), (16, 10, optional 10 (r.desc.map (·.val))), (26, 5, optional 5 (r.position.map (·.val)))]

/-- The injection arm; while it is disarmed its target and kind are absent, which reads as all ones (R180; log 16). -/
def armWord (a : Option Arm) : Word :=
  pack [(0, 1, boolBit a.isSome), (4, 2, optional 2 (a.map (·.target.value))), (8, 1, optional 1 (a.map (·.kind.value)))]

/-- The last injection record. What the word position reads for a LINK or CONTENT word the spec does not state: the field's four
bits use every value; the model's choice is all ones (log 28). -/
def injectionWord : Option InjectionRecord → Word
  | none => absentWord
  | some r =>
    pack [(0, 2, r.memory.value), (4, 2, r.word.value), (8, 4, optional 4 (r.word.position.map (·.val))),
      (12, 1, r.kind.value), (16, 12, r.index)]

/-- The read data of a response: the value read, or 0 without meaning with RETRY and ERROR; an OKAY to a write drives none (R160). -/
def Answer.readData : Answer → Option Word
  | .okayRead data => some data
  | .okayWrite => none
  | .retry => some 0
  | .error => some 0

namespace State

/-- The read data lines of port p with the response to its last access (R160, 11.7). -/
def readData (s : State) (p : Port) : Option Word := (s.front p).answer.bind (·.readData)

/-! ### Words that both interfaces show -/

/-- Pool words 0 to 3 (11.2). -/
def poolWord (s : State) (k : Fin 4) : Word :=
  match k with
  | 0 => pack [(0, 12, s.pool.freeCells), (16, 12, s.pool.freeNodes)]
  | 1 => pack [(0, 12, s.pool.strandedCells), (16, 10, s.pool.fifo.length)]
  | 2 => pack [(0, 11, s.pool.strandedNodes), (31, 1, if s.pool.lowWater = .tripped then 1 else 0)]
  | 3 => pack [(0, 12, s.pool.lowMark), (16, 12, s.pool.recoverMark)]

/-- Partition words 0 and 1 of one port (11.2). -/
def partitionWord (s : State) (p : Port) (k : Fin 2) : Word :=
  match k with
  | 0 => pack [(0, 12, (s.share p).reserve), (16, 12, (s.share p).limit)]
  | 1 => pack [(0, 12, (s.share p).charged), (12, 1, boolBit (s.share p).starving), (16, 16, (s.share p).refused)]

/-! ### Agent registers (11.2) -/

def portStatusWord (s : State) (p : Port) : Word :=
  let progress := (s.front p).unit.progress
  pack [(0, 2, p.val), (2, 2, s.exchange.value), (4, 2, (s.port p).tag.value),
    (6, 1, boolBit (decide ((s.front p).unit ≠ .idle))), (8, 8, optional 8 progress.1), (16, 6, optional 6 progress.2)]

def composeStatusA (s : State) (p : Port) (c : ComposeNo) : Word :=
  let slot := s.composeSlot p c
  let desc := slot.phase.composing.map (·.desc)
  pack [(0, 2, slot.phase.value), (2, 1, boolBit slot.starved), (3, 1, boolBit slot.lengthError),
    (4, 10, optional 10 (desc.map (·.val))), (16, 15, optional 15 ((desc.bind s.message).map (·.written)))]

def composeStatusB (s : State) (p : Port) (c : ComposeNo) : Word :=
  match (s.composeSlot p c).phase.heldLength with
  | none => absentWord
  | some n => pack [(0, 15, n)]

/-- The descriptor's fields are read from the descriptor table as they stand at the read (R170). -/
def receiveStatusA (s : State) (p : Port) (r : ReceiveNo) : Word :=
  let slot := s.receiveSlot p r
  let held := slot.phase.holds
  let m := (held.map (·.desc)).bind s.message
  pack [(0, 1, boolBit held.isSome), (1, 1, boolBit slot.overread), (2, 1, boolBit slot.poisonHit),
    (3, 1, boolBit slot.abandonSeen), (4, 1, boolBit slot.linkHit),
    (5, 6, optional 6 (held.map (·.source.val))), (16, 10, optional 10 (held.map (·.desc.val))),
    (28, 2, optional 2 (m.map (·.state.value))), (30, 1, optional 1 (m.map fun x => boolBit x.poison.isSome)),
    (31, 1, optional 1 (m.map fun x => boolBit x.linkBroken))]

def receiveStatusB (s : State) (p : Port) (r : ReceiveNo) : Word :=
  match (s.receiveSlot p r).phase.holds with
  | none => absentWord
  | some h => pack [(0, 15, h.offset), (16, 15, optional 15 ((s.message h.desc).map (·.readable)))]

def receiveStatusC (s : State) (p : Port) (r : ReceiveNo) : Word :=
  match (((s.receiveSlot p r).phase.holds.map (·.desc)).bind s.message).bind (·.poison) with
  | none => absentWord
  | some o => pack [(0, 15, o)]

/-- The value that a read of a port register returns, the event head register apart, whose read pops (R162). A PARAM register shows the
word stored there. -/
def portRegister (s : State) (p : Port) : PortRegister → Word
  | .identification => Config.identification
  | .portStatus => s.portStatusWord p
  | .errorRecord => (s.front p).errorWord
  | .command =>
    match (s.front p).lastCommand with
    | none => absentWord
    | some c => c.toWord
  | .param k => (s.front p).params.get k
  | .result0 => pack [(0, 4, (s.front p).result0.value)]
  | .result1 => (s.front p).result1.word
  | .eventHead =>
    match (s.event p).queue with
    | [] => noEventWord
    | x :: xs => x.headWord (s.event p).overflow (!xs.isEmpty)
  | .eventTag => (s.event p).tagWord
  | .eventStatus => (s.event p).statusWord
  | .eventEnable => pack [(0, 12, (s.event p).enables.toNat)]
  | .interruptEnable => pack [(0, 1, boolBit (s.event p).interrupt)]
  | .composeStatusA c => s.composeStatusA p c
  | .composeStatusB c => s.composeStatusB p c
  | .receiveStatusA r => s.receiveStatusA p r
  | .receiveStatusB r => s.receiveStatusB p r
  | .receiveStatusC r => s.receiveStatusC p r
  | .pool k => s.poolWord k
  | .partition k => s.partitionWord p k

/-! ### Management registers (11.5, 11.6) -/

def mgmtStatusWord (s : State) : Word :=
  pack [(0, 2, s.exchange.value), (2, 1, boolBit s.mgmt.busy), (4, 2, (s.mgmt.record.map (·.reason.value)).getD 0),
    (8, 8, optional 8 (s.mgmt.record.map (·.index.toNat))),
    (24, 2, (s.port 0).tag.value), (26, 2, (s.port 1).tag.value), (28, 2, (s.port 2).tag.value),
    (30, 2, (s.port 3).tag.value)]

def mgmtResultWord (s : State) : Word :=
  pack [(0, 8, optional 8 (s.mgmt.result.code.map (·.toNat))), (8, 4, s.mgmt.result.result.value),
    (16, 16, optional 16 (s.mgmt.result.detail.map (·.toNat)))]

def mintEnableWord (s : State) : Word :=
  pack [(0, 1, boolBit s.mint.fault), (1, 1, boolBit s.mint.overflow.q0), (2, 1, boolBit s.mint.overflow.q1),
    (3, 1, boolBit s.mint.overflow.q2), (4, 1, boolBit s.mint.overflow.q3)]

def mintConditionsWord (s : State) : Word :=
  pack [(0, 1, boolBit s.faultCondition), (1, 1, boolBit s.overflowCondition), (2, 1, boolBit s.stoppedCondition),
    (3, 1, boolBit s.mintAsserted)]

def timeoutsWord (s : State) : Word :=
  pack [(0, 8, s.timeouts.q0), (8, 8, s.timeouts.q1), (16, 8, s.timeouts.q2), (24, 8, s.timeouts.q3)]

def queueWord (s : State) (q : QueueNo) : Word :=
  pack [(0, 2, (s.queue q).tag.value), (2, 2, optional 2 ((s.queue q).consumer.map (·.val))),
    (16, 11, (s.queue q).depth)]

def faultListWord (s : State) : Word :=
  pack [(0, 3, s.integrity.faults.length), (4, 1, boolBit s.integrity.full)]

def countersWord (s : State) : Word :=
  pack [(0, 8, s.integrity.tracking.q0.count), (8, 8, s.integrity.tracking.q1.count),
    (16, 8, s.integrity.tracking.q2.count), (24, 8, s.integrity.tracking.q3.count)]

def overflowsWord (s : State) : Word :=
  pack [(0, 1, boolBit s.integrity.tracking.q0.overflow), (1, 1, boolBit s.integrity.tracking.q1.overflow),
    (2, 1, boolBit s.integrity.tracking.q2.overflow), (3, 1, boolBit s.integrity.tracking.q3.overflow)]

def policyWord (s : State) : Word :=
  pack [(0, 2, s.integrity.policy.payload.value), (2, 2, s.integrity.policy.cellLink.value),
    (4, 2, s.integrity.policy.freeLink.value), (6, 2, s.integrity.policy.nodeContent.value),
    (8, 2, s.integrity.policy.nodeLink.value)]

/-- The value that a read of a management register captures (R173). -/
def mgmtRegister (s : State) : MgmtRegister → Word
  | .identification => Config.identification
  | .status => s.mgmtStatusWord
  | .result => s.mgmtResultWord
  | .mintEnable => s.mintEnableWord
  | .mintConditions => s.mintConditionsWord
  | .teardown p => (s.port p).teardownWord
  | .pool k => s.poolWord k
  | .partition p k => s.partitionWord p k
  | .timeouts => s.timeoutsWord
  | .queue q => s.queueWord q
  | .eventStatus p => (s.event p).statusWord
  | .faultRecordA k => ((s.integrity.faults[k.val]?).map (·.wordA)).getD absentWord
  | .faultRecordB k => ((s.integrity.faults[k.val]?).map (·.wordB)).getD absentWord
  | .faultList => s.faultListWord
  | .nextSequence => pack [(0, 8, s.integrity.nextSequence.toNat)]
  | .counters => s.countersWord
  | .overflows => s.overflowsWord
  | .policy => s.policyWord
  | .arm => armWord s.arm
  | .lastInjection => injectionWord s.lastInjection
  | .param k => s.mgmt.params.get k
  | .command =>
    match s.mgmt.lastCommand with
    | none => absentWord
    | some c => c.toWord

end State

end Sys2Proof.Machine
end

