-- ==== Sys2Proof/Machine/FrontEnd.lean ====
section
/-!
DEFINITION. The Front End of an agent port (R160 to R168): answers and the error record, the gate by exchange and port state, and
the taking of a command by the command unit; the path of an I2C transaction to the management registers (R171 to R176).
-/
namespace Sys2Proof.Machine

/-- What the owner of a command gives back (R166): the state with the command's effect, its result code, its RESULT1 fields,
and the command unit's state afterwards. -/
structure CommandOutcome where
  state : State
  code : ResultCode
  result1 : Result1 := .absent
  unit : CommandUnit := .idle

/-- What the owner of a management command gives back (R176). -/
structure MgmtOutcome where
  state : State
  result : ResultCode
  detail : Option (BitVec 16) := none

/-- The request of the command has completed; its reports are those from the `n`-th reporting request on (R130). -/
def CommandOutcome.completing (o : CommandOutcome) (n : Nat) : CommandOutcome :=
  { o with state := o.state.completeRequest n }

/-- The window address of the command register (11.2). -/
def commandAddress : BitVec 16 := 0x000C

namespace State

/-! ### Answers (R160, R164) -/

/-- The access is answered; an access answered OKAY or RETRY leaves the error record as it was. -/
def answer (s : State) (p : Port) (a : Answer) : State := s.setFront p { s.front p with answer := some a }

/-- Every access answered ERROR replaces the error record with its own reason and address (R164). -/
def answerError (s : State) (p : Port) (addr : BitVec 16) (reason : ErrorReason) : State :=
  s.setFront p { s.front p with answer := some .error, errorRecord := some ⟨reason, addr⟩ }

/-- A port carries one access at a time (R160): while a BEGIN of port p stands between its link requests, its access is not answered
and no other access of p is taken (log 29). -/
def oneAccess (s : State) (p : Port) (access : State → State) : State :=
  match (s.front p).opening with
  | some _ => s
  | none => access s

/-- R163: an acting access is answered from the exchange and port states, or handed to its target. -/
def acting (s : State) (p : Port) (addr : BitVec 16) (target : State → State) : State :=
  s.oneAccess p fun s =>
    match s.exchange with
    | .init | .restarting _ => s.answer p .retry
    | .stopped => s.answerError p addr .stopped
    | .running =>
      match s.port p with
      | .resetting _ => s.answer p .retry
      | .fenced => s.answerError p addr .fenced
      | .active => target s

/-- The results of a taken command and the OKAY of its register write (R166). -/
def writeResults (o : CommandOutcome) (p : Port) (c : CommandWord) : State :=
  o.state.setFront p { o.state.front p with
    unit := o.unit, lastCommand := some c, result0 := o.code, result1 := o.result1, answer := some .okayWrite }

/-- R166: a command-register write: RETRY while the unit is BUSY, otherwise the command is taken. -/
def commandAccess (s : State) (p : Port) (taken : State → State) : State :=
  s.acting p commandAddress fun s1 =>
    match (s1.front p).unit with
    | .idle => taken s1
    | .closing _ | .resetting => s1.answer p .retry

/-- A command that its owner carries out whole. -/
def takeCommand (s : State) (p : Port) (c : CommandWord) (owner : State → CommandOutcome) : State :=
  s.commandAccess p fun s1 => writeResults (owner s1) p c

/-! ### I2C transactions (R171 to R174) -/

/-- Whether the target answers to an address byte: RESET_N released, and the address 0x38 plus MA[1:0] (R171). -/
def i2cSelected (s : State) (addr : BitVec 7) : Bool :=
  !s.resetAsserted && decide (addr = Config.i2cBase + s.ma.setWidth 7)

/-- A START or repeated START with its address byte: it ends the transaction before it, and is acknowledged and taken, or not
acknowledged and ignored (R171). -/
def startTransaction (s : State) (addr : BitVec 7) (kind : Transaction) : State :=
  if s.i2cSelected addr then s.setMgmt { s.mgmt with acknowledged := some true, transaction := kind }
  else s.setMgmt { s.mgmt with acknowledged := some false, transaction := .none }

/-- The target takes the data bytes of a write transaction (R171, R172). -/
def writeOpen (s : State) : Bool := !s.resetAsserted && decide (s.mgmt.transaction = .write)

/-- The target sends the bytes of a read transaction (R171, R173). -/
def readOpen (s : State) : Bool := !s.resetAsserted && decide (s.mgmt.transaction = .read)

/-- A reason recorded for the present index (R174). -/
def mgmtReason (s : State) (reason : MgmtReason) : State :=
  s.setMgmt { s.mgmt with record := some ⟨reason, s.mgmt.pointer⟩ }

/-- After a complete word the pointer advances by 1, from 255 to 0, and the next data byte starts a new word (R172). -/
def mgmtAdvance (s : State) : State :=
  s.setMgmt { s.mgmt with pointer := s.mgmt.pointer + 1, assembly := [] }

/-- R127: the five enables are replaced. -/
def writeMintEnables (s : State) (data : Word) : State :=
  { s with mint := ⟨data.getLsbD 0, ⟨data.getLsbD 1, data.getLsbD 2, data.getLsbD 3, data.getLsbD 4⟩⟩ }

/-- The management result register (R176). -/
def mgmtResult (s : State) (code : BitVec 8) (result : ResultCode) (detail : Option (BitVec 16)) : State :=
  s.setMgmt { s.mgmt with result := ⟨some code, result, detail⟩ }

/-- A command handed to its owner: the result and detail are written to the result register. A command that is not refused
becomes the last command word taken; a refused one changes no state outside the result register (R177; log 15). -/
def mgmtOwned (o : MgmtOutcome) (c : MgmtWord) : State :=
  match o.result with
  | .ok | .pending =>
    (o.state.mgmtResult c.code o.result o.detail).setMgmt
      { (o.state.mgmtResult c.code o.result o.detail).mgmt with lastCommand := some c }
  | _ => o.state.mgmtResult c.code o.result o.detail

end State

end Sys2Proof.Machine
end

