-- ==== Sys2Proof/Machine/ComposeCommands.lean ====
section
/-!
DEFINITION. Meanings of BEGIN, SEAL, ABANDON and the compose aperture accesses (R74 to R91).
-/
namespace Sys2Proof.Machine

/-! ### BEGIN -/

/-- The record that BEGIN fills: FILLING, every disposition PENDING, the compose slot its one holder (R19). -/
def newMessage (p : Port) (c : ComposeNo) (b : BeginParams) (qs : List QueueNo) : Message where
  state := .filling
  port := p
  slot := c
  tag := b.tag
  declared := b.declared
  written := 0
  final := none
  first := none
  last := none
  cells := 0
  holders := 1
  dests := qs.map fun q => ⟨q, .pending⟩
  poison := none
  linkBroken := false

/-- The position of the first destination that does not admit the port (R74 check 3). -/
def State.refusedDest (s : State) (p : Port) (qs : List QueueNo) : Option Nat :=
  (qs.zipIdx.find? fun t => (s.admitted p t.1).isNone).map (·.2)

/-- The CUT destinations among those that admit the port (R75). -/
def cutDests (ds : List (Nat × QueueNo × LiveQueue)) : List (Nat × QueueNo × LiveQueue) :=
  ds.filter fun t => t.2.2.mode = .cut

/-- Steps 2 to 6 of R76: descriptor `d` is allocated, the nodes `ns` are appended to the destinations with room, the full ones
are dropped, and the slot becomes FILLING with its flags clear and its timer at 0. -/
def beginTaken (s : State) (p : Port) (c : ComposeNo) (b : BeginParams) (qs : List QueueNo) (d : DescNo)
    (rest : List DescNo) (room full : List QueueNo) (ns : List NodeNo) : State :=
  let s1 := (s.setPool { s.pool with fifo := rest }).setDesc d (.live (newMessage p c b qs))
  let s2 := (s1.appendAll d room ns).disposeAll d .droppedFull full
  s2.setComposeSlot p c ⟨.filling ⟨d, none, 0, false⟩, false, false⟩

/-- What the first link request of a BEGIN gives: the outcome that the BEGIN has if it ends there, and, where R77 goes on with a
second one, the slot and what it composes. -/
structure BeginOutcome extends CommandOutcome where
  sealing : Option (ComposeNo × Composing) := none

/-- The result of a taken BEGIN after its first link request; a declared length of 0 asks for the seal of R77. -/
def beginResult (s : State) (c : ComposeNo) (b : BeginParams) (d : DescNo) : BeginOutcome :=
  let m := s.messageOf d
  { state := s
    code := .ok
    result1 := .message
      { desc := some d
        linked := some m.linkedCount
        dropped := some m.droppedCount
        holders := some m.holders }
    sealing := if b.declared = some 0 then some (c, ⟨d, none, 0, false⟩) else none }

/-- A refused BEGIN reports at most a failing position (R78). -/
def beginRefused (s : State) (code : ResultCode) (failing : Option Nat) : BeginOutcome :=
  { state := s, code := code, result1 := .message { failing := failing } }

/-- R74, R75: checks 3 to 6 and the node allocation of R76 step 1, within the one link request. -/
def beginLink (s : State) (p : Port) (c : ComposeNo) (b : BeginParams) (qs : List QueueNo) : BeginOutcome :=
  match s.refusedDest p qs with
  | some pos => beginRefused s .refusedDest (some pos)
  | none =>
    match s.pool.fifo with
    | [] => beginRefused s .refusedNoDesc none
    | d :: rest =>
      let cut := cutDests (s.admittedDests p (qs.zipIdx.map fun t => (t.2, t.1)))
      let room := State.roomDests cut
      if s.pool.freeNodes < room.length then beginRefused s .refusedNoNode none
      else
        match State.fullPosition cut with
        | some pos => beginRefused s .refusedFull (some pos)
        | none =>
          match s.allocateNodes p room.length with
          | (s1, none) => beginRefused s1 .refusedNoNode none
          | (s1, some ns) =>
            beginResult (beginTaken s1 p c b qs d rest room (State.fullDests cut) ns) c b d

/-- R74 to R76: the checks of BEGIN and its first link request. -/
def beginFirst (p : Port) (f : CommandFields) (s : State) : BeginOutcome :=
  match composeNo f with
  | none => beginRefused s .refusedParam none
  | some c =>
    match (s.composeSlot p c).phase with
    | .filling _ | .held _ _ => beginRefused s .refusedState none
    | .idle =>
      let b := beginParams (s.front p).params
      match beginParamRefusal b with
      | some pos => beginRefused s .refusedParam pos
      | none => beginLink s p c b (b.queues.map (Fin.ofNat 32))

/-- R77, R78: the second link request, the seal with final length 0 of the message that slot `c` composes, and the results of the
BEGIN after it. -/
def beginSeal (s : State) (p : Port) (c : ComposeNo) (k : Composing) : CommandOutcome :=
  let o := s.sealSlot p c k (s.messageOf k.desc) 0
  { state := o.state
    code := .ok
    result1 := .message
      { desc := some k.desc
        linked := some o.message.linkedCount
        dropped := some o.message.droppedCount
        holders := some (o.state.holders k.desc)
        failing := o.outcome.failing
        sealOutcome := some o.outcome.code } }

/-- The second link request, where the BEGIN goes on with one. -/
def BeginOutcome.finish (o : BeginOutcome) (p : Port) : CommandOutcome :=
  match o.sealing with
  | none => o.toCommandOutcome
  | some (c, k) => beginSeal o.state p c k

/-- A BEGIN with no other request between its link requests. -/
def beginMessage (p : Port) (f : CommandFields) (s : State) : CommandOutcome :=
  ((beginFirst p f s).finish p).completing s.requests

/-- The command word of a BEGIN. -/
def beginWord (f : CommandFields) : CommandWord := ⟨AgentCommand.beginMessage.code, f⟩

/-- A BEGIN as far as its first link request: one that R77 sends on to a second is left open, with its reports those of a request
in progress (log 29); any other has completed. -/
def beginOpen (p : Port) (f : CommandFields) (s : State) : State :=
  let o := beginFirst p f s
  match o.sealing with
  | none => State.writeResults (o.toCommandOutcome.completing s.requests) p (beginWord f)
  | some (c, _) =>
    let s1 := o.state.setIntegrity (o.state.integrity.suspend p s.requests)
    s1.setFront p { s1.front p with opening := some ⟨beginWord f, c⟩ }

/-- The second link request of the BEGIN that port p has open, which completes it (R77); nothing where p has none open (log 9). The
slot that the BEGIN made FILLING is still so, as no other access of p is taken and no step of its timer or its teardown. -/
def State.endOpening (s : State) (p : Port) : State :=
  match (s.front p).opening with
  | none => s
  | some o =>
    let s1 := (s.setFront p { s.front p with opening := none }).setIntegrity (s.integrity.resume p)
    let n := (s.integrity.others p).length
    match (s1.composeSlot p o.slot).phase with
    | .filling k => State.writeResults ((beginSeal s1 p o.slot k).completing n) p o.command
    | .idle | .held _ _ => s1.completeRequest n

/-- BEGIN. -/
def execBeginMessage (p : Port) (f : BeginFields) (s : State) : Host.Outcome State Fault Refusal :=
  match f.part with
  | .whole => .next (s.takeCommand p (beginWord f.fields) (beginMessage p f.fields))
  | .first => .next (s.commandAccess p (beginOpen p f.fields))
  | .second => .next (s.endOpening p)

/-! ### SEAL -/

/-- The result of a SEAL that reached the examination (R86, R87). -/
def sealResult (o : State.SealOutcome) (d : DescNo) : CommandOutcome :=
  match o.outcome with
  | .refused code failing =>
    { state := o.state
      code := code
      result1 := .message
        { holders := some (o.state.holders d), failing := failing, poisoned := some o.message.poison.isSome } }
  | .passed =>
    { state := o.state
      code := .ok
      result1 := .message
        { linked := some o.message.linkedCount
          dropped := some o.message.droppedCount
          holders := some (o.state.holders d)
          poisoned := some o.message.poison.isSome } }

/-- R84: SEAL's checks and its link request. In HELD the length is not read and the held length stands. -/
def sealTaken (p : Port) (f : CommandFields) (s : State) : CommandOutcome :=
  match composeNo f with
  | none => { state := s, code := .refusedParam }
  | some c =>
    match (s.composeSlot p c).phase with
    | .idle => { state := s, code := .refusedState }
    | .held k n => sealResult (s.sealSlot p c k (s.messageOf k.desc) n) k.desc
    | .filling k =>
      let m := s.messageOf k.desc
      let length := sealLength (s.front p).params
      if m.declared.isSome then { state := s, code := .refusedState }
      else if validLength length m.written then sealResult (s.sealSlot p c k m length) k.desc
      else { state := s, code := .refusedParam }

/-- R84: SEAL. -/
def sealMessage (p : Port) (f : CommandFields) (s : State) : CommandOutcome :=
  (sealTaken p f s).completing s.requests

/-- SEAL. -/
def execSealMessage (p : Port) (f : CommandFields) (s : State) : Host.Outcome State Fault Refusal :=
  .next (s.takeCommand p ⟨AgentCommand.sealMessage.code, f⟩ (sealMessage p f))

/-! ### ABANDON -/

/-- R91: ABANDON. -/
def abandonMessage (p : Port) (f : CommandFields) (s : State) : CommandOutcome :=
  match composeNo f with
  | none => { state := s, code := .refusedParam }
  | some c =>
    match (s.composeSlot p c).phase.composing with
    | none => { state := s, code := .refusedState }
    | some k =>
      let s1 := s.abandonSlot p c k
      { state := s1, code := .ok, result1 := .message { desc := some k.desc, holders := some (s1.holders k.desc) } }

/-- ABANDON. -/
def execAbandonMessage (p : Port) (f : CommandFields) (s : State) : Host.Outcome State Fault Refusal :=
  .next (s.takeCommand p ⟨AgentCommand.abandonMessage.code, f⟩ (abandonMessage p f))

/-! ### The compose aperture -/

/-- The event of an auto-seal, sent to the issuing port after the seal's link request (R89, R90). -/
def autoSealEntry (c : ComposeNo) (o : State.SealOutcome) : EventEntry :=
  match o.outcome with
  | .passed => ⟨.sealDone, some c.val, some o.message.tag, o.message.linkedCount⟩
  | .refused code _ => ⟨.sealHeld, some c.val, some o.message.tag, code.value⟩

/-- R81 step 5, R89: the auto-seal, where the written bytes have reached the declared length. -/
def autoSeal (s : State) (p : Port) (c : ComposeNo) (k : Composing) : State :=
  let m := s.messageOf k.desc
  match m.declared with
  | none => s
  | some n =>
    if n ≤ m.written then
      let o := s.sealSlot p c k m n
      o.state.sendEvent p (autoSealEntry c o)
    else s

/-- R81 step 1 for a granted cell `h`: the grant, the chain link write into the previous last cell, and the slot's current
cell; the slot's starved flag is cleared. -/
def grantStep (s : State) (p : Port) (c : ComposeNo) (k : Composing) (h : CellNo) : State :=
  let s1 := s.grantCell p k.desc h
  let s2 :=
    match (s.messageOf k.desc).last with
    | some l => s1.writeCellLink l (some h)
    | none => s1
  s2.setComposeSlot p c
    { s2.composeSlot p c with phase := .filling { k with cell := some h }, starved := false }

/-- R81 steps 2 to 5: the payload word, the count, the timer and the auto-seal; the access is answered OKAY. -/
def storeWord (s : State) (p : Port) (c : ComposeNo) (k : Composing) (data : Word) : State :=
  let position : Fin 16 := Fin.ofNat 16 ((s.messageOf k.desc).written % 64 / 4)
  let s1 :=
    match k.cell with
    | some cell => s.writePayload cell position data
    | none => s
  let s2 := s1.updMessage k.desc fun m => { m with written := m.written + 4 }
  let k1 : Composing := { k with timer := 0, due := false }
  let s3 := s2.setComposeSlot p c { s2.composeSlot p c with phase := .filling k1 }
  (autoSeal s3 p c k1).answer p .okayWrite

/-- R82: a data write whose grant is refused is answered RETRY, with the slot's starved flag set. -/
def starvedWrite (s : State) (p : Port) (c : ComposeNo) : State :=
  let s1 := s.refuseGrant p c
  (s1.setComposeSlot p c { s1.composeSlot p c with starved := true }).answer p .retry

/-- R81 for a data write whose grant is made from head cell `h`; the reports of the grant and of the auto-seal are those of one
request (R141). -/
def grantedWrite (s : State) (p : Port) (c : ComposeNo) (k : Composing) (h : CellNo) (data : Word) : State :=
  (storeWord (grantStep s p c k h) p c { k with cell := some h } data).completeRequest s.requests

/-- R80: the cases of a data write, in order. -/
def dataWrite (p : Port) (c : ComposeNo) (addr : BitVec 16) (data : Word) (s : State) : State :=
  match (s.composeSlot p c).phase with
  | .idle | .held _ _ => s.answerError p addr .notFilling
  | .filling k =>
    if Config.maxLength ≤ (s.messageOf k.desc).written then
      (s.setComposeSlot p c { s.composeSlot p c with lengthError := true }).answerError p addr .length
    else if (s.messageOf k.desc).written % 64 = 0 then
      match s.pool.cellHead, s.quotaGrants p with
      | some h, true => grantedWrite s p c k h data
      | _, _ => starvedWrite s p c
    else (storeWord s p c k data).completeRequest s.requests

/-- COMPOSE_APERTURE_WRITE (R79, R80): the address selects the slot and nothing else. -/
def execComposeApertureWrite (p : Port) (c : ComposeNo) (word : BitVec 8) (data : Word) (s : State) :
    Host.Outcome State Fault Refusal :=
  .next (s.acting p (composeAddress c word) (dataWrite p c (composeAddress c word) data))

/-- COMPOSE_APERTURE_READ (R79): ERROR with reason APERTURE_READ, whatever the slot's state. -/
def execComposeApertureRead (p : Port) (c : ComposeNo) (word : BitVec 8) (s : State) :
    Host.Outcome State Fault Refusal :=
  .next (s.acting p (composeAddress c word) (·.answerError p (composeAddress c word) .apertureRead))

end Sys2Proof.Machine
end

