-- ==== Sys2Proof/Machine/Management.lean ====
section
/-!
DEFINITION. Meanings of the management transactions (R171 to R175) and of the management commands with their owners (R15, R35,
R38, R132, R138, R140, R147, R150, R158, R176 to R179).
-/
namespace Sys2Proof.Machine

/-! ### RESTART (R147, R148) -/

/-- A front end at RESTART: the command unit IDLE with RESULT0 OK, RESULT1 and the last command word absent, the error record
NONE; the parameters are kept (R147, R164, R165, R168). -/
def FrontEnd.restarted (f : FrontEnd) : FrontEnd :=
  { f with unit := .idle, opening := none, lastCommand := none, result0 := .ok, result1 := .absent, errorRecord := none }

/-- R147: the requests already taken complete whole. The only ones that a row leaves in progress are BEGINs between their link
requests, taken here in the order of their ports (log 29). -/
def State.completeOpenings (s : State) : State := (((s.endOpening 0).endOpening 1).endOpening 2).endOpening 3

/-- What a taken RESTART does at once, with the rebuild that R148 starts. The reports that still wait reach their step 3; their
escalations come to the Exchange Controller after the RESTART and change nothing but their records (R147, R149; log 12). -/
def State.restarted (s : State) (stopped : Bool) : State :=
  let s1 := s.rebuildLinks.rebuildPool
  { s1 with
    exchange := .restarting ⟨stopped, s.ports.map (·.tag)⟩
    ports := .all .active
    fronts := s.fronts.map (·.restarted)
    compose := .all (.all .reset)
    receive := .all (.all .reset)
    events := .all .reset
    queues := []
    integrity := s.integrity.settleAll
    mgmt := { s.mgmt with busy := true } }

/-- RESTART, taken with `stopped` saying that the exchange is STOPPED. -/
def State.restart (s : State) (stopped : Bool) : State := s.completeOpenings.restarted stopped

/-- RESTART is taken in RUNNING and in STOPPED; in the other states the unit is BUSY and refuses it (R147, R177). -/
def restartOwner (s : State) : MgmtOutcome :=
  match s.exchange with
  | .running => { state := s.restart false, result := .pending }
  | .stopped => { state := s.restart true, result := .pending }
  | .init | .restarting _ => { state := s, result := .refusedBusy }

/-! ### Port commands (R150, R158) -/

/-- The checks that RESET_PORT, FENCE_PORT and UNFENCE_PORT share: the port number before any other check, then the exchange
state (R150, R158, R177). -/
def portCommand (f : MgmtFields) (s : State) (act : Port → MgmtOutcome) : MgmtOutcome :=
  match mgmtPort f with
  | none => { state := s, result := .refusedParam }
  | some p =>
    match s.exchange with
    | .running => act p
    | .init | .stopped | .restarting _ => { state := s, result := .refusedState }

/-- RESET_PORT p by p's state (R150). -/
def resetPortOwner (f : MgmtFields) (s : State) : MgmtOutcome :=
  portCommand f s fun p =>
    match s.port p with
    | .active => { state := s.startTeardown p .resetPort .active, result := .ok }
    | .resetting _ => { state := s, result := .ok }
    | .fenced => { state := s, result := .refusedState }

/-- FENCE_PORT p by p's state (R150). -/
def fencePortOwner (f : MgmtFields) (s : State) : MgmtOutcome :=
  portCommand f s fun p =>
    match s.port p with
    | .active | .resetting _ => { state := s.fenceBy p .fencePort, result := .ok }
    | .fenced => { state := s, result := .refusedState }

/-- The PORT_RESET_DONE entry (11.4): 0 PORT_RESET, 1 RESET_PORT, 2 UNFENCE_PORT. -/
def resetDoneEntry (detail : Nat) : EventEntry := ⟨.portResetDone, none, none, detail⟩

/-- UNFENCE_PORT p (R158): a FENCED port becomes ACTIVE and is sent PORT_RESET_DONE. -/
def unfencePortOwner (f : MgmtFields) (s : State) : MgmtOutcome :=
  portCommand f s fun p =>
    match s.port p with
    | .fenced => { state := (s.setPort p .active).sendEvent p (resetDoneEntry 2), result := .ok }
    | .active | .resetting _ => { state := s, result := .refusedState }

/-! ### Pool and timeout settings (R35, R38, R178) -/

/-- The reserve and limit that a parameter carries for one port (11.6). -/
def reserveOf (w : Word) : Nat := bits w 0 16

def limitOf (w : Word) : Nat := bits w 16 16

/-- The three checks of SET_PARTITION (R35). -/
def partitionRefused (params : Quad Word) : Bool :=
  let bad (w : Word) : Bool := decide (2048 < reserveOf w ∨ limitOf w = 0 ∨ 2048 < limitOf w ∨ limitOf w < reserveOf w)
  bad params.q0 || bad params.q1 || bad params.q2 || bad params.q3 ||
    decide (2048 < reserveOf params.q0 + reserveOf params.q1 + reserveOf params.q2 + reserveOf params.q3)

def Share.partitioned (h : Share) (w : Word) : Share := { h with reserve := reserveOf w, limit := limitOf w }

/-- SET_PARTITION (R35). -/
def setPartitionOwner (s : State) : MgmtOutcome :=
  let x := s.mgmt.params
  if partitionRefused x then { state := s, result := .refusedParam }
  else
    { state := { s with shares :=
        ⟨s.shares.q0.partitioned x.q0, s.shares.q1.partitioned x.q1, s.shares.q2.partitioned x.q2,
          s.shares.q3.partitioned x.q3⟩ }
      result := .ok }

/-- SET_POOL_MARKS (R38); the low-water state is not changed. -/
def setPoolMarksOwner (s : State) : MgmtOutcome :=
  let low := bits s.mgmt.params.q0 0 16
  let recover := bits s.mgmt.params.q0 16 16
  if 2047 < low ∨ recover = 0 ∨ 2048 < recover ∨ recover ≤ low then { state := s, result := .refusedParam }
  else { state := s.setPool { s.pool with lowMark := low, recoverMark := recover }, result := .ok }

/-- SET_TIMEOUT p (R178); no timer count changes within the command. -/
def setTimeoutOwner (f : MgmtFields) (s : State) : MgmtOutcome :=
  match mgmtPort f with
  | none => { state := s, result := .refusedParam }
  | some p =>
    let value := bits s.mgmt.params.q0 0 16
    if 255 < value then { state := s, result := .refusedParam }
    else { state := { s with timeouts := s.timeouts.set p value }, result := .ok }

/-! ### Integrity commands (R132, R138, R140, R15) -/

/-- R132: the entry is replaced. A report of a completed request whose class now gives NONE makes its step 3 under the new entry, since
no request follows that would ask for it; the others wait for theirs (log 10). -/
def Integrity.setPolicy (i : Integrity) (c : FaultClass) (e : Escalation) : Integrity :=
  let table := i.policy.put c e
  let x := passRequests table i.waiting i.faults
  { i with policy := table, waiting := x.1, faults := x.2 }

/-- SET_POLICY (R132). -/
def setPolicyOwner (f : MgmtFields) (s : State) : MgmtOutcome :=
  match decodeClass f.a.toNat, decodeEscalation f.b.toNat with
  | some c, some e =>
    { state := s.setIntegrity (s.integrity.setPolicy c e), result := .ok }
  | _, _ => { state := s, result := .refusedParam }

/-- ACK_FAULT (R138): the oldest record leaves the list; the full flag is cleared when the list becomes empty. The reports that wait
know their records by place (log 11). -/
def ackFaultOwner (s : State) : MgmtOutcome :=
  match s.integrity.faults with
  | [] => { state := s, result := .refusedState }
  | r :: rs =>
    { state := s.setIntegrity { s.integrity with
        faults := rs
        full := s.integrity.full && !rs.isEmpty
        waiting := s.integrity.waiting.map fun g => { g with reports := g.reports.map (·.acknowledge) } }
      result := .ok
      detail := some (r.sequence.setWidth 16) }

/-- CLEAR_COUNTERS (R140, R33). -/
def clearCountersOwner (s : State) : MgmtOutcome :=
  { state := { s.setIntegrity { s.integrity with tracking := .all ⟨0, false⟩ } with
      shares := s.shares.map fun h => { h with refused := 0 } }
    result := .ok }

/-- INJECT (R15, R179): the arm is set, replacing an earlier one; the last injection record stays. -/
def injectOwner (f : MgmtFields) (s : State) : MgmtOutcome :=
  match decodeTarget f.a.toNat, decodeKind f.b.toNat with
  | some t, some k => { state := { s with arm := some ⟨t, k⟩ }, result := .ok }
  | _, _ => { state := s, result := .refusedParam }

/-! ### The management command unit (R176) -/

/-- The owner of each management command (R177). -/
def MgmtCommand.owner (k : MgmtCommand) (f : MgmtFields) (s : State) : MgmtOutcome :=
  match k with
  | .restartExchange => restartOwner s
  | .resetPort => resetPortOwner f s
  | .fencePort => fencePortOwner f s
  | .unfencePort => unfencePortOwner f s
  | .setPartition => setPartitionOwner s
  | .setPoolMarks => setPoolMarksOwner s
  | .setTimeout => setTimeoutOwner f s
  | .setPolicy => setPolicyOwner f s
  | .ackFault => ackFaultOwner s
  | .clearCounters => clearCountersOwner s
  | .inject => injectOwner f s

/-- R176: a BUSY unit refuses the word REFUSED_BUSY; an unassigned code is refused REFUSED_PARAM; any other command goes to its
owner. -/
def State.mgmtCommand (s : State) (c : MgmtWord) : State :=
  if s.mgmt.busy then s.mgmtResult c.code .refusedBusy none
  else
    match decodeMgmtCommand c.code with
    | none => s.mgmtResult c.code .refusedParam none
    | some k => State.mgmtOwned (MgmtCommand.owner k c.fields s) c

/-! ### Transactions (R171 to R174) -/

/-- R174: a complete word, by the register that the pointer names. SET_PARTITION assigns every bit of the parameter
words (11.6), so none is ignored (R180; log 27). -/
def State.writeMgmtRegister (s : State) (data : Word) : State :=
  match decodeMgmtRegister s.mgmt.pointer with
  | some (.param k) => s.setMgmt { s.mgmt with params := s.mgmt.params.set k data }
  | some .command => s.mgmtCommand (mgmtWordOf data)
  | some .mintEnable => s.writeMintEnables data
  | some _ => s.mgmtReason .readOnly
  | none => s.mgmtReason .unmapped

/-- R172: the fourth byte of a group completes the word, most significant byte first; it is written to the register that the pointer
names, and the pointer advances. An earlier byte is kept. -/
def State.receiveByte (s : State) (b0 : Byte) : State :=
  match s.mgmt.assembly with
  | [b3, b2, b1] => (s.writeMgmtRegister (joinBytes b3 b2 b1 b0)).mgmtAdvance
  | bs => s.setMgmt { s.mgmt with assembly := bs ++ [b0] }

def State.receiveBytes (s : State) : List Byte → State
  | [] => s
  | b :: bs => (s.receiveByte b).receiveBytes bs

/-- Data bytes of the open write transaction, each acknowledged; outside one they are no bytes for the target (R171, R172). -/
def State.dataBytes (s : State) (bs : List Byte) (finish : State → State) : State :=
  if s.writeOpen then finish ((s.setMgmt { s.mgmt with acknowledged := some true }).receiveBytes bs)
  else s.setMgmt { s.mgmt with acknowledged := some false }

/-- The data bytes of an unfinished word, in the order received. -/
def partBytes : WordPart → List Byte
  | .one b0 => [b0]
  | .two b0 b1 => [b0, b1]
  | .three b0 b1 b2 => [b0, b1, b2]

/-- A write transaction that ends within a word leaves the register and the pointer, and records PARTIAL (R172, R174). -/
def State.endPartial (s : State) : State :=
  (s.mgmtReason .incomplete).setMgmt { (s.mgmtReason .incomplete).mgmt with transaction := .none }

/-- R172: the START, the address byte and the index byte of a write transaction; the index byte sets the pointer and starts a new
word. -/
def State.indexByte (s : State) (addr : BitVec 7) (index : Byte) : State :=
  let s1 := s.startTransaction addr .write
  if s1.writeOpen then s1.setMgmt { s1.mgmt with pointer := index, assembly := [] } else s1

/-- A row of data bytes: one that starts its write transaction, or one within the open one. -/
def State.mgmtData (s : State) (start : Option WriteStart) (bs : List Byte) (finish : State → State) : State :=
  match start with
  | some w => (s.indexByte w.addr w.index).dataBytes bs finish
  | none => s.dataBytes bs finish

/-- A row of one word, its four bytes in the order received. -/
def State.mgmtWord (s : State) (start : Option WriteStart) (b : WordBytes) : State :=
  s.mgmtData start [b.b3, b.b2, b.b1, b.b0] id

/-- A row of one command word (11.6); unassigned bits are sent as 0. -/
def State.commandBytes (s : State) (start : Option WriteStart) (c : MgmtWord) : State :=
  s.mgmtData start (bytesOf c.toWord) id

/-- R173: a whole register is captured, `last + 1` of its bytes are sent, most significant first; after the fourth byte the pointer
advances, and with fewer the transaction has ended. An index assigned to no register reads 0 and records UNMAPPED. -/
def State.sendRegister (s : State) (last : Fin 4) : State :=
  let s1 :=
    match decodeMgmtRegister s.mgmt.pointer with
    | some _ => s
    | none => s.mgmtReason .unmapped
  let value :=
    match decodeMgmtRegister s.mgmt.pointer with
    | some r => s.mgmtRegister r
    | none => 0
  s1.setMgmt { s1.mgmt with
    capture := some value
    sent := (bytesOf value).take (last.val + 1)
    pointer := if last = 3 then s.mgmt.pointer + 1 else s.mgmt.pointer
    transaction := if last = 3 then .read else .none }

/-- A register read in a read transaction: one that this row starts with its address byte, or one that is open. -/
def State.mgmtRead (s : State) (start : Option (BitVec 7)) (last : Fin 4) : State :=
  let s1 :=
    match start with
    | some addr => s.startTransaction addr .read
    | none => s
  if s1.readOpen then s1.sendRegister last else s1

/-- I2C_INDEX_BYTE. -/
def execI2cIndexByte (addr : BitVec 7) (index : Byte) (s : State) : Host.Outcome State Fault Refusal :=
  .next (s.indexByte addr index)

/-- PARTIAL. -/
def execPartialWord (start : Option WriteStart) (bytes : WordPart) (s : State) : Host.Outcome State Fault Refusal :=
  .next (s.mgmtData start (partBytes bytes) (·.endPartial))

/-- MANAGEMENT_UNMAPPED_READ (R173). -/
def execManagementUnmappedRead (start : Option (BitVec 7)) (last : Fin 4) (s : State) :
    Host.Outcome State Fault Refusal :=
  .next (s.mgmtRead start last)

/-- MANAGEMENT_REGISTER_READ (R173). -/
def execManagementRegisterRead (start : Option (BitVec 7)) (last : Fin 4) (s : State) :
    Host.Outcome State Fault Refusal :=
  .next (s.mgmtRead start last)

/-- MANAGEMENT_REGISTER_WRITE (R174). -/
def execManagementRegisterWrite (start : Option WriteStart) (bytes : WordBytes) (s : State) :
    Host.Outcome State Fault Refusal :=
  .next (s.mgmtWord start bytes)

/-- MINT_N_ENABLE_WRITE (R127): a word written to index 0x03 (log 18). -/
def execMintNEnableWrite (start : Option WriteStart) (bytes : WordBytes) (s : State) :
    Host.Outcome State Fault Refusal :=
  .next (s.mgmtWord start bytes)

/-- MANAGEMENT_CODE_INVALID (R176). -/
def execManagementCodeInvalid (start : Option WriteStart) (code : BitVec 8) (f : MgmtFields) (s : State) :
    Host.Outcome State Fault Refusal :=
  .next (s.commandBytes start ⟨code, f⟩)

/-- REFUSED_BUSY (R176). -/
def execRefusedBusy (start : Option WriteStart) (code : BitVec 8) (f : MgmtFields) (s : State) :
    Host.Outcome State Fault Refusal :=
  .next (s.commandBytes start ⟨code, f⟩)

/-- RESTART (R147). -/
def execRestartExchange (start : Option WriteStart) (f : MgmtFields) (s : State) : Host.Outcome State Fault Refusal :=
  .next (s.commandBytes start ⟨MgmtCommand.restartExchange.code, f⟩)

/-- RESET_PORT (R150). -/
def execResetPort (start : Option WriteStart) (f : MgmtFields) (s : State) : Host.Outcome State Fault Refusal :=
  .next (s.commandBytes start ⟨MgmtCommand.resetPort.code, f⟩)

/-- FENCE_PORT (R150). -/
def execFencePort (start : Option WriteStart) (f : MgmtFields) (s : State) : Host.Outcome State Fault Refusal :=
  .next (s.commandBytes start ⟨MgmtCommand.fencePort.code, f⟩)

/-- UNFENCE_PORT (R158). -/
def execUnfencePort (start : Option WriteStart) (f : MgmtFields) (s : State) : Host.Outcome State Fault Refusal :=
  .next (s.commandBytes start ⟨MgmtCommand.unfencePort.code, f⟩)

/-- SET_PARTITION (R35). -/
def execSetPartition (start : Option WriteStart) (f : MgmtFields) (s : State) : Host.Outcome State Fault Refusal :=
  .next (s.commandBytes start ⟨MgmtCommand.setPartition.code, f⟩)

/-- SET_POOL_MARKS (R38). -/
def execSetPoolMarks (start : Option WriteStart) (f : MgmtFields) (s : State) : Host.Outcome State Fault Refusal :=
  .next (s.commandBytes start ⟨MgmtCommand.setPoolMarks.code, f⟩)

/-- SET_TIMEOUT (R178). -/
def execSetTimeout (start : Option WriteStart) (f : MgmtFields) (s : State) : Host.Outcome State Fault Refusal :=
  .next (s.commandBytes start ⟨MgmtCommand.setTimeout.code, f⟩)

/-- SET_POLICY (R132). -/
def execSetPolicy (start : Option WriteStart) (f : MgmtFields) (s : State) : Host.Outcome State Fault Refusal :=
  .next (s.commandBytes start ⟨MgmtCommand.setPolicy.code, f⟩)

/-- ACK_FAULT (R138). -/
def execAckFault (start : Option WriteStart) (f : MgmtFields) (s : State) : Host.Outcome State Fault Refusal :=
  .next (s.commandBytes start ⟨MgmtCommand.ackFault.code, f⟩)

/-- CLEAR_COUNTERS (R140). -/
def execClearCounters (start : Option WriteStart) (f : MgmtFields) (s : State) : Host.Outcome State Fault Refusal :=
  .next (s.commandBytes start ⟨MgmtCommand.clearCounters.code, f⟩)

/-- INJECT (R15, R179). -/
def execInject (start : Option WriteStart) (f : MgmtFields) (s : State) : Host.Outcome State Fault Refusal :=
  .next (s.commandBytes start ⟨MgmtCommand.inject.code, f⟩)

end Sys2Proof.Machine
end

