-- ==== Sys2Proof/Machine/QueueCommands.lean ====
section
/-!
DEFINITION. Meanings of OPEN_QUEUE, MODIFY_QUEUE, CLOSE_QUEUE and QUERY_QUEUE (R45, R47, R48, R60).
-/
namespace Sys2Proof.Machine

/-- The fifth check of MODIFY_QUEUE and the third of OPEN_QUEUE on limit and threshold, with the depth that the limit may not
fall below (R45, R47). -/
def limitsRefused (x : QueueParams) (depth : Nat) : Bool :=
  decide (x.limit = 0 ∨ 1024 < x.limit ∨ x.limit < depth ∨ x.threshold = 0 ∨ x.limit < x.threshold)

/-- The record that OPEN_QUEUE makes (R45). -/
def openedQueue (p : Port) (x : QueueParams) (mode : QueueMode) (policy : FullPolicy) : LiveQueue where
  phase := .opened
  consumer := p
  mask := x.mask
  mode := mode
  policy := policy
  limit := x.limit
  threshold := x.threshold
  armed := true
  depth := 0
  head := none
  tail := none

/-- R45: the checks of OPEN_QUEUE in order, and the opening. -/
def openQueue (p : Port) (f : CommandFields) (s : State) : CommandOutcome :=
  match queueNo f with
  | none => { state := s, code := .refusedParam }
  | some q =>
    match s.queue q with
    | .live _ => { state := s, code := .refusedState }
    | .closed =>
      let x := queueParams (s.front p).params
      match decodeMode x.mode, decodePolicy x.policy with
      | some mode, some policy =>
        if limitsRefused x 0 then { state := s, code := .refusedParam }
        else { state := s.setQueue q (.live (openedQueue p x mode policy)), code := .ok, result1 := .depth 0 }
      | _, _ => { state := s, code := .refusedParam }

/-- The four fields that MODIFY_QUEUE replaces (R47). -/
def LiveQueue.modified (lq : LiveQueue) (x : QueueParams) (policy : FullPolicy) : LiveQueue :=
  { lq with mask := x.mask, policy := policy, limit := x.limit, threshold := x.threshold }

/-- A taken MODIFY_QUEUE with the threshold evaluation of R54. -/
def modifyTaken (s : State) (q : QueueNo) (lq : LiveQueue) (x : QueueParams) (policy : FullPolicy) : State :=
  let after := lq.modified x policy
  let s1 := s.setQueue q (.live after.afterModify)
  if after.ready then s1.sendEvent after.consumer (queueEntry .queueReady q after.depth) else s1

/-- R47: the checks of MODIFY_QUEUE in order, and the replacement. -/
def modifyQueue (p : Port) (f : CommandFields) (s : State) : CommandOutcome :=
  match queueNo f with
  | none => { state := s, code := .refusedParam }
  | some q =>
    match s.queue q with
    | .closed => { state := s, code := .refusedState }
    | .live lq =>
      if lq.consumer ≠ p then { state := s, code := .refusedOwner }
      else
        match lq.phase with
        | .quarantined => { state := s, code := .refusedQuarantined }
        | .draining _ => { state := s, code := .refusedState }
        | .opened =>
          let x := queueParams (s.front p).params
          match decodePolicy x.policy with
          | none => { state := s, code := .refusedParam }
          | some policy =>
            if limitsRefused x lq.depth then { state := s, code := .refusedParam }
            else { state := modifyTaken s q lq x policy, code := .ok, result1 := .depth lq.depth }

/-- R60: the checks of CLOSE_QUEUE in order; the queue closes at once, or its drain starts with result PENDING. -/
def closeQueue (p : Port) (f : CommandFields) (s : State) : CommandOutcome :=
  match queueNo f with
  | none => { state := s, code := .refusedParam }
  | some q =>
    match s.queue q with
    | .closed => { state := s, code := .refusedState }
    | .live lq =>
      if lq.consumer ≠ p then { state := s, code := .refusedOwner }
      else
        match lq.phase with
        | .draining _ => { state := s, code := .refusedState }
        | .quarantined => { state := s.closeAtOnce q lq, code := .ok, result1 := .close 0 lq.depth }
        | .opened =>
          if lq.depth = 0 then { state := s.closeAtOnce q lq, code := .ok, result1 := .close 0 0 }
          else
            { state := s.setQueue q (.live { lq with phase := .draining ⟨p, true, false, 0, 0⟩ })
              code := .pending
              unit := .closing q }

/-- R48: QUERY_QUEUE reports the record of any queue to any port. -/
def queryQueue (f : CommandFields) (s : State) : CommandOutcome :=
  match queueNo f with
  | none => { state := s, code := .refusedParam }
  | some q =>
    { state := s, code := .ok, result1 := .query (s.queue q).tag (s.queue q).depth (s.queue q).queryLive }

/-- OPEN_QUEUE. -/
def execOpenQueue (p : Port) (f : CommandFields) (s : State) : Host.Outcome State Fault Refusal :=
  .next (s.takeCommand p ⟨AgentCommand.openQueue.code, f⟩ (openQueue p f))

/-- MODIFY_QUEUE. -/
def execModifyQueue (p : Port) (f : CommandFields) (s : State) : Host.Outcome State Fault Refusal :=
  .next (s.takeCommand p ⟨AgentCommand.modifyQueue.code, f⟩ (modifyQueue p f))

/-- CLOSE_QUEUE. -/
def execCloseQueue (p : Port) (f : CommandFields) (s : State) : Host.Outcome State Fault Refusal :=
  .next (s.takeCommand p ⟨AgentCommand.closeQueue.code, f⟩ (closeQueue p f))

/-- QUERY_QUEUE. -/
def execQueryQueue (p : Port) (f : CommandFields) (s : State) : Host.Outcome State Fault Refusal :=
  .next (s.takeCommand p ⟨AgentCommand.queryQueue.code, f⟩ (queryQueue f))

end Sys2Proof.Machine
end

