-- ==== Sys2Proof/Machine/ReceiveCommands.lean ====
section
/-!
DEFINITION. Meanings of FETCH, REWIND, RELEASE and the receive aperture accesses (R98 to R113).
-/
namespace Sys2Proof.Machine

/-! ### FETCH -/

/-- The fields that FETCH and REWIND report of a message (R100). -/
def fetchResult (d : DescNo) (m : Message) : Result1 :=
  .fetch ⟨d, m.tag, m.port, m.state, m.poison.isSome, m.linkBroken⟩

/-- A slot filled by a FETCH (R99): read offset 0, the first cell without a link read, the four flags clear. -/
def filledSlot (q : QueueNo) (n : NodeNo) (d : DescNo) (m : Message) : ReceiveSlot :=
  ⟨.holding ⟨q, n, d, 0, m.first⟩, false, false, false, false⟩

/-- R55 to R58: the head reads of a FETCH that passed its checks, and their four outcomes. -/
def detach (s : State) (p : Port) (r : ReceiveNo) (q : QueueNo) (lq : LiveQueue) : CommandOutcome :=
  match s.headNode lq with
  | (s1, h) =>
    match s1.readNode h with
    | (s2, some d, some x) =>
      let s3 := s2.setQueue q (.live (lq.behead x).rearm)
      let m := s3.messageOf d
      { state := s3.setReceiveSlot p r (filledSlot q h d m), code := .ok, result1 := fetchResult d m }
    | (s2, none, some x) =>
      let s3 := (s2.setQueue q (.live (lq.behead x).rearm)).strandNodes 1
      { state := s3.reportContent h .fetch p q .strand, code := .refusedFault }
    | (s2, content, none) =>
      { state := (s2.reportBroken h content .fetch p q).quarantine q lq, code := .refusedFault }

/-- The checks of R55 in order, then the head reads. -/
def fetchFrom (s : State) (p : Port) (r : ReceiveNo) (f : CommandFields) : CommandOutcome :=
  match queueNo f with
  | none => { state := s, code := .refusedParam }
  | some q =>
    match s.queue q with
    | .closed => { state := s, code := .refusedState }
    | .live lq =>
      if lq.consumer ≠ p then { state := s, code := .refusedOwner }
      else
        match lq.phase with
        | .quarantined => { state := s, code := .refusedQuarantined }
        | .draining _ => { state := s, code := .refusedState }
        | .opened =>
          if lq.depth = 0 then { state := s, code := .empty }
          else (detach s p r q lq).completing s.requests

/-- R99: FETCH, the Receive Unit's own checks first. -/
def fetchMessage (p : Port) (f : CommandFields) (s : State) : CommandOutcome :=
  match receiveNo f with
  | none => { state := s, code := .refusedParam }
  | some r =>
    match (s.receiveSlot p r).phase with
    | .holding _ => { state := s, code := .refusedState }
    | .idle => fetchFrom s p r f

/-- FETCH. -/
def execFetchMessage (p : Port) (f : CommandFields) (s : State) : Host.Outcome State Fault Refusal :=
  .next (s.takeCommand p ⟨AgentCommand.fetchMessage.code, f⟩ (fetchMessage p f))

/-! ### REWIND and RELEASE -/

/-- R111: offset 0, the first cell, OVERREAD cleared and the other flags kept. -/
def rewindMessage (p : Port) (f : CommandFields) (s : State) : CommandOutcome :=
  match receiveNo f with
  | none => { state := s, code := .refusedParam }
  | some r =>
    match (s.receiveSlot p r).phase with
    | .idle => { state := s, code := .refusedState }
    | .holding h =>
      let m := s.messageOf h.desc
      { state := s.setReceiveSlot p r
          { s.receiveSlot p r with phase := .holding { h with offset := 0, cell := m.first }, overread := false }
        code := .ok
        result1 := fetchResult h.desc m }

/-- REWIND. -/
def execRewindMessage (p : Port) (f : CommandFields) (s : State) : Host.Outcome State Fault Refusal :=
  .next (s.takeCommand p ⟨AgentCommand.rewindMessage.code, f⟩ (rewindMessage p f))

/-- R112: RELEASE. -/
def releaseMessage (p : Port) (f : CommandFields) (s : State) : CommandOutcome :=
  match receiveNo f with
  | none => { state := s, code := .refusedParam }
  | some r =>
    match (s.receiveSlot p r).phase with
    | .idle => { state := s, code := .refusedState }
    | .holding h =>
      let s1 := s.releaseSlot p r h
      { state := s1, code := .ok, result1 := .message { desc := some h.desc, holders := some (s1.holders h.desc) } }

/-- RELEASE. -/
def execReleaseMessage (p : Port) (f : CommandFields) (s : State) : Host.Outcome State Fault Refusal :=
  .next (s.takeCommand p ⟨AgentCommand.releaseMessage.code, f⟩ (releaseMessage p f))

/-! ### The receive aperture -/

/-- The kinds of finding in a MESSAGE_POISONED detail (11.4). -/
inductive Finding where
  | payload | link
  deriving DecidableEq, Repr

def Finding.value : Finding → Nat
  | .payload => 0
  | .link => 1

/-- R110: the entry sent to the message's source port, naming the source slot, the tag and the reading port. -/
def poisonedEntry (m : Message) (k : Finding) (reader : Port) : EventEntry :=
  ⟨.messagePoisoned, some m.slot.val, some m.tag, k.value + 16 * reader.val⟩

/-- The poison offset after a finding at `o`: the lower one stands (R20). -/
def Message.poisonAt (o : Nat) (m : Message) : Message :=
  { m with poison := some (match m.poison with | some x => min x o | none => o) }

/-- R108 step 3. -/
def Message.breakAt (o : Nat) (m : Message) : Message := { m.poisonAt o with linkBroken := true }

/-- A free cell where the spec names none (R7; log 8). -/
def takeFreeCell (s : State) : State × CellNo := ({ s with fresh := s.fresh + 1 }, Config.freeCell s.fresh)

/-- The cell before any chain advance: the current cell, or d's first cell where it is absent (R103 step 1). A message that
still has words to deliver has a first cell; where it has none the cell is free (log 8). -/
def currentCell (s : State) (h : Holding) (m : Message) : State × CellNo :=
  match h.cell, m.first with
  | some c, _ => (s, c)
  | none, some c => (s, c)
  | none, none => takeFreeCell s

/-- R103 step 1: the cell that holds offset o, with a chain advance where o is a nonzero multiple of 64; `none` for an
uncorrectable link word. A link that holds END gives a free cell (R7; log 8). -/
def findCell (s : State) (h : Holding) (c : CellNo) : State × Option CellNo :=
  if h.offset ≠ 0 ∧ h.offset % 64 = 0 then
    match s.readCellLink c with
    | (s1, some (some x)) => (s1, some x)
    | (s1, some none) => match takeFreeCell s1 with | (s2, x) => (s2, some x)
    | (s1, none) => (s1, none)
  else (s, some c)

/-- R104: the bytes at and beyond the final length are delivered as 0. -/
def fillWord (m : Message) (offset : Nat) (w : Word) : Word :=
  match m.state with
  | .isSealed => BitVec.ofNat 32 (w.toNat % 2 ^ (8 * min 4 (m.readable - offset)))
  | .filling | .abandoned => w

/-- R107: the payload word at the slot's offset is uncorrectable. -/
def foundPoison (s : State) (p : Port) (r : ReceiveNo) (addr : BitVec 16) (h : Holding) (m : Message) (c : CellNo)
    (w : Fin 16) : State :=
  let s1 := s.report ⟨bankOf c, .payload w, c.val, .payloadRead, p, none, some h.desc⟩ .poison
  let s2 := s1.setReceiveSlot p r { s1.receiveSlot p r with poisonHit := true }
  ((s2.updMessage h.desc (Message.poisonAt h.offset)).sendEvent m.port (poisonedEntry m .payload p)).answerError p addr
    .poisoned

/-- R108: the link word of the current cell `c` is uncorrectable. -/
def foundBreak (s : State) (p : Port) (r : ReceiveNo) (addr : BitVec 16) (h : Holding) (m : Message) (c : CellNo) :
    State :=
  let s1 := s.report ⟨.cellLink, .link, c.val, .chainAdvance, p, none, some h.desc⟩ .poison
  let s2 := s1.setReceiveSlot p r { s1.receiveSlot p r with linkHit := true }
  ((s2.updMessage h.desc (Message.breakAt h.offset)).sendEvent m.port (poisonedEntry m .link p)).answerError p addr .link

/-- R103: the delivery of the word at the slot's offset. -/
def deliver (s : State) (p : Port) (r : ReceiveNo) (addr : BitVec 16) (h : Holding) (m : Message) : State :=
  match currentCell s h m with
  | (s0, c0) =>
    match findCell s0 h c0 with
    | (s1, none) => foundBreak s1 p r addr h m c0
    | (s1, some c) =>
      let w : Fin 16 := Fin.ofNat 16 (h.offset % 64 / 4)
      match s1.readPayload c w with
      | (s2, none) => foundPoison s2 p r addr h m c w
      | (s2, some v) =>
        (s2.setReceiveSlot p r
          { s2.receiveSlot p r with phase := .holding { h with offset := h.offset + 4, cell := some c } }).answer p
          (.okayRead (fillWord m h.offset v))

/-- R109: a read at or beyond the poison offset. -/
def poisonedRead (s : State) (p : Port) (r : ReceiveNo) (addr : BitVec 16) (m : Message) : State :=
  if m.linkBroken then
    (s.setReceiveSlot p r { s.receiveSlot p r with linkHit := true }).answerError p addr .link
  else (s.setReceiveSlot p r { s.receiveSlot p r with poisonHit := true }).answerError p addr .poisoned

/-- Whether a read at `o` meets the mark of a poisoned message (R102, first case). -/
def Message.poisonedAt (m : Message) (o : Nat) : Bool :=
  match m.poison with
  | some x => decide (x ≤ o)
  | none => false

/-- R105, R106: a read at or beyond the readable length, by the message's state. -/
def readAtEnd (s : State) (p : Port) (r : ReceiveNo) (addr : BitVec 16) (m : Message) : State :=
  match m.state with
  | .isSealed => (s.setReceiveSlot p r { s.receiveSlot p r with overread := true }).answer p (.okayRead 0)
  | .filling => s.answer p .retry
  | .abandoned =>
    (s.setReceiveSlot p r { s.receiveSlot p r with abandonSeen := true }).answerError p addr .abandoned

/-- R98, R102: a receive aperture read, by the first case that applies. -/
def dataRead (p : Port) (r : ReceiveNo) (addr : BitVec 16) (s : State) : State :=
  match (s.receiveSlot p r).phase with
  | .idle => s.answerError p addr .notHolding
  | .holding h =>
    let m := s.messageOf h.desc
    if m.poisonedAt h.offset then poisonedRead s p r addr m
    else if m.readable ≤ h.offset then readAtEnd s p r addr m
    else (deliver s p r addr h m).completeRequest s.requests

/-- RECEIVE_APERTURE_READ (R98, R102). -/
def execReceiveApertureRead (p : Port) (r : ReceiveNo) (word : BitVec 8) (s : State) :
    Host.Outcome State Fault Refusal :=
  .next (s.acting p (receiveAddress r word) (dataRead p r (receiveAddress r word)))

/-- RECEIVE_APERTURE_WRITE (R98): ERROR with reason APERTURE_WRITE, whatever the slot's state. -/
def execReceiveApertureWrite (p : Port) (r : ReceiveNo) (word : BitVec 8) (_data : Word) (s : State) :
    Host.Outcome State Fault Refusal :=
  .next (s.acting p (receiveAddress r word) (·.answerError p (receiveAddress r word) .apertureWrite))

end Sys2Proof.Machine
end

