-- ==== Sys2Proof/Machine/PortCommands.lean ====
section
/-!
DEFINITION. Meanings of the port register accesses, of accesses that decode refuses, of invalid command codes and of PORT_RESET
(R117, R120, R123, R151, R161 to R166).
-/
namespace Sys2Proof.Machine

/-! ### PORT_RESET and the eleven commands -/

/-- R151, R150: a teardown of the issuing port starts with end state ACTIVE, and the command unit is BUSY. -/
def portReset (p : Port) (s : State) : CommandOutcome :=
  { state := s.startTeardown p .portReset .active, code := .pending, unit := .resetting }

/-- The owner of each command (R166). -/
def AgentCommand.owner (k : AgentCommand) (p : Port) (f : CommandFields) (s : State) : CommandOutcome :=
  match k with
  | .openQueue => openQueue p f s
  | .modifyQueue => modifyQueue p f s
  | .closeQueue => closeQueue p f s
  | .queryQueue => queryQueue f s
  | .beginMessage => beginMessage p f s
  | .sealMessage => sealMessage p f s
  | .abandonMessage => abandonMessage p f s
  | .fetchMessage => fetchMessage p f s
  | .rewindMessage => rewindMessage p f s
  | .releaseMessage => releaseMessage p f s
  | .portReset => portReset p s

/-- R166: a command word goes to the owner of its code; one with no valid code is taken and refused REFUSED_PARAM. -/
def commandOwner (p : Port) (c : CommandWord) (s : State) : CommandOutcome :=
  match decodeAgentCommand c.code with
  | some k => AgentCommand.owner k p c.fields s
  | none => { state := s, code := .refusedParam }

/-- PORT_RESET. -/
def execPortReset (p : Port) (f : CommandFields) (s : State) : Host.Outcome State Fault Refusal :=
  .next (s.takeCommand p ⟨AgentCommand.portReset.code, f⟩ (portReset p))

/-- COMMAND_CODE_INVALID (R166). -/
def execCommandCodeInvalid (p : Port) (code : BitVec 8) (f : CommandFields) (s : State) :
    Host.Outcome State Fault Refusal :=
  .next (s.takeCommand p ⟨code, f⟩ (commandOwner p ⟨code, f⟩))

/-! ### The event registers -/

/-- R120: the pop of the event queue, with the tag latched and the two indications. -/
def popEvent (p : Port) (s : State) : State :=
  let e := s.event p
  match e.queue with
  | [] => (s.setEvent p { e with tagLatch := none }).answer p (.okayRead noEventWord)
  | x :: xs =>
    (s.setEvent p { e with
      queue := xs
      overflow := e.overflow && !xs.isEmpty
      tagLatch := x.tag }).answer p (.okayRead (x.headWord e.overflow (!xs.isEmpty)))

/-- R117: the enable set is replaced, the two fixed kinds staying enabled. -/
def writeEnables (p : Port) (data : Word) (s : State) : State :=
  (s.setEvent p { s.event p with enables := enablesOf data }).answer p .okayWrite

/-- R123: the interrupt enable is bit 0 of the word. -/
def writeInterrupt (p : Port) (data : Word) (s : State) : State :=
  (s.setEvent p { s.event p with interrupt := data.getLsbD 0 }).answer p .okayWrite

/-- EVENT_HEAD_READ (R120). -/
def execEventHeadRead (p : Port) (s : State) : Host.Outcome State Fault Refusal :=
  .next (s.acting p 0x0028 (popEvent p))

/-- EVENT_ENABLE_WRITE (R117). -/
def execEventEnableWrite (p : Port) (data : Word) (s : State) : Host.Outcome State Fault Refusal :=
  .next (s.acting p 0x0034 (writeEnables p data))

/-- INTERRUPT_ENABLE_WRITE (R123). -/
def execInterruptEnableWrite (p : Port) (data : Word) (s : State) : Host.Outcome State Fault Refusal :=
  .next (s.acting p 0x0038 (writeInterrupt p data))

/-! ### Register writes and the general access -/

/-- The bits of PARAM0 to PARAM3 that the parameter table of some command in 11.3 assigns (log 27). -/
def paramBits : Quad Word := ⟨0x0007FFFF, 0xFFFFFFFF, 0xFFFFFFFF, 0⟩

/-- R165: a PARAM word is stored, whether the command unit is IDLE or BUSY; a write to a bit that no table assigns is ignored, and
the bit reads 0 (R180). -/
def writeParam (p : Port) (k : Fin 4) (data : Word) (s : State) : State :=
  (s.setFront p { s.front p with params := (s.front p).params.set k (data &&& paramBits.get k) }).answer p .okayWrite

/-- R165: a register write, by the register it names. -/
def writeRegister (p : Port) (addr : BitVec 16) (reg : PortRegister) (data : Word) (s : State) : State :=
  match reg with
  | .param k => s.acting p addr (writeParam p k data)
  | .command => s.takeCommand p (commandWordOf data) (commandOwner p (commandWordOf data))
  | .eventEnable => s.acting p addr (writeEnables p data)
  | .interruptEnable => s.acting p addr (writeInterrupt p data)
  | .identification | .portStatus | .errorRecord | .result0 | .result1 | .eventHead | .eventTag | .eventStatus
  | .composeStatusA _ | .composeStatusB _ | .receiveStatusA _ | .receiveStatusB _ | .receiveStatusC _
  | .pool _ | .partition _ => s.acting p addr (·.answerError p addr .readOnly)

/-- R162: a status read is answered OKAY in every exchange and port state; the event head read is no status read. -/
def readRegister (p : Port) (addr : BitVec 16) (reg : PortRegister) (s : State) : State :=
  match reg with
  | .eventHead => s.acting p addr (popEvent p)
  | _ => s.answer p (.okayRead (s.portRegister p reg))

/-- R161: an access is decoded before anything else; an address that decode refuses is answered ERROR in every state and
reaches no block, and any other access goes to its target. -/
def decodedAccess (p : Port) (addr : BitVec 16) (access : Access) (s : State) : State :=
  match decodeAddress addr with
  | .misaligned => s.answerError p addr .misaligned
  | .unmapped => s.answerError p addr .unmapped
  | .register reg =>
    match access with
    | .read => readRegister p addr reg s
    | .write data => writeRegister p addr reg data s
  | .compose c =>
    match access with
    | .read => s.acting p addr (·.answerError p addr .apertureRead)
    | .write data => s.acting p addr (dataWrite p c addr data)
  | .receive r =>
    match access with
    | .read => s.acting p addr (dataRead p r addr)
    | .write _ => s.acting p addr (·.answerError p addr .apertureWrite)

/-- An access of port p, taken once the one before it is answered (R160). -/
def agentAccess (p : Port) (addr : BitVec 16) (access : Access) (s : State) : State :=
  s.oneAccess p (decodedAccess p addr access)

/-- ACCESS_DECODE_ERROR (R161). A term whose address decode does not refuse is no such command (WellFormed); it stands for the
access that it spells (log 18). -/
def execAccessDecodeError (p : Port) (addr : BitVec 16) (access : Access) (s : State) :
    Host.Outcome State Fault Refusal :=
  .next (agentAccess p addr access s)

/-- REGISTER_WRITE (R165). -/
def execRegisterWrite (p : Port) (offset : BitVec 16) (data : Word) (s : State) : Host.Outcome State Fault Refusal :=
  .next (agentAccess p offset (.write data) s)

end Sys2Proof.Machine
end

