-- ==== Sys2Proof/Machine/Reset.lean ====
section
/-!
DEFINITION. Meanings of the reset and rebuild commands: RESET_N_ASSERT, RESET_N_RELEASE, INIT_REBUILD_END and
RESTART_REBUILD_END (R146, R148).
-/
namespace Sys2Proof.Machine

/-- RESET_N_ASSERT (R146): INIT, all work in progress discarded, every record at its power-on value; MA[1:0] is sampled
(R171). -/
def execResetNAssert (ma : BitVec 2) (s : State) : Host.Outcome State Fault Refusal :=
  .next { State.reset with ma := ma, fresh := s.fresh, pending := s.pending }

/-- RESET_N_RELEASE (R146): the initial rebuild starts, setting the link words and the Pool Manager's items (R17, R41), and the
management command unit is BUSY (R176). Without RESET_N asserted there is nothing to release (log 9). -/
def execResetNRelease (s : State) : Host.Outcome State Fault Refusal :=
  if s.resetAsserted then
    let s1 := s.rebuildLinks.rebuildPool
    .next { s1 with resetAsserted := false, mgmt := { s1.mgmt with busy := true } }
  else .next s

/-- INIT_REBUILD_END (R146): the exchange becomes RUNNING and the management command unit IDLE; no event is sent. -/
def execInitRebuildEnd (s : State) : Host.Outcome State Fault Refusal :=
  if s.resetAsserted then .next s
  else
    match s.exchange with
    | .init => .next { s with exchange := .running, mgmt := { s.mgmt with busy := false } }
    | .running | .stopped | .restarting _ => .next s

/-- The EXCHANGE_RESTARTED entry of one port: from which state the RESTART was taken, and that port's state then (R148, 11.4). -/
def restartedEntry (o : RestartOrigin) (p : Port) : EventEntry :=
  ⟨.exchangeRestarted, none, none, boolBit o.stopped + 16 * (o.ports.get p).value⟩

/-- RESTART_REBUILD_END (R148): RUNNING, the result of the RESTART shows OK under its code (R176), and EXCHANGE_RESTARTED goes
to every port. -/
def execRestartRebuildEnd (s : State) : Host.Outcome State Fault Refusal :=
  match s.exchange with
  | .restarting o =>
    let s1 : State := { s with
      exchange := .running
      mgmt := { s.mgmt with busy := false, result := ⟨some MgmtCommand.restartExchange.code, .ok, none⟩ } }
    .next ((((s1.sendEvent 0 (restartedEntry o 0)).sendEvent 1 (restartedEntry o 1)).sendEvent 2
      (restartedEntry o 2)).sendEvent 3 (restartedEntry o 3))
  | .init | .running | .stopped => .next s

end Sys2Proof.Machine
end

