-- ==== Sys2Proof/Machine/Teardown.lean ====
section
/-!
DEFINITION. Meanings of the steps that the block makes of itself: DRAIN_STEP (R61 to R63), the escalation requests FENCE_REQUEST
and STOP_REQUEST (R130, R133, R134), and the steps of a teardown (R152 to R155). A step that is not due changes nothing (log 9).
-/
namespace Sys2Proof.Machine

/-! ### Drains (R61 to R64) -/

/-- The record of a DRAINING queue after a drain step, or the close of the queue when no node is left. -/
def State.drainOn (s : State) (q : QueueNo) (lq : LiveQueue) (c : CloseRecord) : State :=
  if lq.depth = 0 then s.finishClose q lq.consumer c
  else s.setQueue q (.live { lq with phase := .draining c })

/-- R61 for head node `h` with content `d` and link `x`: the node returns to the free list and the holder count falls. -/
def State.drainNode (s : State) (q : QueueNo) (lq : LiveQueue) (c : CloseRecord) (h : NodeNo) (d : DescNo)
    (x : NodeLink) : State :=
  ((s.returnNode h).dropHolder d).drainOn q (lq.behead x) { c with drained := c.drained + 1 }

/-- R62: the content word of `h` is uncorrectable; the node is stranded and the drain goes on. -/
def State.drainStrand (s : State) (q : QueueNo) (lq : LiveQueue) (c : CloseRecord) (h : NodeNo) (x : NodeLink) : State :=
  ((s.strandNodes 1).reportContent h .drain c.owner q .strand).drainOn q (lq.behead x)
    { c with stranded := c.stranded + 1 }

/-- R63: the link word of `h` is uncorrectable; the queue is quarantined and closed within the step, its depth stranded. -/
def State.drainBroken (s : State) (q : QueueNo) (lq : LiveQueue) (c : CloseRecord) (h : NodeNo)
    (content : Option DescNo) : State :=
  (((s.reportBroken h content .drain c.owner q).quarantine q lq).strandNodes lq.depth).finishClose q lq.consumer
    { c with stranded := c.stranded + lq.depth }

/-- One drain step of a DRAINING queue that still lists nodes. -/
def State.drainHead (s : State) (q : QueueNo) (lq : LiveQueue) (c : CloseRecord) : State :=
  match s.headNode lq with
  | (s1, h) =>
    match s1.readNode h with
    | (s2, some d, some x) => s2.drainNode q lq c h d x
    | (s2, none, some x) => s2.drainStrand q lq c h x
    | (s2, content, none) => s2.drainBroken q lq c h content

/-- DRAIN_STEP (R61), made only while the exchange is RUNNING (R44). -/
def execDrainStep (q : QueueNo) (s : State) : Host.Outcome State Fault Refusal :=
  match s.exchange, s.queue q with
  | .running, .live lq =>
    match lq.phase with
    | .draining c =>
      if lq.depth = 0 then .next (s.finishClose q lq.consumer c)
      else .next ((s.drainHead q lq c).completeRequest s.requests)
    | .opened | .quarantined => .next s
  | _, _ => .next s

/-! ### Escalations (R130 step 3, R131 to R134, R141) -/

/-- Step 3 for an escalation request `e` (R130, R131): the report that `escalate` finds, and the state with the requests and records
that it leaves; none where no completed request asks for `e` next. -/
def State.escalation (s : State) (e : Escalation) : Option (Port × State) :=
  (escalate s.integrity.policy e s.integrity.waiting s.integrity.faults).map fun x =>
    (x.1.port, s.setIntegrity { s.integrity with waiting := x.2.1, faults := x.2.2 })

/-- FENCE_REQUEST (R133): step 3 of a report whose class now gives FENCE. Where none waits for it, no such request is made (log 9). -/
def execFenceRequest (s : State) : Host.Outcome State Fault Refusal :=
  match s.escalation .fence with
  | some (p, s1) => .next (s1.fenceRequested p)
  | none => .next s

/-- STOP_REQUEST (R134, R149): step 3 of a report whose class now gives STOP. -/
def execStopRequest (s : State) : Host.Outcome State Fault Refusal :=
  match s.escalation .stop with
  | some (_, s1) => .next s1.stopRequested
  | none => .next s

/-! ### The steps of a teardown (R152 to R155) -/

/-- A request that named port p stands between two of its escalations: no teardown step of p comes in between (R141). -/
def State.betweenEscalations (s : State) (p : Port) : Bool :=
  s.integrity.waiting.any fun g => decide (g.stage = .escalating ∧ (g.reports.head?).map (·.port) = some p)

/-- The teardown record of port p, where its step is `n`, the exchange is RUNNING, no escalation stands in between, and no request of p
that was taken before the teardown is still to complete (R152; log 29). -/
def State.teardownAt (s : State) (p : Port) (n : Nat) : Option Teardown :=
  match s.exchange, s.port p with
  | .running, .resetting t =>
    if t.step = n ∧ s.betweenEscalations p = false ∧ (s.front p).opening = none then some t else none
  | _, _ => none

/-- The record after its step has taken the slot or queue number at the cursor; the last number leads to the next step. -/
def Teardown.advance (t : Teardown) (last : Nat) : Teardown :=
  if t.cursor < last then { t with cursor := t.cursor + 1, queue := none, reported := false }
  else { t with step := t.step + 1, cursor := 0, queue := none, reported := false }

def State.setTeardown (s : State) (p : Port) (t : Teardown) : State := s.setPort p (.resetting t)

/-- R96: a teardown abandon of slot `c`: abandoned as by ABANDON where it is FILLING or HELD, and its two flags cleared. -/
def State.teardownAbandonSlot (s : State) (p : Port) (c : ComposeNo) : State :=
  let s1 :=
    match (s.composeSlot p c).phase.composing with
    | some k => s.abandonSlot p c k
    | none => s
  s1.setComposeSlot p c { s1.composeSlot p c with starved := false, lengthError := false }

/-- TEARDOWN_ABANDON: step 1 for the next compose slot. -/
def execTeardownAbandon (p : Port) (s : State) : Host.Outcome State Fault Refusal :=
  match s.teardownAt p 1 with
  | some t => .next ((s.teardownAbandonSlot p (Fin.ofNat 4 t.cursor)).setTeardown p (t.advance 3))
  | none => .next s

/-- R113: a teardown release of slot `r`: released as by RELEASE where it is HOLDING, and its four flags cleared. -/
def State.teardownReleaseSlot (s : State) (p : Port) (r : ReceiveNo) : State :=
  let s1 :=
    match (s.receiveSlot p r).phase with
    | .holding h => s.releaseSlot p r h
    | .idle => s
  s1.setReceiveSlot p r
    { s1.receiveSlot p r with overread := false, poisonHit := false, abandonSeen := false, linkHit := false }

/-- TEARDOWN_RELEASE: step 2 for the next receive slot. -/
def execTeardownRelease (p : Port) (s : State) : Host.Outcome State Fault Refusal :=
  match s.teardownAt p 2 with
  | some t => .next ((s.teardownReleaseSlot p (Fin.ofNat 2 t.cursor)).setTeardown p (t.advance 1))
  | none => .next s

/-- R153: the close request of a teardown of port p for queue `q`, with the teardown record `t`: closed at once, draining, joined,
or no effect. -/
def State.teardownCloseQueue (s : State) (p : Port) (t : Teardown) (q : QueueNo) : State :=
  match s.queue q with
  | .closed => s.setTeardown p (t.advance 31)
  | .live lq =>
    if lq.consumer ≠ p then s.setTeardown p (t.advance 31)
    else
      match lq.phase with
      | .quarantined => (s.closeAtOnce q lq).setTeardown p (t.advance 31)
      | .opened =>
        if lq.depth = 0 then (s.closeAtOnce q lq).setTeardown p (t.advance 31)
        else
          (s.setQueue q (.live { lq with phase := .draining ⟨p, false, true, 0, 0⟩ })).setTeardown p
            { t with queue := some q, reported := false }
      | .draining c =>
        (s.setQueue q (.live { lq with phase := .draining { c with teardown := true } })).setTeardown p
          { t with queue := some q, reported := false }

/-- TEARDOWN_CLOSE: step 3 for the next queue number, while no close is in progress. -/
def execTeardownClose (p : Port) (s : State) : Host.Outcome State Fault Refusal :=
  match s.teardownAt p 3 with
  | some t =>
    match t.queue with
    | none => .next (s.teardownCloseQueue p t (Fin.ofNat 32 t.cursor))
    | some _ => .next s
  | none => .next s

/-- TEARDOWN_CLOSE_COMPLETE: the completion report is taken, and the teardown goes on to the next queue number (R153). -/
def execTeardownCloseComplete (p : Port) (s : State) : Host.Outcome State Fault Refusal :=
  match s.teardownAt p 3 with
  | some t => if t.reported then .next (s.setTeardown p (t.advance 31)) else .next s
  | none => .next s

/-- R154: the command unit becomes IDLE; for origin PORT_RESET its results are OK and absent, otherwise they keep their values. -/
def FrontEnd.tornDown (f : FrontEnd) (origin : TeardownOrigin) : FrontEnd :=
  match origin with
  | .portReset => { f with unit := .idle, result0 := .ok, result1 := .absent }
  | .resetPort | .fencePort | .escalation => { f with unit := .idle }

/-- TEARDOWN_EVENT_RESET (R154, R125): the port's event state returns to its defaults and its command unit to IDLE. -/
def execTeardownEventReset (p : Port) (s : State) : Host.Outcome State Fault Refusal :=
  match s.teardownAt p 4 with
  | some t =>
    .next (((s.setEvent p .reset).setFront p ((s.front p).tornDown t.origin)).setTeardown p { t with step := 5 })
  | none => .next s

/-- TEARDOWN_END (R155): the port takes its end state; one that ends ACTIVE is sent PORT_RESET_DONE with its origin. -/
def execTeardownEnd (p : Port) (s : State) : Host.Outcome State Fault Refusal :=
  match s.teardownAt p 5 with
  | some t =>
    match t.endState with
    | .active => .next ((s.setPort p .active).sendEvent p (resetDoneEntry t.origin.value))
    | .fenced => .next (s.setPort p .fenced)
  | none => .next s

end Sys2Proof.Machine
end

