-- ==== Sys2Proof/Machine/Timers.lean ====
section
/-!
DEFINITION. Meanings of UNIT_BOUNDARY and TIMER_EXPIRY (R92 to R94).
-/
namespace Sys2Proof.Machine

/-- One unit boundary at a slot's timer, where `t` is T(p) and `counting` says that the exchange is RUNNING and the port ACTIVE:
held at 0 while T(p) is 0, otherwise advanced; a count advanced to T(p) + 1 or beyond expires (R92; log 13, log 14). -/
def Composing.tick (k : Composing) (t : Nat) (counting : Bool) : Composing :=
  if t = 0 then { k with timer := 0 }
  else if counting && !k.due then { k with timer := k.timer + 1, due := decide (t < k.timer + 1) }
  else k

def ComposeSlot.tick (x : ComposeSlot) (t : Nat) (counting : Bool) : ComposeSlot :=
  match x.phase with
  | .idle => x
  | .filling k => { x with phase := .filling (k.tick t counting) }
  | .held k n => { x with phase := .held (k.tick t counting) n }

/-- Whether the compose timers of port p count: the exchange is RUNNING and p is ACTIVE (R92). -/
def State.counting (s : State) (p : Port) : Bool :=
  decide (s.exchange = .running) && decide (s.port p = .active)

/-- The four slots of port p at a unit boundary. -/
def State.tickedSlots (s : State) (p : Port) : Quad ComposeSlot :=
  (s.compose.get p).map fun x => x.tick (s.timeouts.get p) (s.counting p)

/-- UNIT_BOUNDARY (R92): each Compose Unit receives the boundary. -/
def execUnitBoundary (s : State) : Host.Outcome State Fault Refusal :=
  .next { s with compose := ⟨s.tickedSlots 0, s.tickedSlots 1, s.tickedSlots 2, s.tickedSlots 3⟩ }

/-- The SLOT_EXPIRED entry (R93, 11.4): bit 0 the state at expiry, bit 1 the starved indication. -/
def expiredEntry (c : ComposeNo) (tag : BitVec 16) (held starved : Bool) : EventEntry :=
  ⟨.slotExpired, some c.val, some tag, boolBit held + 2 * boolBit starved⟩

/-- An expired slot is abandoned as by ABANDON, and SLOT_EXPIRED goes to its own port (R93). -/
def expireSlot (s : State) (p : Port) (c : ComposeNo) (k : Composing) (held : Bool) : State :=
  (s.abandonSlot p c k).sendEvent p
    (expiredEntry c (s.messageOf k.desc).tag held (s.composeSlot p c).starved)

/-- TIMER_EXPIRY (R93): taken for a slot whose timer has expired, while the exchange is RUNNING, the port ACTIVE and no BEGIN of it
between its link requests (R77; log 29); otherwise there is no expiry to take (log 9). -/
def execTimerExpiry (p : Port) (c : ComposeNo) (s : State) : Host.Outcome State Fault Refusal :=
  if s.counting p && (s.front p).opening.isNone then
    match (s.composeSlot p c).phase with
    | .idle => .next s
    | .filling k => if k.due then .next (expireSlot s p c k false) else .next s
    | .held k _ => if k.due then .next (expireSlot s p c k true) else .next s
  else .next s

end Sys2Proof.Machine
end

