-- ==== Sys2Proof/Machine/Dispatch.lean ====
section
/-!
DEFINITION. One arm for each command: a direct call of its meaning.
-/
namespace Sys2Proof.Machine

/-- The effect of a command on everything but the queue of waiting commands. -/
def exec (i : Instr) (s : State) : Host.Outcome State Fault Refusal :=
  match i with
  | .resetNAssert ma => Sys2Proof.Machine.execResetNAssert ma s
  | .resetNRelease => Sys2Proof.Machine.execResetNRelease s
  | .initRebuildEnd => Sys2Proof.Machine.execInitRebuildEnd s
  | .restartRebuildEnd => Sys2Proof.Machine.execRestartRebuildEnd s
  | .accessDecodeError p addr access => Sys2Proof.Machine.execAccessDecodeError p addr access s
  | .registerWrite p offset data => Sys2Proof.Machine.execRegisterWrite p offset data s
  | .commandCodeInvalid p code f => Sys2Proof.Machine.execCommandCodeInvalid p code f s
  | .openQueue p f => Sys2Proof.Machine.execOpenQueue p f s
  | .modifyQueue p f => Sys2Proof.Machine.execModifyQueue p f s
  | .closeQueue p f => Sys2Proof.Machine.execCloseQueue p f s
  | .queryQueue p f => Sys2Proof.Machine.execQueryQueue p f s
  | .beginMessage p f => Sys2Proof.Machine.execBeginMessage p f s
  | .sealMessage p f => Sys2Proof.Machine.execSealMessage p f s
  | .abandonMessage p f => Sys2Proof.Machine.execAbandonMessage p f s
  | .fetchMessage p f => Sys2Proof.Machine.execFetchMessage p f s
  | .rewindMessage p f => Sys2Proof.Machine.execRewindMessage p f s
  | .releaseMessage p f => Sys2Proof.Machine.execReleaseMessage p f s
  | .portReset p f => Sys2Proof.Machine.execPortReset p f s
  | .composeApertureWrite p c word data => Sys2Proof.Machine.execComposeApertureWrite p c word data s
  | .composeApertureRead p c word => Sys2Proof.Machine.execComposeApertureRead p c word s
  | .receiveApertureRead p r word => Sys2Proof.Machine.execReceiveApertureRead p r word s
  | .receiveApertureWrite p r word data => Sys2Proof.Machine.execReceiveApertureWrite p r word data s
  | .eventHeadRead p => Sys2Proof.Machine.execEventHeadRead p s
  | .eventEnableWrite p data => Sys2Proof.Machine.execEventEnableWrite p data s
  | .interruptEnableWrite p data => Sys2Proof.Machine.execInterruptEnableWrite p data s
  | .i2cIndexByte addr index => Sys2Proof.Machine.execI2cIndexByte addr index s
  | .partialWord start bytes => Sys2Proof.Machine.execPartialWord start bytes s
  | .managementUnmappedRead start last => Sys2Proof.Machine.execManagementUnmappedRead start last s
  | .managementRegisterWrite start bytes => Sys2Proof.Machine.execManagementRegisterWrite start bytes s
  | .mintNEnableWrite start bytes => Sys2Proof.Machine.execMintNEnableWrite start bytes s
  | .managementCodeInvalid start code f => Sys2Proof.Machine.execManagementCodeInvalid start code f s
  | .refusedBusy start code f => Sys2Proof.Machine.execRefusedBusy start code f s
  | .restartExchange start f => Sys2Proof.Machine.execRestartExchange start f s
  | .resetPort start f => Sys2Proof.Machine.execResetPort start f s
  | .fencePort start f => Sys2Proof.Machine.execFencePort start f s
  | .unfencePort start f => Sys2Proof.Machine.execUnfencePort start f s
  | .setPartition start f => Sys2Proof.Machine.execSetPartition start f s
  | .setPoolMarks start f => Sys2Proof.Machine.execSetPoolMarks start f s
  | .setTimeout start f => Sys2Proof.Machine.execSetTimeout start f s
  | .setPolicy start f => Sys2Proof.Machine.execSetPolicy start f s
  | .ackFault start f => Sys2Proof.Machine.execAckFault start f s
  | .clearCounters start f => Sys2Proof.Machine.execClearCounters start f s
  | .inject start f => Sys2Proof.Machine.execInject start f s
  | .unitBoundary => Sys2Proof.Machine.execUnitBoundary s
  | .timerExpiry p c => Sys2Proof.Machine.execTimerExpiry p c s
  | .drainStep q => Sys2Proof.Machine.execDrainStep q s
  | .fenceRequest => Sys2Proof.Machine.execFenceRequest s
  | .stopRequest => Sys2Proof.Machine.execStopRequest s
  | .teardownAbandon p => Sys2Proof.Machine.execTeardownAbandon p s
  | .teardownRelease p => Sys2Proof.Machine.execTeardownRelease p s
  | .teardownClose p => Sys2Proof.Machine.execTeardownClose p s
  | .teardownCloseComplete p => Sys2Proof.Machine.execTeardownCloseComplete p s
  | .teardownEventReset p => Sys2Proof.Machine.execTeardownEventReset p s
  | .teardownEnd p => Sys2Proof.Machine.execTeardownEnd p s
  | .managementRegisterRead start last => Sys2Proof.Machine.execManagementRegisterRead start last s

end Sys2Proof.Machine
end

