-- ==== Sys2Proof/Safety.lean ====
section
/-!
DEFINITION. What counts as a safe step and a safe state, in the terms the claims use.
-/
namespace Sys2Proof.Machine

/-- A command runs to a next state: no fault and no refusal. -/
def Completes (i : Instr) (s : State) : Prop := ∃ t, exec i s = .next t

/-- The bounds that the records of one port's event part keep: at most 16 entries, an overflow flag only on a non-empty queue,
and the two fixed kinds enabled (R115, R117, R118). -/
def EventPort.Bounded (e : EventPort) : Prop :=
  e.queue.length ≤ Config.eventQueueSize ∧ (e.overflow = true → e.queue ≠ []) ∧
    e.enabled .portResetDone = true ∧ e.enabled .exchangeRestarted = true

def State.EventsBounded (s : State) : Prop := ∀ p : Port, (s.event p).Bounded

/-- The fault list holds 0 to 4 records, the record of a waiting report stands in it, the full flag stands only on a non-empty list, and
each tracking counter holds 0 to 255 (R14, R135, R137). -/
def State.IntegrityBounded (s : State) : Prop :=
  s.integrity.faults.length ≤ Config.faultListSize ∧
    (∀ g ∈ s.integrity.waiting, ∀ w ∈ g.reports, ∀ k, w.record = some k → k < s.integrity.faults.length) ∧
    (s.integrity.full = true → s.integrity.faults ≠ []) ∧
    ∀ m : MemoryName, (s.tracking m).count ≤ 255

/-- The port states that each exchange state allows: every port FENCED while STOPPED, every port ACTIVE while INIT or
RESTARTING (R145, R149, R169); the management command unit BUSY exactly while a rebuild runs (R176). -/
def State.ControlLegal (s : State) : Prop :=
  (s.exchange = .stopped → ∀ p, s.port p = .fenced) ∧
    ((s.exchange ≠ .running ∧ s.exchange ≠ .stopped) → ∀ p, s.port p = .active) ∧
    (s.resetAsserted = true → s.exchange = .init) ∧
    (s.mgmt.busy = true ↔ s.resetAsserted = false ∧ s.exchange ≠ .running ∧ s.exchange ≠ .stopped)

/-- The depths of all queues, added (R36). -/
def State.totalDepth (s : State) : Nat := ((List.finRange 32).map fun q => (s.queue q).depth).sum

/-- The number of HOLDING receive slots (R36). -/
def State.holdingSlots (s : State) : Nat :=
  ((List.finRange 4).map fun p => ((List.finRange 2).map fun r =>
    if (s.receiveSlot p r).phase.holds.isSome then 1 else 0).sum).sum

/-- The node conservation law of R36. -/
def State.NodesConserved (s : State) : Prop :=
  s.pool.freeNodes + s.totalDepth + s.holdingSlots + s.pool.strandedNodes = 1024

/-- The cells of all descriptors, added (R24). -/
def Descriptor.cells : Descriptor → Nat
  | .free => 0
  | .live m => m.cells

def State.totalCells (s : State) : Nat := ((List.finRange 512).map fun d => (s.desc d).cells).sum

/-- The cell conservation law of R24. -/
def State.CellsConserved (s : State) : Prop :=
  s.pool.freeCells + s.totalCells + s.pool.strandedCells = 2048

/-- While a rebuild runs no queue is open and no receive slot holds a node (R42, R97); RESET_N is asserted only in INIT. With
the canonical tables and the node conservation law this is kept by every command. -/
def State.NodesAccounted (s : State) : Prop :=
  s.memoriesWf = true ∧ s.NodesConserved ∧ (s.resetAsserted = true → s.exchange = .init) ∧
    ((s.exchange ≠ .running ∧ s.exchange ≠ .stopped) →
      (∀ q, s.queue q = .closed) ∧ ∀ p r, (s.receiveSlot p r).phase = .idle)

/-- The cells of the descriptors whose source port is p, added (R31). -/
def State.cellsOf (s : State) (p : Port) : Nat :=
  ((List.finRange 512).map fun d =>
    match s.desc d with
    | .free => 0
    | .live m => if m.port = p then m.cells else 0).sum

/-- Each port is charged the cells of its messages (R31). -/
def State.ChargesCounted (s : State) : Prop := ∀ p, (s.share p).charged = s.cellsOf p

/-- The number of compose slots in FILLING or HELD that hold descriptor d (R21). -/
def State.composeHolds (s : State) (d : DescNo) : Nat :=
  ((List.finRange 4).map fun p => ((List.finRange 4).map fun c =>
    if (s.composeSlot p c).phase.composing.map (·.desc) = some d then 1 else 0).sum).sum

/-- The number of receive slots that hold a node naming descriptor d (R21). -/
def State.receiveHolds (s : State) (d : DescNo) : Nat :=
  ((List.finRange 4).map fun p => ((List.finRange 2).map fun r =>
    if (s.receiveSlot p r).phase.holds.map (·.desc) = some d then 1 else 0).sum).sum

/-- What the tables of the pool, of the slots and of the queues have to do with each other (R18, R19, R21, R71, R97): the FIFO holds
the FREE descriptors, each once; a non-FREE descriptor has a holder and distinct destinations; a compose slot composes a
message of its own port; the slots that hold a descriptor are among its holders; no slot or queue is in use outside RUNNING and
STOPPED. -/
def State.DescriptorsAccounted (s : State) : Prop :=
  s.memoriesWf = true ∧ s.pool.fifo.Nodup ∧ (∀ d, d ∈ s.pool.fifo ↔ s.desc d = .free) ∧
    (∀ d m, s.desc d = .live m → 1 ≤ m.holders ∧ (m.dests.map (·.queue)).Nodup) ∧
    (∀ p c k, (s.composeSlot p c).phase.composing = some k → ∃ m, s.desc k.desc = .live m ∧ m.port = p) ∧
    (∀ d, s.composeHolds d + s.receiveHolds d ≤ s.holders d) ∧
    (s.resetAsserted = true → s.exchange = .init) ∧
    ((s.exchange ≠ .running ∧ s.exchange ≠ .stopped) →
      (∀ q, s.queue q = .closed) ∧ (∀ p r, (s.receiveSlot p r).phase = .idle) ∧
        ∀ p c, (s.composeSlot p c).phase = .idle)

/-- A queue that lists nodes has a head, and the descriptor that its content word names counts a holder for it beside the slots that
hold that descriptor (R21, R56). -/
def State.HeadsCounted (s : State) : Prop :=
  ∀ q lq, s.queue q = .live lq → lq.depth ≠ 0 → ∃ h, lq.head = some h ∧
    ∀ d, ((s.contentWord h).check = .clean d ∨ (s.contentWord h).check = .corrected d) →
      s.composeHolds d + s.receiveHolds d < s.holders d

/-! ### The lists of the two link memories -/

/-- From `head` the link values written run through the cells `cs` to END (R2, R24). -/
def State.cellRun (s : State) : CellLink → List CellNo → Prop
  | head, [] => head = none
  | head, c :: cs => head = some c ∧ s.cellRun (s.cellLinkWord c).written cs

/-- The same for the nodes `ns` (R3, R29). -/
def State.nodeRun (s : State) : NodeLink → List NodeNo → Prop
  | head, [] => head = none
  | head, n :: ns => head = some n ∧ s.nodeRun (s.nodeLinkWord n).written ns

/-- The cell free list and the chains of the messages run through distinct cells, with their heads, tails and counts (R18, R24, R25, R28), and
no link word holds more than two inverted bits. -/
def State.CellsLaidOut (s : State) : Prop :=
  (∀ c, (s.cellLinkWord c).inverted.length ≤ 2) ∧
    ∃ (free : List CellNo) (chain : DescNo → List CellNo),
      s.cellRun s.pool.cellHead free ∧ s.pool.cellTail = free.getLast? ∧ s.pool.freeCells = free.length ∧
      (∀ d, s.desc d = .free → chain d = []) ∧
      (∀ d m, s.desc d = .live m →
        s.cellRun m.first (chain d) ∧ m.last = (chain d).getLast? ∧ m.cells = (chain d).length) ∧
      (free ++ (List.finRange 512).flatMap chain).Nodup

/-- The nodes that receive slots hold (R97). -/
def State.heldNodes (s : State) : List NodeNo :=
  (List.finRange 4).flatMap fun p => (List.finRange 2).filterMap fun r => (s.receiveSlot p r).phase.holds.map (·.node)

/-- The node free list and the lists of the queues run through distinct nodes that no receive slot holds, with their heads, tails and
counts (R29, R42, R51, R56); no word of a node holds more than two inverted bits; and the nodes listed for a descriptor are among
its holders, beside the slots that hold it (R21). -/
def State.NodesLaidOut (s : State) : Prop :=
  (∀ n, (s.nodeLinkWord n).inverted.length ≤ 2 ∧ (s.contentWord n).inverted.length ≤ 2) ∧
    ∃ (free : List NodeNo) (list : QueueNo → List NodeNo),
      s.nodeRun s.pool.nodeHead free ∧ s.pool.nodeTail = free.getLast? ∧ s.pool.freeNodes = free.length ∧
      (∀ q, s.queue q = .closed → list q = []) ∧
      (∀ q lq, s.queue q = .live lq →
        s.nodeRun lq.head (list q) ∧ lq.tail = (list q).getLast? ∧ lq.depth = (list q).length) ∧
      (free ++ (List.finRange 32).flatMap list ++ s.heldNodes).Nodup ∧
      ∀ d, s.composeHolds d + s.receiveHolds d +
        (((List.finRange 32).flatMap list).filter fun n => decide ((s.contentWord n).written = d)).length ≤ s.holders d

/-! ### Who is heard, and in which state -/

/-- An acting access of port p is taken, and handed to its target (R163, last row): no BEGIN of p stands between its link requests (R160;
log 29). -/
def State.Serves (s : State) (p : Port) : Prop :=
  s.exchange = .running ∧ s.port p = .active ∧ (s.front p).opening = none

/-- A command word written by port p's agent is taken by an IDLE command unit (R163, R166). -/
def State.Ready (s : State) (p : Port) : Prop := s.Serves p ∧ (s.front p).unit = .idle

/-- The I2C target acknowledges address byte `addr`: RESET_N is released and the address is 0x38 plus MA[1:0] (R171). -/
def State.Hears (s : State) (addr : BitVec 7) : Prop := s.resetAsserted = false ∧ addr = 0x38 + s.ma.setWidth 7

/-- A write transaction is open, at the start of a word: the next data byte is the first of the word for the register that the index
pointer names (R172). -/
def State.AtWord (s : State) : Prop :=
  s.resetAsserted = false ∧ s.mgmt.transaction = .write ∧ s.mgmt.assembly = []

/-- A word written now is a management command for an IDLE command unit: the index pointer names the management command register,
index 0xF4 (R174, R176). -/
def State.MgmtReady (s : State) : Prop := s.AtWord ∧ s.mgmt.pointer = 0xF4 ∧ s.mgmt.busy = false

/-- The target takes part in a read transaction, which goes on with the register that the index pointer names (R173). -/
def State.Sending (s : State) : Prop := s.resetAsserted = false ∧ s.mgmt.transaction = .read

/-- The port and the window address of the acting access that an agent row stands for (R162); none for a row of another sender
and for an access that decode refuses. A command row is a write to the command register, 0x0C; the second part of a BEGIN is no
access of its own (R77). -/
def actingAccess : Instr → Option (Port × BitVec 16)
  | .beginMessage p f => if f.part = .second then none else some (p, 0x000C)
  | .registerWrite p offset _ => some (p, offset)
  | .commandCodeInvalid p _ _ | .openQueue p _ | .modifyQueue p _ | .closeQueue p _ | .queryQueue p _
  | .sealMessage p _ | .abandonMessage p _ | .fetchMessage p _ | .rewindMessage p _
  | .releaseMessage p _ | .portReset p _ => some (p, 0x000C)
  | .composeApertureWrite p c word _ | .composeApertureRead p c word => some (p, composeAddress c word)
  | .receiveApertureRead p r word | .receiveApertureWrite p r word _ => some (p, receiveAddress r word)
  | .eventHeadRead p => some (p, 0x0028)
  | .eventEnableWrite p _ => some (p, 0x0034)
  | .interruptEnableWrite p _ => some (p, 0x0038)
  | .accessDecodeError _ _ _ | .resetNAssert _ | .resetNRelease | .initRebuildEnd | .restartRebuildEnd
  | .i2cIndexByte _ _ | .partialWord _ _ | .managementUnmappedRead _ _ | .managementRegisterWrite _ _
  | .mintNEnableWrite _ _ | .managementCodeInvalid _ _ _ | .refusedBusy _ _ _ | .restartExchange _ _ | .resetPort _ _
  | .fencePort _ _ | .unfencePort _ _ | .setPartition _ _ | .setPoolMarks _ _ | .setTimeout _ _ | .setPolicy _ _
  | .ackFault _ _ | .clearCounters _ _ | .inject _ _
  | .unitBoundary | .timerExpiry _ _ | .drainStep _ | .fenceRequest | .stopRequest
  | .teardownAbandon _ | .teardownRelease _ | .teardownClose _ | .teardownCloseComplete _
  | .teardownEventReset _ | .teardownEnd _ | .managementRegisterRead _ _ => none

/-- The start of a row of data bytes that starts its write transaction, and the row of the same bytes within an open one. -/
def startingRow : Instr → Option (WriteStart × Instr)
  | .partialWord (some w) bytes => some (w, .partialWord none bytes)
  | .managementRegisterWrite (some w) bytes => some (w, .managementRegisterWrite none bytes)
  | .mintNEnableWrite (some w) bytes => some (w, .mintNEnableWrite none bytes)
  | .managementCodeInvalid (some w) code f => some (w, .managementCodeInvalid none code f)
  | .refusedBusy (some w) code f => some (w, .refusedBusy none code f)
  | .restartExchange (some w) f => some (w, .restartExchange none f)
  | .resetPort (some w) f => some (w, .resetPort none f)
  | .fencePort (some w) f => some (w, .fencePort none f)
  | .unfencePort (some w) f => some (w, .unfencePort none f)
  | .setPartition (some w) f => some (w, .setPartition none f)
  | .setPoolMarks (some w) f => some (w, .setPoolMarks none f)
  | .setTimeout (some w) f => some (w, .setTimeout none f)
  | .setPolicy (some w) f => some (w, .setPolicy none f)
  | .ackFault (some w) f => some (w, .ackFault none f)
  | .clearCounters (some w) f => some (w, .clearCounters none f)
  | .inject (some w) f => some (w, .inject none f)
  | _ => none

/-- The address byte of an I2C row that starts a transaction (R171); none for a row that goes on in an open transaction and for a row
of another sender. -/
def i2cAddress : Instr → Option (BitVec 7)
  | .i2cIndexByte addr _ => some addr
  | .managementRegisterRead start _ => start
  | .managementUnmappedRead start _ => start
  | i => (startingRow i).map (·.1.addr)

/-- The data bytes of a row that goes on in a write transaction, in the order received (R172): a management command is its word, most
significant byte first. -/
def i2cData : Instr → Option (List Byte)
  | .partialWord none bytes => some (partBytes bytes)
  | .managementRegisterWrite none bytes => some [bytes.b3, bytes.b2, bytes.b1, bytes.b0]
  | .mintNEnableWrite none bytes => some [bytes.b3, bytes.b2, bytes.b1, bytes.b0]
  | .managementCodeInvalid none code f | .refusedBusy none code f => some (bytesOf (MgmtWord.toWord ⟨code, f⟩))
  | .restartExchange none f => some (bytesOf (MgmtWord.toWord ⟨0x01, f⟩))
  | .resetPort none f => some (bytesOf (MgmtWord.toWord ⟨0x02, f⟩))
  | .fencePort none f => some (bytesOf (MgmtWord.toWord ⟨0x03, f⟩))
  | .unfencePort none f => some (bytesOf (MgmtWord.toWord ⟨0x04, f⟩))
  | .setPartition none f => some (bytesOf (MgmtWord.toWord ⟨0x10, f⟩))
  | .setPoolMarks none f => some (bytesOf (MgmtWord.toWord ⟨0x11, f⟩))
  | .setTimeout none f => some (bytesOf (MgmtWord.toWord ⟨0x12, f⟩))
  | .setPolicy none f => some (bytesOf (MgmtWord.toWord ⟨0x20, f⟩))
  | .ackFault none f => some (bytesOf (MgmtWord.toWord ⟨0x21, f⟩))
  | .clearCounters none f => some (bytesOf (MgmtWord.toWord ⟨0x22, f⟩))
  | .inject none f => some (bytesOf (MgmtWord.toWord ⟨0x23, f⟩))
  | _ => none

/-! ### What a destination examination reads of a queue (R49, R75) -/

/-- The queue is OPEN with port p in its producer mask. -/
def State.admits (s : State) (p : Port) (q : QueueNo) : Bool :=
  match s.queue q with
  | .closed => false
  | .live lq => decide (lq.phase = .opened) && lq.mask.getLsbD p.val

def State.limitReached (s : State) (q : QueueNo) : Bool :=
  match s.queue q with
  | .closed => false
  | .live lq => decide (lq.depth = lq.limit)

def State.isCut (s : State) (q : QueueNo) : Bool :=
  match s.queue q with
  | .closed => false
  | .live lq => decide (lq.mode = .cut)

/-- The full policy is REFUSE. -/
def State.refusesFull (s : State) (q : QueueNo) : Bool :=
  match s.queue q with
  | .closed => false
  | .live lq => decide (lq.policy = .refuse)

/-- The CUT destinations below their limit, which a BEGIN links (R75). -/
def State.cutRoom (s : State) (qs : List QueueNo) : List QueueNo := qs.filter fun q => s.isCut q && !s.limitReached q

/-- The CUT destinations at their limit (R75). -/
def State.cutFull (s : State) (qs : List QueueNo) : List QueueNo := qs.filter fun q => s.isCut q && s.limitReached q

/-- The PENDING destinations that a seal links: those that admit port p and stand below their limit (R85). -/
def State.sealRoom (s : State) (p : Port) (m : Message) : List QueueNo :=
  ((m.dests.filter fun x => decide (x.disposition = .pending)).map (·.queue)).filter
    fun q => s.admits p q && !s.limitReached q

/-- A PENDING destination on which a seal is refused REFUSED_FULL (R85 step 2). -/
def State.sealStops (s : State) (p : Port) (x : Destination) : Bool :=
  decide (x.disposition = .pending) && s.admits p x.queue && s.refusesFull x.queue && s.limitReached x.queue

/-- Port p's BEGIN on slot c passes the checks of R74: `d` is the descriptor at the head of the free FIFO and `qs` the destination
list. -/
def State.BeginReaches (s : State) (p : Port) (f : CommandFields) (c : ComposeNo) (qs : List QueueNo) (d : DescNo)
    (rest : List DescNo) : Prop :=
  s.Ready p ∧ f.slot.toNat = c.val ∧ (s.composeSlot p c).phase = .idle ∧
    1 ≤ bits ((s.front p).params.get 0) 16 3 ∧ bits ((s.front p).params.get 0) 16 3 ≤ 4 ∧
    qs.map (·.val) = [bits ((s.front p).params.get 2) 0 8, bits ((s.front p).params.get 2) 8 8,
      bits ((s.front p).params.get 2) 16 8, bits ((s.front p).params.get 2) 24 8].take
        (bits ((s.front p).params.get 0) 16 3) ∧
    qs.Nodup ∧
    (bits ((s.front p).params.get 1) 0 15 ≤ 16384 ∨ bits ((s.front p).params.get 1) 0 15 = 0x7FFF) ∧
    (∀ q ∈ qs, s.admits p q = true) ∧ s.pool.fifo = d :: rest ∧
    (∀ q ∈ s.cutFull qs, s.refusesFull q = false) ∧ (s.cutRoom qs).length ≤ s.pool.freeNodes

/-- Such a BEGIN whose one allocation request gives the nodes `ns` and leaves the state `s1` (R29). -/
def State.BeginPasses (s : State) (p : Port) (f : CommandFields) (c : ComposeNo) (qs : List QueueNo) (d : DescNo)
    (rest : List DescNo) (ns : List NodeNo) (s1 : State) : Prop :=
  s.BeginReaches p f c qs d rest ∧ s.memoriesWf = true ∧ s.allocateNodes p (s.cutRoom qs).length = (s1, some ns)

/-- Port p's SEAL on slot c reaches the examination of R85 for descriptor `k.desc`, holding `m`, with the length `n` that R84
fixes. -/
def State.SealReaches (s : State) (p : Port) (f : CommandFields) (c : ComposeNo) (k : Composing) (m : Message)
    (n : Nat) : Prop :=
  s.Ready p ∧ f.slot.toNat = c.val ∧ s.desc k.desc = .live m ∧
    ((s.composeSlot p c).phase = .held k n ∨
      ((s.composeSlot p c).phase = .filling k ∧ m.declared = none ∧ n = bits ((s.front p).params.get 0) 0 16 ∧
        (m.written = 0 → n = 0) ∧ (m.written ≠ 0 → m.written < n + 4 ∧ n ≤ m.written)))

/-- Slot c of port p is FILLING or HELD with `k`, whose descriptor holds `m`. -/
def State.Composes (s : State) (p : Port) (c : ComposeNo) (k : Composing) (m : Message) : Prop :=
  s.desc k.desc = .live m ∧ ((s.composeSlot p c).phase = .filling k ∨ ∃ n, (s.composeSlot p c).phase = .held k n)

/-- Slot r of port p is HOLDING `h`, whose descriptor holds `m`. -/
def State.Receives (s : State) (p : Port) (r : ReceiveNo) (h : Holding) (m : Message) : Prop :=
  s.desc h.desc = .live m ∧ (s.receiveSlot p r).phase = .holding h

/-- Descriptor d, which held `m`, was freed (R22): FREE, at the tail of the FIFO, its cells credited to its source port. -/
def Freed (s t : State) (d : DescNo) (m : Message) : Prop :=
  t.desc d = .free ∧ t.pool.fifo = s.pool.fifo ++ [d] ∧
    (t.share m.port).charged = (s.share m.port).charged - m.cells

/-- Descriptor d, which held `m` with one holder less to come, was kept with state `st`. -/
def KeptAs (t : State) (d : DescNo) (m : Message) (st : MessageState) : Prop :=
  t.desc d = .live { m with state := st, holders := m.holders - 1 }

/-- The inverted positions that a write to `target` stores: those of an arm set for that memory (R15, R16). -/
def injected (s : State) (target : InjectTarget) : List Nat :=
  if s.arm = some ⟨target, .single⟩ then [0] else if s.arm = some ⟨target, .double⟩ then [0, 1] else []

/-- Where a request first writes each of the memories that an injection may be armed for, if it does: the memory, the word and the
index. -/
abbrev FirstWrites := InjectTarget → Option (MemoryName × WordKind × Nat)

/-- R16: an arm set for a memory that the request writes is taken by the first such write, and the location is recorded; otherwise the
arm and the last injection record stay. -/
def InjectionTaken (s t : State) (first : FirstWrites) : Prop :=
  match s.arm with
  | none => t.arm = none ∧ t.lastInjection = s.lastInjection
  | some a =>
    match first a.target with
    | none => t.arm = some a ∧ t.lastInjection = s.lastInjection
    | some x => t.arm = none ∧ t.lastInjection = some ⟨x.1, x.2.1, x.2.2, a.kind⟩

/-- The message has a chain that goes back to the cell free list when it is freed (R22 step 1). -/
def Message.splices (m : Message) : Bool :=
  decide (m.cells ≠ 0) && !m.linkBroken && m.first.isSome && m.last.isSome

/-- The cell link word that a splice of the chain of `m` writes, if any: that of the tail of the cell free list (R28). -/
def State.spliceTail (s : State) (m : Message) : Option CellNo := if m.splices = true then s.pool.cellTail else none

/-- The first writes of a request that takes one holder from a descriptor that holds `m`, which had `holders` of them (R21, R22). -/
def State.dropWrites (s : State) (m : Message) (holders : Nat) : FirstWrites
  | .cellLink => if holders = 1 then (s.spliceTail m).map fun c => (.cellLink, .link, c.val) else none
  | .payload | .node => none

/-- The first writes of a request that returns node `n` to the free list and takes one holder from a descriptor that holds `m`
(R112, R61). -/
def State.returnWrites (s : State) (m : Message) (n : NodeNo) : FirstWrites
  | .node => some (.node, .link, n.val)
  | .cellLink => s.dropWrites m m.holders .cellLink
  | .payload => none

/-- Node `n` joined the tail of the node free list (R8, R29): its link word became END by the first write of a node word, and then the
old tail's named it; no other link word changed. -/
def NodeReturned (s t : State) (n : NodeNo) : Prop :=
  t.pool.freeNodes = s.pool.freeNodes + 1 ∧ t.pool.nodeTail = some n ∧
  t.pool.nodeHead = (if s.pool.nodeTail = none then some n else s.pool.nodeHead) ∧
  (s.pool.nodeTail ≠ some n → t.nodeLinkWord n = ⟨none, injected s .node⟩) ∧
  (∀ tl, s.pool.nodeTail = some tl → t.nodeLinkWord tl = ⟨some n, []⟩) ∧
  ∀ e, e ≠ n → s.pool.nodeTail ≠ some e → t.nodeLinkWord e = s.nodeLinkWord e

/-- A node went back to the free list, and nothing else of the pool changed. -/
def PoolWithNode (s t : State) (n : NodeNo) : Prop :=
  t.pool = { s.pool with nodeHead := t.pool.nodeHead, nodeTail := some n, freeNodes := s.pool.freeNodes + 1 }

/-- The stranded nodes and the marks. -/
def SameStrandedAndMarks (s t : State) : Prop :=
  t.pool.strandedNodes = s.pool.strandedNodes ∧ t.pool.lowMark = s.pool.lowMark ∧
    t.pool.recoverMark = s.pool.recoverMark

/-- What freeing a descriptor that held `m` does to the cell free list, the stranded cells, the starvation episodes and the low-water
state (R22, R28, R34, R37): a chain joins the tail by one link write at most, and the two evaluations follow; a message
without a chain to splice strands its cells, and nothing is evaluated. -/
def Recovered (s t : State) (m : Message) : Prop :=
  (m.splices = true →
    t.pool.freeCells = s.pool.freeCells + m.cells ∧ t.pool.cellTail = m.last ∧
    t.pool.strandedCells = s.pool.strandedCells ∧
    (s.pool.cellTail = none → t.pool.cellHead = m.first ∧ t.cellLinks = s.cellLinks) ∧
    (∀ tl, s.pool.cellTail = some tl → t.pool.cellHead = s.pool.cellHead ∧
      t.cellLinkWord tl = ⟨m.first, injected s .cellLink⟩ ∧ ∀ x, x ≠ tl → t.cellLinkWord x = s.cellLinkWord x) ∧
    (∀ q, (t.share q).starving = ((s.share q).starving && !t.quotaGrants q)) ∧
    t.pool.lowWater =
      if s.pool.lowWater = .tripped ∧ s.pool.recoverMark ≤ t.pool.freeCells then .armed else s.pool.lowWater) ∧
  (m.splices = false →
    t.pool.freeCells = s.pool.freeCells ∧ t.pool.cellHead = s.pool.cellHead ∧ t.pool.cellTail = s.pool.cellTail ∧
    t.pool.strandedCells = s.pool.strandedCells + m.cells ∧ t.cellLinks = s.cellLinks ∧
    (∀ q, (t.share q).starving = (s.share q).starving) ∧ t.pool.lowWater = s.pool.lowWater) ∧
  ∀ q, (t.share q).reserve = (s.share q).reserve ∧ (t.share q).limit = (s.share q).limit ∧
    (t.share q).refused = (s.share q).refused ∧ (t.share q).refusedSlot = (s.share q).refusedSlot ∧
    (q ≠ m.port → (t.share q).charged = (s.share q).charged)

/-- The entries that freeing a descriptor that held `m` sends to port q: ALLOC_AVAILABLE where an open episode of q ends, then
POOL_RECOVERED where the recover mark is reached (R34, R37). -/
def freeingEntries (s t : State) (m : Message) (q : Port) : List EventEntry :=
  if m.splices = true then
    (if (s.share q).starving = true ∧ t.quotaGrants q = true then
      [⟨.allocAvailable, (s.share q).refusedSlot.map (·.val), none, min t.pool.freeCells 255⟩] else []) ++
    (if s.pool.lowWater = .tripped ∧ s.pool.recoverMark ≤ t.pool.freeCells then
      [⟨.poolRecovered, none, none, min t.pool.freeCells 255⟩] else [])
  else []

/-- The entries that a decrement of the holder count of a descriptor that holds `m` sends (R21, R22). -/
def dropEntries (s t : State) (m : Message) (q : Port) : List EventEntry :=
  if m.holders = 1 then freeingEntries s t m q else []

/-- Each port was sent the entries that `entries` gives it, in order (R116). -/
def EventsSent (s t : State) (entries : Port → List EventEntry) : Prop :=
  ∀ q, t.event q = (entries q).foldl EventPort.arrive (s.event q)

/-- The node free list, the stranded nodes and the marks. -/
def SameNodeList (s t : State) : Prop :=
  t.pool.nodeHead = s.pool.nodeHead ∧ t.pool.nodeTail = s.pool.nodeTail ∧ t.pool.freeNodes = s.pool.freeNodes ∧
    t.pool.strandedNodes = s.pool.strandedNodes ∧ t.pool.lowMark = s.pool.lowMark ∧
    t.pool.recoverMark = s.pool.recoverMark

/-- Every descriptor but d is as it was. -/
def SameOtherDescriptors (s t : State) (d : DescNo) : Prop := ∀ e, e ≠ d → t.desc e = s.desc e

/-- From `head` the node free list runs through the nodes `ns`, whose link words all read clean or corrected, to `x` (R3, R29). -/
def State.freeRun (s : State) : NodeLink → List NodeNo → NodeLink → Prop
  | head, [], x => head = x
  | head, n :: ns, x => head = some n ∧
      ∃ y, ((s.nodeLinkWord n).check = .clean y ∨ (s.nodeLinkWord n).check = .corrected y) ∧ s.freeRun y ns x

/-- The fault record that the next report makes (R135, R136). -/
def State.recordOf (s : State) (cls : FaultClass) (memory : MemoryName) (index : Nat) (p : Port) (q : Option QueueNo)
    (d : Option DescNo) (position : Option (Fin 16)) (base : BaseAction) : FaultRecord :=
  ⟨s.integrity.nextSequence, cls, memory, index, p, q, d, position, base, s.integrity.policy.of cls⟩

/-- One report was made with record `x`: the sequence number advances, and the record joins the fault list or sets the full flag
(R136, R137). -/
def ReportedFault (s t : State) (x : FaultRecord) : Prop :=
  t.integrity.nextSequence = s.integrity.nextSequence + 1 ∧
    (s.integrity.faults.length < 4 → t.integrity.faults = s.integrity.faults ++ [x] ∧
      t.integrity.full = s.integrity.full) ∧
    (4 ≤ s.integrity.faults.length → t.integrity.faults = s.integrity.faults ∧ t.integrity.full = true)

/-- Reports of the given classes and ports, with the places of their records in a fault list that held `n` (R137). -/
def reportsAt (n : Nat) : List (FaultClass × Port) → List Waiting
  | [] => []
  | x :: xs => ⟨x.1, x.2, if n < 4 then some n else none⟩ :: reportsAt (n + 1) xs

/-- The reports before the first one that calls for a FENCE or a STOP, which pass, and those from it on, which wait (R130, R141). -/
def passing (table : Policy) (ws : List Waiting) : List Waiting := ws.takeWhile fun w => decide (table.of w.cls = .none)

def stopping (table : Policy) (ws : List Waiting) : List Waiting := ws.dropWhile fun w => decide (table.of w.cls = .none)

/-- A request with its reports, where it has any left. -/
def requestOf (stage : RequestStage) (ws : List Waiting) : List ReportingRequest :=
  if ws = [] then [] else [⟨stage, ws⟩]

/-- A request under a new policy table: where it has completed, its reports up to the first FENCE or STOP pass and the others wait (R132,
R141); one in progress is as it was. -/
def requestUnder (table : Policy) (g : ReportingRequest) : List ReportingRequest :=
  match g.stage with
  | .inProgress _ => [g]
  | .completed | .escalating => requestOf g.stage (stopping table g.reports)

/-- The reports of a request that pass under a new policy table. -/
def passingUnder (table : Policy) (g : ReportingRequest) : List Waiting :=
  match g.stage with
  | .inProgress _ => []
  | .completed | .escalating => passing table g.reports

/-- The fault list with the escalation `e` shown in the records of the reports `ws` (R135). -/
def shownIn (fs : List FaultRecord) (ws : List Waiting) (e : Escalation) : List FaultRecord :=
  fs.mapIdx fun j x => if ws.any (fun w => decide (w.record = some j)) = true then { x with escalation := e } else x

/-- A request that made the given reports has completed between `s` and `t`: those that the policy table passes are done with, and the
others wait, in their order (R130, R131, R141). -/
def WaitsFor (s t : State) (ws : List (FaultClass × Port)) : Prop :=
  t.integrity.waiting = s.integrity.waiting ++
    requestOf .completed (stopping s.integrity.policy (reportsAt s.integrity.faults.length ws))

/-- The given reports were made between `s` and `t` by a request that is not yet complete (R130). -/
def ReportsMade (s t : State) (ws : List (FaultClass × Port)) : Prop :=
  t.integrity.waiting = s.integrity.waiting ++
    (reportsAt s.integrity.faults.length ws).map fun w => ⟨.completed, [w]⟩

/-- Port p is RESETTING with teardown record `t` at step n, and its step may be made: no request that named p stands between two of its
escalations (R152, R141), and no request of p is still to complete (R152; log 29). -/
def State.TearsDown (s : State) (p : Port) (t : Teardown) (n : Nat) : Prop :=
  s.exchange = .running ∧ s.port p = .resetting t ∧ t.step = n ∧ s.betweenEscalations p = false ∧
    (s.front p).opening = none

/-! ### The records that a taken command leaves -/

/-- Port p's front end after it has taken command word `c`: OKAY on the register write, the command word, the results and the
unit (R166); nothing else of the state changes. -/
def State.commandTaken (s : State) (p : Port) (c : CommandWord) (code : ResultCode) (fields : Result1)
    (unit : CommandUnit) : State :=
  { s with fronts := s.fronts.set p ({ s.front p with
      unit := unit, lastCommand := some c, result0 := code, result1 := fields, answer := some .okayWrite }) }

/-- The response to an access that changes nothing else. -/
def State.answered (s : State) (p : Port) (a : Answer) : State :=
  { s with fronts := s.fronts.set p ({ s.front p with answer := some a }) }

/-- ERROR with its error record (R164); nothing else changes. -/
def State.refusedAccess (s : State) (p : Port) (addr : BitVec 16) (reason : ErrorReason) : State :=
  { s with fronts := s.fronts.set p ({ s.front p with answer := some .error, errorRecord := some ⟨reason, addr⟩ }) }

/-- The management port after a command word that was taken: the result register, the last command word, and the pointer past the
command register (R172, R176). -/
def State.mgmtTaken (s : State) (c : MgmtWord) (code : ResultCode) (detail : Option (BitVec 16)) : State :=
  { s with mgmt := { s.mgmt with
      acknowledged := some true, pointer := 0xF5, assembly := [], lastCommand := some c
      result := ⟨some c.code, code, detail⟩ } }

/-- The management port after a refused command word: no state outside the result register (R177), but for the pointer. -/
def State.mgmtRefused (s : State) (c : MgmtWord) (code : ResultCode) : State :=
  { s with mgmt := { s.mgmt with
      acknowledged := some true, pointer := 0xF5, assembly := [], result := ⟨some c.code, code, none⟩ } }

/-! ### Frames: groups of records that a command leaves as they were -/

/-- Reset, exchange and port states, timeouts, the enables of MINT_N, the management port, the waiting commands. -/
def SameControl (s t : State) : Prop :=
  t.resetAsserted = s.resetAsserted ∧ t.ma = s.ma ∧ t.exchange = s.exchange ∧ t.ports = s.ports ∧
    t.timeouts = s.timeouts ∧ t.mint = s.mint ∧ t.mgmt = s.mgmt ∧ t.pending = s.pending

/-- The payload RAM and the Cell Link RAM. -/
def SameCellStore (s t : State) : Prop := t.payload = s.payload ∧ t.cellLinks = s.cellLinks

/-- What a step of a drain or of a teardown leaves beside the port states: the exchange state, the timeouts, the enables of MINT_N, the
management port, the reset input and the waiting commands. -/
def SameSettings (s t : State) : Prop :=
  t.resetAsserted = s.resetAsserted ∧ t.ma = s.ma ∧ t.exchange = s.exchange ∧ t.timeouts = s.timeouts ∧
    t.mint = s.mint ∧ t.mgmt = s.mgmt ∧ t.pending = s.pending

/-- Both words of every node. -/
def SameNodeRam (s t : State) : Prop := t.nodeContents = s.nodeContents ∧ t.nodeLinks = s.nodeLinks

/-- The error injection arm and the last injection record. -/
def SameInjection (s t : State) : Prop := t.arm = s.arm ∧ t.lastInjection = s.lastInjection

/-- The front ends of the ports other than p. -/
def SameOtherFronts (s t : State) (p : Port) : Prop := ∀ q, q ≠ p → t.front q = s.front q

/-- The event parts of the ports other than p. -/
def SameOtherEvents (s t : State) (p : Port) : Prop := ∀ q, q ≠ p → t.event q = s.event q

/-- Every compose slot but slot c of port p. -/
def SameOtherCompose (s t : State) (p : Port) (c : ComposeNo) : Prop :=
  ∀ q e, (q, e) ≠ (p, c) → t.composeSlot q e = s.composeSlot q e

/-- Every receive slot but slot r of port p. -/
def SameOtherReceive (s t : State) (p : Port) (r : ReceiveNo) : Prop :=
  ∀ q e, (q, e) ≠ (p, r) → t.receiveSlot q e = s.receiveSlot q e

/-- The front-end record of port p after it has taken command word `c` (R166), where other records of the state changed too. -/
def State.Reported (t : State) (p : Port) (c : CommandWord) (code : ResultCode) (fields : Result1)
    (unit : CommandUnit) : Prop :=
  (t.front p).unit = unit ∧ (t.front p).lastCommand = some c ∧ (t.front p).result0 = code ∧
    (t.front p).result1 = fields ∧ (t.front p).answer = some .okayWrite

/-! ### Appends, seals and data writes -/

/-- The tail of a queue that lists nodes. -/
def State.listTail (s : State) (q : QueueNo) : Option NodeNo :=
  match s.queue q with
  | .closed => none
  | .live lq => if lq.depth = 0 then none else lq.tail

/-- The record of queue q after node `n` has joined its tail, with the threshold evaluation made (R51, R53). -/
def State.queueWith (s : State) (q : QueueNo) (n : NodeNo) : Queue :=
  match s.queue q with
  | .closed => .closed
  | .live lq => .live { lq with
      head := if lq.depth = 0 then some n else lq.head, tail := some n, depth := lq.depth + 1
      armed := lq.armed && decide (lq.depth + 1 < lq.threshold) }

/-- The QUEUE_READY entries that appends to the queues `room` send to port r (R53, R69). -/
def State.readyEntries (s : State) (room : List QueueNo) (r : Port) : List EventEntry :=
  room.filterMap fun q =>
    match s.queue q with
    | .closed => none
    | .live lq =>
      if lq.consumer = r ∧ lq.armed = true ∧ lq.threshold ≤ lq.depth + 1 then
        some ⟨.queueReady, some q.val, none, min (lq.depth + 1) 255⟩
      else none

/-- The nodes `ns`, taken from state `s1`, were appended to the queues `room` in order, each naming descriptor d (R50, R51): the queue
records, and the content words and link words that stand after, clean but for the first one written, where an injection is armed
for nodes (R16). -/
def Linked (s s1 t : State) (d : DescNo) (room : List QueueNo) (ns : List NodeNo) : Prop :=
  (∀ (i : Nat) (q : QueueNo) (x : NodeNo), room[i]? = some q → ns[i]? = some x → t.queue q = s.queueWith q x) ∧
  (∀ q, q ∉ room → t.queue q = s.queue q) ∧
  (∀ x ∈ ns, (t.contentWord x).written = d) ∧ (∀ x, x ∉ ns → t.contentWord x = s.contentWord x) ∧
  (ns.Nodup → ∀ (i : Nat) (x : NodeNo), ns[i]? = some x →
    t.contentWord x = ⟨d, if i = 0 then injected s .node else []⟩) ∧
  (ns.Nodup → (∀ q ∈ room, ∀ tl, s.listTail q = some tl → tl ∉ ns) →
    (∀ q ∈ room, ∀ e ∈ room, q ≠ e → ∀ tl, s.listTail q = some tl → s.listTail e ≠ some tl) →
    (∀ x ∈ ns, t.nodeLinkWord x = ⟨none, []⟩) ∧
    ∀ (i : Nat) (q : QueueNo) (x tl : NodeNo), room[i]? = some q → ns[i]? = some x → s.listTail q = some tl →
      t.nodeLinkWord tl = ⟨some x, []⟩) ∧
  ∀ e, e ∉ ns → (∀ q ∈ room, s.listTail q ≠ some e) → t.nodeLinkWord e = s1.nodeLinkWord e

/-- The first write of appends of the nodes `ns`: the content word of the first (R51). -/
def appendWrites (ns : List NodeNo) : FirstWrites
  | .node => ns.head?.map fun n => (.node, .content, n.val)
  | .payload | .cellLink => none

/-- The message that port p's BEGIN on slot c gives its descriptor, after its appends (R19, R76). -/
def State.begunMessage (s : State) (p : Port) (c : ComposeNo) (qs : List QueueNo) : Message where
  state := .filling
  port := p
  slot := c
  tag := BitVec.ofNat 16 (bits ((s.front p).params.get 0) 0 16)
  declared :=
    if bits ((s.front p).params.get 1) 0 15 = 0x7FFF then none else some (bits ((s.front p).params.get 1) 0 15)
  written := 0
  final := none
  first := none
  last := none
  cells := 0
  holders := 1 + (s.cutRoom qs).length
  dests := qs.map fun q => ⟨q, if !s.isCut q then .pending else if s.limitReached q then .droppedFull else .linked⟩
  poison := none
  linkBroken := false

/-- Steps 2 to 6 of R76: `t` is `s` after a BEGIN whose allocation left `s1` has allocated descriptor d, linked the CUT destinations
with room, dropped the full ones, and made slot c of port p FILLING; the front ends and the Integrity Monitor apart. -/
def Begun (s s1 t : State) (p : Port) (c : ComposeNo) (qs : List QueueNo) (d : DescNo) (rest : List DescNo)
    (ns : List NodeNo) : Prop :=
  t.desc d = .live (s.begunMessage p c qs) ∧ SameOtherDescriptors s t d ∧ t.pool = { s1.pool with fifo := rest } ∧
    t.composeSlot p c = ⟨.filling ⟨d, none, 0, false⟩, false, false⟩ ∧ SameOtherCompose s t p c ∧
    Linked s s1 t d (s.cutRoom qs) ns ∧ InjectionTaken s t (appendWrites ns) ∧
    EventsSent s t (s.readyEntries (s.cutRoom qs)) ∧ SameCellStore s t ∧
    t.receive = s.receive ∧ t.shares = s.shares ∧ SameControl s t

/-- The numbers of destinations LINKED and dropped after a seal has resolved the PENDING ones, `room` of them linked (R87). -/
def Message.linkedWith (m : Message) (room : List QueueNo) : Nat :=
  (m.dests.filter fun x => decide (x.disposition = .linked)).length + room.length

def Message.droppedWith (m : Message) (room : List QueueNo) : Nat :=
  (m.dests.filter fun x => decide (x.disposition = .droppedFull ∨ x.disposition = .droppedClosed)).length +
    ((m.dests.filter fun x => decide (x.disposition = .pending)).length - room.length)

/-- R85, R87: slot c of port p, composing `k` whose descriptor holds `m`, was sealed with length n: `s` is the state before, `s1` the
state after its allocation of the nodes `ns`. Each PENDING destination is LINKED or dropped, the descriptor is SEALED and
loses the slot as a holder, or is freed where no holder is left, and the slot is IDLE with its flags kept. -/
def Sealed (s s1 t : State) (p : Port) (c : ComposeNo) (k : Composing) (m : Message) (n : Nat) (ns : List NodeNo) :
    Prop :=
  t.composeSlot p c = { s.composeSlot p c with phase := .idle } ∧ SameOtherCompose s t p c ∧
  (m.holders + (s.sealRoom p m).length ≠ 1 → t.desc k.desc = .live { m with
      state := .isSealed, final := some n, holders := m.holders + (s.sealRoom p m).length - 1
      dests := m.dests.map fun x => if x.disposition ≠ .pending then x
        else if !s.admits p x.queue then { x with disposition := .droppedClosed }
        else if s.limitReached x.queue then { x with disposition := .droppedFull }
        else { x with disposition := .linked } } ∧
    t.pool = s1.pool ∧ t.shares = s.shares ∧ t.cellLinks = s.cellLinks) ∧
  (m.holders + (s.sealRoom p m).length = 1 → Freed s t k.desc m ∧ Recovered s t m ∧ SameNodeList s t) ∧
  Linked s s1 t k.desc (s.sealRoom p m) ns ∧
  InjectionTaken s t (fun x => (appendWrites ns x).or (s.dropWrites m (m.holders + (s.sealRoom p m).length) x)) ∧
  SameOtherDescriptors s t k.desc ∧ t.payload = s.payload ∧ t.receive = s.receive

/-- The entries of such a seal: QUEUE_READY of its appends, or those of the freeing. -/
def sealEntries (s t : State) (p : Port) (m : Message) (q : Port) : List EventEntry :=
  if m.holders + (s.sealRoom p m).length = 1 then freeingEntries s t m q else s.readyEntries (s.sealRoom p m) q

/-- R77, R78, R85 to R87: `result` is the outcome of a row that makes, from state `u`, the second link request of port p's BEGIN of
length 0, with command word `w`: the seal of slot c, composing `k` whose descriptor holds `m`. The seal is refused for a REFUSE destination
at its limit, for too few free nodes, and for nodes that a truncation took; then the slot is HELD with length 0. Otherwise it
succeeds. The reports of the BEGIN are those from the n-th reporting request on. -/
def SealsAtZero (u : State) (p : Port) (c : ComposeNo) (k : Composing) (m : Message) (w : CommandWord) (n : Nat)
    (result : Host.Outcome State Fault Refusal) : Prop :=
  let room := u.sealRoom p m
  let held := fun (u1 : State) (code : ResultCode) (failing : Option Nat) => Host.Outcome.next
    (((u1.setComposeSlot p c { u.composeSlot p c with phase := .held { k with timer := 0, due := false } 0 }).completeRequest
      n).commandTaken p w .ok (.message
        { desc := some k.desc
          linked := some (m.dests.filter fun x => decide (x.disposition = .linked)).length
          dropped := some (m.dests.filter fun x =>
            decide (x.disposition = .droppedFull ∨ x.disposition = .droppedClosed)).length
          holders := some m.holders, failing := failing, sealOutcome := some code }) .idle)
  (∀ pos x, m.dests[pos]? = some x → u.sealStops p x = true →
    (∀ i, i < pos → ∀ e, m.dests[i]? = some e → u.sealStops p e = false) →
    result = held u .refusedFull (some pos)) ∧
  ((∀ x ∈ m.dests, u.sealStops p x = false) →
    (u.pool.freeNodes < room.length → result = held u .refusedNoNode none) ∧
    (room.length ≤ u.pool.freeNodes →
      (∀ u1, u.allocateNodes p room.length = (u1, none) → result = held u1 .refusedNoNode none) ∧
      ∀ u1 xs, u.allocateNodes p room.length = (u1, some xs) →
        ∃ t, result = .next t ∧ Sealed u u1 t p c k m 0 xs ∧
          EventsSent u t (sealEntries u t p m) ∧ t.integrity = u1.integrity.complete n ∧
          t.Reported p w .ok (.message
            { desc := some k.desc, linked := some (m.linkedWith room), dropped := some (m.droppedWith room)
              holders := some (m.holders + room.length - 1), sealOutcome := some .ok }) .idle ∧
          (t.front p).params = (u.front p).params ∧ SameOtherFronts u t p ∧ SameControl u t))

/-- R81 steps 2 to 4 for a word inside cell `cell`, at position `pos`: `t` is `s` with the word stored, the auto-seal and the front
ends apart. -/
def StoredWord (s t : State) (p : Port) (c : ComposeNo) (k : Composing) (m : Message) (cell : CellNo) (pos : Fin 16)
    (data : Word) : Prop :=
  t.payloadWord cell pos = ⟨data, injected s .payload⟩ ∧
    (∀ x i, (x, i) ≠ (cell, pos) → t.payloadWord x i = s.payloadWord x i) ∧
    t.desc k.desc = .live { m with written := m.written + 4 } ∧ SameOtherDescriptors s t k.desc ∧
    t.composeSlot p c = { s.composeSlot p c with
      phase := .filling { desc := k.desc, cell := some cell, timer := 0, due := false } } ∧
    SameOtherCompose s t p c ∧
    (∀ kind, s.arm = some ⟨.payload, kind⟩ → t.arm = none ∧ t.lastInjection = some
      ⟨if cell.val % 2 = 0 then .payloadBank0 else .payloadBank1, .payload pos, cell.val, kind⟩) ∧
    ((∀ kind, s.arm ≠ some ⟨.payload, kind⟩) → SameInjection s t) ∧
    t.cellLinks = s.cellLinks ∧ SameNodeRam s t ∧ t.queues = s.queues ∧ t.pool = s.pool ∧ t.shares = s.shares ∧
    t.events = s.events ∧ t.receive = s.receive ∧ t.integrity = s.integrity ∧ SameControl s t

/-- The reports of a grant that takes head cell `h` (R27). -/
def State.grantReports (s : State) (p : Port) (h : CellNo) : List (FaultClass × Port) :=
  if (s.cellLinkWord h).check = .uncorrectable then [(.freeLink, p)] else []

/-- R81 steps 1 to 4 for a word whose grant takes head cell `h` (R25, R27): `t` is `s` with the cell granted, linked and charged and
the word stored at position 0, the auto-seal and the front ends apart. -/
def GrantedWord (s t : State) (p : Port) (c : ComposeNo) (k : Composing) (m : Message) (h : CellNo) (data : Word) : Prop :=
  t.payloadWord h 0 = ⟨data, injected s .payload⟩ ∧
    (∀ x i, (x, i) ≠ (h, (0 : Fin 16)) → t.payloadWord x i = s.payloadWord x i) ∧
    t.desc k.desc = .live { m with
      written := m.written + 4, first := if m.cells = 0 then some h else m.first, last := some h, cells := m.cells + 1 } ∧
    SameOtherDescriptors s t k.desc ∧
    t.composeSlot p c = ⟨.filling ⟨k.desc, some h, 0, false⟩, false, (s.composeSlot p c).lengthError⟩ ∧
    SameOtherCompose s t p c ∧
    (∀ l, m.last = some l → t.cellLinkWord l = ⟨some h, []⟩) ∧
    (m.last ≠ some h → t.cellLinkWord h = ⟨none, injected s .cellLink⟩) ∧
    (∀ x, x ≠ h → m.last ≠ some x → t.cellLinkWord x = s.cellLinkWord x) ∧
    t.share p = { s.share p with charged := (s.share p).charged + 1, starving := false } ∧
    (∀ q, q ≠ p → t.share q = s.share q) ∧
    (∀ x, ((s.cellLinkWord h).check = .clean x ∨ (s.cellLinkWord h).check = .corrected x) →
      t.pool.cellHead = x ∧ t.pool.cellTail = (if x = none then none else s.pool.cellTail) ∧
      t.pool.freeCells = s.pool.freeCells - 1 ∧ t.pool.strandedCells = s.pool.strandedCells ∧
      t.integrity.faults = s.integrity.faults) ∧
    InjectionTaken s t (fun
      | .payload => some (if h.val % 2 = 0 then .payloadBank0 else .payloadBank1, .payload 0, h.val)
      | .cellLink => some (.cellLink, .link, h.val)
      | .node => none) ∧
    ((s.cellLinkWord h).check = .uncorrectable →
      t.pool.cellHead = none ∧ t.pool.cellTail = none ∧ t.pool.freeCells = 0 ∧
      t.pool.strandedCells = s.pool.strandedCells + (s.pool.freeCells - 1) ∧
      ReportedFault s t (s.recordOf .freeLink .cellLink h.val p none none none .truncate)) ∧
    t.pool.lowWater =
      (if s.pool.lowWater = .armed ∧ t.pool.freeCells < s.pool.lowMark then .tripped else s.pool.lowWater) ∧
    EventsSent s t (fun _ => if s.pool.lowWater = .armed ∧ t.pool.freeCells < s.pool.lowMark then
      [⟨.poolLow, none, none, min t.pool.freeCells 255⟩] else []) ∧
    t.pool.fifo = s.pool.fifo ∧ SameNodeList s t ∧ SameNodeRam s t ∧ t.queues = s.queues ∧ t.receive = s.receive ∧
    SameControl s t

/-- Queue q, whose consumer is `p`, was closed at the end of a drain with close record `c` (R64): the command unit that waits for it
takes the result, and a teardown that waits for it the report. -/
def DrainClosed (s t : State) (q : QueueNo) (p : Port) (c : CloseRecord) : Prop :=
  t.queue q = .closed ∧
  t.fronts = (if c.agent = true ∧ (s.front p).unit = .closing q then
    s.fronts.set p { s.front p with unit := .idle, result0 := .ok, result1 := .close c.drained c.stranded }
    else s.fronts) ∧
  (c.teardown = false → t.ports = s.ports) ∧
  (c.teardown = true → (∀ e, e ≠ c.owner → t.port e = s.port e) ∧
    (∀ x, s.port c.owner = .resetting x → x.queue = some q →
      t.port c.owner = .resetting { x with reported := true }) ∧
    ((∀ x, s.port c.owner = .resetting x → x.queue ≠ some q) → t.port c.owner = s.port c.owner))

end Sys2Proof.Machine
end

