-- ==== Sys2Proof/WellFormed.lean ====
section
/-!
DEFINITION. Which terms of Instr are commands of the table: the checks that the operand types do not make themselves.
-/
namespace Sys2Proof

/-- An address that decode refuses (R161). -/
def refusedByDecode (addr : BitVec 16) : Bool :=
  match decodeAddress addr with
  | .misaligned | .unmapped => true
  | .register _ | .compose _ | .receive _ => false

/-- A port register whose write has no row of its own: any but the command, event enable and interrupt enable registers
(R165). -/
def writeHasNoRow (offset : BitVec 16) : Bool :=
  match decodeAddress offset with
  | .register .command | .register .eventEnable | .register .interruptEnable => false
  | .register _ => true
  | .misaligned | .unmapped | .compose _ | .receive _ => false

/-- The well-formed commands. -/
def WellFormed (i : Instr) : Bool :=
  match i with
  | .accessDecodeError _ addr _ => refusedByDecode addr
  | .registerWrite _ offset _ => writeHasNoRow offset
  | .commandCodeInvalid _ code _ => (decodeAgentCommand code).isNone
  | .managementCodeInvalid _ code _ => (decodeMgmtCommand code).isNone
  | .resetNAssert _ | .resetNRelease | .initRebuildEnd | .restartRebuildEnd
  | .openQueue _ _ | .modifyQueue _ _ | .closeQueue _ _ | .queryQueue _ _
  | .beginMessage _ _ | .sealMessage _ _ | .abandonMessage _ _
  | .fetchMessage _ _ | .rewindMessage _ _ | .releaseMessage _ _ | .portReset _ _
  | .composeApertureWrite _ _ _ _ | .composeApertureRead _ _ _
  | .receiveApertureRead _ _ _ | .receiveApertureWrite _ _ _ _
  | .eventHeadRead _ | .eventEnableWrite _ _ | .interruptEnableWrite _ _
  | .i2cIndexByte _ _ | .partialWord _ _ | .managementUnmappedRead _ _ | .managementRegisterWrite _ _
  | .mintNEnableWrite _ _ | .refusedBusy _ _ _ | .restartExchange _ _ | .resetPort _ _ | .fencePort _ _
  | .unfencePort _ _ | .setPartition _ _ | .setPoolMarks _ _ | .setTimeout _ _ | .setPolicy _ _
  | .ackFault _ _ | .clearCounters _ _ | .inject _ _
  | .unitBoundary | .timerExpiry _ _ | .drainStep _ | .fenceRequest | .stopRequest
  | .teardownAbandon _ | .teardownRelease _ | .teardownClose _ | .teardownCloseComplete _
  | .teardownEventReset _ | .teardownEnd _ | .managementRegisterRead _ _ => true

end Sys2Proof
end

