-- ==== Sys2Proof/Certificates/Slice0/Obligations.lean ====
section
/-!
DEFINITION. The statements about the block that the provers are given. A statement names the rules of spec/ it follows; one that
rests on a choice of the model names the log entry.
-/
open Sys2Proof
open Sys2Proof.Machine

/-! ## The queue of waiting commands -/

/-- A step takes the command at the front of the queue and runs it on the state with the queue's rest. With no command waiting the
block idles: the model's choice (log 2). -/
def Obligations.StepTakesTheFrontCommandOrIdles : Prop :=
  (∀ (c : Instr) (rest : List Instr) (s : State),
    step { s with pending := c :: rest } = exec c { s with pending := rest }) ∧
  ∀ s : State, s.pending = [] → step s = .next s

/-- The commands of the queue are not changed by running one of them; and no command ends in a fault or a refusal. -/
def Obligations.EveryCommandCompletesAndKeepsTheQueue : Prop :=
  ∀ (c : Instr) (s : State), ∃ t, exec c s = .next t ∧ t.pending = s.pending

/-! ## Reset, initialisation and restart -/

/-- RESET_N_ASSERT: the exchange is INIT and every record has its power-on value (R146, R19, R24, R29, R31, R37, R42, R71, R97,
R125, R127, R131, R136, R137, R171, R174, R176). -/
def Obligations.ResetAssertGivesPowerOnValues : Prop :=
  ∀ (ma : BitVec 2) (s : State), ∃ t, exec (.resetNAssert ma) s = .next t ∧
    t.exchange = .init ∧ t.ma = ma ∧
    (∀ p, t.port p = .active) ∧
    (∀ p, (t.front p).unit = .idle ∧ (t.front p).result0 = .ok ∧ (t.front p).result1 = .absent ∧
      (t.front p).lastCommand = none ∧ (t.front p).errorRecord = none ∧ (t.front p).opening = none ∧
      ∀ k, (t.front p).params.get k = 0) ∧
    (∀ p c, t.composeSlot p c = ⟨.idle, false, false⟩) ∧
    (∀ p r, t.receiveSlot p r = ⟨.idle, false, false, false, false⟩) ∧
    (∀ p, t.event p = ⟨[], false, 0xC26, false, none⟩) ∧
    (∀ q, t.queue q = .closed) ∧ (∀ d, t.desc d = .free) ∧
    t.pool.fifo = List.finRange 512 ∧ t.pool.freeCells = 2048 ∧ t.pool.freeNodes = 1024 ∧
    t.pool.cellHead = some 0 ∧ t.pool.cellTail = some 2047 ∧ t.pool.nodeHead = some 0 ∧ t.pool.nodeTail = some 1023 ∧
    t.pool.strandedCells = 0 ∧ t.pool.strandedNodes = 0 ∧ t.pool.lowMark = 64 ∧ t.pool.recoverMark = 128 ∧
    t.pool.lowWater = .armed ∧
    (∀ p, (t.share p).reserve = 128 ∧ (t.share p).limit = 1024 ∧ (t.share p).charged = 0 ∧ (t.share p).refused = 0 ∧
      (t.share p).starving = false ∧ t.timeouts.get p = 0) ∧
    t.integrity.policy = ⟨.none, .none, .stop, .none, .none⟩ ∧ t.integrity.faults = [] ∧ t.integrity.full = false ∧
    t.integrity.nextSequence = 0 ∧ (∀ m, t.tracking m = ⟨0, false⟩) ∧
    t.mint = ⟨true, .all false⟩ ∧ t.arm = none ∧ t.lastInjection = none ∧
    t.mgmt.pointer = 0 ∧ t.mgmt.record = none ∧ (∀ k, t.mgmt.params.get k = 0) ∧ t.mgmt.lastCommand = none ∧
    t.mgmt.result = ⟨none, .ok, none⟩ ∧ t.mgmt.transaction = .none ∧ t.integrity.waiting = []

/-- RESET_N_RELEASE starts the initial rebuild of the link words and of the Pool Manager's items, with the management command unit
BUSY; INIT_REBUILD_END makes the exchange RUNNING and that unit IDLE, and sends no event (R146, R17, R41, R176). That the
whole rebuild stands at the release is the model's reading (log 6). -/
def Obligations.InitialRebuildLeadsToRunning : Prop :=
  (∀ s : State, s.resetAsserted = true → ∃ t, exec .resetNRelease s = .next t ∧
    t.resetAsserted = false ∧ t.mgmt = { s.mgmt with busy := true } ∧ t.exchange = s.exchange ∧ t.ports = s.ports ∧
    (∀ (c : CellNo) (h : c.val < 2047), t.cellLinkWord c = ⟨some ⟨c.val + 1, by omega⟩, []⟩) ∧
    t.cellLinkWord 2047 = ⟨none, []⟩ ∧
    (∀ (n : NodeNo) (h : n.val < 1023), t.nodeLinkWord n = ⟨some ⟨n.val + 1, by omega⟩, []⟩) ∧
    t.nodeLinkWord 1023 = ⟨none, []⟩ ∧
    t.payload = s.payload ∧ t.nodeContents = s.nodeContents ∧ (∀ d, t.desc d = .free) ∧
    t.pool = { Pool.reset with lowMark := s.pool.lowMark, recoverMark := s.pool.recoverMark } ∧
    (∀ p, (t.share p).charged = 0 ∧ (t.share p).starving = false) ∧
    t.events = s.events ∧ t.integrity = s.integrity ∧ t.arm = s.arm) ∧
  ∀ s : State, s.resetAsserted = false → s.exchange = .init →
    exec .initRebuildEnd s = .next { s with exchange := .running, mgmt := { s.mgmt with busy := false } }

/-- RESTART, taken in RUNNING and in STOPPED, resets every record but the retained ones at once, rebuilds the link words and shows
PENDING (R147, R148, R17, R41, R176). That the last command word and the error record are cleared and the link words rebuilt in the
row itself, and that the escalations still to come settle in it, the records of their reports showing the escalation of the policy
table and every other record staying as it was (R132, R148), is the model's choice of the moment (logs 6, 12). A BEGIN that stands
between its link requests completes first (R147), in the order of the ports: the model's choice (log 29). -/
def Obligations.RestartResetsAndRetains : Prop :=
  (∀ (f : MgmtFields) (g : CommandFields) (p : Port) (o : Opening) (s u : State), s.MgmtReady →
    (s.exchange = .running ∨ s.exchange = .stopped) → (s.front p).opening = some o →
    (∀ q, q < p → (s.front q).opening = none) → exec (.beginMessage p ⟨g, .second⟩) s = .next u →
    exec (.restartExchange none f) s = exec (.restartExchange none f) u) ∧
  ∀ (f : MgmtFields) (s : State), s.MgmtReady → (s.exchange = .running ∨ s.exchange = .stopped) →
    (∀ p, (s.front p).opening = none) →
    let waiting := s.integrity.waiting.flatMap (·.reports)
    ∃ t, exec (.restartExchange none f) s = .next t ∧
      t.exchange = .restarting ⟨decide (s.exchange = .stopped), s.ports.map (·.tag)⟩ ∧
      t.mgmt.busy = true ∧ t.mgmt.result = ⟨some 0x01, .pending, none⟩ ∧ t.mgmt.lastCommand = some ⟨0x01, f⟩ ∧
      (∀ p, t.port p = .active) ∧
      (∀ p, (t.front p).unit = .idle ∧ (t.front p).result0 = .ok ∧ (t.front p).result1 = .absent ∧
        (t.front p).lastCommand = none ∧ (t.front p).errorRecord = none ∧ (t.front p).opening = none ∧
        (t.front p).params = (s.front p).params) ∧
      (∀ p, t.event p = ⟨[], false, 0xC26, false, none⟩) ∧
      (∀ p c, t.composeSlot p c = ⟨.idle, false, false⟩) ∧
      (∀ p r, t.receiveSlot p r = ⟨.idle, false, false, false, false⟩) ∧
      (∀ q, t.queue q = .closed) ∧ (∀ d, t.desc d = .free) ∧
      t.pool = { Pool.reset with lowMark := s.pool.lowMark, recoverMark := s.pool.recoverMark } ∧
      (∀ p, (t.share p).reserve = (s.share p).reserve ∧ (t.share p).limit = (s.share p).limit ∧
        (t.share p).refused = (s.share p).refused ∧ (t.share p).charged = 0 ∧ (t.share p).starving = false) ∧
      (∀ (c : CellNo) (h : c.val < 2047), t.cellLinkWord c = ⟨some ⟨c.val + 1, by omega⟩, []⟩) ∧
      t.cellLinkWord 2047 = ⟨none, []⟩ ∧
      (∀ (n : NodeNo) (h : n.val < 1023), t.nodeLinkWord n = ⟨some ⟨n.val + 1, by omega⟩, []⟩) ∧
      t.nodeLinkWord 1023 = ⟨none, []⟩ ∧
      t.payload = s.payload ∧ t.nodeContents = s.nodeContents ∧ t.timeouts = s.timeouts ∧
      t.integrity.tracking = s.integrity.tracking ∧ t.integrity.policy = s.integrity.policy ∧
      t.integrity.full = s.integrity.full ∧ t.integrity.nextSequence = s.integrity.nextSequence ∧
      t.integrity.waiting = [] ∧
      t.integrity.faults.map (fun x => { x with escalation := .none }) =
        s.integrity.faults.map (fun x => { x with escalation := .none }) ∧
      (∀ i : Nat, (∀ w ∈ waiting, w.record ≠ some i) → t.integrity.faults[i]? = s.integrity.faults[i]?) ∧
      (∀ (w : Waiting) (i : Nat) (x : FaultRecord), w ∈ waiting → w.record = some i →
        (∀ v ∈ waiting, v.record = some i → v = w) → t.integrity.faults[i]? = some x →
        x.escalation = s.integrity.policy.of w.cls) ∧
      t.mint = s.mint ∧ SameInjection s t ∧ t.mgmt.params = s.mgmt.params ∧ t.mgmt.record = s.mgmt.record

/-- RESTART_REBUILD_END: RUNNING, the RESTART's result OK, and EXCHANGE_RESTARTED to every port, saying from which state the RESTART
was taken and the port's state then (R148, R176, 11.4). -/
def Obligations.RestartEndAnnouncesItself : Prop :=
  ∀ (o : RestartOrigin) (s : State), s.exchange = .restarting o →
    ∃ t, exec .restartRebuildEnd s = .next t ∧
      t.exchange = .running ∧
      t.mgmt = { s.mgmt with busy := false, result := ⟨some 0x01, .ok, none⟩ } ∧
      (∀ p, t.event p = (s.event p).arrive
        ⟨.exchangeRestarted, none, none, (if o.stopped then 1 else 0) + 16 * (o.ports.get p).value⟩) ∧
      (∀ p, s.event p = ⟨[], false, 0xC26, false, none⟩ →
        (t.event p).queue = [⟨.exchangeRestarted, none, none,
          (if o.stopped then 1 else 0) + 16 * (o.ports.get p).value⟩] ∧
        (t.event p).intAsserted = false) ∧
      t.ports = s.ports ∧ t.fronts = s.fronts ∧ t.queues = s.queues ∧ t.pool = s.pool ∧ t.shares = s.shares ∧
      t.integrity = s.integrity ∧ t.compose = s.compose ∧ t.receive = s.receive ∧ t.descriptors = s.descriptors

/-! ## Accesses of an agent port -/

/-- R161, R164: an access that decode refuses is answered ERROR with reason MISALIGNED or UNMAPPED in every exchange and port state, and
changes nothing but the error record. R162: a status read, the read of any register but the event head, is answered OKAY in every
exchange and port state and changes nothing but the answer; 11.2 gives each register its place. (A status read has no row of its
own; the term ACCESS_DECODE_ERROR with an assigned address spells it: logs 18, 24.) R160: while the BEGIN of a port stands between its
link requests its access is not answered, and no other access of the port is taken (log 29). -/
def Obligations.DecodeErrorsAndStatusReadsChangeNothingElse : Prop :=
  (∀ (p : Port) (addr : BitVec 16) (access : Access) (o : Opening) (s : State), (s.front p).opening = some o →
    exec (.accessDecodeError p addr access) s = .next s) ∧
  (∀ (p : Port) (addr : BitVec 16) (access : Access) (s : State), (s.front p).opening = none →
    (addr.toNat % 4 ≠ 0 → exec (.accessDecodeError p addr access) s = .next (s.refusedAccess p addr .misaligned)) ∧
    (addr.toNat % 4 = 0 →
      (0x2800 ≤ addr.toNat ∨ (0x0100 ≤ addr.toNat ∧ addr.toNat < 0x1000) ∨
        (0x98 ≤ addr.toNat ∧ addr.toNat < 0x0100) ∨ addr.toNat = 0x3C ∨ addr.toNat = 0x78 ∨ addr.toNat = 0x7C) →
      exec (.accessDecodeError p addr access) s = .next (s.refusedAccess p addr .unmapped))) ∧
  (∀ (p : Port) (addr : BitVec 16) (reg : PortRegister) (s : State), decodeAddress addr = .register reg →
    reg ≠ .eventHead → (s.front p).opening = none →
    exec (.accessDecodeError p addr .read) s = .next (s.answered p (.okayRead (s.portRegister p reg)))) ∧
  (∀ x ∈ ([(0x00, .identification), (0x04, .portStatus), (0x08, .errorRecord), (0x0C, .command), (0x20, .result0),
      (0x24, .result1), (0x28, .eventHead), (0x2C, .eventTag), (0x30, .eventStatus), (0x34, .eventEnable),
      (0x38, .interruptEnable), (0x90, .partition 0), (0x94, .partition 1)] : List (BitVec 16 × PortRegister)),
    decodeAddress x.1 = .register x.2) ∧
  (∀ k : Fin 4, decodeAddress (BitVec.ofNat 16 (0x10 + 4 * k.val)) = .register (.param k) ∧
    decodeAddress (BitVec.ofNat 16 (0x80 + 4 * k.val)) = .register (.pool k) ∧
    decodeAddress (BitVec.ofNat 16 (0x40 + 8 * k.val)) = .register (.composeStatusA k) ∧
    decodeAddress (BitVec.ofNat 16 (0x44 + 8 * k.val)) = .register (.composeStatusB k)) ∧
  ∀ r : Fin 2, decodeAddress (BitVec.ofNat 16 (0x60 + 12 * r.val)) = .register (.receiveStatusA r) ∧
    decodeAddress (BitVec.ofNat 16 (0x64 + 12 * r.val)) = .register (.receiveStatusB r) ∧
    decodeAddress (BitVec.ofNat 16 (0x68 + 12 * r.val)) = .register (.receiveStatusC r)

/-- R163: outside RUNNING and ACTIVE every acting access is answered by the exchange and port states alone, with the whole state
but the answer and the error record as it was. R160: the read data with each response is the value read with OKAY, and 0 with
RETRY and ERROR; a port carries one access at a time, so none is taken while its BEGIN stands between its link requests (log 29). -/
def Obligations.ActingAccessesAreGatedByExchangeAndPort : Prop :=
  (∀ (i : Instr) (p : Port) (addr : BitVec 16) (o : Opening) (s : State), WellFormed i = true →
    actingAccess i = some (p, addr) → (s.front p).opening = some o → exec i s = .next s) ∧
  (∀ (i : Instr) (p : Port) (addr : BitVec 16) (s : State), WellFormed i = true → actingAccess i = some (p, addr) →
    (s.front p).opening = none →
    (s.exchange = .init → exec i s = .next (s.answered p .retry)) ∧
    (∀ o, s.exchange = .restarting o → exec i s = .next (s.answered p .retry)) ∧
    (s.exchange = .stopped → exec i s = .next (s.refusedAccess p addr .stopped)) ∧
    (s.exchange = .running → ∀ t, s.port p = .resetting t → exec i s = .next (s.answered p .retry)) ∧
    (s.exchange = .running → s.port p = .fenced → exec i s = .next (s.refusedAccess p addr .fenced))) ∧
  ∀ (p : Port) (addr : BitVec 16) (reason : ErrorReason) (v : Word) (s : State),
    (s.answered p (.okayRead v)).readData p = some v ∧ (s.answered p .retry).readData p = some 0 ∧
      (s.refusedAccess p addr reason).readData p = some 0

/-- R166: while the command unit is BUSY a command word is answered RETRY and changes nothing; while it is IDLE a word whose code is
no command is taken and refused REFUSED_PARAM with RESULT1 absent. -/
def Obligations.BusyUnitsRetryAndInvalidCodesAreRefused : Prop :=
  (∀ (i : Instr) (p : Port) (s : State), WellFormed i = true → actingAccess i = some (p, 0x000C) → s.Serves p →
    (s.front p).unit ≠ .idle → exec i s = .next (s.answered p .retry)) ∧
  ∀ (p : Port) (code : BitVec 8) (f : CommandFields) (s : State), s.Ready p →
    code ∉ [0x01, 0x02, 0x03, 0x04, 0x10, 0x11, 0x12, 0x20, 0x21, 0x22, 0x30] →
    exec (.commandCodeInvalid p code f) s = .next (s.commandTaken p ⟨code, f⟩ .refusedParam .absent .idle)

/-- R165: a PARAM word is stored, whatever the command unit's state; a write to a register that cannot be written is answered ERROR
with reason READ_ONLY. R180: the bits of a PARAM register that no parameter table of 11.3 assigns are not written, and read 0: bits
31 to 19 of PARAM0 and the whole of PARAM3, read from the tables of all commands together (log 27). The
event registers: the two fixed kinds stay enabled whatever an enable write gives, the interrupt enable is bit 0, neither write
touches the entries, and INT_N is asserted exactly while an entry is queued and the enable is set (R117, R123). -/
def Obligations.RegisterWritesAndTheInterruptLine : Prop :=
  (∀ (p : Port) (offset : BitVec 16) (data : Word) (s : State), s.Serves p →
    let paramMask : Fin 4 → Word := fun k => if k = 0 then 0x0007FFFF else if k = 3 then 0 else 0xFFFFFFFF
    (∀ k : Fin 4, offset.toNat = 0x10 + 4 * k.val →
      exec (.registerWrite p offset data) s = .next { s with fronts := s.fronts.set p ({ s.front p with
        params := (s.front p).params.set k (data &&& paramMask k), answer := some .okayWrite }) }) ∧
    (offset.toNat ∈ [0x00, 0x04, 0x08, 0x20, 0x24, 0x28, 0x2C, 0x30, 0x40, 0x44, 0x48, 0x4C, 0x50, 0x54, 0x58, 0x5C,
        0x60, 0x64, 0x68, 0x6C, 0x70, 0x74, 0x80, 0x84, 0x88, 0x8C, 0x90, 0x94] →
      exec (.registerWrite p offset data) s = .next (s.refusedAccess p offset .readOnly))) ∧
  ∀ (p : Port) (data : Word) (s : State), s.Serves p →
    (∃ e : BitVec 12, exec (.eventEnableWrite p data) s =
        .next (({ s with events := s.events.set p ({ s.event p with enables := e }) }).answered p .okayWrite) ∧
      (∀ k, k < 10 → e.getLsbD k = data.getLsbD k) ∧ e.getLsbD 10 = true ∧ e.getLsbD 11 = true) ∧
    exec (.interruptEnableWrite p data) s =
      .next (({ s with events := s.events.set p ({ s.event p with interrupt := data.getLsbD 0 }) }).answered p
        .okayWrite) ∧
    ∀ e : EventPort, e.intAsserted = true ↔ (e.queue ≠ [] ∧ e.interrupt = true)

/-- R120: a read of the event head register pops: it returns the oldest entry with the overflow and more indications, latches the
tag, and clears the overflow flag when it empties the queue; an empty queue gives NO_EVENT. -/
def Obligations.EventHeadReadPops : Prop :=
  ∀ (p : Port) (s : State), s.Serves p →
    ((s.event p).queue = [] → ∃ w : Word,
      exec (.eventHeadRead p) s =
        .next (({ s with events := s.events.set p ({ s.event p with tagLatch := none }) }).answered p (.okayRead w)) ∧
      bits w 0 4 = 0 ∧ bits w 4 1 = 0 ∧ bits w 5 1 = 0 ∧ bits w 6 1 = 0 ∧ bits w 8 6 = 0x3F ∧ bits w 16 8 = 0) ∧
    ∀ (x : EventEntry) (xs : List EventEntry), (s.event p).queue = x :: xs → ∃ w : Word,
      exec (.eventHeadRead p) s =
        .next (({ s with events := s.events.set p ({ s.event p with
          queue := xs, tagLatch := x.tag
          overflow := if xs = [] then false else (s.event p).overflow }) }).answered p (.okayRead w)) ∧
      bits w 0 4 = x.kind.value ∧ (bits w 4 1 = 1 ↔ x.tag ≠ none) ∧ (bits w 5 1 = 1 ↔ (s.event p).overflow = true) ∧
      (bits w 6 1 = 1 ↔ xs ≠ []) ∧
      (x.subject = none → bits w 8 6 = 0x3F) ∧ (∀ n, x.subject = some n → n < 32 → bits w 8 6 = n) ∧
      (x.detail < 256 → bits w 16 8 = x.detail)

/-- R116: one arrival at port p's event queue: discarded as disabled, lost with the overflow flag set, or joining the tail; other
ports and all else are untouched, and an entry for all four ports is four such arrivals. -/
def Obligations.ArrivalsJoinAreLostOrDiscarded : Prop :=
  ∀ (p : Port) (x : EventEntry) (s : State),
    (s.sendEvent p x = { s with events := s.events.set p (
      if (s.event p).enables.getLsbD (x.kind.value - 1) = false then s.event p
      else if 16 ≤ (s.event p).queue.length then { s.event p with overflow := true }
      else { s.event p with queue := (s.event p).queue ++ [x] }) }) ∧
    ∀ q, (s.sendAll x).event q = (s.sendEvent q x).event q

/-- R164, R168, R169, R170, R180, 11.2, 11.3: the words of the port registers: identification, port status, error record, the last
command word, the parameters as they were stored, RESULT0 and RESULT1, the event registers, the compose and receive slot status, and the pool
and partition words. -/
def Obligations.AgentRegisterWords : Prop :=
  ∀ (p : Port) (s : State),
    let view := fun reg => s.portRegister p reg
    let f := s.front p
    view .identification = 0x2A412801 ∧ (∀ k, view (.param k) = f.params.get k) ∧
    (bits (view .portStatus) 0 2 = p.val ∧
      bits (view .portStatus) 2 2 = (match s.exchange with | .init => 0 | .running => 1 | .stopped => 2 | .restarting _ => 3) ∧
      bits (view .portStatus) 4 2 = (match s.port p with | .active => 0 | .resetting _ => 1 | .fenced => 2) ∧
      (bits (view .portStatus) 6 1, bits (view .portStatus) 8 8, bits (view .portStatus) 16 6) =
        (match f.unit with | .idle => (0, 0xFF, 0x3F) | .closing q => (1, 0x03, q.val) | .resetting => (1, 0x30, 0x3F))) ∧
    ((f.errorRecord = none → bits (view .errorRecord) 0 4 = 0 ∧ bits (view .errorRecord) 16 16 = 0xFFFF) ∧
      ∀ r, f.errorRecord = some r →
        bits (view .errorRecord) 0 4 = r.reason.value ∧ bits (view .errorRecord) 16 16 = r.offset.toNat) ∧
    ([ErrorReason.misaligned, .unmapped, .stopped, .fenced, .readOnly, .apertureRead, .notFilling, .length,
      .apertureWrite, .notHolding, .abandoned, .poisoned, .link].map (·.value) = List.range' 1 13) ∧
    ((f.lastCommand = none → view .command = 0xFFFFFFFF) ∧ ∀ c, f.lastCommand = some c →
      bits (view .command) 0 8 = c.code.toNat ∧ bits (view .command) 8 4 = c.fields.slot.toNat ∧
        bits (view .command) 16 8 = c.fields.queue.toNat) ∧
    (view .result0 = BitVec.ofNat 32 f.result0.value ∧
      [ResultCode.ok, .pending, .empty, .refusedState, .refusedParam, .refusedOwner, .refusedDest, .refusedFull,
        .refusedNoDesc, .refusedNoNode, .refusedQuarantined, .refusedFault, .refusedBusy].map (·.value) = List.range 13) ∧
    (let w := view .result1
     (f.result1 = .absent → w = 0xFFFFFFFF) ∧
     (∀ n, f.result1 = .depth n → n ≤ 1024 → bits w 0 11 = n) ∧
     (∀ n, f.result1 = .query .closed n none → n ≤ 1024 →
       bits w 0 11 = n ∧ bits w 11 11 = 0x7FF ∧ bits w 22 2 = 0 ∧ bits w 24 2 = 3 ∧ bits w 26 4 = 15 ∧ bits w 30 2 = 3) ∧
     (∀ st n lv, f.result1 = .query st n (some lv) → n ≤ 1024 → lv.limit ≤ 1024 →
       bits w 0 11 = n ∧ bits w 11 11 = lv.limit ∧
         bits w 22 2 = (match st with | .closed => 0 | .opened => 1 | .draining => 2 | .quarantined => 3) ∧
         bits w 24 2 = lv.consumer.val ∧ bits w 26 4 = lv.mask.toNat ∧
         bits w 30 2 = (match lv.mode with | .cut => 0 | .store => 1)) ∧
     (∀ a b, f.result1 = .close a b → a ≤ 1024 → b ≤ 1024 → bits w 0 11 = a ∧ bits w 16 11 = b) ∧
     (∀ m, f.result1 = .message m → m ≠ {} →
       bits w 0 10 = (match m.desc with | none => 0x3FF | some d => d.val) ∧
       bits w 10 2 = (match m.poisoned with | none => 3 | some true => 1 | some false => 0) ∧
       (m.linked = none → bits w 12 3 = 7) ∧ (∀ n, m.linked = some n → n ≤ 4 → bits w 12 3 = n) ∧
       (m.dropped = none → bits w 16 3 = 7) ∧ (∀ n, m.dropped = some n → n ≤ 4 → bits w 16 3 = n) ∧
       (m.holders = none → bits w 20 3 = 7) ∧ (∀ n, m.holders = some n → n ≤ 5 → bits w 20 3 = n) ∧
       (m.failing = none → bits w 24 3 = 7) ∧ (∀ n, m.failing = some n → n ≤ 3 → bits w 24 3 = n) ∧
       bits w 28 4 = (match m.sealOutcome with | none => 15 | some c => c.value)) ∧
     (f.result1 = .message {} → w = 0xFFFFFFFF) ∧
     (∀ x, f.result1 = .fetch x →
       bits w 0 10 = x.desc.val ∧ bits w 10 2 = x.source.val ∧
       bits w 12 2 = (match x.state with | .filling => 1 | .isSealed => 2 | .abandoned => 3) ∧
       (bits w 14 1 = 1 ↔ x.poisoned = true) ∧ (bits w 15 1 = 1 ↔ x.linkBroken = true) ∧
       bits w 16 16 = x.tag.toNat)) ∧
    (let e := s.event p
     ((e.tagLatch = none → bits (view .eventTag) 0 16 = 0xFFFF ∧ bits (view .eventTag) 16 1 = 0) ∧
       ∀ x, e.tagLatch = some x → bits (view .eventTag) 0 16 = x.toNat ∧ bits (view .eventTag) 16 1 = 1) ∧
     (e.queue.length ≤ 16 → bits (view .eventStatus) 0 5 = e.queue.length) ∧
     (bits (view .eventStatus) 8 1 = 1 ↔ e.overflow = true) ∧ (bits (view .eventStatus) 9 1 = 1 ↔ e.interrupt = true) ∧
     (bits (view .eventStatus) 10 1 = 1 ↔ e.intAsserted = true) ∧
     view .eventEnable = e.enables.setWidth 32 ∧ view .interruptEnable = (if e.interrupt then 1 else 0) ∧
     [EventKind.queueReady, .queueClosed, .queueQuarantined, .sealDone, .sealHeld, .slotExpired, .messagePoisoned,
       .allocAvailable, .poolLow, .poolRecovered, .portResetDone, .exchangeRestarted].map (·.value) = List.range' 1 12) ∧
    (∀ c, let x := s.composeSlot p c
     let a := view (.composeStatusA c)
     (bits a 2 1 = 1 ↔ x.starved = true) ∧ (bits a 3 1 = 1 ↔ x.lengthError = true) ∧
     (x.phase = .idle → bits a 0 2 = 0 ∧ bits a 4 10 = 0x3FF ∧ bits a 16 15 = 0x7FFF) ∧
     (∀ k m, s.Composes p c k m → bits a 4 10 = k.desc.val ∧ (m.written ≤ 16384 → bits a 16 15 = m.written)) ∧
     (∀ k, x.phase = .filling k → bits a 0 2 = 1) ∧
     (∀ k n, x.phase = .held k n → bits a 0 2 = 2 ∧ (n ≤ 16384 → bits (view (.composeStatusB c)) 0 15 = n)) ∧
     ((∀ k n, x.phase ≠ .held k n) → view (.composeStatusB c) = 0xFFFFFFFF)) ∧
    (∀ r, let x := s.receiveSlot p r
     let a := view (.receiveStatusA r)
     (bits a 1 1 = 1 ↔ x.overread = true) ∧ (bits a 2 1 = 1 ↔ x.poisonHit = true) ∧
     (bits a 3 1 = 1 ↔ x.abandonSeen = true) ∧ (bits a 4 1 = 1 ↔ x.linkHit = true) ∧
     (x.phase = .idle → bits a 0 1 = 0 ∧ bits a 5 6 = 0x3F ∧ bits a 16 10 = 0x3FF ∧ bits a 28 2 = 3 ∧ bits a 30 1 = 1 ∧
       bits a 31 1 = 1 ∧ view (.receiveStatusB r) = 0xFFFFFFFF ∧ view (.receiveStatusC r) = 0xFFFFFFFF) ∧
     ∀ h m, s.Receives p r h m → bits a 0 1 = 1 ∧ bits a 5 6 = h.source.val ∧ bits a 16 10 = h.desc.val ∧
       bits a 28 2 = (match m.state with | .filling => 1 | .isSealed => 2 | .abandoned => 3) ∧
       (bits a 30 1 = 1 ↔ m.poison ≠ none) ∧ (bits a 31 1 = 1 ↔ m.linkBroken = true) ∧
       (h.offset ≤ 16384 → bits (view (.receiveStatusB r)) 0 15 = h.offset) ∧
       (m.state ≠ .isSealed → m.written ≤ 16384 → bits (view (.receiveStatusB r)) 16 15 = m.written) ∧
       (∀ n, m.state = .isSealed → m.final = some n → n ≤ 16384 → bits (view (.receiveStatusB r)) 16 15 = n) ∧
       (m.poison = none → view (.receiveStatusC r) = 0xFFFFFFFF) ∧
       ∀ o, m.poison = some o → o ≤ 16380 → bits (view (.receiveStatusC r)) 0 15 = o) ∧
    (s.pool.freeCells ≤ 2048 → bits (view (.pool 0)) 0 12 = s.pool.freeCells) ∧
    (s.pool.freeNodes ≤ 1024 → bits (view (.pool 0)) 16 12 = s.pool.freeNodes) ∧
    (s.pool.strandedCells ≤ 2048 → bits (view (.pool 1)) 0 12 = s.pool.strandedCells) ∧
    (s.pool.fifo.length ≤ 512 → bits (view (.pool 1)) 16 10 = s.pool.fifo.length) ∧
    (s.pool.strandedNodes ≤ 1024 → bits (view (.pool 2)) 0 11 = s.pool.strandedNodes) ∧
    bits (view (.pool 2)) 31 1 = (match s.pool.lowWater with | .armed => 0 | .tripped => 1) ∧
    (s.pool.lowMark ≤ 2047 → bits (view (.pool 3)) 0 12 = s.pool.lowMark) ∧
    (s.pool.recoverMark ≤ 2048 → bits (view (.pool 3)) 16 12 = s.pool.recoverMark) ∧
    ((s.share p).reserve ≤ 2048 → bits (view (.partition 0)) 0 12 = (s.share p).reserve) ∧
    ((s.share p).limit ≤ 2048 → bits (view (.partition 0)) 16 12 = (s.share p).limit) ∧
    ((s.share p).charged ≤ 2048 → bits (view (.partition 1)) 0 12 = (s.share p).charged) ∧
    (bits (view (.partition 1)) 12 1 = 1 ↔ (s.share p).starving = true) ∧
    ((s.share p).refused ≤ 65535 → bits (view (.partition 1)) 16 16 = (s.share p).refused)

/-! ## Queue commands -/

/-- R45: OPEN_QUEUE makes its checks in order and opens a CLOSED queue with the issuing port as its consumer. -/
def Obligations.OpenQueueChecksThenOpens : Prop :=
  ∀ (p : Port) (f : CommandFields) (s : State), s.Ready p →
    let w0 := (s.front p).params.get 0
    let w1 := (s.front p).params.get 1
    let refused := fun code : ResultCode => Host.Outcome.next (s.commandTaken p ⟨0x01, f⟩ code .absent .idle)
    (31 < f.queue.toNat → exec (.openQueue p f) s = refused .refusedParam) ∧
    ∀ q : QueueNo, f.queue.toNat = q.val →
      exec (.openQueue p f) s =
        if s.queue q ≠ .closed then refused .refusedState
        else if 1 < bits w0 0 2 ∨ 1 < bits w0 2 2 ∨ bits w1 0 16 = 0 ∨ 1024 < bits w1 0 16 ∨ bits w1 16 16 = 0 ∨
            bits w1 0 16 < bits w1 16 16 then refused .refusedParam
        else .next ((s.setQueue q (.live
          { phase := .opened, consumer := p, mask := BitVec.ofNat 4 (bits w0 8 4)
            mode := if bits w0 0 2 = 0 then .cut else .store, policy := if bits w0 2 2 = 0 then .refuse else .skip
            limit := bits w1 0 16, threshold := bits w1 16 16, armed := true, depth := 0
            head := none, tail := none })).commandTaken p ⟨0x01, f⟩ .ok (.depth 0) .idle)

/-- R47 and R54: MODIFY_QUEUE makes its checks in order, replaces the four fields of an OPEN queue, evaluates the threshold flag
against the new threshold, and sends QUEUE_READY where the flag was set and the depth has reached it. -/
def Obligations.ModifyQueueChecksThenReplaces : Prop :=
  ∀ (p : Port) (f : CommandFields) (s : State), s.Ready p →
    let w0 := (s.front p).params.get 0
    let w1 := (s.front p).params.get 1
    let refused := fun code : ResultCode => Host.Outcome.next (s.commandTaken p ⟨0x02, f⟩ code .absent .idle)
    (31 < f.queue.toNat → exec (.modifyQueue p f) s = refused .refusedParam) ∧
    ∀ q : QueueNo, f.queue.toNat = q.val →
      (s.queue q = .closed → exec (.modifyQueue p f) s = refused .refusedState) ∧
      ∀ lq, s.queue q = .live lq →
        exec (.modifyQueue p f) s =
          if lq.consumer ≠ p then refused .refusedOwner
          else if lq.phase = .quarantined then refused .refusedQuarantined
          else if lq.phase ≠ .opened then refused .refusedState
          else if 1 < bits w0 2 2 ∨ bits w1 0 16 = 0 ∨ 1024 < bits w1 0 16 ∨ bits w1 0 16 < lq.depth ∨
              bits w1 16 16 = 0 ∨ bits w1 0 16 < bits w1 16 16 then refused .refusedParam
          else
            let s1 := s.setQueue q (.live { lq with
              mask := BitVec.ofNat 4 (bits w0 8 4), policy := if bits w0 2 2 = 0 then .refuse else .skip
              limit := bits w1 0 16, threshold := bits w1 16 16, armed := decide (lq.depth < bits w1 16 16) })
            .next ((if lq.armed = true ∧ bits w1 16 16 ≤ lq.depth then
                s1.sendEvent p ⟨.queueReady, some q.val, none, min lq.depth 255⟩ else s1).commandTaken p ⟨0x02, f⟩ .ok
              (.depth lq.depth) .idle)

/-- R60, R64, R68: CLOSE_QUEUE makes its checks in order, closes a QUARANTINED or empty queue at once, or starts a drain with result
PENDING and the command unit BUSY. -/
def Obligations.CloseQueueClosesOrStartsADrain : Prop :=
  ∀ (p : Port) (f : CommandFields) (s : State), s.Ready p →
    let refused := fun code : ResultCode => Host.Outcome.next (s.commandTaken p ⟨0x03, f⟩ code .absent .idle)
    (31 < f.queue.toNat → exec (.closeQueue p f) s = refused .refusedParam) ∧
    ∀ q : QueueNo, f.queue.toNat = q.val →
      (s.queue q = .closed → exec (.closeQueue p f) s = refused .refusedState) ∧
      ∀ lq, s.queue q = .live lq →
        (lq.consumer ≠ p → exec (.closeQueue p f) s = refused .refusedOwner) ∧
        (lq.consumer = p →
          (∀ c, lq.phase = .draining c → exec (.closeQueue p f) s = refused .refusedState) ∧
          (lq.phase = .quarantined → exec (.closeQueue p f) s = .next ((({ s with
            pool := { s.pool with strandedNodes := s.pool.strandedNodes + lq.depth } }).setQueue q .closed).sendEvent p
              ⟨.queueClosed, some q.val, none, min lq.depth 255⟩ |>.commandTaken p ⟨0x03, f⟩ .ok (.close 0 lq.depth)
                .idle)) ∧
          (lq.phase = .opened → lq.depth = 0 → exec (.closeQueue p f) s = .next (((s.setQueue q .closed).sendEvent p
            ⟨.queueClosed, some q.val, none, 0⟩).commandTaken p ⟨0x03, f⟩ .ok (.close 0 0) .idle)) ∧
          (lq.phase = .opened → lq.depth ≠ 0 → exec (.closeQueue p f) s = .next ((s.setQueue q (.live { lq with
            phase := .draining { owner := p, agent := true, teardown := false, drained := 0, stranded := 0 } }))
              |>.commandTaken p ⟨0x03, f⟩ .pending .absent (.closing q))))

/-- R48: QUERY_QUEUE reports the record of any queue to any port and changes nothing else. -/
def Obligations.QueryQueueReportsAnyQueue : Prop :=
  ∀ (p : Port) (f : CommandFields) (s : State), s.Ready p →
    (31 < f.queue.toNat →
      exec (.queryQueue p f) s = .next (s.commandTaken p ⟨0x04, f⟩ .refusedParam .absent .idle)) ∧
    ∀ q : QueueNo, f.queue.toNat = q.val →
      (s.queue q = .closed →
        exec (.queryQueue p f) s = .next (s.commandTaken p ⟨0x04, f⟩ .ok (.query .closed 0 none) .idle)) ∧
      ∀ lq, s.queue q = .live lq →
        exec (.queryQueue p f) s = .next (s.commandTaken p ⟨0x04, f⟩ .ok
          (.query (match lq.phase with | .opened => .opened | .draining _ => .draining | .quarantined => .quarantined)
            lq.depth (some ⟨lq.limit, lq.consumer, lq.mask, lq.mode⟩)) .idle)

/-! ## Compose commands -/

/-- R74, R75, R78: the checks of BEGIN in order; a refused BEGIN changes no slot, descriptor, list or queue, and names the failing
position. That a queue number above 31 or a second appearance fails at the lower position first is the model's reading
(log 17). -/
def Obligations.BeginChecksInOrder : Prop :=
  ∀ (p : Port) (f : CommandFields) (part : BeginPart) (s : State), s.Ready p → part ≠ .second →
    let w0 := (s.front p).params.get 0
    let w1 := (s.front p).params.get 1
    let w2 := (s.front p).params.get 2
    let nums := [bits w2 0 8, bits w2 8 8, bits w2 16 8, bits w2 24 8].take (bits w0 16 3)
    let refused := fun (code : ResultCode) (failing : Option Nat) =>
      Host.Outcome.next (s.commandTaken p ⟨0x10, f⟩ code (.message { failing := failing }) .idle)
    (3 < f.slot.toNat → exec (.beginMessage p ⟨f, part⟩) s = refused .refusedParam none) ∧
    ∀ c : ComposeNo, f.slot.toNat = c.val →
      ((s.composeSlot p c).phase ≠ .idle → exec (.beginMessage p ⟨f, part⟩) s = refused .refusedState none) ∧
      ((s.composeSlot p c).phase = .idle →
        ((bits w0 16 3 = 0 ∨ 4 < bits w0 16 3) → exec (.beginMessage p ⟨f, part⟩) s = refused .refusedParam none) ∧
        (1 ≤ bits w0 16 3 → bits w0 16 3 ≤ 4 →
          (∀ pos n, nums[pos]? = some n → (31 < n ∨ n ∈ nums.take pos) →
            (∀ i, i < pos → ∀ e, nums[i]? = some e → e ≤ 31 ∧ e ∉ nums.take i) →
            exec (.beginMessage p ⟨f, part⟩) s = refused .refusedParam (some pos)) ∧
          ∀ qs : List QueueNo, qs.map (·.val) = nums → qs.Nodup →
            (16384 < bits w1 0 15 → bits w1 0 15 ≠ 0x7FFF →
              exec (.beginMessage p ⟨f, part⟩) s = refused .refusedParam none) ∧
            ((bits w1 0 15 ≤ 16384 ∨ bits w1 0 15 = 0x7FFF) →
              (∀ pos q, qs[pos]? = some q → s.admits p q = false →
                (∀ i, i < pos → ∀ e, qs[i]? = some e → s.admits p e = true) →
                exec (.beginMessage p ⟨f, part⟩) s = refused .refusedDest (some pos)) ∧
              ((∀ q ∈ qs, s.admits p q = true) →
                (s.pool.fifo = [] → exec (.beginMessage p ⟨f, part⟩) s = refused .refusedNoDesc none) ∧
                (s.pool.fifo ≠ [] → s.pool.freeNodes < (s.cutRoom qs).length →
                  exec (.beginMessage p ⟨f, part⟩) s = refused .refusedNoNode none) ∧
                (s.pool.fifo ≠ [] → (s.cutRoom qs).length ≤ s.pool.freeNodes →
                  ∀ pos q, qs[pos]? = some q → q ∈ s.cutFull qs → s.refusesFull q = true →
                    (∀ i, i < pos → ∀ e, qs[i]? = some e → ¬(e ∈ s.cutFull qs ∧ s.refusesFull e = true)) →
                    exec (.beginMessage p ⟨f, part⟩) s = refused .refusedFull (some pos))))))

/-- R29, R30: one allocation request takes the nodes at the head of the node free list in link order, each take lowering free nodes by
1 and moving the head to the link word read. A head whose link word is uncorrectable truncates the list: it is the last node
taken, the nodes behind it are stranded, and the finding is reported NODE_LINK with base action TRUNCATE. Where the request
still needed nodes, those taken are returned in the order taken as the whole list, and the BEGIN or SEAL is refused
REFUSED_NO_NODE. An injection armed for nodes is taken by the first return, and by no take (R11, R16). -/
def Obligations.NodeRequestsTakeHeadsOrTruncate : Prop :=
  (∀ (p : Port) (ns : List NodeNo) (x : NodeLink) (s : State), s.memoriesWf = true →
    s.freeRun s.pool.nodeHead ns x →
    ∃ t, s.allocateNodes p ns.length = (t, some ns) ∧
      t = { s with nodeLinks := t.nodeLinks, integrity := { s.integrity with tracking := t.integrity.tracking }
                   pool := { s.pool with
                     nodeHead := x, nodeTail := if ns ≠ [] ∧ x = none then none else s.pool.nodeTail
                     freeNodes := s.pool.freeNodes - ns.length } } ∧
      (∀ n ∈ ns, ∀ y, (s.nodeLinkWord n).check = .corrected y → t.nodeLinkWord n = ⟨y, []⟩) ∧
      (∀ n, (n ∉ ns ∨ ∃ y, (s.nodeLinkWord n).check = .clean y) → t.nodeLinkWord n = s.nodeLinkWord n) ∧
      ((∀ n ∈ ns, ∃ y, (s.nodeLinkWord n).check = .clean y) → t.integrity = s.integrity)) ∧
  (∀ (p : Port) (ns : List NodeNo) (n : NodeNo) (k : Nat) (s : State), s.memoriesWf = true →
    s.freeRun s.pool.nodeHead ns (some n) → (s.nodeLinkWord n).check = .uncorrectable → ns.length < k →
    let stranded := s.pool.strandedNodes + (s.pool.freeNodes - ns.length - 1)
    ∃ t r, s.allocateNodes p k = (t, r) ∧
      t = { s with nodeLinks := t.nodeLinks, integrity := t.integrity, pool := t.pool, arm := t.arm
                   lastInjection := t.lastInjection } ∧
      ReportedFault s t (s.recordOf .nodeLink .node n.val p none none none .truncate) ∧
      ReportsMade s t [(.nodeLink, p)] ∧
      (k = ns.length + 1 → r = some (ns ++ [n]) ∧ SameInjection s t ∧ t.pool = { s.pool with
          nodeHead := none, nodeTail := none, freeNodes := 0, strandedNodes := stranded } ∧
        (∀ a ∈ ns, ∀ y, (s.nodeLinkWord a).check = .corrected y → t.nodeLinkWord a = ⟨y, []⟩) ∧
        ∀ a, (a ∉ ns ∨ ∃ y, (s.nodeLinkWord a).check = .clean y) → t.nodeLinkWord a = s.nodeLinkWord a) ∧
      (ns.length + 1 < k → r = none ∧ t.pool = { s.pool with
          nodeHead := (ns ++ [n]).head?, nodeTail := some n, freeNodes := ns.length + 1, strandedNodes := stranded } ∧
        InjectionTaken s t (fun
          | .node => (ns ++ [n]).head?.map fun a => (.node, .link, a.val)
          | .payload | .cellLink => none) ∧
        ((ns ++ [n]).Nodup → (∀ a, a ∉ ns ++ [n] → t.nodeLinkWord a = s.nodeLinkWord a) ∧
          ∀ (i : Nat) (a : NodeNo), (ns ++ [n])[i]? = some a →
            t.nodeLinkWord a = ⟨(ns ++ [n])[i + 1]?, if ns = [] then injected s .node else []⟩))) ∧
  (∀ (p : Port) (f : CommandFields) (part : BeginPart) (c : ComposeNo) (qs : List QueueNo) (d : DescNo) (rest : List DescNo)
    (s s1 : State), part ≠ .second → s.BeginReaches p f c qs d rest →
    s.allocateNodes p (s.cutRoom qs).length = (s1, none) →
    exec (.beginMessage p ⟨f, part⟩) s =
      .next ((s1.completeRequest s.requests).commandTaken p ⟨0x10, f⟩ .refusedNoNode (.message {}) .idle)) ∧
  ∀ (p : Port) (f : CommandFields) (c : ComposeNo) (k : Composing) (m : Message) (n : Nat) (s s1 : State),
    s.SealReaches p f c k m n → (∀ x ∈ m.dests, s.sealStops p x = false) →
    (s.sealRoom p m).length ≤ s.pool.freeNodes → s.allocateNodes p (s.sealRoom p m).length = (s1, none) →
    exec (.sealMessage p f) s = .next (((s1.setComposeSlot p c { s.composeSlot p c with
        phase := .held { desc := k.desc, cell := k.cell, timer := 0, due := false } n }).completeRequest
          s.requests).commandTaken p ⟨0x11, f⟩
      .refusedNoNode (.message { holders := some m.holders, poisoned := some m.poison.isSome }) .idle)

/-- R76, R19, R50, R51, R53: a BEGIN that passes its checks, without a declared length of 0, allocates the descriptor at the head of the
FIFO, appends one node to each CUT destination with room, in destination order, with the QUEUE_READY entries of the appends,
drops the full ones, and makes the slot FILLING; the BEGIN has then completed, with its reports (R130). -/
def Obligations.BeginAllocatesLinksAndFills : Prop :=
  ∀ (p : Port) (f : CommandFields) (part : BeginPart) (c : ComposeNo) (qs : List QueueNo) (d : DescNo) (rest : List DescNo)
    (ns : List NodeNo) (s s1 : State), part ≠ .second → s.BeginPasses p f c qs d rest ns s1 →
    bits ((s.front p).params.get 1) 0 15 ≠ 0 →
    ∃ t, exec (.beginMessage p ⟨f, part⟩) s = .next t ∧ Begun s s1 t p c qs d rest ns ∧
      t.integrity = s1.integrity.complete s.requests ∧
      t.Reported p ⟨0x10, f⟩ .ok (.message
        { desc := some d, linked := some (s.cutRoom qs).length, dropped := some (s.cutFull qs).length
          holders := some (1 + (s.cutRoom qs).length) }) .idle ∧
      (t.front p).params = (s.front p).params ∧ (t.front p).errorRecord = (s.front p).errorRecord ∧
      SameOtherFronts s t p

/-- R77, R78, R85 to R87: a BEGIN with declared length 0 is taken, and seals within itself by a second link request, as a SEAL of length 0
would (SealsAtZero), from the state `u` that its first one leaves, where no other request comes between. Where another may, the first
part leaves `u` with the BEGIN open, its results and its answer still to come, and the second part makes the seal from the state `v` that
it then finds, in any exchange and port state, whatever came between: a destination closed since is dropped DROPPED_CLOSED. That a row is
whole or one part of a BEGIN is the form of the model (log 29). A second part without a BEGIN open changes nothing (log 9). -/
def Obligations.BeginOfLengthZeroSeals : Prop :=
  (∀ (p : Port) (f : CommandFields) (c : ComposeNo) (qs : List QueueNo) (d : DescNo) (rest : List DescNo)
    (ns : List NodeNo) (s s1 : State), s.BeginPasses p f c qs d rest ns s1 →
    bits ((s.front p).params.get 1) 0 15 = 0 →
    ∃ u, Begun s s1 u p c qs d rest ns ∧ u.fronts = s.fronts ∧ u.integrity = s1.integrity ∧
      SealsAtZero u p c { desc := d, cell := none, timer := 0, due := false } (s.begunMessage p c qs) ⟨0x10, f⟩
        s.requests (exec (.beginMessage p ⟨f, .whole⟩) s) ∧
      exec (.beginMessage p ⟨f, .first⟩) s = .next { u with
        integrity := { s1.integrity with
          waiting := s1.integrity.waiting.take s.requests ++
            requestOf (.inProgress p) ((s1.integrity.waiting.drop s.requests).flatMap (·.reports)) }
        fronts := s.fronts.set p { s.front p with opening := some ⟨⟨0x10, f⟩, c⟩ } }) ∧
  (∀ (p : Port) (f : CommandFields) (o : Opening) (k : Composing) (m : Message) (v : State),
    (v.front p).opening = some o → (v.composeSlot p o.slot).phase = .filling k → v.desc k.desc = .live m →
    v.memoriesWf = true → (m.dests.map (·.queue)).Nodup → 1 ≤ m.holders →
    let own := fun g : ReportingRequest => decide (g.stage = .inProgress p)
    SealsAtZero { v with
        integrity := { v.integrity with
          waiting := (v.integrity.waiting.filter fun g => !own g) ++ v.integrity.waiting.filter own }
        fronts := v.fronts.set p { v.front p with opening := none } }
      p o.slot k m o.command (v.integrity.waiting.filter fun g => !own g).length
      (exec (.beginMessage p ⟨f, .second⟩) v)) ∧
  ∀ (p : Port) (f : CommandFields) (s : State), (s.front p).opening = none →
    exec (.beginMessage p ⟨f, .second⟩) s = .next s

/-- R84, R72: the checks of SEAL in order; a SEAL refused by them changes nothing and does not restart the timer. R85, R86: a SEAL
refused in its examination: the slot is HELD with the length fixed, its timer restarted; no queue, disposition or descriptor
changes. -/
def Obligations.SealChecksAndRefusals : Prop :=
  (∀ (p : Port) (f : CommandFields) (s : State), s.Ready p →
    let length := bits ((s.front p).params.get 0) 0 16
    let refused := fun code : ResultCode => Host.Outcome.next (s.commandTaken p ⟨0x11, f⟩ code .absent .idle)
    (3 < f.slot.toNat → exec (.sealMessage p f) s = refused .refusedParam) ∧
    ∀ c : ComposeNo, f.slot.toNat = c.val →
      ((s.composeSlot p c).phase = .idle → exec (.sealMessage p f) s = refused .refusedState) ∧
      ∀ k m, (s.composeSlot p c).phase = .filling k → s.desc k.desc = .live m →
        (m.declared ≠ none → exec (.sealMessage p f) s = refused .refusedState) ∧
        (m.declared = none →
          ((m.written = 0 ∧ length ≠ 0) ∨ (m.written ≠ 0 ∧ (length + 4 ≤ m.written ∨ m.written < length))) →
          exec (.sealMessage p f) s = refused .refusedParam)) ∧
  ∀ (p : Port) (f : CommandFields) (c : ComposeNo) (k : Composing) (m : Message) (n : Nat) (s : State),
    s.SealReaches p f c k m n →
    let held := fun (code : ResultCode) (failing : Option Nat) => Host.Outcome.next
      ((s.setComposeSlot p c { s.composeSlot p c with
          phase := .held { desc := k.desc, cell := k.cell, timer := 0, due := false } n }).commandTaken p ⟨0x11, f⟩ code
        (.message { holders := some m.holders, failing := failing, poisoned := some m.poison.isSome }) .idle)
    (∀ pos x, m.dests[pos]? = some x → s.sealStops p x = true →
      (∀ i, i < pos → ∀ e, m.dests[i]? = some e → s.sealStops p e = false) →
      exec (.sealMessage p f) s = held .refusedFull (some pos)) ∧
    ((∀ x ∈ m.dests, s.sealStops p x = false) → s.pool.freeNodes < (s.sealRoom p m).length →
      exec (.sealMessage p f) s = held .refusedNoNode none)

/-- R85, R87, R50, R51, R53: a SEAL that succeeds: each PENDING destination is LINKED or dropped, one node joins each queue with room, in
destination order, with the QUEUE_READY entries of the appends; the descriptor is SEALED with the length fixed and loses the slot
as a holder, and the slot is IDLE with its flags kept; a message without another holder is freed (R22). -/
def Obligations.SealLinksDropsAndLetsGo : Prop :=
  ∀ (p : Port) (f : CommandFields) (c : ComposeNo) (k : Composing) (m : Message) (n : Nat) (ns : List NodeNo)
    (s s1 : State),
    s.SealReaches p f c k m n → s.memoriesWf = true → (m.dests.map (·.queue)).Nodup → 1 ≤ m.holders →
    (∀ x ∈ m.dests, s.sealStops p x = false) → (s.sealRoom p m).length ≤ s.pool.freeNodes →
    s.allocateNodes p (s.sealRoom p m).length = (s1, some ns) →
    ∃ t, exec (.sealMessage p f) s = .next t ∧ Sealed s s1 t p c k m n ns ∧
      EventsSent s t (sealEntries s t p m) ∧
      t.Reported p ⟨0x11, f⟩ .ok (.message
        { linked := some (m.linkedWith (s.sealRoom p m)), dropped := some (m.droppedWith (s.sealRoom p m))
          holders := some (m.holders + (s.sealRoom p m).length - 1), poisoned := some m.poison.isSome }) .idle ∧
      (t.front p).params = (s.front p).params ∧ SameOtherFronts s t p ∧
      t.integrity = s1.integrity.complete s.requests ∧ SameControl s t

/-- R91: the checks of ABANDON, and the abandon: the descriptor is ABANDONED and loses the slot as a holder, or is freed; the slot
is IDLE with its flags kept. -/
def Obligations.AbandonGivesUpTheMessage : Prop :=
  ∀ (p : Port) (f : CommandFields) (s : State), s.Ready p →
    (3 < f.slot.toNat → exec (.abandonMessage p f) s = .next (s.commandTaken p ⟨0x12, f⟩ .refusedParam .absent .idle)) ∧
    ∀ c : ComposeNo, f.slot.toNat = c.val →
      ((s.composeSlot p c).phase = .idle →
        exec (.abandonMessage p f) s = .next (s.commandTaken p ⟨0x12, f⟩ .refusedState .absent .idle)) ∧
      ∀ k m, s.Composes p c k m → s.memoriesWf = true → 1 ≤ m.holders →
        ∃ t, exec (.abandonMessage p f) s = .next t ∧
          t.Reported p ⟨0x12, f⟩ .ok (.message { desc := some k.desc, holders := some (m.holders - 1) }) .idle ∧
          t.composeSlot p c = { s.composeSlot p c with phase := .idle } ∧
          (m.holders ≠ 1 → KeptAs t k.desc m .abandoned ∧ t.pool = s.pool ∧ t.shares = s.shares ∧
            t.events = s.events ∧ SameCellStore s t ∧ SameInjection s t) ∧
          (m.holders = 1 → Freed s t k.desc m ∧ Recovered s t m ∧ SameNodeList s t) ∧
          InjectionTaken s t (s.dropWrites m m.holders) ∧ EventsSent s t (dropEntries s t m) ∧
          SameOtherDescriptors s t k.desc ∧ SameOtherCompose s t p c ∧ SameOtherFronts s t p ∧ t.queues = s.queues ∧
          SameNodeRam s t ∧ t.payload = s.payload ∧ t.receive = s.receive ∧ t.integrity = s.integrity ∧ SameControl s t

/-- R22, R28, R34, R37: freeing a message, as an ABANDON by its last holder does: its chain joins the tail of the cell free list by one
link write at most, or its cells are stranded where the chain is broken. After a splice an open starvation episode whose port the
quota rule would now grant ends with ALLOC_AVAILABLE, and then a TRIPPED low-water state at or above the recover mark re-arms with
POOL_RECOVERED to all four ports; a stranding is followed by no evaluation. -/
def Obligations.FreeingSplicesOrStrandsTheChain : Prop :=
  ∀ (p : Port) (f : CommandFields) (c : ComposeNo) (k : Composing) (m : Message) (s : State),
    s.Ready p → f.slot.toNat = c.val → s.Composes p c k m → s.memoriesWf = true → m.holders = 1 →
    ∃ t, exec (.abandonMessage p f) s = .next t ∧ Freed s t k.desc m ∧ Recovered s t m ∧
      InjectionTaken s t (s.dropWrites m 1) ∧
      EventsSent s t (freeingEntries s t m) ∧
      (∀ c1 cn, m.cells ≠ 0 → m.linkBroken = false → m.first = some c1 → m.last = some cn →
        t.pool.freeCells = s.pool.freeCells + m.cells ∧ t.pool.cellTail = some cn ∧
        t.pool.strandedCells = s.pool.strandedCells ∧
        (s.pool.cellTail = none → t.pool.cellHead = some c1 ∧ t.cellLinks = s.cellLinks ∧ SameInjection s t) ∧
        (∀ tl, s.pool.cellTail = some tl → t.pool.cellHead = s.pool.cellHead ∧
          t.cellLinkWord tl = ⟨some c1, injected s .cellLink⟩ ∧
          ∀ x, x ≠ tl → t.cellLinkWord x = s.cellLinkWord x)) ∧
      ((m.cells = 0 ∨ m.linkBroken = true) →
        t.pool.freeCells = s.pool.freeCells ∧ t.pool.cellHead = s.pool.cellHead ∧ t.pool.cellTail = s.pool.cellTail ∧
        t.pool.strandedCells = s.pool.strandedCells + m.cells ∧ t.cellLinks = s.cellLinks ∧ SameInjection s t ∧
        t.events = s.events) ∧
      SameNodeList s t ∧
      ∀ q, (t.share q).reserve = (s.share q).reserve ∧ (t.share q).limit = (s.share q).limit ∧
        (t.share q).refused = (s.share q).refused ∧ (q ≠ m.port → (t.share q).charged = (s.share q).charged)

/-! ## The compose aperture -/

/-- R79, R80: an aperture read is answered ERROR with reason APERTURE_READ in every slot state; a data write to a slot that is not
FILLING with reason NOT_FILLING, and one beyond 16,384 bytes with reason LENGTH and the length error flag set. R26, R82, R34: a data
write whose grant is refused is answered RETRY: the refused counter rises up to 65,535, the starvation episode opens with this
slot, the slot's starved flag is set, and nothing else changes. -/
def Obligations.ComposeApertureErrorsAndRetries : Prop :=
  (∀ (p : Port) (c : ComposeNo) (word : BitVec 8) (data : Word) (s : State), s.Serves p →
    let addr := BitVec.ofNat 16 (0x1000 + 0x400 * c.val + 4 * word.toNat)
    exec (.composeApertureRead p c word) s = .next (s.refusedAccess p addr .apertureRead) ∧
    ((∀ k, (s.composeSlot p c).phase ≠ .filling k) →
      exec (.composeApertureWrite p c word data) s = .next (s.refusedAccess p addr .notFilling)) ∧
    ∀ k m, (s.composeSlot p c).phase = .filling k → s.desc k.desc = .live m → 16384 ≤ m.written →
      exec (.composeApertureWrite p c word data) s =
        .next ((s.setComposeSlot p c { s.composeSlot p c with lengthError := true }).refusedAccess p addr .length)) ∧
  ∀ (p : Port) (c : ComposeNo) (word : BitVec 8) (data : Word) (k : Composing) (m : Message) (s : State),
    s.Serves p → (s.composeSlot p c).phase = .filling k → s.desc k.desc = .live m →
    m.written < 16384 → m.written % 64 = 0 → s.quotaGrants p = false →
    exec (.composeApertureWrite p c word data) s =
      .next (((s.setShare p { s.share p with
          refused := if (s.share p).refused < 65535 then (s.share p).refused + 1 else 65535
          starving := true, refusedSlot := some c }).setComposeSlot p c { s.composeSlot p c with starved := true }).answered
            p .retry)

/-- R81, R16: a data write inside a cell that does not reach a declared length stores its word at the next message offset of the current
cell, wherever in the aperture it was written, adds 4 to the written bytes and restarts the timer; an injection arm set for payload
acts on it. -/
def Obligations.DataWriteStoresTheNextWord : Prop :=
  ∀ (p : Port) (c : ComposeNo) (word : BitVec 8) (data : Word) (k : Composing) (m : Message) (cell : CellNo)
    (pos : Fin 16) (s : State), s.Serves p → s.memoriesWf = true →
    (s.composeSlot p c).phase = .filling k → s.desc k.desc = .live m → k.cell = some cell →
    m.written < 16384 → m.written % 64 ≠ 0 → pos.val = m.written % 64 / 4 →
    (∀ n, m.declared = some n → m.written + 4 < n) →
    ∃ t, exec (.composeApertureWrite p c word data) s = .next t ∧
      t.fronts = (s.answered p .okayWrite).fronts ∧ StoredWord s t p c k m cell pos data

/-- R25, R27, R6, R81, R34, R37: a data write that opens a cell, is granted and does not reach a declared length takes the head of the
cell free list: its link word becomes END, the previous last cell links to it, the port is charged and its starvation episode
ends, the low-water state is evaluated, with POOL_LOW where it trips, and the word is stored at position 0. A head whose link
word is uncorrectable truncates the list and strands the cells after it, with a fault record. The words written are clean but where an
injection is armed: one for cell links is taken by the granted cell's link word, one for payload by the word stored (R16). -/
def Obligations.FirstWordOfACellTakesTheHeadCell : Prop :=
  ∀ (p : Port) (c : ComposeNo) (word : BitVec 8) (data : Word) (k : Composing) (m : Message) (h : CellNo) (s : State),
    s.Serves p → s.memoriesWf = true → (s.composeSlot p c).phase = .filling k → s.desc k.desc = .live m →
    m.written < 16384 → m.written % 64 = 0 → (∀ n, m.declared = some n → m.written + 4 < n) →
    s.pool.cellHead = some h → s.quotaGrants p = true →
    ∃ t, exec (.composeApertureWrite p c word data) s = .next t ∧
      t.fronts = (s.answered p .okayWrite).fronts ∧ GrantedWord s t p c k m h data ∧
      WaitsFor s t (s.grantReports p h)

/-- R32: a grant request is granted when a cell is free, the port is below its limit, and either the port is below its reserve or
the free cells exceed what the other ports' reserves still claim. R37: an ARMED state below the low-water mark trips after a
grant and a TRIPPED state at or above the recover mark re-arms after a splice, each telling every port. -/
def Obligations.QuotaAndLowWaterRules : Prop :=
  ∀ (p : Port) (s : State),
    (s.quotaGrants p = true ↔
      (s.pool.cellHead ≠ none ∧ (s.share p).charged < (s.share p).limit ∧
        ((s.share p).charged < (s.share p).reserve ∨
          (((List.finRange 4).filter fun q => q ≠ p).map fun q => (s.share q).reserve - (s.share q).charged).sum <
            s.pool.freeCells))) ∧
    (s.pool.lowWater = .armed → s.pool.freeCells < s.pool.lowMark →
      s.lowWaterEvaluation.pool = { s.pool with lowWater := .tripped } ∧
      s.lowWaterEvaluation.event p = (s.event p).arrive ⟨.poolLow, none, none, min s.pool.freeCells 255⟩) ∧
    ((s.pool.lowWater = .tripped ∨ s.pool.lowMark ≤ s.pool.freeCells) → s.lowWaterEvaluation = s) ∧
    (s.pool.lowWater = .tripped → s.pool.recoverMark ≤ s.pool.freeCells →
      s.recoveryEvaluation.pool = { s.pool with lowWater := .armed } ∧
      s.recoveryEvaluation.event p = (s.event p).arrive ⟨.poolRecovered, none, none, min s.pool.freeCells 255⟩) ∧
    ((s.pool.lowWater = .armed ∨ s.pool.freeCells < s.pool.recoverMark) → s.recoveryEvaluation = s)

/-- R81 step 5, R89, R90, R85 to R87, R141: the data write that reaches the declared length seals the message within itself and is answered
OKAY, whether it stores inside a cell or opens one; `u` is the state with the word stored. A seal that is refused, for a REFUSE
destination at its limit, for too few free nodes or for nodes that a truncation took, leaves the slot HELD, with SEAL_HELD; one
that succeeds links or drops the PENDING destinations, seals the descriptor or frees it, and sends SEAL_DONE. The reports of the
write are those of one request. That the ALLOC_AVAILABLE and POOL_RECOVERED of a freeing come before SEAL_DONE is the model's reading
(log 26). -/
def Obligations.ReachingTheDeclaredLengthSeals : Prop :=
  ∀ (p : Port) (c : ComposeNo) (word : BitVec 8) (data : Word) (k : Composing) (m : Message) (n : Nat)
    (cell : CellNo) (s : State), s.Serves p → s.memoriesWf = true → (s.composeSlot p c).phase = .filling k →
    s.desc k.desc = .live m → m.written < 16384 → m.declared = some n → n ≤ m.written + 4 →
    (m.dests.map (·.queue)).Nodup → 1 ≤ m.holders →
    let sealing := fun u : State => ∀ x, u.desc k.desc = .live x →
      let k1 : Composing := { desc := k.desc, cell := some cell, timer := 0, due := false }
      let room := s.sealRoom p m
      let held := fun (u1 : State) (code : Nat) => Host.Outcome.next
        ((((u1.setComposeSlot p c { u.composeSlot p c with phase := .held k1 n }).sendEvent p
          ⟨.sealHeld, some c.val, some m.tag, code⟩).answered p .okayWrite).completeRequest s.requests)
      ((∃ y ∈ m.dests, s.sealStops p y = true) → exec (.composeApertureWrite p c word data) s = held u 7) ∧
      ((∀ y ∈ m.dests, s.sealStops p y = false) →
        (s.pool.freeNodes < room.length → exec (.composeApertureWrite p c word data) s = held u 9) ∧
        (room.length ≤ s.pool.freeNodes →
          (∀ u1, u.allocateNodes p room.length = (u1, none) →
            exec (.composeApertureWrite p c word data) s = held u1 9) ∧
          ∀ u1 xs, u.allocateNodes p room.length = (u1, some xs) →
            ∃ t, exec (.composeApertureWrite p c word data) s = .next t ∧ Sealed u u1 t p c k1 x n xs ∧
              t.fronts = (s.answered p .okayWrite).fronts ∧
              EventsSent u t (fun q => sealEntries u t p x q ++
                if q = p then [⟨.sealDone, some c.val, some m.tag, m.linkedWith room⟩] else []) ∧
              t.integrity = u1.integrity.complete s.requests ∧ SameControl s t))
    (m.written % 64 ≠ 0 → k.cell = some cell → ∀ pos : Fin 16, pos.val = m.written % 64 / 4 →
      ∃ u, StoredWord s u p c k m cell pos data ∧ u.fronts = s.fronts ∧ sealing u) ∧
    (m.written % 64 = 0 → s.pool.cellHead = some cell → s.quotaGrants p = true →
      ∃ u, GrantedWord s u p c k m cell data ∧ ReportsMade s u (s.grantReports p cell) ∧ u.fronts = s.fronts ∧ sealing u)

/-! ## Receive commands -/

/-- R99, R55: the checks of FETCH in order, the Receive Unit's own first; a FETCH refused by them, or answered EMPTY, changes
nothing. -/
def Obligations.FetchChecksInOrder : Prop :=
  ∀ (p : Port) (f : CommandFields) (s : State), s.Ready p →
    let refused := fun code : ResultCode => Host.Outcome.next (s.commandTaken p ⟨0x20, f⟩ code .absent .idle)
    (1 < f.slot.toNat → exec (.fetchMessage p f) s = refused .refusedParam) ∧
    ∀ r : ReceiveNo, f.slot.toNat = r.val →
      ((s.receiveSlot p r).phase ≠ .idle → exec (.fetchMessage p f) s = refused .refusedState) ∧
      ((s.receiveSlot p r).phase = .idle →
        (31 < f.queue.toNat → exec (.fetchMessage p f) s = refused .refusedParam) ∧
        ∀ q : QueueNo, f.queue.toNat = q.val →
          (s.queue q = .closed → exec (.fetchMessage p f) s = refused .refusedState) ∧
          ∀ lq, s.queue q = .live lq →
            (lq.consumer ≠ p → exec (.fetchMessage p f) s = refused .refusedOwner) ∧
            (lq.consumer = p →
              (lq.phase = .quarantined → exec (.fetchMessage p f) s = refused .refusedQuarantined) ∧
              (∀ c, lq.phase = .draining c → exec (.fetchMessage p f) s = refused .refusedState) ∧
              (lq.phase = .opened → lq.depth = 0 → exec (.fetchMessage p f) s = refused .empty)))

/-- R56, R53, R99, R100: a FETCH whose head node reads clean or corrected detaches it: the list moves on, the threshold flag re-arms
where the depth falls below the threshold (R53 through R56 step 3), and the slot holds the node with offset 0 and its flags
clear; the descriptor is not changed. The two reads of the node leave what R11 says (ReadsCorrectAndCount). -/
def Obligations.FetchDetachesTheHeadNode : Prop :=
  ∀ (p : Port) (f : CommandFields) (r : ReceiveNo) (q : QueueNo) (lq : LiveQueue) (h : NodeNo) (d : DescNo)
    (x : NodeLink) (m : Message) (s : State),
    s.Ready p → f.slot.toNat = r.val → f.queue.toNat = q.val → (s.receiveSlot p r).phase = .idle →
    s.queue q = .live lq → lq.consumer = p → lq.phase = .opened → lq.depth ≠ 0 → lq.head = some h →
    ((s.contentWord h).check = .clean d ∨ (s.contentWord h).check = .corrected d) →
    ((s.nodeLinkWord h).check = .clean x ∨ (s.nodeLinkWord h).check = .corrected x) → s.desc d = .live m →
    exec (.fetchMessage p f) s = .next
      ((((s.readNode h).1.setQueue q (.live { lq with
          head := x, tail := if x = none then none else lq.tail, depth := lq.depth - 1
          armed := if lq.depth - 1 < lq.threshold then true else lq.armed })).setReceiveSlot p r
        { phase := .holding { source := q, node := h, desc := d, offset := 0, cell := m.first }
          overread := false, poisonHit := false, abandonSeen := false, linkHit := false }).commandTaken p ⟨0x20, f⟩ .ok
        (.fetch { desc := d, tag := m.tag, source := m.port, state := m.state, poisoned := m.poison.isSome
                  linkBroken := m.linkBroken }) .idle) ∧
      ((s.contentWord h).check = .clean d → (s.nodeLinkWord h).check = .clean x → (s.readNode h).1 = s)

/-- R57, R58, R12, R141: a FETCH that meets an uncorrectable head node is refused REFUSED_FAULT with its slot IDLE. With only the
content word lost the list moves on past the stranded node; with the link word lost the queue is QUARANTINED. Each finding is
reported, the CONTENT report before the LINK report. The other word may read clean or corrected. -/
def Obligations.FetchContainsNodeFaults : Prop :=
  ∀ (p : Port) (f : CommandFields) (r : ReceiveNo) (q : QueueNo) (lq : LiveQueue) (h : NodeNo) (s : State),
    s.Ready p → s.memoriesWf = true → f.slot.toNat = r.val → f.queue.toNat = q.val →
    (s.receiveSlot p r).phase = .idle → s.queue q = .live lq → lq.consumer = p → lq.phase = .opened → lq.depth ≠ 0 →
    lq.head = some h →
    let content := s.recordOf .nodeContent .node h.val p (some q) none none
    let link := s.recordOf .nodeLink .node h.val p (some q) none none .quarantine
    (∀ x, (s.contentWord h).check = .uncorrectable →
      ((s.nodeLinkWord h).check = .clean x ∨ (s.nodeLinkWord h).check = .corrected x) →
      ∃ t, exec (.fetchMessage p f) s = .next t ∧ t.Reported p ⟨0x20, f⟩ .refusedFault .absent .idle ∧
        t.receive = s.receive ∧ t.queue q = .live { lq with
          head := x, tail := if x = none then none else lq.tail, depth := lq.depth - 1
          armed := if lq.depth - 1 < lq.threshold then true else lq.armed } ∧ (∀ e, e ≠ q → t.queue e = s.queue e) ∧
        t.pool = { s.pool with strandedNodes := s.pool.strandedNodes + 1 } ∧
        ReportedFault s t (content .strand) ∧ WaitsFor s t [(.nodeContent, p)] ∧
        SameNodeRam (s.readNode h).1 t ∧ t.descriptors = s.descriptors ∧ t.events = s.events ∧
        SameOtherFronts s t p ∧ SameControl s t) ∧
    (∀ d, ((s.contentWord h).check = .clean d ∨ (s.contentWord h).check = .corrected d) →
      (s.nodeLinkWord h).check = .uncorrectable →
      ∃ t, exec (.fetchMessage p f) s = .next t ∧ t.Reported p ⟨0x20, f⟩ .refusedFault .absent .idle ∧
        t.receive = s.receive ∧ t.queue q = .live { lq with phase := .quarantined } ∧
        (∀ e, e ≠ q → t.queue e = s.queue e) ∧ t.pool = s.pool ∧
        t.event p = (s.event p).arrive ⟨.queueQuarantined, some q.val, none, min lq.depth 255⟩ ∧
        SameOtherEvents s t p ∧ ReportedFault s t link ∧ WaitsFor s t [(.nodeLink, p)] ∧
        SameNodeRam (s.readNode h).1 t ∧ t.descriptors = s.descriptors ∧ SameOtherFronts s t p ∧ SameControl s t) ∧
    ((s.contentWord h).check = .uncorrectable → (s.nodeLinkWord h).check = .uncorrectable →
      ∃ t, exec (.fetchMessage p f) s = .next t ∧ t.Reported p ⟨0x20, f⟩ .refusedFault .absent .idle ∧
        t.receive = s.receive ∧ t.queue q = .live { lq with phase := .quarantined } ∧
        (∀ e, e ≠ q → t.queue e = s.queue e) ∧ t.pool = s.pool ∧
        t.event p = (s.event p).arrive ⟨.queueQuarantined, some q.val, none, min lq.depth 255⟩ ∧
        SameOtherEvents s t p ∧
        (∃ u, ReportedFault s u (content .quarantine) ∧
          ReportedFault u t { link with sequence := s.integrity.nextSequence + 1 }) ∧
        WaitsFor s t [(.nodeContent, p), (.nodeLink, p)] ∧
        SameNodeRam s t ∧ t.descriptors = s.descriptors ∧ SameOtherFronts s t p ∧ SameControl s t)

/-- R111: REWIND. -/
def Obligations.RewindStartsAgain : Prop :=
  ∀ (p : Port) (f : CommandFields) (s : State), s.Ready p →
    (1 < f.slot.toNat → exec (.rewindMessage p f) s = .next (s.commandTaken p ⟨0x21, f⟩ .refusedParam .absent .idle)) ∧
    ∀ r : ReceiveNo, f.slot.toNat = r.val →
      ((s.receiveSlot p r).phase = .idle →
        exec (.rewindMessage p f) s = .next (s.commandTaken p ⟨0x21, f⟩ .refusedState .absent .idle)) ∧
      ∀ h m, s.Receives p r h m →
        exec (.rewindMessage p f) s = .next ((s.setReceiveSlot p r { s.receiveSlot p r with
            phase := .holding { h with offset := 0, cell := m.first }, overread := false }).commandTaken p ⟨0x21, f⟩ .ok
          (.fetch { desc := h.desc, tag := m.tag, source := m.port, state := m.state, poisoned := m.poison.isSome
                    linkBroken := m.linkBroken }) .idle)

/-- R112, R22, R8, R16: RELEASE: its checks; the node joins the tail of the node free list, its link word taking an injection armed for
nodes, the descriptor has one holder less or is freed, and the slot is IDLE with its flags kept. -/
def Obligations.ReleaseGivesTheNodeBack : Prop :=
  ∀ (p : Port) (f : CommandFields) (s : State), s.Ready p →
    (1 < f.slot.toNat → exec (.releaseMessage p f) s = .next (s.commandTaken p ⟨0x22, f⟩ .refusedParam .absent .idle)) ∧
    ∀ r : ReceiveNo, f.slot.toNat = r.val →
      ((s.receiveSlot p r).phase = .idle →
        exec (.releaseMessage p f) s = .next (s.commandTaken p ⟨0x22, f⟩ .refusedState .absent .idle)) ∧
      ∀ h m, s.Receives p r h m → s.memoriesWf = true → 1 ≤ m.holders →
        ∃ t, exec (.releaseMessage p f) s = .next t ∧
          t.Reported p ⟨0x22, f⟩ .ok (.message { desc := some h.desc, holders := some (m.holders - 1) }) .idle ∧
          t.receiveSlot p r = { s.receiveSlot p r with phase := .idle } ∧ SameOtherReceive s t p r ∧
          NodeReturned s t h.node ∧ InjectionTaken s t (s.returnWrites m h.node) ∧
          (m.holders ≠ 1 → KeptAs t h.desc m m.state ∧ PoolWithNode s t h.node ∧ SameCellStore s t ∧
            t.shares = s.shares ∧ t.events = s.events) ∧
          (m.holders = 1 → Freed s t h.desc m ∧ Recovered s t m ∧ SameStrandedAndMarks s t) ∧
          EventsSent s t (dropEntries s t m) ∧
          SameOtherDescriptors s t h.desc ∧ SameOtherFronts s t p ∧ t.nodeContents = s.nodeContents ∧
          t.queues = s.queues ∧ t.payload = s.payload ∧ t.compose = s.compose ∧ t.integrity = s.integrity ∧
          SameControl s t

/-! ## The receive aperture -/

/-- R103, R104: a read below the readable length and below any poison offset delivers the word at the slot's offset: from the current
cell, or from the next cell of the chain at a nonzero multiple of 64; the bytes of a SEALED message beyond its final length read
0, and the offset grows by 4. The link word and the payload word may read clean or corrected; the reads leave what R11 says
(ReadsCorrectAndCount). -/
def Obligations.ReadDeliversTheNextWord : Prop :=
  ∀ (p : Port) (r : ReceiveNo) (word : BitVec 8) (h : Holding) (m : Message) (c0 c : CellNo) (pos : Fin 16) (v : Word)
    (s : State), s.Serves p → s.Receives p r h m → (∀ x, m.poison = some x → h.offset < x) →
    (m.state ≠ .isSealed → h.offset < m.written) → (m.state = .isSealed → ∃ n, m.final = some n ∧ h.offset < n) →
    (h.cell = some c0 ∨ (h.cell = none ∧ m.first = some c0)) →
    (if h.offset ≠ 0 ∧ h.offset % 64 = 0 then
      (s.cellLinkWord c0).check = .clean (some c) ∨ (s.cellLinkWord c0).check = .corrected (some c) else c = c0) →
    pos.val = h.offset % 64 / 4 →
    ((s.payloadWord c pos).check = .clean v ∨ (s.payloadWord c pos).check = .corrected v) →
    let s1 := if h.offset ≠ 0 ∧ h.offset % 64 = 0 then (s.readCellLink c0).1 else s
    ∃ w : Word,
      exec (.receiveApertureRead p r word) s = .next (((s1.readPayload c pos).1.setReceiveSlot p r
        { s.receiveSlot p r with phase := .holding { h with offset := h.offset + 4, cell := some c } }).answered p
          (.okayRead w)) ∧
      (m.state ≠ .isSealed → w = v) ∧
      ∀ n, m.state = .isSealed → m.final = some n →
        ∀ i : Nat, w.getLsbD i = (decide (h.offset + i / 8 < n) && v.getLsbD i)

/-- R98, R105, R106, R109: the reads that reach no memory, and the aperture write. -/
def Obligations.ReadsThatReachNoMemory : Prop :=
  ∀ (p : Port) (r : ReceiveNo) (word : BitVec 8) (data : Word) (s : State), s.Serves p →
    let addr := BitVec.ofNat 16 (0x2000 + 0x400 * r.val + 4 * word.toNat)
    exec (.receiveApertureWrite p r word data) s = .next (s.refusedAccess p addr .apertureWrite) ∧
    ((s.receiveSlot p r).phase = .idle →
      exec (.receiveApertureRead p r word) s = .next (s.refusedAccess p addr .notHolding)) ∧
    ∀ h m, s.Receives p r h m →
      (∀ x, m.poison = some x → x ≤ h.offset →
        (m.linkBroken = false → exec (.receiveApertureRead p r word) s =
          .next ((s.setReceiveSlot p r { s.receiveSlot p r with poisonHit := true }).refusedAccess p addr .poisoned)) ∧
        (m.linkBroken = true → exec (.receiveApertureRead p r word) s =
          .next ((s.setReceiveSlot p r { s.receiveSlot p r with linkHit := true }).refusedAccess p addr .link))) ∧
      ((∀ x, m.poison = some x → h.offset < x) →
        (∀ n, m.state = .isSealed → m.final = some n → n ≤ h.offset → exec (.receiveApertureRead p r word) s =
          .next ((s.setReceiveSlot p r { s.receiveSlot p r with overread := true }).answered p (.okayRead 0))) ∧
        (m.state = .filling → m.written ≤ h.offset →
          exec (.receiveApertureRead p r word) s = .next (s.answered p .retry)) ∧
        (m.state = .abandoned → m.written ≤ h.offset → exec (.receiveApertureRead p r word) s =
          .next ((s.setReceiveSlot p r { s.receiveSlot p r with abandonSeen := true }).refusedAccess p addr .abandoned)))

/-- R107, R108, R110: a read that finds its payload word or its chain link uncorrectable is answered ERROR; the offset and the
current cell stay, even where a chain advance came before the payload read (R107 step 2), the descriptor is poisoned at the offset
(and link broken), the source port is sent MESSAGE_POISONED, and the finding is reported. -/
def Obligations.FindingsMarkTheMessage : Prop :=
  ∀ (p : Port) (r : ReceiveNo) (word : BitVec 8) (h : Holding) (m : Message) (c0 : CellNo) (s : State),
    s.Serves p → s.memoriesWf = true → s.Receives p r h m → (∀ x, m.poison = some x → h.offset < x) →
    (m.state ≠ .isSealed → h.offset < m.written) → (m.state = .isSealed → ∃ n, m.final = some n ∧ h.offset < n) →
    (h.cell = some c0 ∨ (h.cell = none ∧ m.first = some c0)) →
    let addr := BitVec.ofNat 16 (0x2000 + 0x400 * r.val + 4 * word.toNat)
    (∀ (c : CellNo) (pos : Fin 16),
      (if h.offset ≠ 0 ∧ h.offset % 64 = 0 then
        (s.cellLinkWord c0).check = .clean (some c) ∨ (s.cellLinkWord c0).check = .corrected (some c) else c = c0) →
      pos.val = h.offset % 64 / 4 → (s.payloadWord c pos).check = .uncorrectable →
      let s1 := if h.offset ≠ 0 ∧ h.offset % 64 = 0 then (s.readCellLink c0).1 else s
      ∃ t, exec (.receiveApertureRead p r word) s = .next t ∧
        t.fronts = (s.refusedAccess p addr .poisoned).fronts ∧
        t.receiveSlot p r = { s.receiveSlot p r with poisonHit := true } ∧ SameOtherReceive s t p r ∧
        t.desc h.desc = .live { m with poison := some h.offset } ∧ SameOtherDescriptors s t h.desc ∧
        t.event m.port = (s.event m.port).arrive ⟨.messagePoisoned, some m.slot.val, some m.tag, 16 * p.val⟩ ∧
        SameOtherEvents s t m.port ∧
        ReportedFault s t (s.recordOf .payload (if c.val % 2 = 0 then .payloadBank0 else .payloadBank1) c.val p none
          (some h.desc) (some pos) .poison) ∧ WaitsFor s t [(.payload, p)] ∧
        t.integrity.tracking = s1.integrity.tracking ∧ SameCellStore s1 t ∧ SameNodeRam s t ∧ t.queues = s.queues ∧
        t.pool = s.pool ∧ SameControl s t) ∧
    (h.offset ≠ 0 → h.offset % 64 = 0 → (s.cellLinkWord c0).check = .uncorrectable →
      ∃ t, exec (.receiveApertureRead p r word) s = .next t ∧
        t.fronts = (s.refusedAccess p addr .link).fronts ∧
        t.receiveSlot p r = { s.receiveSlot p r with linkHit := true } ∧ SameOtherReceive s t p r ∧
        t.desc h.desc = .live { m with poison := some h.offset, linkBroken := true } ∧
        SameOtherDescriptors s t h.desc ∧
        t.event m.port = (s.event m.port).arrive ⟨.messagePoisoned, some m.slot.val, some m.tag, 1 + 16 * p.val⟩ ∧
        SameOtherEvents s t m.port ∧
        ReportedFault s t (s.recordOf .cellLink .cellLink c0.val p none (some h.desc) none .poison) ∧
        WaitsFor s t [(.cellLink, p)] ∧ t.integrity.tracking = s.integrity.tracking ∧
        SameCellStore s t ∧ SameNodeRam s t ∧ t.queues = s.queues ∧ t.pool = s.pool ∧ SameControl s t)

/-! ## Checking, correction and reports -/

/-- R10, R11, R13, R14: a read of a word with one inverted bit gives the value written, stores it clean and counts one correction
of its memory, and changes nothing else; a clean word is read without a change; a word with two inverted bits gives no value and
stays as stored. So for payload words, cell link words, and both words of a node, which are read content first, the link word even
where the content gives no value (R8). What three or more inverted bits give is free (log 7). -/
def Obligations.ReadsCorrectAndCount : Prop :=
  ∀ (s : State), s.memoriesWf = true →
    let counted := fun (i : Fin 4) => { s.integrity with
      tracking := s.integrity.tracking.set i (s.integrity.tracking.get i).count1 }
    (∀ (c : CellNo) (pos : Fin 16) (v : Word),
      (s.payloadWord c pos = ⟨v, []⟩ → s.readPayload c pos = (s, some v)) ∧
      (∀ i, s.payloadWord c pos = ⟨v, [i]⟩ → ∃ t, s.readPayload c pos = (t, some v) ∧
        t.payloadWord c pos = ⟨v, []⟩ ∧ (∀ e j, (e, j) ≠ (c, pos) → t.payloadWord e j = s.payloadWord e j) ∧
        t = { s with payload := t.payload, integrity := counted (if c.val % 2 = 0 then 0 else 1) }) ∧
      (∀ i j, s.payloadWord c pos = ⟨v, [i, j]⟩ → s.readPayload c pos = (s, none))) ∧
    (∀ (c : CellNo) (v : CellLink),
      (s.cellLinkWord c = ⟨v, []⟩ → s.readCellLink c = (s, some v)) ∧
      (∀ i, s.cellLinkWord c = ⟨v, [i]⟩ → ∃ t, s.readCellLink c = (t, some v) ∧
        t.cellLinkWord c = ⟨v, []⟩ ∧ (∀ e, e ≠ c → t.cellLinkWord e = s.cellLinkWord e) ∧
        t = { s with cellLinks := t.cellLinks, integrity := counted 2 }) ∧
      (∀ i j, s.cellLinkWord c = ⟨v, [i, j]⟩ → s.readCellLink c = (s, none))) ∧
    (∀ (n : NodeNo) (v : DescNo),
      (s.contentWord n = ⟨v, []⟩ → s.readContent n = (s, some v)) ∧
      (∀ i, s.contentWord n = ⟨v, [i]⟩ → ∃ t, s.readContent n = (t, some v) ∧
        t.contentWord n = ⟨v, []⟩ ∧ (∀ e, e ≠ n → t.contentWord e = s.contentWord e) ∧
        t = { s with nodeContents := t.nodeContents, integrity := counted 3 }) ∧
      (∀ i j, s.contentWord n = ⟨v, [i, j]⟩ → s.readContent n = (s, none))) ∧
    (∀ (n : NodeNo) (v : NodeLink),
      (s.nodeLinkWord n = ⟨v, []⟩ → s.readNodeLink n = (s, some v)) ∧
      (∀ i, s.nodeLinkWord n = ⟨v, [i]⟩ → ∃ t, s.readNodeLink n = (t, some v) ∧
        t.nodeLinkWord n = ⟨v, []⟩ ∧ (∀ e, e ≠ n → t.nodeLinkWord e = s.nodeLinkWord e) ∧
        t = { s with nodeLinks := t.nodeLinks, integrity := counted 3 }) ∧
      (∀ i j, s.nodeLinkWord n = ⟨v, [i, j]⟩ → s.readNodeLink n = (s, none))) ∧
    (∀ n : NodeNo, s.readNode n =
      (((s.readContent n).1.readNodeLink n).1, (s.readContent n).2, (s.readNodeLink n).2)) ∧
    (∀ (n : NodeNo) (d : DescNo) (x : NodeLink) (i j : Nat), s.contentWord n = ⟨d, [i]⟩ → s.nodeLinkWord n = ⟨x, [j]⟩ →
      ∃ t, s.readNode n = (t, some d, some x) ∧ t.contentWord n = ⟨d, []⟩ ∧ t.nodeLinkWord n = ⟨x, []⟩ ∧
        t.integrity.tracking = s.integrity.tracking.set 3 (s.integrity.tracking.get 3).count1.count1) ∧
    ∀ k : Tracking, k.count1 = if k.count < 255 then { k with count := k.count + 1 } else { k with overflow := true }

/-- R128, R130, R135, R136, R137: every report takes the next sequence number and is classed by its access and word; its record joins
the fault list while that holds fewer than 4, or sets the full flag. Its step 3 comes when the request has completed (R130): the reports
that the request made, which stand last and together then (R141), pass as long as their class gives NONE, their records showing it;
that the first one that gives FENCE or STOP waits with those behind it for a row, FENCE_REQUEST or STOP_REQUEST, is the model's choice
(log 10). -/
def Obligations.ReportsAreClassedNumberedAndListed : Prop :=
  ∀ (s : State) (x : ErrorReport) (base : BaseAction),
    let cls : FaultClass :=
      if x.access = .payloadRead then .payload
      else if x.access = .chainAdvance then .cellLink
      else if x.access = .headRead then .freeLink
      else if x.access ≠ .freeNodeTake ∧ x.word = .content then .nodeContent else .nodeLink
    let t := s.report x base
    ReportedFault s t (s.recordOf cls x.memory x.index x.port x.queue x.desc x.word.position base) ∧
      t.integrity.waiting = s.integrity.waiting ++
        [⟨.completed, [{ cls := cls, port := x.port
                         record := if s.integrity.faults.length < 4 then some s.integrity.faults.length else none }]⟩] ∧
      t.integrity.tracking = s.integrity.tracking ∧ t.integrity.policy = s.integrity.policy ∧
      t = { s with integrity := t.integrity } ∧
      ∀ n, let made := (s.integrity.waiting.drop n).flatMap (·.reports)
        s.completeRequest n = { s with integrity := { s.integrity with
          waiting := s.integrity.waiting.take n ++ requestOf .completed (stopping s.integrity.policy made)
          faults := shownIn s.integrity.faults (passing s.integrity.policy made) .none } }

/-! ## The management port -/

/-- R171: a transaction is taken only by the target whose address byte it carries, and not while RESET_N is asserted; otherwise it is
not acknowledged and changes nothing else; a START ends the transaction before it, and RESET_N the one in progress, whose later bytes
are then no bytes for the target. R172, R174: the index byte sets the index pointer and discards bytes not yet assembled; a row of data
bytes that starts its transaction is the index byte and then the bytes; a word left unfinished reaches no register and records
PARTIAL. That the bytes received of it are kept until the next index byte is the model's choice (log 19), and so is what a row of
bytes without a transaction does (log 18). -/
def Obligations.TransactionsAddressIndexAndPartialWords : Prop :=
  ∀ s : State,
    (∀ (addr : BitVec 7) (i : Instr), ¬s.Hears addr → i2cAddress i = some addr →
      exec i s = .next { s with mgmt := { s.mgmt with acknowledged := some false, transaction := .none } }) ∧
    (∀ (addr : BitVec 7) (index : Byte), s.Hears addr → exec (.i2cIndexByte addr index) s =
      .next { s with mgmt := { s.mgmt with
        acknowledged := some true, transaction := .write, pointer := index, assembly := [] } }) ∧
    (∀ (i j : Instr) (w : WriteStart), startingRow i = some (w, j) →
      ∃ u, exec (.i2cIndexByte w.addr w.index) s = .next u ∧ exec i s = exec j u) ∧
    (∀ ma, ∃ t, exec (.resetNAssert ma) s = .next t ∧ t.mgmt.transaction = .none ∧ t.resetAsserted = true) ∧
    (∀ (i : Instr) (bs : List Byte), i2cData i = some bs → (s.resetAsserted = true ∨ s.mgmt.transaction ≠ .write) →
      exec i s = .next { s with mgmt := { s.mgmt with acknowledged := some false } }) ∧
    (∀ last, (s.resetAsserted = true ∨ s.mgmt.transaction ≠ .read) →
      exec (.managementRegisterRead none last) s = .next s ∧ exec (.managementUnmappedRead none last) s = .next s) ∧
    ∀ part : WordPart, s.AtWord → exec (.partialWord none part) s = .next { s with mgmt := { s.mgmt with
      acknowledged := some true, transaction := .none, record := some ⟨.incomplete, s.mgmt.pointer⟩
      assembly := match part with | .one b0 => [b0] | .two b0 b1 => [b0, b1] | .three b0 b1 b2 => [b0, b1, b2] } }

/-- R173: a read captures the whole register that the pointer names, or 0 with the UNMAPPED record where the index is assigned to
none, and sends its bytes, most significant first, as many as the transaction takes; the pointer advances, from 255 to 0, only
after the fourth byte. -/
def Obligations.ManagementReadsCaptureAndSend : Prop :=
  ∀ (start : Option (BitVec 7)) (last : Fin 4) (s : State),
    ((start = none ∧ s.Sending) ∨ ∃ addr, start = some addr ∧ s.Hears addr) →
    let sent := fun v : Word => { s.mgmt with
      acknowledged := if start = none then s.mgmt.acknowledged else some true
      capture := some v
      sent := [v.extractLsb' 24 8, v.extractLsb' 16 8, v.extractLsb' 8 8, v.extractLsb' 0 8].take (last.val + 1)
      pointer := if last = 3 then s.mgmt.pointer + 1 else s.mgmt.pointer
      transaction := if last = 3 then .read else .none }
    (∀ reg, decodeMgmtRegister s.mgmt.pointer = some reg →
      exec (.managementRegisterRead start last) s = .next { s with mgmt := sent (s.mgmtRegister reg) }) ∧
    ((∀ k, k ∈ [0x05, 0x06, 0x07, 0x0C, 0x0F, 0x1D, 0x1F, 0x44, 0x47, 0x55, 0x57, 0x5A, 0xEF, 0xF5, 0xFF] →
        s.mgmt.pointer = k → decodeMgmtRegister s.mgmt.pointer = none) ∧
      (decodeMgmtRegister s.mgmt.pointer = none →
        exec (.managementUnmappedRead start last) s = .next { s with mgmt := { sent 0 with
          record := some ⟨.unmapped, s.mgmt.pointer⟩ } }))

/-- R175, R126, 11.5, 11.6: the management register file: each register at its index, and its word. The pool, partition and event
status words are the agent's. That a disarmed arm reads all ones in its fields is the model's reading (log 16), what the word position
of an injection record reads for a LINK or CONTENT word its choice (log 28). -/
def Obligations.ManagementRegisterWords : Prop :=
  (∀ x ∈ ([(0x00, .identification), (0x01, .status), (0x02, .result), (0x03, .mintEnable), (0x04, .mintConditions),
      (0x1C, .timeouts), (0x48, .faultRecordA 0), (0x49, .faultRecordB 0), (0x4A, .faultList), (0x4B, .nextSequence),
      (0x4C, .faultRecordA 1), (0x4D, .faultRecordB 1), (0x4E, .faultRecordA 2), (0x4F, .faultRecordB 2),
      (0x50, .faultRecordA 3), (0x51, .faultRecordB 3), (0x52, .counters), (0x53, .overflows), (0x54, .policy),
      (0x58, .arm), (0x59, .lastInjection), (0xF4, .command)] : List (BitVec 8 × MgmtRegister)),
    decodeMgmtRegister x.1 = some x.2) ∧
  (∀ k : Fin 4, decodeMgmtRegister (BitVec.ofNat 8 (0x08 + k.val)) = some (.teardown k) ∧
    decodeMgmtRegister (BitVec.ofNat 8 (0x10 + k.val)) = some (.pool k) ∧
    decodeMgmtRegister (BitVec.ofNat 8 (0x14 + 2 * k.val)) = some (.partition k 0) ∧
    decodeMgmtRegister (BitVec.ofNat 8 (0x15 + 2 * k.val)) = some (.partition k 1) ∧
    decodeMgmtRegister (BitVec.ofNat 8 (0x40 + k.val)) = some (.eventStatus k) ∧
    decodeMgmtRegister (BitVec.ofNat 8 (0xF0 + k.val)) = some (.param k)) ∧
  (∀ q : QueueNo, decodeMgmtRegister (BitVec.ofNat 8 (0x20 + q.val)) = some (.queue q)) ∧
  ∀ s : State,
    let view := fun reg => s.mgmtRegister reg
    view .identification = 0x2A412801 ∧ (∀ k, view (.param k) = s.mgmt.params.get k) ∧
    (∀ k p, view (.pool k) = s.portRegister p (.pool k)) ∧
    (∀ p k, view (.partition p k) = s.portRegister p (.partition k)) ∧
    (∀ p, view (.eventStatus p) = s.portRegister p .eventStatus) ∧
    (bits (view .status) 0 2 = (match s.exchange with | .init => 0 | .running => 1 | .stopped => 2 | .restarting _ => 3) ∧
      (bits (view .status) 2 1 = 1 ↔ s.mgmt.busy = true) ∧
      (s.mgmt.record = none → bits (view .status) 4 2 = 0 ∧ bits (view .status) 8 8 = 0xFF) ∧
      (∀ x, s.mgmt.record = some x →
        bits (view .status) 4 2 = (match x.reason with | .unmapped => 1 | .readOnly => 2 | .incomplete => 3) ∧
        bits (view .status) 8 8 = x.index.toNat) ∧
      ∀ p : Port, bits (view .status) (24 + 2 * p.val) 2 =
        (match s.port p with | .active => 0 | .resetting _ => 1 | .fenced => 2)) ∧
    (bits (view .result) 0 8 = (match s.mgmt.result.code with | none => 0xFF | some c => c.toNat) ∧
      bits (view .result) 8 4 = s.mgmt.result.result.value ∧
      bits (view .result) 16 16 = (match s.mgmt.result.detail with | none => 0xFFFF | some d => d.toNat)) ∧
    ((bits (view .mintEnable) 0 1 = 1 ↔ s.mint.fault = true) ∧
      ∀ k : Fin 4, bits (view .mintEnable) (1 + k.val) 1 = 1 ↔ s.mint.overflow.get k = true) ∧
    ((bits (view .mintConditions) 0 1 = 1 ↔ s.integrity.faults ≠ []) ∧
      (bits (view .mintConditions) 1 1 = 1 ↔ ∃ k : Fin 4, (s.integrity.tracking.get k).overflow = true) ∧
      (bits (view .mintConditions) 2 1 = 1 ↔ s.exchange = .stopped) ∧
      (bits (view .mintConditions) 3 1 = 1 ↔ s.mintAsserted = true)) ∧
    (∀ p, ((∀ t, s.port p ≠ .resetting t) → view (.teardown p) = 0xFFFFFFFF) ∧ ∀ t, s.port p = .resetting t →
      bits (view (.teardown p)) 0 2 =
        (match t.origin with | .portReset => 0 | .resetPort => 1 | .fencePort => 2 | .escalation => 3) ∧
      bits (view (.teardown p)) 2 1 = (match t.endState with | .active => 0 | .fenced => 1) ∧
      (t.step ≤ 5 → bits (view (.teardown p)) 4 3 = t.step) ∧
      bits (view (.teardown p)) 8 6 = (match t.queue with | none => 0x3F | some q => q.val)) ∧
    (∀ p : Port, s.timeouts.get p ≤ 255 → bits (view .timeouts) (8 * p.val) 8 = s.timeouts.get p) ∧
    (∀ q, (s.queue q = .closed → bits (view (.queue q)) 0 2 = 0 ∧ bits (view (.queue q)) 2 2 = 3 ∧
        bits (view (.queue q)) 16 11 = 0) ∧
      ∀ lq, s.queue q = .live lq →
        bits (view (.queue q)) 0 2 = (match lq.phase with | .opened => 1 | .draining _ => 2 | .quarantined => 3) ∧
        bits (view (.queue q)) 2 2 = lq.consumer.val ∧
        (lq.depth ≤ 1024 → bits (view (.queue q)) 16 11 = lq.depth)) ∧
    (∀ k : Fin 4, (s.integrity.faults[k.val]? = none →
        view (.faultRecordA k) = 0xFFFFFFFF ∧ view (.faultRecordB k) = 0xFFFFFFFF) ∧
      ∀ x, s.integrity.faults[k.val]? = some x →
        let a := view (.faultRecordA k)
        let b := view (.faultRecordB k)
        bits a 0 8 = x.sequence.toNat ∧
        bits a 8 3 =
          (match x.cls with | .payload => 0 | .cellLink => 1 | .freeLink => 2 | .nodeContent => 3 | .nodeLink => 4) ∧
        bits a 12 2 = (match x.memory with | .payloadBank0 => 0 | .payloadBank1 => 1 | .cellLink => 2 | .node => 3) ∧
        bits a 16 2 = (match x.base with | .poison => 0 | .quarantine => 1 | .strand => 2 | .truncate => 3) ∧
        bits a 18 2 = (match x.escalation with | .none => 0 | .fence => 1 | .stop => 2) ∧
        bits a 20 2 = x.port.val ∧ bits a 24 6 = (match x.queue with | none => 0x3F | some q => q.val) ∧
        (x.index < 2048 → bits b 0 12 = x.index) ∧ bits b 16 10 = (match x.desc with | none => 0x3FF | some d => d.val) ∧
        bits b 26 5 = (match x.position with | none => 0x1F | some w => w.val)) ∧
    (s.integrity.faults.length ≤ 4 → bits (view .faultList) 0 3 = s.integrity.faults.length) ∧
    (bits (view .faultList) 4 1 = 1 ↔ s.integrity.full = true) ∧
    view .nextSequence = s.integrity.nextSequence.setWidth 32 ∧
    (∀ k : Fin 4, ((s.integrity.tracking.get k).count ≤ 255 →
        bits (view .counters) (8 * k.val) 8 = (s.integrity.tracking.get k).count) ∧
      (bits (view .overflows) k.val 1 = 1 ↔ (s.integrity.tracking.get k).overflow = true)) ∧
    (∀ cls : FaultClass, bits (view .policy)
        (match cls with | .payload => 0 | .cellLink => 2 | .freeLink => 4 | .nodeContent => 6 | .nodeLink => 8) 2 =
      (match s.integrity.policy.of cls with | .none => 0 | .fence => 1 | .stop => 2)) ∧
    ((s.arm = none → bits (view .arm) 0 1 = 0 ∧ bits (view .arm) 4 2 = 3 ∧ bits (view .arm) 8 1 = 1) ∧
      ∀ a, s.arm = some a → bits (view .arm) 0 1 = 1 ∧
        bits (view .arm) 4 2 = (match a.target with | .payload => 0 | .cellLink => 1 | .node => 2) ∧
        bits (view .arm) 8 1 = (match a.kind with | .single => 0 | .double => 1)) ∧
    ((s.lastInjection = none → view .lastInjection = 0xFFFFFFFF) ∧ ∀ x, s.lastInjection = some x →
      bits (view .lastInjection) 0 2 =
        (match x.memory with | .payloadBank0 => 0 | .payloadBank1 => 1 | .cellLink => 2 | .node => 3) ∧
      bits (view .lastInjection) 4 2 = (match x.word with | .payload _ => 0 | .link => 1 | .content => 2) ∧
      bits (view .lastInjection) 8 4 = (match x.word with | .payload w => w.val | .link => 15 | .content => 15) ∧
      bits (view .lastInjection) 12 1 = (match x.kind with | .single => 0 | .double => 1) ∧
      (x.index < 2048 → bits (view .lastInjection) 16 12 = x.index)) ∧
    ((s.mgmt.lastCommand = none → view .command = 0xFFFFFFFF) ∧ ∀ c, s.mgmt.lastCommand = some c →
      bits (view .command) 0 8 = c.code.toNat ∧ bits (view .command) 8 4 = c.fields.port.toNat ∧
        bits (view .command) 16 4 = c.fields.a.toNat ∧ bits (view .command) 20 4 = c.fields.b.toNat)

/-- R172, R174, R127: the four bytes of a word, most significant first, are stored in a parameter register or replace the five enables
of MINT_N; for a register that cannot be written the word records READ_ONLY and for an index assigned to none UNMAPPED; the pointer
advances in every case. R126: the three conditions of MINT_N. R176, R177: a command word for a BUSY unit is refused REFUSED_BUSY and
one with an unassigned code REFUSED_PARAM; either changes the result register and the pointer alone. -/
def Obligations.ManagementWordsByIndex : Prop :=
  (∀ (b3 b2 b1 b0 : Byte) (s : State), s.AtWord →
    let data : Word := b3 ++ b2 ++ b1 ++ b0
    let taken : Mgmt := { s.mgmt with acknowledged := some true, pointer := s.mgmt.pointer + 1, assembly := [] }
    (∀ k : Fin 4, s.mgmt.pointer = 0xF0 + BitVec.ofNat 8 k.val →
      exec (.managementRegisterWrite none ⟨b3, b2, b1, b0⟩) s =
        .next { s with mgmt := { taken with params := s.mgmt.params.set k data } }) ∧
    (s.mgmt.pointer = 0x03 → exec (.mintNEnableWrite none ⟨b3, b2, b1, b0⟩) s = .next { s with
      mgmt := taken, mint := ⟨data.getLsbD 0, ⟨data.getLsbD 1, data.getLsbD 2, data.getLsbD 3, data.getLsbD 4⟩⟩ }) ∧
    (∀ reg, decodeMgmtRegister s.mgmt.pointer = some reg → (∀ k, reg ≠ .param k) → reg ≠ .mintEnable →
      reg ≠ .command → exec (.managementRegisterWrite none ⟨b3, b2, b1, b0⟩) s =
        .next { s with mgmt := { taken with record := some ⟨.readOnly, s.mgmt.pointer⟩ } }) ∧
    (decodeMgmtRegister s.mgmt.pointer = none → exec (.managementRegisterWrite none ⟨b3, b2, b1, b0⟩) s =
      .next { s with mgmt := { taken with record := some ⟨.unmapped, s.mgmt.pointer⟩ } }) ∧
    (s.mintAsserted = true ↔
      ((s.integrity.faults ≠ [] ∧ s.mint.fault = true) ∨
        (∃ m : Fin 4, (s.integrity.tracking.get m).overflow = true ∧ s.mint.overflow.get m = true) ∨
        s.exchange = .stopped))) ∧
  ∀ (code : BitVec 8) (f : MgmtFields) (s : State), s.AtWord → s.mgmt.pointer = 0xF4 →
    (s.mgmt.busy = true →
      exec (.refusedBusy none code f) s = .next (s.mgmtRefused ⟨code, f⟩ .refusedBusy) ∧
      exec (.inject none f) s = .next (s.mgmtRefused ⟨0x23, f⟩ .refusedBusy) ∧
      exec (.restartExchange none f) s = .next (s.mgmtRefused ⟨0x01, f⟩ .refusedBusy)) ∧
    (s.mgmt.busy = false → code ∉ [0x01, 0x02, 0x03, 0x04, 0x10, 0x11, 0x12, 0x20, 0x21, 0x22, 0x23] →
      exec (.managementCodeInvalid none code f) s = .next (s.mgmtRefused ⟨code, f⟩ .refusedParam))

/-- R35: SET_PARTITION checks all four ports and replaces all four reserves and limits, or changes nothing. R38: SET_POOL_MARKS checks
and replaces the two marks; the low-water state is not changed. R178: SET_TIMEOUT checks the port and the value and sets T(p);
no timer count changes. -/
def Obligations.PartitionMarksAndTimeoutsAreSet : Prop :=
  ∀ (f : MgmtFields) (s : State), s.MgmtReady →
    let lower := fun p : Port => bits (s.mgmt.params.get p) 0 16
    let upper := fun p : Port => bits (s.mgmt.params.get p) 16 16
    ((∃ p, 2048 < lower p ∨ upper p = 0 ∨ 2048 < upper p ∨ upper p < lower p) ∨
        2048 < lower 0 + lower 1 + lower 2 + lower 3 →
      exec (.setPartition none f) s = .next (s.mgmtRefused ⟨0x10, f⟩ .refusedParam)) ∧
    ((∀ p, lower p ≤ 2048 ∧ 1 ≤ upper p ∧ upper p ≤ 2048 ∧ lower p ≤ upper p) →
      lower 0 + lower 1 + lower 2 + lower 3 ≤ 2048 →
      ∃ sh : Quad Share,
        exec (.setPartition none f) s = .next ({ s with shares := sh }.mgmtTaken ⟨0x10, f⟩ .ok none) ∧
        ∀ p, sh.get p = { s.share p with reserve := lower p, limit := upper p }) ∧
    ((2047 < lower 0 ∨ upper 0 = 0 ∨ 2048 < upper 0 ∨ upper 0 ≤ lower 0) →
      exec (.setPoolMarks none f) s = .next (s.mgmtRefused ⟨0x11, f⟩ .refusedParam)) ∧
    (lower 0 ≤ 2047 → 1 ≤ upper 0 → upper 0 ≤ 2048 → lower 0 < upper 0 →
      exec (.setPoolMarks none f) s = .next
        ({ s with pool := { s.pool with lowMark := lower 0, recoverMark := upper 0 } }.mgmtTaken ⟨0x11, f⟩ .ok none)) ∧
    ((3 < f.port.toNat ∨ 255 < lower 0) →
      exec (.setTimeout none f) s = .next (s.mgmtRefused ⟨0x12, f⟩ .refusedParam)) ∧
    ∀ p : Port, f.port.toNat = p.val → lower 0 ≤ 255 →
      exec (.setTimeout none f) s =
        .next ({ s with timeouts := s.timeouts.set p (lower 0) }.mgmtTaken ⟨0x12, f⟩ .ok none)

/-- R132: SET_POLICY replaces one entry of the policy table. It acts on no fault already handled; a report whose step 3 is still to come is
governed by the new entry, and where that gives NONE it passes, its record showing it. That such a report passes in the row itself is the
model's choice (log 10). R138: ACK_FAULT removes the oldest record and shows its sequence number;
the full flag falls when the list becomes empty, and an empty list refuses it. That a report still waiting finds its record by its
place, and none where it was removed, is the model's reading (R135, log 11). R140: CLEAR_COUNTERS clears
the tracking counters, their overflow flags and the refused-allocation counters. R15: INJECT arms the injection for one memory and
kind, replacing an earlier arm. SET_POLICY and INJECT are refused for an operand that names nothing. -/
def Obligations.IntegrityCommandsTakeEffect : Prop :=
  ∀ (f : MgmtFields) (s : State), s.MgmtReady →
    ((4 < f.a.toNat ∨ 2 < f.b.toNat) →
      exec (.setPolicy none f) s = .next (s.mgmtRefused ⟨0x20, f⟩ .refusedParam)) ∧
    (∀ (cls : FaultClass) (e : Escalation),
      f.a.toNat = (match cls with | .payload => 0 | .cellLink => 1 | .freeLink => 2 | .nodeContent => 3 | .nodeLink => 4) →
      f.b.toNat = (match e with | .none => 0 | .fence => 1 | .stop => 2) →
      ∃ t : Policy, exec (.setPolicy none f) s =
          .next ({ s with integrity := { s.integrity with
            policy := t
            waiting := s.integrity.waiting.flatMap (requestUnder t)
            faults := shownIn s.integrity.faults (s.integrity.waiting.flatMap (passingUnder t)) .none } }.mgmtTaken
              ⟨0x20, f⟩ .ok none) ∧
        t.of cls = e ∧ ∀ other, other ≠ cls → t.of other = s.integrity.policy.of other) ∧
    (s.integrity.faults = [] → exec (.ackFault none f) s = .next (s.mgmtRefused ⟨0x21, f⟩ .refusedState)) ∧
    (∀ x xs, s.integrity.faults = x :: xs →
      let moved := fun w : Waiting => { w with record := w.record.bind fun k => if k = 0 then none else some (k - 1) }
      exec (.ackFault none f) s = .next ({ s with integrity := { s.integrity with
        faults := xs, full := if xs = [] then false else s.integrity.full
        waiting := s.integrity.waiting.map fun g : ReportingRequest => { g with reports := g.reports.map moved } } }.mgmtTaken ⟨0x21, f⟩ .ok
          (some (BitVec.ofNat 16 x.sequence.toNat)))) ∧
    (∃ sh : Quad Share, exec (.clearCounters none f) s =
        .next ({ s with integrity := { s.integrity with tracking := .all ⟨0, false⟩ }, shares := sh }.mgmtTaken ⟨0x22, f⟩
          .ok none) ∧
      ∀ p, sh.get p = { s.share p with refused := 0 }) ∧
    ((2 < f.a.toNat ∨ 1 < f.b.toNat) → exec (.inject none f) s = .next (s.mgmtRefused ⟨0x23, f⟩ .refusedParam)) ∧
    ∀ (target : InjectTarget) (kind : InjectKind),
      f.a.toNat = (match target with | .payload => 0 | .cellLink => 1 | .node => 2) →
      f.b.toNat = (match kind with | .single => 0 | .double => 1) →
      exec (.inject none f) s = .next ({ s with arm := some ⟨target, kind⟩ }.mgmtTaken ⟨0x23, f⟩ .ok none)

/-- R150, R152, R158: RESET_PORT, FENCE_PORT and UNFENCE_PORT: the port number is checked first and then the exchange state; what they do
depends on the port's state. The cursor and reported fields of the teardown record that a RESET_PORT or FENCE_PORT makes are the
model's own (log 21). -/
def Obligations.PortCommandsFollowThePortState : Prop :=
  ∀ (f : MgmtFields) (s : State), s.MgmtReady →
    let started := fun (p : Port) (origin : TeardownOrigin) (endState : TeardownEnd) =>
      { s with
        ports := s.ports.set p (.resetting
          { origin := origin, endState := endState, step := 1, queue := none, cursor := 0, reported := false })
        shares := s.shares.set p { s.share p with starving := false } }
    (3 < f.port.toNat → exec (.resetPort none f) s = .next (s.mgmtRefused ⟨0x02, f⟩ .refusedParam) ∧
      exec (.fencePort none f) s = .next (s.mgmtRefused ⟨0x03, f⟩ .refusedParam) ∧
      exec (.unfencePort none f) s = .next (s.mgmtRefused ⟨0x04, f⟩ .refusedParam)) ∧
    ∀ p : Port, f.port.toNat = p.val →
      (s.exchange = .stopped → exec (.resetPort none f) s = .next (s.mgmtRefused ⟨0x02, f⟩ .refusedState) ∧
        exec (.fencePort none f) s = .next (s.mgmtRefused ⟨0x03, f⟩ .refusedState) ∧
        exec (.unfencePort none f) s = .next (s.mgmtRefused ⟨0x04, f⟩ .refusedState)) ∧
      (s.exchange = .running →
        (s.port p = .active →
          exec (.resetPort none f) s = .next ((started p .resetPort .active).mgmtTaken ⟨0x02, f⟩ .ok none) ∧
          exec (.fencePort none f) s = .next ((started p .fencePort .fenced).mgmtTaken ⟨0x03, f⟩ .ok none) ∧
          exec (.unfencePort none f) s = .next (s.mgmtRefused ⟨0x04, f⟩ .refusedState)) ∧
        (∀ t, s.port p = .resetting t →
          exec (.resetPort none f) s = .next (s.mgmtTaken ⟨0x02, f⟩ .ok none) ∧
          exec (.fencePort none f) s = .next ({ s with
            ports := s.ports.set p (.resetting { t with endState := .fenced }) }.mgmtTaken ⟨0x03, f⟩ .ok none) ∧
          exec (.unfencePort none f) s = .next (s.mgmtRefused ⟨0x04, f⟩ .refusedState)) ∧
        (s.port p = .fenced →
          exec (.resetPort none f) s = .next (s.mgmtRefused ⟨0x02, f⟩ .refusedState) ∧
          exec (.fencePort none f) s = .next (s.mgmtRefused ⟨0x03, f⟩ .refusedState) ∧
          exec (.unfencePort none f) s = .next (({ s with
            ports := s.ports.set p .active }.sendEvent p ⟨.portResetDone, none, none, 2⟩).mgmtTaken ⟨0x04, f⟩ .ok none)))

/-! ## Timers -/

/-- R92, R93, R94: a unit boundary advances the timer of every FILLING or HELD slot of an ACTIVE port while the exchange is RUNNING and
T(p) is not 0; a count that passes T(p) falls due, and TIMER_EXPIRY then abandons the slot, as by ABANDON, and sends SLOT_EXPIRED
after the entries of a freeing (log 26). That a due count stays, and that T(p) = 0 holds a count at 0 in every state, are the model's
readings (logs 13, 14); an expiry that is not due changes nothing (log 9), nor does one while a BEGIN of the port stands between its link
requests (log 29). -/
def Obligations.TimersAdvanceAndExpire : Prop :=
  ∀ s : State,
    (∃ cm, exec .unitBoundary s = .next { s with compose := cm } ∧ ∀ p c,
      let old := (s.compose.get p).get c
      let new := (cm.get p).get c
      let t := s.timeouts.get p
      let count := fun k : Composing =>
        if t = 0 then { k with timer := 0 }
        else if s.exchange = .running ∧ s.port p = .active ∧ k.due = false then
          { k with timer := k.timer + 1, due := decide (t + 1 ≤ k.timer + 1) }
        else k
      (old.phase = .idle → new = old) ∧
      (∀ k, old.phase = .filling k → new = { old with phase := .filling (count k) }) ∧
      ∀ k n, old.phase = .held k n → new = { old with phase := .held (count k) n }) ∧
    ∀ (p : Port) (c : ComposeNo),
      ((∀ k, ((s.composeSlot p c).phase = .filling k ∨ ∃ n, (s.composeSlot p c).phase = .held k n) → k.due = false) →
        exec (.timerExpiry p c) s = .next s) ∧
      (∀ o, (s.front p).opening = some o → exec (.timerExpiry p c) s = .next s) ∧
      ∀ k m, s.Composes p c k m → k.due = true → s.Serves p → s.memoriesWf = true → 1 ≤ m.holders →
        ∃ t, exec (.timerExpiry p c) s = .next t ∧
          t.composeSlot p c = { s.composeSlot p c with phase := .idle } ∧ SameOtherCompose s t p c ∧
          (m.holders ≠ 1 → KeptAs t k.desc m .abandoned ∧ t.pool = s.pool ∧ t.shares = s.shares ∧ SameCellStore s t ∧
            SameInjection s t) ∧
          (m.holders = 1 → Freed s t k.desc m ∧ Recovered s t m ∧ SameNodeList s t) ∧
          InjectionTaken s t (s.dropWrites m m.holders) ∧ SameOtherDescriptors s t k.desc ∧
          EventsSent s t (fun q => dropEntries s t m q ++ if q = p then [⟨.slotExpired, some c.val, some m.tag,
              (if (s.composeSlot p c).phase = .filling k then 0 else 1) +
                (if (s.composeSlot p c).starved = true then 2 else 0)⟩] else []) ∧
          t.fronts = s.fronts ∧ t.queues = s.queues ∧ t.receive = s.receive ∧ t.integrity = s.integrity ∧
          SameNodeRam s t ∧ t.payload = s.payload ∧ SameControl s t

/-! ## Drains -/

/-- R44, R61, R62, R63, R64, R12, R141: a drain step of a DRAINING queue in a RUNNING exchange. A head node whose words read clean or
corrected returns to the free list, and its descriptor loses a holder; a lost content word strands the node; a lost link word
strands the whole depth and closes the queue, whatever the content word reads. Each finding is reported, the CONTENT report
before the LINK report. A drain that leaves no node closes the queue, with QUEUE_CLOSED, the result of the close command, and the
report to a teardown that waits for it. A step that is not due changes nothing (log 9); the entries of a freeing come before
QUEUE_CLOSED (log 26). -/
def Obligations.DrainStepsRemoveNodes : Prop :=
  ∀ (q : QueueNo) (s : State),
    ((s.exchange ≠ .running ∨ ∀ lq, s.queue q = .live lq → ∀ c, lq.phase ≠ .draining c) →
      exec (.drainStep q) s = .next s) ∧
    ∀ (lq : LiveQueue) (c : CloseRecord) (h : NodeNo), s.exchange = .running → s.memoriesWf = true →
      s.queue q = .live lq → lq.phase = .draining c → lq.depth ≠ 0 → lq.head = some h →
      let queueClosed := fun stranded : Nat =>
        (⟨.queueClosed, some q.val, none, min stranded 255⟩ : EventEntry)
      let content := s.recordOf .nodeContent .node h.val c.owner (some q) none none
      let link := s.recordOf .nodeLink .node h.val c.owner (some q) none none .quarantine
      let others := fun t : State => (∀ e, e ≠ q → t.queue e = s.queue e) ∧ t.compose = s.compose ∧
        t.receive = s.receive ∧ t.payload = s.payload ∧ SameSettings s t ∧
        t.integrity.tracking = (s.readNode h).1.integrity.tracking
      (∀ d x m, ((s.contentWord h).check = .clean d ∨ (s.contentWord h).check = .corrected d) →
        ((s.nodeLinkWord h).check = .clean x ∨ (s.nodeLinkWord h).check = .corrected x) → s.desc d = .live m →
        1 ≤ m.holders →
        ∃ t, exec (.drainStep q) s = .next t ∧
          (lq.depth ≠ 1 → t.queue q = .live { lq with
              phase := .draining { c with drained := c.drained + 1 }, head := x
              tail := if x = none then none else lq.tail, depth := lq.depth - 1 } ∧
            t.fronts = s.fronts ∧ t.ports = s.ports ∧ EventsSent s t (dropEntries s t m)) ∧
          (lq.depth = 1 → DrainClosed s t q lq.consumer { c with drained := c.drained + 1 } ∧
            EventsSent s t (fun e => dropEntries s t m e ++ if e = lq.consumer then [queueClosed c.stranded] else [])) ∧
          NodeReturned s t h ∧ InjectionTaken s t (s.returnWrites m h) ∧ t.nodeContents = (s.readNode h).1.nodeContents ∧
          (m.holders ≠ 1 → KeptAs t d m m.state ∧ PoolWithNode s t h ∧ t.shares = s.shares ∧ SameCellStore s t) ∧
          (m.holders = 1 → Freed s t d m ∧ Recovered s t m ∧ SameStrandedAndMarks s t) ∧ SameOtherDescriptors s t d ∧
          t.integrity.waiting = s.integrity.waiting ∧ t.integrity.faults = s.integrity.faults ∧ others t) ∧
      (∀ x, (s.contentWord h).check = .uncorrectable →
        ((s.nodeLinkWord h).check = .clean x ∨ (s.nodeLinkWord h).check = .corrected x) →
        ∃ t, exec (.drainStep q) s = .next t ∧
          (lq.depth ≠ 1 → t.queue q = .live { lq with
              phase := .draining { c with stranded := c.stranded + 1 }, head := x
              tail := if x = none then none else lq.tail, depth := lq.depth - 1 } ∧
            t.fronts = s.fronts ∧ t.ports = s.ports ∧ t.events = s.events) ∧
          (lq.depth = 1 → DrainClosed s t q lq.consumer { c with stranded := c.stranded + 1 } ∧
            EventsSent s t (fun e => if e = lq.consumer then [queueClosed (c.stranded + 1)] else [])) ∧
          t.pool = { s.pool with strandedNodes := s.pool.strandedNodes + 1 } ∧ t.descriptors = s.descriptors ∧
          t.shares = s.shares ∧ SameCellStore s t ∧ SameNodeRam (s.readNode h).1 t ∧
          ReportedFault s t (content .strand) ∧ WaitsFor s t [(.nodeContent, c.owner)] ∧ SameInjection s t ∧ others t) ∧
      ((s.nodeLinkWord h).check = .uncorrectable →
        ∃ t, exec (.drainStep q) s = .next t ∧
          DrainClosed s t q lq.consumer { c with stranded := c.stranded + lq.depth } ∧
          EventsSent s t (fun e => if e = lq.consumer then
            [⟨.queueQuarantined, some q.val, none, min lq.depth 255⟩, queueClosed (c.stranded + lq.depth)] else []) ∧
          t.pool = { s.pool with strandedNodes := s.pool.strandedNodes + lq.depth } ∧ t.descriptors = s.descriptors ∧
          t.shares = s.shares ∧ SameCellStore s t ∧ SameNodeRam (s.readNode h).1 t ∧ SameInjection s t ∧ others t ∧
          (∀ d, ((s.contentWord h).check = .clean d ∨ (s.contentWord h).check = .corrected d) →
            ReportedFault s t link ∧ WaitsFor s t [(.nodeLink, c.owner)]) ∧
          ((s.contentWord h).check = .uncorrectable →
            (∃ u, ReportedFault s u (content .quarantine) ∧
              ReportedFault u t { link with sequence := s.integrity.nextSequence + 1 }) ∧
            WaitsFor s t [(.nodeContent, c.owner), (.nodeLink, c.owner)]))

/-! ## Escalations -/

/-- R130 step 3, R131 to R134, R141, R149: a FENCE_REQUEST makes step 3 of a report whose class then gives FENCE, a STOP_REQUEST that of one
whose class gives STOP: the next report, in the order made, of the first completed request that calls for it. A FENCE starts a teardown of
the reading port that ends FENCED, or makes a running one end so; a STOP in RUNNING freezes the exchange with every port FENCED. The record
of the report, where still listed, shows the escalation applied. The reports of the request behind it pass as long as their class gives
NONE. The requests of other reports are not touched, so their order is free. That step 3 waits for a row, and that a row changes nothing
where no request calls for it, are the model's choices (logs 9, 10); that a report knows its record by its place is its reading (log 11); the
cursor and reported fields of the teardown record are its own (log 21). R141, R152: between the escalations of one request, and before a BEGIN of
the port has completed (log 29), no teardown step of the port is made. -/
def Obligations.EscalationsFenceOrStop : Prop :=
  (∀ (e : Escalation) (s : State),
    (∀ g ∈ s.integrity.waiting, (∃ p, g.stage = .inProgress p) ∨
      ∀ w, g.reports.head? = some w → s.integrity.policy.of w.cls ≠ e) →
    (e = .fence → exec .fenceRequest s = .next s) ∧ (e = .stop → exec .stopRequest s = .next s)) ∧
  (∀ (e : Escalation) (pre post : List ReportingRequest) (stage : RequestStage) (w : Waiting) (ws : List Waiting)
    (s : State), s.integrity.waiting = pre ++ ⟨stage, w :: ws⟩ :: post → (∀ p, stage ≠ .inProgress p) →
    s.integrity.policy.of w.cls = e →
    (∀ g ∈ pre, (∃ p, g.stage = .inProgress p) ∨
      ∀ v, g.reports.head? = some v → s.integrity.policy.of v.cls ≠ e) →
    let settled := { s.integrity with
      waiting := pre ++ requestOf .escalating (stopping s.integrity.policy ws) ++ post
      faults := shownIn (shownIn s.integrity.faults [w] e) (passing s.integrity.policy ws) .none }
    (e = .fence →
      (s.exchange = .running →
        (s.port w.port = .active → exec .fenceRequest s = .next { s with
          integrity := settled
          ports := s.ports.set w.port (.resetting
            { origin := .escalation, endState := .fenced, step := 1, queue := none, cursor := 0, reported := false })
          shares := s.shares.set w.port { s.share w.port with starving := false } }) ∧
        (∀ t, s.port w.port = .resetting t → exec .fenceRequest s = .next { s with
          integrity := settled, ports := s.ports.set w.port (.resetting { t with endState := .fenced }) }) ∧
        (s.port w.port = .fenced → exec .fenceRequest s = .next { s with integrity := settled })) ∧
      (s.exchange ≠ .running → exec .fenceRequest s = .next { s with integrity := settled })) ∧
    (e = .stop →
      (s.exchange = .running → exec .stopRequest s = .next { s with
        integrity := settled, exchange := .stopped, ports := .all .fenced }) ∧
      (s.exchange ≠ .running → exec .stopRequest s = .next { s with integrity := settled }))) ∧
  ∀ (p : Port) (s : State),
    ((∃ g ∈ s.integrity.waiting, g.stage = .escalating ∧ (g.reports.head?).map (·.port) = some p) ∨
      (s.front p).opening ≠ none) →
    exec (.teardownAbandon p) s = .next s ∧ exec (.teardownRelease p) s = .next s ∧
    exec (.teardownClose p) s = .next s ∧ exec (.teardownCloseComplete p) s = .next s ∧
    exec (.teardownEventReset p) s = .next s ∧ exec (.teardownEnd p) s = .next s

/-! ## Port teardown -/

/-- R96, R113, R152, R153: steps 1 and 2 of a teardown take the slots in order: a FILLING or HELD slot is abandoned as by ABANDON, a
HOLDING slot released as by RELEASE, and the flags of each are cleared; the record goes on to the next slot, and after the last to
the next step (the cursor and reported fields: log 21). A step that is not due changes nothing (log 9). -/
def Obligations.TeardownEmptiesTheSlots : Prop :=
  ∀ (p : Port) (s : State),
    ((s.exchange ≠ .running ∨ ∀ t, s.port p ≠ .resetting t) →
      exec (.teardownAbandon p) s = .next s ∧ exec (.teardownRelease p) s = .next s) ∧
    (∀ (t : Teardown) (c : ComposeNo), s.TearsDown p t 1 → t.cursor = c.val →
      let next : PortState := .resetting (if c.val < 3 then { t with cursor := c.val + 1, queue := none, reported := false }
        else { t with step := 2, cursor := 0, queue := none, reported := false })
      ((s.composeSlot p c).phase = .idle →
        exec (.teardownAbandon p) s = .next ((s.setComposeSlot p c ⟨.idle, false, false⟩).setPort p next)) ∧
      ∀ k m, s.Composes p c k m → s.memoriesWf = true → 1 ≤ m.holders →
        ∃ u, exec (.teardownAbandon p) s = .next u ∧ u.port p = next ∧ (∀ e, e ≠ p → u.port e = s.port e) ∧
          u.composeSlot p c = ⟨.idle, false, false⟩ ∧ SameOtherCompose s u p c ∧
          (m.holders ≠ 1 → KeptAs u k.desc m .abandoned ∧ u.pool = s.pool ∧ u.shares = s.shares ∧ SameCellStore s u) ∧
          (m.holders = 1 → Freed s u k.desc m ∧ Recovered s u m ∧ SameNodeList s u) ∧
          InjectionTaken s u (s.dropWrites m m.holders) ∧
          EventsSent s u (dropEntries s u m) ∧ SameOtherDescriptors s u k.desc ∧ u.fronts = s.fronts ∧
          u.queues = s.queues ∧ u.receive = s.receive ∧ u.integrity = s.integrity ∧ SameNodeRam s u ∧
          u.payload = s.payload ∧ SameSettings s u) ∧
    ∀ (t : Teardown) (r : ReceiveNo), s.TearsDown p t 2 → t.cursor = r.val →
      let next : PortState := .resetting (if r.val < 1 then { t with cursor := r.val + 1, queue := none, reported := false }
        else { t with step := 3, cursor := 0, queue := none, reported := false })
      ((s.receiveSlot p r).phase = .idle →
        exec (.teardownRelease p) s =
          .next ((s.setReceiveSlot p r ⟨.idle, false, false, false, false⟩).setPort p next)) ∧
      ∀ h m, s.Receives p r h m → s.memoriesWf = true → 1 ≤ m.holders →
        ∃ u, exec (.teardownRelease p) s = .next u ∧ u.port p = next ∧ (∀ e, e ≠ p → u.port e = s.port e) ∧
          u.receiveSlot p r = ⟨.idle, false, false, false, false⟩ ∧ SameOtherReceive s u p r ∧
          NodeReturned s u h.node ∧ InjectionTaken s u (s.returnWrites m h.node) ∧
          (m.holders ≠ 1 → KeptAs u h.desc m m.state ∧ PoolWithNode s u h.node ∧ u.shares = s.shares ∧
            SameCellStore s u) ∧
          (m.holders = 1 → Freed s u h.desc m ∧ Recovered s u m ∧ SameStrandedAndMarks s u) ∧
          EventsSent s u (dropEntries s u m) ∧
          SameOtherDescriptors s u h.desc ∧ u.fronts = s.fronts ∧ u.queues = s.queues ∧ u.compose = s.compose ∧
          u.integrity = s.integrity ∧ u.nodeContents = s.nodeContents ∧ u.payload = s.payload ∧ SameSettings s u

/-- R153, R60, R68: step 3 of a teardown asks to close the queues that the port consumes, in order: a queue of another port or CLOSED
is passed over, a QUARANTINED or empty one closes at once, an OPEN one with nodes drains, and a DRAINING one is joined; the teardown
waits for the reported end of a drain before the next number. That TEARDOWN_CLOSE while a close is awaited and
TEARDOWN_CLOSE_COMPLETE without a report change nothing is the model's choice (log 9); the cursor and reported fields are its
own (log 21). -/
def Obligations.TeardownClosesTheQueues : Prop :=
  ∀ (p : Port) (t : Teardown) (q : QueueNo) (s : State), s.TearsDown p t 3 →
    let passed := fun u : State => u.setPort p (.resetting
      (if t.cursor < 31 then { t with cursor := t.cursor + 1, queue := none, reported := false }
        else { t with step := 4, cursor := 0, queue := none, reported := false }))
    let waits : PortState := .resetting { t with queue := some q, reported := false }
    (t.reported = true → exec (.teardownCloseComplete p) s = .next (passed s)) ∧
    (t.reported = false → exec (.teardownCloseComplete p) s = .next s) ∧
    (∀ e, t.queue = some e → exec (.teardownClose p) s = .next s) ∧
    (t.queue = none → t.cursor = q.val →
      (s.queue q = .closed → exec (.teardownClose p) s = .next (passed s)) ∧
      ∀ lq, s.queue q = .live lq →
        (lq.consumer ≠ p → exec (.teardownClose p) s = .next (passed s)) ∧
        (lq.consumer = p →
          (lq.phase = .quarantined → exec (.teardownClose p) s = .next (passed ((({ s with
            pool := { s.pool with strandedNodes := s.pool.strandedNodes + lq.depth } }).setQueue q .closed).sendEvent p
              ⟨.queueClosed, some q.val, none, min lq.depth 255⟩))) ∧
          (lq.phase = .opened → lq.depth = 0 → exec (.teardownClose p) s = .next (passed
            ((s.setQueue q .closed).sendEvent p ⟨.queueClosed, some q.val, none, 0⟩))) ∧
          (lq.phase = .opened → lq.depth ≠ 0 → exec (.teardownClose p) s = .next ((s.setQueue q (.live { lq with
            phase := .draining { owner := p, agent := false, teardown := true, drained := 0, stranded := 0 } })).setPort p
              waits)) ∧
          (∀ c, lq.phase = .draining c → exec (.teardownClose p) s = .next ((s.setQueue q (.live { lq with
            phase := .draining { c with teardown := true } })).setPort p waits))))

/-- R151, R154, R155: PORT_RESET starts a teardown of its own port that ends ACTIVE, with result PENDING and the command unit BUSY;
step 4 of a teardown returns the event part to its defaults and the command unit to IDLE, with results only for origin PORT_RESET;
step 5 gives the port its end state, and a port that ends ACTIVE is sent PORT_RESET_DONE with its origin. The cursor and reported
fields of a record are the model's own (log 21). -/
def Obligations.PortResetStartsAndTeardownEnds : Prop :=
  ∀ (p : Port) (s : State),
    (∀ f : CommandFields, s.Ready p → exec (.portReset p f) s = .next (({ s with
      ports := s.ports.set p (.resetting
        { origin := .portReset, endState := .active, step := 1, queue := none, cursor := 0, reported := false })
      shares := s.shares.set p { s.share p with starving := false } }).commandTaken p ⟨0x30, f⟩ .pending .absent
        .resetting)) ∧
    (∀ t, s.TearsDown p t 4 → exec (.teardownEventReset p) s = .next { s with
      events := s.events.set p ⟨[], false, 0xC26, false, none⟩
      fronts := s.fronts.set p (if t.origin = TeardownOrigin.portReset then
          { s.front p with unit := .idle, result0 := .ok, result1 := .absent }
        else { s.front p with unit := .idle })
      ports := s.ports.set p (.resetting { t with step := 5 }) }) ∧
    ∀ t, s.TearsDown p t 5 →
      (t.endState = .fenced → exec (.teardownEnd p) s = .next { s with ports := s.ports.set p .fenced }) ∧
      (t.endState = .active → (t.origin = .portReset ∨ t.origin = .resetPort) →
        exec (.teardownEnd p) s = .next (({ s with ports := s.ports.set p .active }).sendEvent p
          ⟨.portResetDone, none, none, if t.origin = TeardownOrigin.portReset then 0 else 1⟩))

/-! ## Invariants -/

/-- R115, R117, R118, R14, R137, R145, R149, R169, R176: every step keeps the six tables in canonical form (addresses rise, and no entry
equals what an unlisted address reads as); the bounds of the event queues, of the fault list and of the tracking counters; and the port
states legal for the exchange state, with the management command unit BUSY exactly while a rebuild runs. -/
def Obligations.EveryStepKeepsTablesBoundsAndControlStates : Prop :=
  (∀ s t : State, s.memoriesWf = true → step s = .next t → t.memoriesWf = true) ∧
  (∀ s t : State, (s.EventsBounded ∧ s.IntegrityBounded) → step s = .next t → t.EventsBounded ∧ t.IntegrityBounded) ∧
  ∀ s t : State, s.ControlLegal → step s = .next t → t.ControlLegal

/-- R36: every step conserves the nodes: those free, listed in queues, held by receive slots and stranded are 1,024 together. -/
def Obligations.EveryStepConservesTheNodes : Prop :=
  ∀ s t : State, s.NodesAccounted → step s = .next t → t.NodesAccounted

/-- R24, R31: every step conserves the cells: those free, in messages and stranded are 2,048 together, and each port stays charged the
cells of its messages. The premises: the tables agree with each other (EveryStepKeepsTheHolderCounts keeps that), and a cell free list with
a head counts a free cell (EveryStepKeepsTheCellListsLaidOut gives that). -/
def Obligations.EveryStepConservesTheCells : Prop :=
  ∀ s t : State, s.DescriptorsAccounted → (s.pool.cellHead ≠ none → 1 ≤ s.pool.freeCells) → step s = .next t →
    (s.CellsConserved → t.CellsConserved) ∧ (s.ChargesCounted → t.ChargesCounted)

/-- R18, R19, R21, R71, R97: every step keeps the tables in agreement, and the holder count of a message follows its holders: the compose
slot, the nodes that name it and the receive slots. Between two states in which a descriptor is live, the count moves with the compose
slots, the receive slots and the LINKED destinations, an append adding a node; a FETCH moves one node from a queue to a slot, and
a drain step takes one node. A descriptor that a BEGIN allocates counts its slot, where still composing, and its LINKED
destinations. The premise HeadsCounted: the node at the head of a queue is among the holders of the descriptor it names
(EveryStepKeepsTheNodeListsLaidOut gives that). -/
def Obligations.EveryStepKeepsTheHolderCounts : Prop :=
  ∀ (c : Instr) (rest : List Instr) (s t : State), s.DescriptorsAccounted → s.HeadsCounted →
    step { s with pending := c :: rest } = .next t →
    let linked := fun m : Message => (m.dests.filter fun x => decide (x.disposition = .linked)).length
    t.DescriptorsAccounted ∧
    (∀ d m m', s.desc d = .live m → t.desc d = .live m' → ∃ g ≤ 1,
      (g = 1 → (∃ p f, c = .fetchMessage p f) ∨ ∃ q, c = .drainStep q) ∧
      m'.holders + s.composeHolds d + s.receiveHolds d + linked m + g =
        m.holders + t.composeHolds d + t.receiveHolds d + linked m') ∧
    ∀ d m', s.desc d = .free → t.desc d = .live m' → m'.holders = t.composeHolds d + linked m'

/-- R2, R18, R24, R25, R28: every step keeps the cell free list and the chains of the messages running through distinct cells, with their
heads, tails and counts, and no link word with more than two inverted bits; and such a state gives EveryStepConservesTheCells its second
premise. -/
def Obligations.EveryStepKeepsTheCellListsLaidOut : Prop :=
  (∀ s : State, s.CellsLaidOut → s.pool.cellHead ≠ none → 1 ≤ s.pool.freeCells) ∧
  ∀ s t : State, s.DescriptorsAccounted → s.CellsLaidOut → step s = .next t → t.CellsLaidOut

/-- R3, R21, R29, R42, R51, R56, R97: every step keeps the node free list and the lists of the queues running through distinct nodes that no
receive slot holds, with their heads, tails and counts, and the nodes listed for a descriptor among its holders; and such a state
gives EveryStepKeepsTheHolderCounts its second premise. -/
def Obligations.EveryStepKeepsTheNodeListsLaidOut : Prop :=
  (∀ s : State, s.NodesLaidOut → s.HeadsCounted) ∧
  ∀ s t : State, s.DescriptorsAccounted → s.NodesLaidOut → step s = .next t → t.NodesLaidOut

/-- The state after reset satisfies every invariant above, and the conservation and counting laws of R21, R24, R31 and R36. -/
def Obligations.ResetSatisfiesTheInvariants : Prop :=
  State.reset.memoriesWf = true ∧ State.reset.EventsBounded ∧ State.reset.IntegrityBounded ∧
    State.reset.ControlLegal ∧ State.reset.NodesAccounted ∧ State.reset.CellsConserved ∧
    State.reset.DescriptorsAccounted ∧ State.reset.HeadsCounted ∧ State.reset.ChargesCounted ∧
    State.reset.CellsLaidOut ∧ State.reset.NodesLaidOut
end

