-- ==== Sys2Proof/Laws/State.lean ====
section
/-!
SUPPORT. Lemmas of the tables and accessors of the state: reading back what a setter stored. The projections of each setter
are simp lemmas already (Ops.lean marks the setters with simps); the lemmas here speak of the accessors.
-/
namespace Sys2Proof

namespace Quad

variable {α β : Type}

theorem get_set (q : Quad α) (i j : Fin 4) (v : α) : (q.set i v).get j = if j = i then v else q.get j := by
  fin_cases i <;> fin_cases j <;> rfl

@[simp] theorem get_set_self (q : Quad α) (i : Fin 4) (v : α) : (q.set i v).get i = v := by
  fin_cases i <;> rfl

@[simp] theorem get_set_ne (q : Quad α) {i j : Fin 4} (h : j ≠ i) (v : α) : (q.set i v).get j = q.get j := by
  rw [get_set, if_neg h]

@[simp] theorem get_all (v : α) (i : Fin 4) : (all v).get i = v := by fin_cases i <;> rfl

@[simp] theorem get_map (f : α → β) (q : Quad α) (i : Fin 4) : (q.map f).get i = f (q.get i) := by
  fin_cases i <;> rfl

@[simp] theorem set_get (q : Quad α) (i : Fin 4) : q.set i (q.get i) = q := by fin_cases i <;> rfl

@[simp] theorem set_set (q : Quad α) (i : Fin 4) (v w : α) : (q.set i v).set i w = q.set i w := by
  fin_cases i <;> rfl

/-- Two tables with the same entries are equal. -/
theorem ext_get {q r : Quad α} (h : ∀ i, q.get i = r.get i) : q = r := by
  cases q
  cases r
  simp only [mk.injEq]
  exact ⟨h 0, h 1, h 2, h 3⟩

end Quad

namespace Pair

variable {α : Type}

theorem get_set (q : Pair α) (i j : Fin 2) (v : α) : (q.set i v).get j = if j = i then v else q.get j := by
  fin_cases i <;> fin_cases j <;> rfl

@[simp] theorem get_set_self (q : Pair α) (i : Fin 2) (v : α) : (q.set i v).get i = v := by
  fin_cases i <;> rfl

@[simp] theorem get_set_ne (q : Pair α) {i j : Fin 2} (h : j ≠ i) (v : α) : (q.set i v).get j = q.get j := by
  rw [get_set, if_neg h]

@[simp] theorem get_all (v : α) (i : Fin 2) : (all v).get i = v := by fin_cases i <;> rfl

end Pair

namespace Machine.State

variable (s : State)

/-! ### Each accessor after its own setter -/

@[simp] theorem port_setPort_self (p : Port) (x : PortState) : (s.setPort p x).port p = x := by
  simp [port]

@[simp] theorem port_setPort_ne {p q : Port} (h : q ≠ p) (x : PortState) : (s.setPort p x).port q = s.port q := by
  simp [port, h]

@[simp] theorem front_setFront_self (p : Port) (x : FrontEnd) : (s.setFront p x).front p = x := by
  simp [front]

@[simp] theorem front_setFront_ne {p q : Port} (h : q ≠ p) (x : FrontEnd) :
    (s.setFront p x).front q = s.front q := by
  simp [front, h]

@[simp] theorem event_setEvent_self (p : Port) (x : EventPort) : (s.setEvent p x).event p = x := by
  simp [event]

@[simp] theorem event_setEvent_ne {p q : Port} (h : q ≠ p) (x : EventPort) :
    (s.setEvent p x).event q = s.event q := by
  simp [event, h]

@[simp] theorem share_setShare_self (p : Port) (x : Share) : (s.setShare p x).share p = x := by
  simp [share]

@[simp] theorem share_setShare_ne {p q : Port} (h : q ≠ p) (x : Share) : (s.setShare p x).share q = s.share q := by
  simp [share, h]

@[simp] theorem composeSlot_setComposeSlot_self (p : Port) (c : ComposeNo) (x : ComposeSlot) :
    (s.setComposeSlot p c x).composeSlot p c = x := by
  simp [composeSlot]

/-- Another compose slot is not changed. -/
theorem composeSlot_setComposeSlot_ne {p q : Port} {c d : ComposeNo} (h : (q, d) ≠ (p, c)) (x : ComposeSlot) :
    (s.setComposeSlot p c x).composeSlot q d = s.composeSlot q d := by
  by_cases hq : q = p
  · subst hq
    have hd : d ≠ c := fun e => h (by rw [e])
    simp [composeSlot, hd]
  · simp [composeSlot, hq]

@[simp] theorem receiveSlot_setReceiveSlot_self (p : Port) (r : ReceiveNo) (x : ReceiveSlot) :
    (s.setReceiveSlot p r x).receiveSlot p r = x := by
  simp [receiveSlot]

/-- Another receive slot is not changed. -/
theorem receiveSlot_setReceiveSlot_ne {p q : Port} {r e : ReceiveNo} (h : (q, e) ≠ (p, r)) (x : ReceiveSlot) :
    (s.setReceiveSlot p r x).receiveSlot q e = s.receiveSlot q e := by
  by_cases hq : q = p
  · subst hq
    have he : e ≠ r := fun i => h (by rw [i])
    simp [receiveSlot, he]
  · simp [receiveSlot, hq]

/-! ### An accessor reads its own record: other fields do not matter -/

theorem port_of_ports {s t : State} (h : t.ports = s.ports) (p : Port) : t.port p = s.port p := by
  rw [port, port, h]

theorem front_of_fronts {s t : State} (h : t.fronts = s.fronts) (p : Port) : t.front p = s.front p := by
  rw [front, front, h]

theorem event_of_events {s t : State} (h : t.events = s.events) (p : Port) : t.event p = s.event p := by
  rw [event, event, h]

theorem share_of_shares {s t : State} (h : t.shares = s.shares) (p : Port) : t.share p = s.share p := by
  rw [share, share, h]

theorem queue_of_queues {s t : State} (h : t.queues = s.queues) (q : QueueNo) : t.queue q = s.queue q := by
  rw [queue, queue, h]

theorem desc_of_descriptors {s t : State} (h : t.descriptors = s.descriptors) (d : DescNo) :
    t.desc d = s.desc d := by
  rw [desc, desc, h]

theorem message_of_descriptors {s t : State} (h : t.descriptors = s.descriptors) (d : DescNo) :
    t.message d = s.message d := by
  rw [message, message, desc_of_descriptors h]

theorem messageOf_of_descriptors {s t : State} (h : t.descriptors = s.descriptors) (d : DescNo) :
    t.messageOf d = s.messageOf d := by
  rw [messageOf, messageOf, message_of_descriptors h]

theorem composeSlot_of_compose {s t : State} (h : t.compose = s.compose) (p : Port) (c : ComposeNo) :
    t.composeSlot p c = s.composeSlot p c := by
  rw [composeSlot, composeSlot, h]

theorem receiveSlot_of_receive {s t : State} (h : t.receive = s.receive) (p : Port) (r : ReceiveNo) :
    t.receiveSlot p r = s.receiveSlot p r := by
  rw [receiveSlot, receiveSlot, h]

end Machine.State
end Sys2Proof
end

