-- ==== Sys2Proof/Laws/Memory.lean ====
section
/-!
SUPPORT. Lemmas of the word arrays: reading after a write, and the canonical form that every write keeps.
-/
namespace Sys2Proof.Machine

namespace Memory

variable {α : Type} [DecidableEq α] (d : Nat → α)

/-- Below its lower bound a canonical list holds no entry. -/
theorem get_below {lo k : Nat} {m : Memory α} (h : wfAbove d lo m = true) (hk : k < lo) : get d m k = d k := by
  induction m generalizing lo with
  | nil => rfl
  | cons e m ih =>
    obtain ⟨a, w⟩ := e
    simp only [wfAbove, Bool.and_eq_true, decide_eq_true_eq] at h
    have hne : k ≠ a := by omega
    simp only [get, hne, if_false]
    exact ih h.2 (by omega)

/-- A lower bound may be lowered. -/
theorem wfAbove_mono {lo lo' : Nat} {m : Memory α} (h : wfAbove d lo m = true) (hl : lo' ≤ lo) :
    wfAbove d lo' m = true := by
  cases m with
  | nil => rfl
  | cons e m =>
    obtain ⟨a, w⟩ := e
    simp only [wfAbove, Bool.and_eq_true, decide_eq_true_eq] at h ⊢
    exact ⟨⟨by omega, h.1.2⟩, h.2⟩

theorem get_set_above {lo k : Nat} {m : Memory α} (v : α) (j : Nat) (h : wfAbove d lo m = true) (hk : lo ≤ k) :
    get d (set d m k v) j = if j = k then v else get d m j := by
  induction m generalizing lo with
  | nil =>
    simp only [set]
    split_ifs with hv hj
    · subst hj
      simp [get, hv]
    · rfl
    · simp [get, *]
    · simp [get, *]
  | cons e m ih =>
    obtain ⟨a, w⟩ := e
    have h0 := h
    simp only [wfAbove, Bool.and_eq_true, decide_eq_true_eq] at h
    simp only [set]
    by_cases h1 : k < a
    · have hb : get d ((a, w) :: m) k = d k :=
        get_below d (lo := a) (by simp only [wfAbove, Bool.and_eq_true, decide_eq_true_eq]; exact ⟨⟨le_refl a, h.1.2⟩, h.2⟩) h1
      simp only [h1, if_true]
      by_cases hv : v = d k
      · simp only [hv, if_true]
        by_cases hj : j = k
        · subst hj
          simp [hb]
        · simp [hj]
      · simp only [hv, if_false, get]
    · by_cases h2 : k = a
      · subst h2
        simp only [Nat.lt_irrefl, if_false, if_true]
        by_cases hv : v = d k
        · simp only [hv, if_true, get]
          by_cases hj : j = k
          · subst hj
            simp only [if_true]
            exact get_below d h.2 (Nat.lt_succ_self _)
          · simp [hj]
        · simp only [hv, if_false, get]
          by_cases hj : j = k <;> simp [hj]
      · simp only [h1, h2, if_false, get]
        rw [ih h.2 (by omega)]
        by_cases hja : j = a
        · subst hja
          simp [Ne.symm h2]
        · simp [hja]

/-- A read of a canonical array after a write. -/
theorem get_set {m : Memory α} (h : wf d m = true) (k j : Nat) (v : α) :
    get d (set d m k v) j = if j = k then v else get d m j :=
  get_set_above d v j h (Nat.zero_le k)

theorem wfAbove_set {lo k : Nat} {m : Memory α} (v : α) (h : wfAbove d lo m = true) (hk : lo ≤ k) :
    wfAbove d lo (set d m k v) = true := by
  induction m generalizing lo with
  | nil =>
    simp only [set]
    split_ifs with hv
    · rfl
    · simp [wfAbove, hk, hv]
  | cons e m ih =>
    obtain ⟨a, w⟩ := e
    have h0 := h
    simp only [wfAbove, Bool.and_eq_true, decide_eq_true_eq] at h
    simp only [set]
    split_ifs with h1 hv h2 hv
    · exact h0
    · simp only [wfAbove, Bool.and_eq_true, decide_eq_true_eq]
      exact ⟨⟨hk, by simpa using hv⟩, ⟨by omega, h.1.2⟩, h.2⟩
    · exact wfAbove_mono d h.2 (by omega)
    · simp only [wfAbove, Bool.and_eq_true, decide_eq_true_eq]
      exact ⟨⟨hk, by simpa using hv⟩, by rw [h2]; exact h.2⟩
    · simp only [wfAbove, Bool.and_eq_true, decide_eq_true_eq]
      exact ⟨⟨h.1.1, h.1.2⟩, ih h.2 (by omega)⟩

/-- Every write keeps the canonical form. -/
theorem wf_set {m : Memory α} (h : wf d m = true) (k : Nat) (v : α) : wf d (set d m k v) = true :=
  wfAbove_set d v h (Nat.zero_le k)

@[simp] theorem wf_nil : wf d [] = true := rfl

omit [DecidableEq α] in
@[simp] theorem get_nil (k : Nat) : get d [] k = d k := rfl

/-- A read through a write of any array, canonical or not, at another address. -/
theorem get_set_ne (m : Memory α) {k j : Nat} (v : α) (hj : j ≠ k) : get d (set d m k v) j = get d m j := by
  induction m with
  | nil =>
    simp only [set]
    split_ifs <;> simp [get, hj]
  | cons e m ih =>
    obtain ⟨a, w⟩ := e
    simp only [set]
    split_ifs with h1 hv h2 hv
    · rfl
    · simp [get, hj]
    · subst h2
      simp [get, hj]
    · subst h2
      simp [get, hj]
    · simp only [get]
      split_ifs
      · rfl
      · exact ih

end Memory

namespace State

/-- The six canonical forms, one by one. -/
theorem memoriesWf_iff (s : State) : s.memoriesWf = true ↔
    Memory.wf payloadDefault s.payload = true ∧ Memory.wf cellLinkDefault s.cellLinks = true ∧
      Memory.wf contentDefault s.nodeContents = true ∧ Memory.wf nodeLinkDefault s.nodeLinks = true ∧
      Memory.wf descDefault s.descriptors = true ∧ Memory.wf queueDefault s.queues = true := by
  simp only [memoriesWf, Bool.and_eq_true]
  tauto

theorem reset_memories : State.reset.memoriesWf = true := rfl

/-- A queue read after a queue write. -/
theorem queue_setQueue (s : State) (h : Memory.wf queueDefault s.queues = true) (q r : QueueNo) (x : Queue) :
    (s.setQueue q x).queue r = if r = q then x else s.queue r := by
  simp only [queue, setQueue_queues, Memory.get_set _ h, Fin.val_inj]

/-- A descriptor read after a descriptor write. -/
theorem desc_setDesc (s : State) (h : Memory.wf descDefault s.descriptors = true) (d e : DescNo) (x : Descriptor) :
    (s.setDesc d x).desc e = if e = d then x else s.desc e := by
  simp only [desc, setDesc_descriptors, Memory.get_set _ h, Fin.val_inj]

end State

end Sys2Proof.Machine
end

