-- ==== Sys2Proof/Laws/Quiet.lean ====
section
/-!
SUPPORT. Everything that the data path can do to the state: a chain of edits to slots, queues, descriptors, the pool, the word
arrays, event queues and the Integrity Monitor. Exchange and port states, timeouts, enables of MINT_N, the management port
and the queue of waiting commands are not touched.
-/
namespace Sys2Proof.Machine

/-- `Quiet s t`: `t` is `s` after edits of the data path. -/
inductive Quiet (s : State) : State → Prop where
  | refl : Quiet s s
  | front {t : State} (p : Port) (x : FrontEnd) (h : Quiet s t) : Quiet s (t.setFront p x)
  | compose {t : State} (p : Port) (c : ComposeNo) (x : ComposeSlot) (h : Quiet s t) : Quiet s (t.setComposeSlot p c x)
  | receive {t : State} (p : Port) (r : ReceiveNo) (x : ReceiveSlot) (h : Quiet s t) : Quiet s (t.setReceiveSlot p r x)
  | arrive {t : State} (p : Port) (x : EventEntry) (h : Quiet s t) : Quiet s (t.sendEvent p x)
  | share {t : State} (p : Port) (x : Share) (h : Quiet s t) : Quiet s (t.setShare p x)
  | desc {t : State} (d : DescNo) (x : Descriptor) (h : Quiet s t) : Quiet s (t.setDesc d x)
  | queue {t : State} (q : QueueNo) (x : Queue) (h : Quiet s t) : Quiet s (t.setQueue q x)
  | pool {t : State} (x : Pool) (h : Quiet s t) : Quiet s (t.setPool x)
  | payload {t : State} (c : CellNo) (w : Fin 16) (x : Stored Word) (h : Quiet s t) : Quiet s (t.putPayload c w x)
  | cellLink {t : State} (c : CellNo) (x : Stored CellLink) (h : Quiet s t) : Quiet s (t.putCellLink c x)
  | content {t : State} (n : NodeNo) (x : Stored DescNo) (h : Quiet s t) : Quiet s (t.putContent n x)
  | nodeLink {t : State} (n : NodeNo) (x : Stored NodeLink) (h : Quiet s t) : Quiet s (t.putNodeLink n x)
  | count {t : State} (m : MemoryName) (h : Quiet s t) : Quiet s (t.countCorrection m)
  | report {t : State} (r : ErrorReport) (b : BaseAction) (h : Quiet s t) : Quiet s (t.report r b)
  | requests {t : State} (ws : List ReportingRequest) (fs : List FaultRecord) (h : Quiet s t)
      (hf : fs.length = t.integrity.faults.length)
      (hw : ∀ g ∈ ws, ∀ w ∈ g.reports, ∃ e ∈ t.integrity.waiting, w ∈ e.reports) :
      Quiet s (t.setIntegrity { t.integrity with waiting := ws, faults := fs })
  | arm {t : State} (a : Option Arm) (l : Option InjectionRecord) (h : Quiet s t) :
      Quiet s { t with arm := a, lastInjection := l }
  | fresh {t : State} (n : Nat) (h : Quiet s t) : Quiet s { t with fresh := n }

namespace Quiet

variable {s t u : State}

theorem trans (h : Quiet s t) (k : Quiet t u) : Quiet s u := by
  induction k with
  | refl => exact h
  | front p x _ ih => exact ih.front p x
  | compose p c x _ ih => exact ih.compose p c x
  | receive p r x _ ih => exact ih.receive p r x
  | arrive p x _ ih => exact ih.arrive p x
  | share p x _ ih => exact ih.share p x
  | desc d x _ ih => exact ih.desc d x
  | queue q x _ ih => exact ih.queue q x
  | pool x _ ih => exact ih.pool x
  | payload c w x _ ih => exact ih.payload c w x
  | cellLink c x _ ih => exact ih.cellLink c x
  | content n x _ ih => exact ih.content n x
  | nodeLink n x _ ih => exact ih.nodeLink n x
  | count m _ ih => exact ih.count m
  | report r b _ ih => exact ih.report r b
  | requests ws fs _ hf hw ih => exact ih.requests ws fs hf hw
  | arm a l _ ih => exact ih.arm a l
  | fresh n _ ih => exact ih.fresh n

/-! ### What no edit touches -/

theorem resetAsserted (h : Quiet s t) : t.resetAsserted = s.resetAsserted := by
  induction h <;>
    simp_all [State.sendEvent, State.countCorrection, State.report]

theorem ma (h : Quiet s t) : t.ma = s.ma := by
  induction h <;>
    simp_all [State.sendEvent, State.countCorrection, State.report]

theorem exchange (h : Quiet s t) : t.exchange = s.exchange := by
  induction h <;>
    simp_all [State.sendEvent, State.countCorrection, State.report]

theorem ports (h : Quiet s t) : t.ports = s.ports := by
  induction h <;>
    simp_all [State.sendEvent, State.countCorrection, State.report]

theorem timeouts (h : Quiet s t) : t.timeouts = s.timeouts := by
  induction h <;>
    simp_all [State.sendEvent, State.countCorrection, State.report]

theorem mint (h : Quiet s t) : t.mint = s.mint := by
  induction h <;>
    simp_all [State.sendEvent, State.countCorrection, State.report]

theorem mgmt (h : Quiet s t) : t.mgmt = s.mgmt := by
  induction h <;>
    simp_all [State.sendEvent, State.countCorrection, State.report]

theorem pending (h : Quiet s t) : t.pending = s.pending := by
  induction h <;>
    simp_all [State.sendEvent, State.countCorrection, State.report]

theorem policy (h : Quiet s t) : t.integrity.policy = s.integrity.policy := by
  induction h <;>
    simp_all [State.sendEvent, State.countCorrection, State.report]

/-! ### What every edit keeps -/

theorem memoriesWf (h : Quiet s t) (w : s.memoriesWf = true) : t.memoriesWf = true := by
  induction h with
  | refl => exact w
  | front | compose | receive | arrive | share | pool | count | report | requests | arm | fresh => assumption
  | _ =>
    rw [State.memoriesWf_iff] at *
    simp_all [Memory.wf_set]

end Quiet

/-! ### Bounds of the event queues and of the Integrity Monitor -/

theorem EventPort.Bounded.arrive {e : EventPort} (h : e.Bounded) (x : EventEntry) : (e.arrive x).Bounded := by
  obtain ⟨h1, h2, h3, h4⟩ := h
  unfold EventPort.arrive
  split_ifs with he hl
  · exact ⟨h1, h2, h3, h4⟩
  · refine ⟨h1, fun _ hn => ?_, h3, h4⟩
    rw [hn] at hl
    exact absurd hl (by decide)
  · refine ⟨?_, fun _ => by simp, h3, h4⟩
    simp only [List.length_append, List.length_singleton]
    omega

theorem State.EventsBounded.setEvent {s : State} (h : s.EventsBounded) (p : Port) {x : EventPort} (hx : x.Bounded) :
    (s.setEvent p x).EventsBounded := by
  intro q
  by_cases hq : q = p
  · subst hq
    simpa using hx
  · simpa [hq] using h q

/-- The counters and flags of correction tracking stay in range. -/
theorem Tracking.count1_le (t : Tracking) (h : t.count ≤ 255) : t.count1.count ≤ 255 := by
  unfold Tracking.count1
  split_ifs with hc
  · exact hc
  · exact h

theorem State.IntegrityBounded.countCorrection {s : State} (h : s.IntegrityBounded) (m : MemoryName) :
    (s.countCorrection m).IntegrityBounded := by
  refine ⟨h.1, h.2.1, h.2.2.1, fun k => ?_⟩
  show ((s.integrity.tracking.set m.index (s.tracking m).count1).get k.index).count ≤ 255
  rw [Quad.get_set]
  split_ifs
  · exact Tracking.count1_le _ (h.2.2.2 m)
  · exact h.2.2.2 k

theorem State.IntegrityBounded.report {s : State} (h : s.IntegrityBounded) (r : ErrorReport) (b : BaseAction) :
    (s.report r b).IntegrityBounded := by
  obtain ⟨h1, hw, h2, h3⟩ := h
  by_cases hr : s.integrity.faults.length < Config.faultListSize
  · refine ⟨?_, fun g hg w hm k hk => ?_, ?_, h3⟩
    · simp only [State.report, State.setIntegrity, hr, decide_true, if_true, List.length_append, List.length_singleton]
      omega
    · simp only [State.report, State.setIntegrity, hr, decide_true, if_true, List.mem_append, List.mem_singleton,
        List.length_append, List.length_singleton] at hg ⊢
      rcases hg with hg | rfl
      · exact (hw g hg w hm k hk).trans (Nat.lt_succ_self _)
      · simp only [List.mem_singleton] at hm
        subst hm
        cases hk
        exact Nat.lt_succ_self _
    · intro _
      simp [State.report, State.setIntegrity, hr]
  · refine ⟨?_, fun g hg w hm k hk => ?_, ?_, h3⟩
    · simpa [State.report, State.setIntegrity, hr] using h1
    · simp only [State.report, State.setIntegrity, hr, decide_false, Bool.false_eq_true, if_false, List.mem_append,
        List.mem_singleton] at hg ⊢
      rcases hg with hg | rfl
      · exact hw g hg w hm k hk
      · simp only [List.mem_singleton] at hm
        subst hm
        cases hk
    · intro _ hn
      simp only [State.report, State.setIntegrity, hr, decide_false] at hn
      simp only [Bool.false_eq_true, if_false] at hn
      rw [hn] at hr
      exact hr (by decide)

/-- Reports that wait in fewer or other requests, beside a fault list as long as before. -/
theorem State.IntegrityBounded.requests {s : State} (h : s.IntegrityBounded) {ws : List ReportingRequest}
    {fs : List FaultRecord} (hf : fs.length = s.integrity.faults.length)
    (hw : ∀ g ∈ ws, ∀ w ∈ g.reports, ∃ e ∈ s.integrity.waiting, w ∈ e.reports) :
    (s.setIntegrity { s.integrity with waiting := ws, faults := fs }).IntegrityBounded := by
  refine ⟨hf.trans_le h.1, fun g hg w hr k hk => ?_, fun hn => ?_, h.2.2.2⟩
  · obtain ⟨e, he, hwe⟩ := hw g hg w hr
    exact (h.2.1 e he w hwe k hk).trans_eq hf.symm
  · show fs ≠ []
    rw [← List.length_pos_iff, hf, List.length_pos_iff]
    exact h.2.2.1 hn

namespace Quiet

variable {s t : State}

theorem eventsBounded (h : Quiet s t) (b : s.EventsBounded) : t.EventsBounded := by
  induction h with
  | refl => exact b
  | arrive p x _ ih => exact ih.setEvent p ((ih p).arrive x)
  | _ => assumption

theorem integrityBounded (h : Quiet s t) (b : s.IntegrityBounded) : t.IntegrityBounded := by
  induction h with
  | refl => exact b
  | count m _ ih => exact ih.countCorrection m
  | report r a _ ih => exact ih.report r a
  | requests ws fs _ hf hw ih => exact ih.requests hf hw
  | _ => assumption

end Quiet
end Sys2Proof.Machine
end

