-- ==== Sys2Proof/Laws/Escalation.lean ====
section
/-!
SUPPORT. Step 3 of R130: what passes and what waits when a request completes, when an entry of the policy table is replaced, and when an
escalation is applied, in the words of the statements; and that each of these is an edit of the data path.
-/
namespace Sys2Proof.Machine

/-! ### Records that show an escalation -/

theorem length_shownIn (fs : List FaultRecord) (ws : List Waiting) (e : Escalation) :
    (shownIn fs ws e).length = fs.length := List.length_mapIdx

theorem getElem?_shownIn (fs : List FaultRecord) (ws : List Waiting) (e : Escalation) (j : Nat) :
    (shownIn fs ws e)[j]? = fs[j]?.map fun x =>
      if ws.any (fun w => decide (w.record = some j)) = true then { x with escalation := e } else x :=
  List.getElem?_mapIdx

theorem shownIn_nil (fs : List FaultRecord) (e : Escalation) : shownIn fs [] e = fs := by
  refine List.ext_getElem? fun j => ?_
  rw [getElem?_shownIn]
  simp

theorem shownIn_append (fs : List FaultRecord) (a b : List Waiting) (e : Escalation) :
    shownIn (shownIn fs a e) b e = shownIn fs (a ++ b) e := by
  refine List.ext_getElem? fun j => ?_
  rw [getElem?_shownIn, getElem?_shownIn, getElem?_shownIn, Option.map_map]
  congr 1
  funext x
  simp only [Function.comp_apply, List.any_append, Bool.or_eq_true]
  split_ifs <;> first | rfl | (exfalso; tauto)

/-- Step 3 of one report shows its escalation in its record. -/
theorem Waiting.settle_eq (w : Waiting) (e : Escalation) (fs : List FaultRecord) : w.settle e fs = shownIn fs [w] e := by
  refine List.ext_getElem? fun j => ?_
  rw [getElem?_shownIn, Waiting.settle]
  cases h : w.record with
  | none => simp [h]
  | some k =>
    simp only [List.any_cons, List.any_nil, Bool.or_false, decide_eq_true_eq, h, Option.some.injEq]
    rw [List.getElem?_modify]
    split_ifs <;> simp_all

/-- The records that already show the escalation stay. -/
theorem shownIn_of_shown {fs : List FaultRecord} {ws : List Waiting} {e : Escalation}
    (h : ∀ w ∈ ws, ∀ k x, w.record = some k → fs[k]? = some x → x.escalation = e) : shownIn fs ws e = fs := by
  refine List.ext_getElem? fun j => ?_
  rw [getElem?_shownIn]
  cases hx : fs[j]? with
  | none => rfl
  | some x =>
    simp only [Option.map_some, Option.some.injEq]
    split_ifs with ha
    · obtain ⟨w, hw, hr⟩ := List.any_eq_true.mp ha
      have he := h w hw j x (by simpa using hr) hx
      rw [← he]
    · rfl

/-! ### What passes and what waits -/

theorem remaining_eq (stage : RequestStage) (ws : List Waiting) : remaining stage ws = requestOf stage ws := by
  cases ws <;> rfl

theorem passReports_eq (table : Policy) (ws : List Waiting) (fs : List FaultRecord) :
    passReports table ws fs = (stopping table ws, shownIn fs (passing table ws) .none) := by
  induction ws generalizing fs with
  | nil => rw [passReports, passing, stopping, List.takeWhile_nil, List.dropWhile_nil, shownIn_nil]
  | cons w ws ih =>
    unfold passReports passing stopping
    rw [List.takeWhile_cons, List.dropWhile_cons]
    by_cases h : table.of w.cls = .none
    · simp only [h, if_true, decide_true]
      rw [ih, Waiting.settle_eq, shownIn_append]
      rfl
    · simp only [h, if_false, decide_false, Bool.false_eq_true]
      rw [shownIn_nil]

/-- The completion of a request (R130): its reports are those of the requests from the n-th on. -/
theorem Integrity.complete_eq (i : Integrity) (n : Nat) : i.complete n = { i with
    waiting := i.waiting.take n ++ requestOf .completed (stopping i.policy (i.reportsFrom n))
    faults := shownIn i.faults (passing i.policy (i.reportsFrom n)) .none } := by
  simp only [Integrity.complete, passReports_eq, remaining_eq]

/-- A request that made no report completes without a trace. -/
theorem Integrity.complete_of_le {i : Integrity} {n : Nat} (h : i.waiting.length ≤ n) : i.complete n = i := by
  have e : i.reportsFrom n = [] := by simp [Integrity.reportsFrom, List.drop_eq_nil_of_le h]
  rw [Integrity.complete_eq, e, List.take_of_length_le h]
  simp [passing, stopping, requestOf, shownIn_nil]

theorem State.completeRequest_of_le {s : State} {n : Nat} (h : s.integrity.waiting.length ≤ n) :
    s.completeRequest n = s := by
  rw [State.completeRequest, Integrity.complete_of_le h]
  rfl

/-- A request that leaves the Integrity Monitor's requests as they were has nothing to complete. -/
theorem State.completeRequest_of_integrity {s t : State} (h : t.integrity.waiting = s.integrity.waiting) :
    t.completeRequest s.requests = t := State.completeRequest_of_le (by rw [h]; exact Nat.le_refl _)

/-- The fields that a completion may write. -/
theorem State.completeRequest_footprint (s : State) (n : Nat) :
    ∃ ws fs, s.completeRequest n = { s with integrity := { s.integrity with waiting := ws, faults := fs } } :=
  ⟨_, _, by rw [State.completeRequest, Integrity.complete_eq]; rfl⟩

/-- Reports that a request made one by one, together. -/
theorem reportsFrom_made {i : Integrity} {gs : List ReportingRequest} {ws : List Waiting}
    (h : i.waiting = gs ++ ws.map fun w => ⟨.completed, [w]⟩) : i.reportsFrom gs.length = ws := by
  rw [Integrity.reportsFrom, h, List.drop_left, List.flatMap_map]
  exact List.flatMap_singleton' ws

/-- The completion of a request that made the given reports, whose records show the table's escalation already (R135). -/
theorem waitsFor_of_reportsMade {s t : State} {ws : List (FaultClass × Port)} (h : ReportsMade s t ws)
    (hp : t.integrity.policy = s.integrity.policy)
    (hr : ∀ w ∈ passing s.integrity.policy (reportsAt s.integrity.faults.length ws), ∀ k x, w.record = some k →
      t.integrity.faults[k]? = some x → x.escalation = .none) :
    WaitsFor s (t.completeRequest s.requests) ws ∧
      (t.completeRequest s.requests).integrity.faults = t.integrity.faults := by
  have e : t.integrity.reportsFrom s.requests = reportsAt s.integrity.faults.length ws := reportsFrom_made h
  have k : (t.completeRequest s.requests).integrity = t.integrity.complete s.requests := rfl
  rw [WaitsFor, k, Integrity.complete_eq, e, hp, h, State.requests, List.take_left]
  exact ⟨rfl, shownIn_of_shown hr⟩

/-- One report of a completed request. -/
theorem report_completed (s : State) (x : ErrorReport) (b : BaseAction) :
    WaitsFor s ((s.report x b).completeRequest s.requests) [(x.cls, x.port)] ∧
      ((s.report x b).completeRequest s.requests).integrity.faults = (s.report x b).integrity.faults := by
  refine waitsFor_of_reportsMade ?_ rfl fun w hw k r hk hx => ?_
  · show s.integrity.waiting ++ _ = _
    by_cases h : s.integrity.faults.length < 4 <;> simp [reportsAt, h, Config.faultListSize]
  · by_cases h : s.integrity.faults.length < 4
    · simp only [passing, reportsAt, h, if_true, List.takeWhile_cons] at hw
      split at hw
      · rename_i hn
        simp only [List.takeWhile_nil, List.mem_singleton] at hw
        subst hw
        cases hk
        have hf : (s.report x b).integrity.faults = s.integrity.faults ++ [s.faultRecord x b] := by
          simp [State.report, Config.faultListSize, h]
        rw [hf, List.getElem?_append_right (Nat.le_refl _), Nat.sub_self] at hx
        cases hx
        exact of_decide_eq_true hn
      · simp at hw
    · simp only [passing, reportsAt, h, if_false, List.takeWhile_cons] at hw
      split at hw
      · simp only [List.takeWhile_nil, List.mem_singleton] at hw
        subst hw
        cases hk
      · simp at hw

/-! ### A new entry of the policy table (R132) -/

theorem passRequests_eq (table : Policy) (gs : List ReportingRequest) (fs : List FaultRecord) :
    passRequests table gs fs =
      (gs.flatMap (requestUnder table), shownIn fs (gs.flatMap (passingUnder table)) .none) := by
  induction gs generalizing fs with
  | nil => simp [passRequests, shownIn_nil]
  | cons g gs ih =>
    obtain ⟨stage, ws⟩ := g
    cases stage <;>
      simp only [passRequests, passReports_eq, remaining_eq, ih, List.flatMap_cons, requestUnder, passingUnder,
        List.cons_append, List.nil_append, shownIn_append]

/-! ### Escalations (R133, R134) -/

/-- A request whose next report does not give `e` is passed over. -/
theorem escalate_skips {table : Policy} {e : Escalation} {g : ReportingRequest} (gs : List ReportingRequest)
    (fs : List FaultRecord) (h : ∀ w, g.next = some w → table.of w.cls ≠ e) :
    escalate table e (g :: gs) fs = (escalate table e gs fs).map fun x => (x.1, g :: x.2.1, x.2.2) := by
  conv_lhs => rw [escalate]
  cases hn : g.next with
  | none => rfl
  | some w => simp only [if_neg (h w hn)]

theorem escalate_none {table : Policy} {e : Escalation} {gs : List ReportingRequest} (fs : List FaultRecord)
    (h : ∀ g ∈ gs, ∀ w, g.next = some w → table.of w.cls ≠ e) : escalate table e gs fs = none := by
  induction gs with
  | nil => rfl
  | cons g gs ih =>
    rw [escalate_skips gs fs (h g List.mem_cons_self), ih fun x hx => h x (List.mem_cons_of_mem _ hx)]
    rfl

/-- The first request whose next report gives `e`: the report escalated, and those behind it that give NONE passed. -/
theorem escalate_first {table : Policy} {e : Escalation} {pre post : List ReportingRequest} {g : ReportingRequest}
    {w : Waiting} {ws : List Waiting} (fs : List FaultRecord)
    (h : ∀ y ∈ pre, ∀ v, y.next = some v → table.of v.cls ≠ e) (hg : g.next = some w) (hr : g.reports = w :: ws)
    (he : table.of w.cls = e) :
    escalate table e (pre ++ g :: post) fs =
      some (w, pre ++ requestOf .escalating (stopping table ws) ++ post,
        shownIn (shownIn fs [w] e) (passing table ws) .none) := by
  induction pre with
  | nil =>
    show escalate table e (g :: post) fs = _
    rw [escalate]
    simp only [hg, if_pos he, hr, List.tail_cons, passReports_eq, remaining_eq, Waiting.settle_eq, List.nil_append]
  | cons y pre ih =>
    rw [List.cons_append, escalate_skips _ fs (h y List.mem_cons_self),
      ih fun x hx => h x (List.mem_cons_of_mem _ hx)]
    rfl

/-! ### Edits of the data path -/

namespace Quiet

variable {s t : State}

theorem mem_requestOf {stage : RequestStage} {ws : List Waiting} {g : ReportingRequest} (h : g ∈ requestOf stage ws) :
    g = ⟨stage, ws⟩ := by
  unfold requestOf at h
  split_ifs at h
  · simp at h
  · simpa using h

theorem mem_reportsFrom {i : Integrity} {n : Nat} {w : Waiting} (h : w ∈ i.reportsFrom n) :
    ∃ e ∈ i.waiting, w ∈ e.reports := by
  obtain ⟨e, he, hw⟩ := List.mem_flatMap.mp h
  exact ⟨e, List.mem_of_mem_drop he, hw⟩

theorem completeRequest (h : Quiet s t) (n : Nat) : Quiet s (t.completeRequest n) := by
  rw [State.completeRequest, Integrity.complete_eq]
  refine h.requests _ _ (length_shownIn _ _ _) fun g hg w hw => ?_
  rcases List.mem_append.mp hg with hg | hg
  · exact ⟨g, List.mem_of_mem_take hg, hw⟩
  · rw [mem_requestOf hg] at hw
    exact mem_reportsFrom ((List.dropWhile_sublist _).subset hw)

theorem suspend (h : Quiet s t) (p : Port) (n : Nat) : Quiet s (t.setIntegrity (t.integrity.suspend p n)) := by
  rw [Integrity.suspend, remaining_eq]
  refine h.requests _ _ rfl fun g hg w hw => ?_
  rcases List.mem_append.mp hg with hg | hg
  · exact ⟨g, List.mem_of_mem_take hg, hw⟩
  · rw [mem_requestOf hg] at hw
    exact mem_reportsFrom hw

theorem resume (h : Quiet s t) (p : Port) : Quiet s (t.setIntegrity (t.integrity.resume p)) := by
  refine h.requests _ _ rfl fun g hg w hw => ⟨g, ?_, hw⟩
  rcases List.mem_append.mp hg with hg | hg
  · exact List.mem_of_mem_filter hg
  · exact List.mem_of_mem_filter hg

end Quiet
end Sys2Proof.Machine
end

