-- ==== Sys2Proof/Laws/Ops.lean ====
section
/-!
SUPPORT. One lemma for each shared operation of the data path: all that it does is edits of the data path (Quiet).
-/
namespace Sys2Proof.Machine

namespace Quiet

variable {s t : State}

/-! ### Ops.lean -/

theorem updMessage (h : Quiet s t) (d : DescNo) (f : Message → Message) : Quiet s (t.updMessage d f) := by
  unfold State.updMessage
  split
  · exact h
  · exact h.desc d _

theorem sendAll (h : Quiet s t) (x : EventEntry) : Quiet s (t.sendAll x) :=
  (((h.arrive 0 x).arrive 1 x).arrive 2 x).arrive 3 x

theorem readPayload (h : Quiet s t) (c : CellNo) (w : Fin 16) : Quiet s (t.readPayload c w).1 := by
  unfold State.readPayload
  split
  · exact h
  · exact (h.payload c w _).count _
  · exact h

theorem readCellLink (h : Quiet s t) (c : CellNo) : Quiet s (t.readCellLink c).1 := by
  unfold State.readCellLink
  split
  · exact h
  · exact (h.cellLink c _).count _
  · exact h

theorem readContent (h : Quiet s t) (n : NodeNo) : Quiet s (t.readContent n).1 := by
  unfold State.readContent
  split
  · exact h
  · exact (h.content n _).count _
  · exact h

theorem readNodeLink (h : Quiet s t) (n : NodeNo) : Quiet s (t.readNodeLink n).1 := by
  unfold State.readNodeLink
  split
  · exact h
  · exact (h.nodeLink n _).count _
  · exact h

theorem takeArm (h : Quiet s t) (a : InjectTarget) (m : MemoryName) (w : WordKind) (i : Nat) :
    Quiet s (t.takeArm a m w i) := by
  unfold State.takeArm
  split
  · split_ifs
    · exact h.arm none _
    · exact h
  · exact h

theorem writePayload (h : Quiet s t) (c : CellNo) (w : Fin 16) (v : Word) : Quiet s (t.writePayload c w v) :=
  (h.takeArm _ _ _ _).payload c w _

theorem writeCellLink (h : Quiet s t) (c : CellNo) (v : CellLink) : Quiet s (t.writeCellLink c v) :=
  (h.takeArm _ _ _ _).cellLink c _

theorem writeContent (h : Quiet s t) (n : NodeNo) (v : DescNo) : Quiet s (t.writeContent n v) :=
  (h.takeArm _ _ _ _).content n _

theorem writeNodeLink (h : Quiet s t) (n : NodeNo) (v : NodeLink) : Quiet s (t.writeNodeLink n v) :=
  (h.takeArm _ _ _ _).nodeLink n _

/-! ### Pool.lean -/

theorem lowWaterEvaluation (h : Quiet s t) : Quiet s t.lowWaterEvaluation := by
  unfold State.lowWaterEvaluation
  split_ifs
  · exact (h.pool _).sendAll _
  · exact h

theorem recoveryEvaluation (h : Quiet s t) : Quiet s t.recoveryEvaluation := by
  unfold State.recoveryEvaluation
  split_ifs
  · exact (h.pool _).sendAll _
  · exact h

theorem starvationEvaluation (h : Quiet s t) (p : Port) : Quiet s (t.starvationEvaluation p) := by
  unfold State.starvationEvaluation
  split_ifs
  · exact (h.share p _).arrive p _
  · exact h

theorem starvationEvaluations (h : Quiet s t) : Quiet s t.starvationEvaluations :=
  (((h.starvationEvaluation 0).starvationEvaluation 1).starvationEvaluation 2).starvationEvaluation 3

theorem takeHeadCell (h : Quiet s t) (p : Port) (c : CellNo) : Quiet s (t.takeHeadCell p c) := by
  have hr := h.readCellLink c
  unfold State.takeHeadCell
  split <;> rename_i s1 _ e <;> rw [e] at hr
  · exact hr.pool _
  · exact (hr.pool _).report _ _

theorem grantCell (h : Quiet s t) (p : Port) (d : DescNo) (c : CellNo) : Quiet s (t.grantCell p d c) :=
  ((((h.takeHeadCell p c).writeCellLink c none).share p _).updMessage d _).lowWaterEvaluation

theorem refuseGrant (h : Quiet s t) (p : Port) (c : ComposeNo) : Quiet s (t.refuseGrant p c) := h.share p _

theorem splice (h : Quiet s t) (c1 cn : CellNo) (k : Nat) : Quiet s (t.splice c1 cn k) := by
  unfold State.splice
  split
  · exact (h.writeCellLink _ _).pool _
  · exact h.pool _

theorem returnCells (h : Quiet s t) (m : Message) : Quiet s (t.returnCells m) := by
  unfold State.returnCells
  split
  · exact h.splice _ _ _
  · exact h.pool _

theorem freeDescriptor (h : Quiet s t) (d : DescNo) (m : Message) : Quiet s (t.freeDescriptor d m) := by
  have k := (((h.returnCells m).share m.port { (t.returnCells m).share m.port with
    charged := ((t.returnCells m).share m.port).charged - m.cells }).desc d .free).pool
  unfold State.freeDescriptor
  split
  · exact (k _).starvationEvaluations.recoveryEvaluation
  · exact k _

theorem dropHolder (h : Quiet s t) (d : DescNo) : Quiet s (t.dropHolder d) := by
  unfold State.dropHolder
  split
  · exact h
  · split_ifs
    · exact h
    · exact h.freeDescriptor d _
    · exact h.desc d _

theorem returnNode (h : Quiet s t) (n : NodeNo) : Quiet s (t.returnNode n) := by
  unfold State.returnNode
  split
  · exact ((h.writeNodeLink n none).writeNodeLink _ _).pool _
  · exact (h.writeNodeLink n none).pool _

theorem returnNodes (ns : List NodeNo) (h : Quiet s t) : Quiet s (t.returnNodes ns) := by
  induction ns generalizing t with
  | nil => exact h
  | cons n ns ih => exact ih (h.returnNode n)

theorem takeHeadNode (h : Quiet s t) (p : Port) (n : NodeNo) : Quiet s (t.takeHeadNode p n) := by
  have hr := h.readNodeLink n
  unfold State.takeHeadNode
  split <;> rename_i s1 _ e <;> rw [e] at hr
  · exact hr.pool _
  · exact (hr.pool _).report _ _

theorem takeNodes (p : Port) (k : Nat) (acc : List NodeNo) (h : Quiet s t) :
    Quiet s (State.takeNodes p k t acc).1 := by
  induction k generalizing t acc with
  | zero => exact h
  | succ k ih =>
    unfold State.takeNodes
    split
    · exact h
    · exact ih _ (h.takeHeadNode p _)

theorem allocateNodes (h : Quiet s t) (p : Port) (k : Nat) : Quiet s (t.allocateNodes p k).1 := by
  have hk := takeNodes p k [] h
  unfold State.allocateNodes
  split <;> rename_i s1 ns e <;> rw [e] at hk
  · exact hk
  · exact returnNodes _ hk

/-! ### Links.lean -/

theorem appendWords (h : Quiet s t) (n : NodeNo) (d : DescNo) (lq : LiveQueue) : Quiet s (t.appendWords n d lq) := by
  have k := (h.writeContent n d).writeNodeLink n none
  unfold State.appendWords
  split_ifs
  · exact k
  · split
    · exact k.writeNodeLink _ _
    · exact k

theorem appendNode (h : Quiet s t) (n : NodeNo) (d : DescNo) (q : QueueNo) (lq : LiveQueue) :
    Quiet s (t.appendNode n d q lq) := by
  have k := ((h.appendWords n d lq).queue q (.live (lq.append n).afterAppend)).updMessage d (Message.link q)
  unfold State.appendNode
  dsimp only
  split_ifs
  · exact k.arrive _ _
  · exact k

theorem appendAll (d : DescNo) (qs : List QueueNo) (ns : List NodeNo) (h : Quiet s t) :
    Quiet s (t.appendAll d qs ns) := by
  induction qs generalizing t ns with
  | nil => unfold State.appendAll; exact h
  | cons q qs ih =>
    cases ns with
    | nil => unfold State.appendAll; exact h
    | cons n ns =>
      unfold State.appendAll
      split
      · exact ih ns (h.appendNode n d q _)
      · exact ih ns h

theorem headNode (h : Quiet s t) (lq : LiveQueue) : Quiet s (t.headNode lq).1 := by
  unfold State.headNode
  split
  · exact h
  · exact h.fresh _

theorem readNode (h : Quiet s t) (n : NodeNo) : Quiet s (t.readNode n).1 :=
  (h.readContent n).readNodeLink n

theorem reportBroken (h : Quiet s t) (n : NodeNo) (c : Option DescNo) (a : ReadAccess) (p : Port) (q : QueueNo) :
    Quiet s (t.reportBroken n c a p q) := by
  unfold State.reportBroken
  split
  · exact (h.report _ _).report _ _
  · exact h.report _ _

theorem strandNodes (h : Quiet s t) (k : Nat) : Quiet s (t.strandNodes k) := h.pool _

theorem quarantine (h : Quiet s t) (q : QueueNo) (lq : LiveQueue) : Quiet s (t.quarantine q lq) :=
  (h.queue q _).arrive _ _

theorem closeRecord (h : Quiet s t) (q : QueueNo) (p : Port) (k : Nat) : Quiet s (t.closeRecord q p k) :=
  (h.queue q _).arrive _ _

theorem completeCommand (h : Quiet s t) (p : Port) (q : QueueNo) (a b : Nat) :
    Quiet s (t.completeCommand p q a b) := by
  unfold State.completeCommand
  split_ifs
  · exact h.front p _
  · exact h

theorem closeAtOnce (h : Quiet s t) (q : QueueNo) (lq : LiveQueue) : Quiet s (t.closeAtOnce q lq) := by
  unfold State.closeAtOnce
  split
  · exact (h.strandNodes _).closeRecord _ _ _
  · exact h.closeRecord _ _ _
  · exact h.closeRecord _ _ _

theorem disposeAll (d : DescNo) (x : Disposition) (qs : List QueueNo) (h : Quiet s t) :
    Quiet s (t.disposeAll d x qs) := by
  induction qs generalizing t with
  | nil => exact h
  | cons q qs ih => exact ih (h.updMessage d _)

theorem examine (h : Quiet s t) (p : Port) (d : DescNo) (m : Message) : Quiet s (t.examine p d m).1 := by
  unfold State.examine
  dsimp only
  split
  · exact h
  · split_ifs
    · exact h
    · have k := h.allocateNodes p (State.roomDests (t.admittedDests p m.pendingDests)).length
      split <;> rename_i e <;> rw [e] at k
      · exact k
      · exact disposeAll _ _ _ (disposeAll _ _ _ (appendAll _ _ _ k))

theorem idleSlot (h : Quiet s t) (p : Port) (c : ComposeNo) : Quiet s (t.idleSlot p c) := h.compose p c _

theorem sealSlot (h : Quiet s t) (p : Port) (c : ComposeNo) (k : Composing) (m : Message) (n : Nat) :
    Quiet s (t.sealSlot p c k m n).state := by
  have e := h.examine p k.desc m
  unfold State.sealSlot
  split <;> rename_i e' <;> rw [e'] at e
  · exact e.compose p c _
  · exact ((e.updMessage _ _).idleSlot p c).dropHolder _

theorem abandonSlot (h : Quiet s t) (p : Port) (c : ComposeNo) (k : Composing) : Quiet s (t.abandonSlot p c k) :=
  ((h.updMessage _ _).idleSlot p c).dropHolder _

theorem releaseSlot (h : Quiet s t) (p : Port) (r : ReceiveNo) (x : Holding) : Quiet s (t.releaseSlot p r x) :=
  ((h.returnNode _).dropHolder _).receive p r _

/-! ### FrontEnd.lean -/

theorem answer (h : Quiet s t) (p : Port) (a : Answer) : Quiet s (t.answer p a) := h.front p _

theorem answerError (h : Quiet s t) (p : Port) (a : BitVec 16) (r : ErrorReason) : Quiet s (t.answerError p a r) :=
  h.front p _

theorem acting (h : Quiet s t) (p : Port) (a : BitVec 16) {f : State → State} (hf : Quiet s (f t)) :
    Quiet s (t.acting p a f) := by
  unfold State.acting State.oneAccess
  split
  · exact h
  · dsimp only
    split
    · exact h.answer p _
    · exact h.answer p _
    · exact h.answerError p a _
    · split
      · exact h.answer p _
      · exact h.answerError p a _
      · exact hf

theorem commandAccess (h : Quiet s t) (p : Port) {f : State → State} (hf : Quiet s (f t)) :
    Quiet s (t.commandAccess p f) := by
  refine h.acting p _ ?_
  split
  · exact hf
  · exact h.answer p _
  · exact h.answer p _

theorem takeCommand (h : Quiet s t) (p : Port) (c : CommandWord) {f : State → CommandOutcome}
    (hf : Quiet s (f t).state) : Quiet s (t.takeCommand p c f) := h.commandAccess p (hf.front p _)

end Quiet
end Sys2Proof.Machine
end

