-- ==== Sys2Proof/Laws/Commands.lean ====
section
/-!
SUPPORT. What each command can do, as edits: the commands of the data path are Quiet, and every other command is
described by one lemma that gives its next state's control records.
-/
namespace Sys2Proof.Machine

namespace Quiet

variable {s t : State}

/-! ### Queue commands -/

theorem openQueue (p : Port) (f : CommandFields) (h : Quiet s t) : Quiet s (openQueue p f t).state := by
  unfold Machine.openQueue
  dsimp only
  repeat' split
  all_goals first | exact h | exact h.queue _ _

theorem modifyTaken (h : Quiet s t) (q : QueueNo) (lq : LiveQueue) (x : QueueParams) (y : FullPolicy) :
    Quiet s (modifyTaken t q lq x y) := by
  unfold Machine.modifyTaken
  dsimp only
  split_ifs
  · exact (h.queue _ _).arrive _ _
  · exact h.queue _ _

theorem modifyQueue (p : Port) (f : CommandFields) (h : Quiet s t) : Quiet s (modifyQueue p f t).state := by
  unfold Machine.modifyQueue
  dsimp only
  repeat' split
  all_goals first | exact h | exact h.modifyTaken _ _ _ _

theorem closeQueue (p : Port) (f : CommandFields) (h : Quiet s t) : Quiet s (closeQueue p f t).state := by
  unfold Machine.closeQueue
  repeat' split
  all_goals first | exact h | exact h.closeAtOnce _ _ | exact h.queue _ _

theorem queryQueue (f : CommandFields) (h : Quiet s t) : Quiet s (queryQueue f t).state := by
  unfold Machine.queryQueue
  split
  all_goals exact h

/-! ### Compose commands -/

theorem beginTaken (h : Quiet s t) (p : Port) (c : ComposeNo) (b : BeginParams) (qs : List QueueNo) (d : DescNo)
    (rest : List DescNo) (room full : List QueueNo) (ns : List NodeNo) :
    Quiet s (beginTaken t p c b qs d rest room full ns) :=
  (disposeAll _ _ _ (appendAll _ _ _ ((h.pool _).desc d _))).compose p c _

theorem beginLink (h : Quiet s t) (p : Port) (c : ComposeNo) (b : BeginParams) (qs : List QueueNo) :
    Quiet s (beginLink t p c b qs).state := by
  unfold Machine.beginLink
  dsimp only
  split
  · exact h
  · split
    · exact h
    · split_ifs
      · exact h
      · split
        · exact h
        · have k := h.allocateNodes p (State.roomDests (cutDests (t.admittedDests p
            (qs.zipIdx.map fun x => (x.2, x.1))))).length
          split <;> rename_i e <;> rw [e] at k
          · exact k
          · exact k.beginTaken _ _ _ _ _ _ _ _ _

theorem beginFirst (p : Port) (f : CommandFields) (h : Quiet s t) : Quiet s (beginFirst p f t).state := by
  unfold Machine.beginFirst
  dsimp only
  repeat' split
  all_goals first | exact h | exact h.beginLink _ _ _ _

theorem beginSeal (h : Quiet s t) (p : Port) (c : ComposeNo) (k : Composing) : Quiet s (beginSeal t p c k).state :=
  h.sealSlot _ _ _ _ _

theorem beginMessage (p : Port) (f : CommandFields) (h : Quiet s t) : Quiet s (beginMessage p f t).state := by
  refine Quiet.completeRequest ?_ _
  have k := beginFirst p f h
  unfold BeginOutcome.finish
  split
  · exact k
  · exact k.beginSeal _ _ _

theorem beginOpen (p : Port) (f : CommandFields) (h : Quiet s t) : Quiet s (beginOpen p f t) := by
  have k := beginFirst p f h
  unfold Machine.beginOpen
  dsimp only
  split
  · exact (k.completeRequest _).front p _
  · exact (k.suspend p _).front p _

theorem endOpening (h : Quiet s t) (p : Port) : Quiet s (t.endOpening p) := by
  unfold State.endOpening
  split
  · exact h
  · have k := (h.front p { t.front p with opening := none }).resume p
    dsimp only
    split
    · exact ((k.beginSeal _ _ _).completeRequest _).front p _
    · exact k.completeRequest _
    · exact k.completeRequest _

theorem sealResult {o : State.SealOutcome} (h : Quiet s o.state) (d : DescNo) : Quiet s (sealResult o d).state := by
  unfold Machine.sealResult
  split
  all_goals exact h

theorem sealTaken (p : Port) (f : CommandFields) (h : Quiet s t) : Quiet s (sealTaken p f t).state := by
  unfold Machine.sealTaken
  dsimp only
  repeat' split
  all_goals first | exact h | exact sealResult (h.sealSlot _ _ _ _ _) _

theorem sealMessage (p : Port) (f : CommandFields) (h : Quiet s t) : Quiet s (sealMessage p f t).state :=
  (sealTaken p f h).completeRequest _

theorem abandonMessage (p : Port) (f : CommandFields) (h : Quiet s t) : Quiet s (abandonMessage p f t).state := by
  unfold Machine.abandonMessage
  dsimp only
  repeat' split
  all_goals first | exact h | exact h.abandonSlot _ _ _

theorem autoSeal (h : Quiet s t) (p : Port) (c : ComposeNo) (k : Composing) : Quiet s (autoSeal t p c k) := by
  unfold Machine.autoSeal
  dsimp only
  split
  · exact h
  · split_ifs
    · exact (h.sealSlot _ _ _ _ _).arrive _ _
    · exact h

theorem grantStep (h : Quiet s t) (p : Port) (c : ComposeNo) (k : Composing) (x : CellNo) :
    Quiet s (grantStep t p c k x) := by
  have g := h.grantCell p k.desc x
  unfold Machine.grantStep
  dsimp only
  split
  · exact (g.writeCellLink _ _).compose _ _ _
  · exact g.compose _ _ _

theorem storeWord (h : Quiet s t) (p : Port) (c : ComposeNo) (k : Composing) (w : Word) :
    Quiet s (storeWord t p c k w) := by
  unfold Machine.storeWord
  dsimp only
  split
  · exact ((((h.writePayload _ _ _).updMessage _ _).compose _ _ _).autoSeal _ _ _).answer _ _
  · exact (((h.updMessage _ _).compose _ _ _).autoSeal _ _ _).answer _ _

theorem grantedWrite (h : Quiet s t) (p : Port) (c : ComposeNo) (k : Composing) (x : CellNo) (w : Word) :
    Quiet s (grantedWrite t p c k x w) :=
  ((h.grantStep _ _ _ _).storeWord _ _ _ _).completeRequest _

theorem dataWrite (p : Port) (c : ComposeNo) (a : BitVec 16) (w : Word) (h : Quiet s t) :
    Quiet s (dataWrite p c a w t) := by
  unfold Machine.dataWrite
  split
  · exact h.answerError _ _ _
  · exact h.answerError _ _ _
  · split_ifs
    · exact (h.compose _ _ _).answerError _ _ _
    · split
      · exact h.grantedWrite _ _ _ _ _
      · exact ((h.refuseGrant _ _).compose _ _ _).answer _ _
    · exact (h.storeWord _ _ _ _).completeRequest _

/-! ### Receive commands -/

theorem detach (h : Quiet s t) (p : Port) (r : ReceiveNo) (q : QueueNo) (lq : LiveQueue) :
    Quiet s (detach t p r q lq).state := by
  have k := h.headNode lq
  unfold Machine.detach
  split
  rename_i s1 n e
  rw [e] at k
  have k2 := k.readNode n
  split <;> rename_i e2 <;> rw [e2] at k2
  · exact (k2.queue _ _).receive _ _ _
  · exact ((k2.queue _ _).strandNodes _).report _ _
  · exact (k2.reportBroken _ _ _ _ _).quarantine _ _

theorem fetchFrom (h : Quiet s t) (p : Port) (r : ReceiveNo) (f : CommandFields) :
    Quiet s (fetchFrom t p r f).state := by
  unfold Machine.fetchFrom
  repeat' split
  all_goals first | exact h | exact (h.detach _ _ _ _).completeRequest _

theorem fetchMessage (p : Port) (f : CommandFields) (h : Quiet s t) : Quiet s (fetchMessage p f t).state := by
  unfold Machine.fetchMessage
  repeat' split
  all_goals first | exact h | exact h.fetchFrom _ _ _

theorem rewindMessage (p : Port) (f : CommandFields) (h : Quiet s t) : Quiet s (rewindMessage p f t).state := by
  unfold Machine.rewindMessage
  dsimp only
  repeat' split
  all_goals first | exact h | exact h.receive _ _ _

theorem releaseMessage (p : Port) (f : CommandFields) (h : Quiet s t) : Quiet s (releaseMessage p f t).state := by
  unfold Machine.releaseMessage
  dsimp only
  repeat' split
  all_goals first | exact h | exact h.releaseSlot _ _ _

theorem takeFreeCell (h : Quiet s t) : Quiet s (takeFreeCell t).1 := h.fresh _

theorem currentCell (h : Quiet s t) (x : Holding) (m : Message) : Quiet s (currentCell t x m).1 := by
  unfold Machine.currentCell
  split
  · exact h
  · exact h
  · exact h.takeFreeCell

theorem findCell (h : Quiet s t) (x : Holding) (c : CellNo) : Quiet s (findCell t x c).1 := by
  have k := h.readCellLink c
  unfold Machine.findCell
  split_ifs
  · split <;> rename_i e <;> rw [e] at k
    · exact k
    · exact k.takeFreeCell
    · exact k
  · exact h

theorem foundPoison (h : Quiet s t) (p : Port) (r : ReceiveNo) (a : BitVec 16) (x : Holding) (m : Message)
    (c : CellNo) (w : Fin 16) : Quiet s (foundPoison t p r a x m c w) :=
  ((((h.report _ _).receive p r _).updMessage _ _).arrive _ _).answerError _ _ _

theorem foundBreak (h : Quiet s t) (p : Port) (r : ReceiveNo) (a : BitVec 16) (x : Holding) (m : Message)
    (c : CellNo) : Quiet s (foundBreak t p r a x m c) :=
  ((((h.report _ _).receive p r _).updMessage _ _).arrive _ _).answerError _ _ _

theorem deliver (h : Quiet s t) (p : Port) (r : ReceiveNo) (a : BitVec 16) (x : Holding) (m : Message) :
    Quiet s (deliver t p r a x m) := by
  have k := h.currentCell x m
  unfold Machine.deliver
  split
  rename_i s0 c0 e0
  rw [e0] at k
  have k1 := k.findCell x c0
  split <;> rename_i e1 <;> rw [e1] at k1
  · exact k1.foundBreak _ _ _ _ _ _
  · rename_i s1 c
    dsimp only
    have k2 := k1.readPayload c (Fin.ofNat 16 (x.offset % 64 / 4))
    split <;> rename_i e2 <;> rw [e2] at k2
    · exact k2.foundPoison _ _ _ _ _ _ _
    · exact (k2.receive _ _ _).answer _ _

theorem dataRead (p : Port) (r : ReceiveNo) (a : BitVec 16) (h : Quiet s t) : Quiet s (dataRead p r a t) := by
  unfold Machine.dataRead
  split
  · exact h.answerError _ _ _
  · dsimp only
    split_ifs
    · unfold Machine.poisonedRead
      split_ifs
      · exact (h.receive _ _ _).answerError _ _ _
      · exact (h.receive _ _ _).answerError _ _ _
    · unfold Machine.readAtEnd
      split
      · exact (h.receive _ _ _).answer _ _
      · exact h.answer _ _
      · exact (h.receive _ _ _).answerError _ _ _
    · exact (h.deliver _ _ _ _ _).completeRequest _

end Quiet
end Sys2Proof.Machine
end

