-- ==== Sys2Proof/Laws/Footprint.lean ====
section
/-!
SUPPORT. The footprint of each shared operation: the fields of the state that it may write. Every other field is that of the
state before, by the record update that the lemma states.
-/
namespace Sys2Proof.Machine.State

variable (s : State)

/-! ### Ops.lean -/

theorem sendAll_footprint (x : EventEntry) : ∃ e, s.sendAll x = { s with events := e } := ⟨_, rfl⟩

theorem updMessage_footprint (d : DescNo) (f : Message → Message) :
    ∃ m, s.updMessage d f = { s with descriptors := m } := by
  unfold updMessage
  split
  · exact ⟨_, rfl⟩
  · exact ⟨_, rfl⟩

theorem readPayload_footprint (c : CellNo) (w : Fin 16) :
    ∃ m i, (s.readPayload c w).1 = { s with payload := m, integrity := i } := by
  unfold readPayload
  split
  · exact ⟨_, _, rfl⟩
  · exact ⟨_, _, rfl⟩
  · exact ⟨_, _, rfl⟩

theorem readCellLink_footprint (c : CellNo) :
    ∃ m i, (s.readCellLink c).1 = { s with cellLinks := m, integrity := i } := by
  unfold readCellLink
  split
  · exact ⟨_, _, rfl⟩
  · exact ⟨_, _, rfl⟩
  · exact ⟨_, _, rfl⟩

theorem readContent_footprint (n : NodeNo) :
    ∃ m i, (s.readContent n).1 = { s with nodeContents := m, integrity := i } := by
  unfold readContent
  split
  · exact ⟨_, _, rfl⟩
  · exact ⟨_, _, rfl⟩
  · exact ⟨_, _, rfl⟩

theorem readNodeLink_footprint (n : NodeNo) :
    ∃ m i, (s.readNodeLink n).1 = { s with nodeLinks := m, integrity := i } := by
  unfold readNodeLink
  split
  · exact ⟨_, _, rfl⟩
  · exact ⟨_, _, rfl⟩
  · exact ⟨_, _, rfl⟩

theorem takeArm_footprint (a : InjectTarget) (m : MemoryName) (w : WordKind) (i : Nat) :
    ∃ x y, s.takeArm a m w i = { s with arm := x, lastInjection := y } := by
  unfold takeArm
  split
  · split_ifs
    · exact ⟨_, _, rfl⟩
    · exact ⟨_, _, rfl⟩
  · exact ⟨_, _, rfl⟩

theorem writePayload_footprint (c : CellNo) (w : Fin 16) (v : Word) :
    ∃ m x y, s.writePayload c w v = { s with payload := m, arm := x, lastInjection := y } := by
  obtain ⟨x, y, e⟩ := s.takeArm_footprint .payload (bankOf c) (.payload w) c.val
  exact ⟨_, x, y, by rw [writePayload, e]; rfl⟩

theorem writeCellLink_footprint (c : CellNo) (v : CellLink) :
    ∃ m x y, s.writeCellLink c v = { s with cellLinks := m, arm := x, lastInjection := y } := by
  obtain ⟨x, y, e⟩ := s.takeArm_footprint .cellLink .cellLink .link c.val
  exact ⟨_, x, y, by rw [writeCellLink, e]; rfl⟩

theorem writeContent_footprint (n : NodeNo) (v : DescNo) :
    ∃ m x y, s.writeContent n v = { s with nodeContents := m, arm := x, lastInjection := y } := by
  obtain ⟨x, y, e⟩ := s.takeArm_footprint .node .node .content n.val
  exact ⟨_, x, y, by rw [writeContent, e]; rfl⟩

theorem writeNodeLink_footprint (n : NodeNo) (v : NodeLink) :
    ∃ m x y, s.writeNodeLink n v = { s with nodeLinks := m, arm := x, lastInjection := y } := by
  obtain ⟨x, y, e⟩ := s.takeArm_footprint .node .node .link n.val
  exact ⟨_, x, y, by rw [writeNodeLink, e]; rfl⟩

/-! ### Pool.lean -/

theorem lowWaterEvaluation_footprint :
    ∃ pl e, s.lowWaterEvaluation = { s with pool := pl, events := e } := by
  unfold lowWaterEvaluation
  split_ifs
  · obtain ⟨e, h⟩ := (s.setPool _).sendAll_footprint _
    rw [h]
    exact ⟨_, e, rfl⟩
  · exact ⟨_, _, rfl⟩

theorem recoveryEvaluation_footprint :
    ∃ pl e, s.recoveryEvaluation = { s with pool := pl, events := e } := by
  unfold recoveryEvaluation
  split_ifs
  · obtain ⟨e, h⟩ := (s.setPool _).sendAll_footprint _
    rw [h]
    exact ⟨_, e, rfl⟩
  · exact ⟨_, _, rfl⟩

theorem starvationEvaluation_footprint (p : Port) :
    ∃ sh e, s.starvationEvaluation p = { s with shares := sh, events := e } := by
  unfold starvationEvaluation
  split_ifs
  · exact ⟨_, _, rfl⟩
  · exact ⟨_, _, rfl⟩

theorem starvationEvaluations_footprint :
    ∃ sh e, s.starvationEvaluations = { s with shares := sh, events := e } := by
  obtain ⟨a, b, e0⟩ := s.starvationEvaluation_footprint 0
  obtain ⟨c, d, e1⟩ := (s.starvationEvaluation 0).starvationEvaluation_footprint 1
  obtain ⟨f, g, e2⟩ := ((s.starvationEvaluation 0).starvationEvaluation 1).starvationEvaluation_footprint 2
  obtain ⟨x, y, e3⟩ :=
    (((s.starvationEvaluation 0).starvationEvaluation 1).starvationEvaluation 2).starvationEvaluation_footprint 3
  exact ⟨x, y, by rw [starvationEvaluations, e3, e2, e1, e0]⟩

theorem takeHeadCell_footprint (p : Port) (h : CellNo) :
    ∃ m i pl, s.takeHeadCell p h = { s with cellLinks := m, integrity := i, pool := pl } := by
  obtain ⟨m, i, e⟩ := s.readCellLink_footprint h
  unfold takeHeadCell
  split <;> rename_i s1 _ k <;> rw [k] at e <;> subst e
  · exact ⟨_, _, _, rfl⟩
  · exact ⟨_, _, _, rfl⟩

theorem splice_footprint (c1 cn : CellNo) (k : Nat) :
    ∃ m x y pl, s.splice c1 cn k = { s with cellLinks := m, arm := x, lastInjection := y, pool := pl } := by
  unfold splice
  split
  · rename_i t _
    obtain ⟨m, x, y, e⟩ := s.writeCellLink_footprint t (some c1)
    rw [e]
    exact ⟨_, _, _, _, rfl⟩
  · exact ⟨_, _, _, _, rfl⟩

theorem returnCells_footprint (m : Message) :
    ∃ l x y pl, s.returnCells m = { s with cellLinks := l, arm := x, lastInjection := y, pool := pl } := by
  unfold returnCells
  split
  · exact s.splice_footprint _ _ _
  · exact ⟨_, _, _, _, rfl⟩

theorem freeDescriptor_footprint (d : DescNo) (m : Message) :
    ∃ l x y pl sh ds e, s.freeDescriptor d m = { s with
      cellLinks := l, arm := x, lastInjection := y, pool := pl, shares := sh, descriptors := ds, events := e } := by
  obtain ⟨l, x, y, pl, e⟩ := s.returnCells_footprint m
  unfold freeDescriptor
  rw [e]
  dsimp only
  split
  · obtain ⟨pl2, e2, h2⟩ := (setPool _ _).starvationEvaluations.recoveryEvaluation_footprint
    rw [h2]
    obtain ⟨sh, e1, h1⟩ := (setPool _ _).starvationEvaluations_footprint
    rw [h1]
    exact ⟨_, _, _, _, _, _, _, rfl⟩
  · exact ⟨_, _, _, _, _, _, _, rfl⟩

theorem dropHolder_footprint (d : DescNo) :
    ∃ l x y pl sh ds e, s.dropHolder d = { s with
      cellLinks := l, arm := x, lastInjection := y, pool := pl, shares := sh, descriptors := ds, events := e } := by
  unfold dropHolder
  split
  · exact ⟨_, _, _, _, _, _, _, rfl⟩
  · split_ifs
    · exact ⟨_, _, _, _, _, _, _, rfl⟩
    · exact s.freeDescriptor_footprint d _
    · exact ⟨_, _, _, _, _, _, _, rfl⟩

theorem grantCell_footprint (p : Port) (d : DescNo) (h : CellNo) :
    ∃ m i pl x y sh ds e, s.grantCell p d h = { s with
      cellLinks := m, integrity := i, pool := pl, arm := x, lastInjection := y, shares := sh, descriptors := ds
      events := e } := by
  obtain ⟨m, i, pl, h1⟩ := s.takeHeadCell_footprint p h
  obtain ⟨m2, x, y, h2⟩ := (s.takeHeadCell p h).writeCellLink_footprint h none
  unfold grantCell
  rw [h2, h1]
  dsimp only
  obtain ⟨pl3, e3, h3⟩ := (updMessage _ d (Message.addCell h)).lowWaterEvaluation_footprint
  rw [h3]
  obtain ⟨ds, h4⟩ := updMessage_footprint _ d (Message.addCell h)
  rw [h4]
  exact ⟨_, _, _, _, _, _, _, _, rfl⟩

theorem returnNode_footprint (n : NodeNo) :
    ∃ m x y pl, s.returnNode n = { s with nodeLinks := m, arm := x, lastInjection := y, pool := pl } := by
  obtain ⟨m, x, y, h1⟩ := s.writeNodeLink_footprint n none
  unfold returnNode
  rw [h1]
  dsimp only
  split
  · rename_i t _
    obtain ⟨m2, x2, y2, h2⟩ := writeNodeLink_footprint _ t (some n)
    rw [h2]
    exact ⟨_, _, _, _, rfl⟩
  · exact ⟨_, _, _, _, rfl⟩

theorem returnNodes_footprint (ns : List NodeNo) :
    ∃ m x y pl, s.returnNodes ns = { s with nodeLinks := m, arm := x, lastInjection := y, pool := pl } := by
  induction ns generalizing s with
  | nil => exact ⟨_, _, _, _, rfl⟩
  | cons n ns ih =>
    obtain ⟨m, x, y, pl, h1⟩ := s.returnNode_footprint n
    obtain ⟨m2, x2, y2, pl2, h2⟩ := ih (s.returnNode n)
    exact ⟨m2, x2, y2, pl2, by rw [returnNodes, h2, h1]⟩

theorem takeHeadNode_footprint (p : Port) (n : NodeNo) :
    ∃ m i pl, s.takeHeadNode p n = { s with nodeLinks := m, integrity := i, pool := pl } := by
  obtain ⟨m, i, e⟩ := s.readNodeLink_footprint n
  unfold takeHeadNode
  split <;> rename_i s1 _ k <;> rw [k] at e <;> subst e
  · exact ⟨_, _, _, rfl⟩
  · exact ⟨_, _, _, rfl⟩

theorem takeNodes_footprint (p : Port) (k : Nat) (acc : List NodeNo) :
    ∃ m i pl, (takeNodes p k s acc).1 = { s with nodeLinks := m, integrity := i, pool := pl } := by
  induction k generalizing s acc with
  | zero => exact ⟨_, _, _, rfl⟩
  | succ k ih =>
    unfold takeNodes
    split
    · exact ⟨_, _, _, rfl⟩
    · rename_i n _
      obtain ⟨m, i, pl, h1⟩ := s.takeHeadNode_footprint p n
      obtain ⟨m2, i2, pl2, h2⟩ := ih (s.takeHeadNode p n) (acc ++ [n])
      exact ⟨m2, i2, pl2, by rw [h2, h1]⟩

/-- An allocation that succeeds writes no node link word but for corrections, and injects nothing. -/
theorem allocateNodes_some_footprint (p : Port) (k : Nat) {s1 : State} {ns : List NodeNo}
    (h : s.allocateNodes p k = (s1, some ns)) :
    ∃ m i pl, s1 = { s with nodeLinks := m, integrity := i, pool := pl } := by
  obtain ⟨m, i, pl, e⟩ := s.takeNodes_footprint p k []
  unfold allocateNodes at h
  split at h <;> rename_i s2 ms k2 <;> rw [k2] at e <;> cases h
  exact ⟨m, i, pl, e⟩

theorem allocateNodes_footprint (p : Port) (k : Nat) :
    ∃ m i pl x y, (s.allocateNodes p k).1 = { s with
      nodeLinks := m, integrity := i, pool := pl, arm := x, lastInjection := y } := by
  obtain ⟨m, i, pl, e⟩ := s.takeNodes_footprint p k []
  unfold allocateNodes
  split <;> rename_i s2 ms k2 <;> rw [k2] at e <;> subst e
  · exact ⟨_, _, _, _, _, rfl⟩
  · obtain ⟨m2, x, y, pl2, h2⟩ := returnNodes_footprint _ ms
    rw [h2]
    exact ⟨_, _, _, _, _, rfl⟩

/-! ### Links.lean -/

theorem appendWords_footprint (n : NodeNo) (d : DescNo) (lq : LiveQueue) :
    ∃ c m x y, s.appendWords n d lq = { s with
      nodeContents := c, nodeLinks := m, arm := x, lastInjection := y } := by
  obtain ⟨c, x, y, h1⟩ := s.writeContent_footprint n d
  obtain ⟨m, x2, y2, h2⟩ := (s.writeContent n d).writeNodeLink_footprint n none
  unfold appendWords
  rw [h2, h1]
  dsimp only
  split_ifs
  · exact ⟨_, _, _, _, rfl⟩
  · split
    · rename_i t _
      obtain ⟨m3, x3, y3, h3⟩ := writeNodeLink_footprint _ t (some n)
      rw [h3]
      exact ⟨_, _, _, _, rfl⟩
    · exact ⟨_, _, _, _, rfl⟩

theorem appendNode_footprint (n : NodeNo) (d : DescNo) (q : QueueNo) (lq : LiveQueue) :
    ∃ c m x y qs ds e, s.appendNode n d q lq = { s with
      nodeContents := c, nodeLinks := m, arm := x, lastInjection := y, queues := qs, descriptors := ds
      events := e } := by
  obtain ⟨c, m, x, y, h1⟩ := s.appendWords_footprint n d lq
  unfold appendNode
  rw [h1]
  dsimp only
  obtain ⟨ds, h2⟩ := updMessage_footprint (setQueue _ q _) d (Message.link q)
  rw [h2]
  split_ifs
  · exact ⟨_, _, _, _, _, _, _, rfl⟩
  · exact ⟨_, _, _, _, _, _, _, rfl⟩

theorem appendAll_footprint (d : DescNo) (qs : List QueueNo) (ns : List NodeNo) :
    ∃ c m x y qt ds e, s.appendAll d qs ns = { s with
      nodeContents := c, nodeLinks := m, arm := x, lastInjection := y, queues := qt, descriptors := ds
      events := e } := by
  induction qs generalizing s ns with
  | nil => exact ⟨_, _, _, _, _, _, _, by unfold appendAll; rfl⟩
  | cons q qs ih =>
    cases ns with
    | nil => exact ⟨_, _, _, _, _, _, _, by unfold appendAll; rfl⟩
    | cons n ns =>
      unfold appendAll
      split
      · rename_i lq _
        obtain ⟨c, m, x, y, qt, ds, e, h1⟩ := s.appendNode_footprint n d q lq
        obtain ⟨c2, m2, x2, y2, qt2, ds2, e2, h2⟩ := ih (s.appendNode n d q lq) ns
        exact ⟨c2, m2, x2, y2, qt2, ds2, e2, by rw [h2, h1]⟩
      · exact ih s ns

theorem disposeAll_footprint (d : DescNo) (x : Disposition) (qs : List QueueNo) :
    ∃ ds, s.disposeAll d x qs = { s with descriptors := ds } := by
  induction qs generalizing s with
  | nil => exact ⟨_, rfl⟩
  | cons q qs ih =>
    obtain ⟨m, h1⟩ := s.updMessage_footprint d (Message.dispose q x)
    obtain ⟨m2, h2⟩ := ih (s.updMessage d (Message.dispose q x))
    exact ⟨m2, by rw [disposeAll, h2, h1]⟩

theorem readNode_footprint (n : NodeNo) :
    ∃ c m i, (s.readNode n).1 = { s with nodeContents := c, nodeLinks := m, integrity := i } := by
  obtain ⟨c, i, h1⟩ := s.readContent_footprint n
  obtain ⟨m, i2, h2⟩ := (s.readContent n).1.readNodeLink_footprint n
  exact ⟨c, m, i2, by rw [show (s.readNode n).1 = ((s.readContent n).1.readNodeLink n).1 from rfl, h2, h1]⟩

theorem reportBroken_footprint (n : NodeNo) (c : Option DescNo) (a : ReadAccess) (p : Port) (q : QueueNo) :
    ∃ i, s.reportBroken n c a p q = { s with integrity := i } := by
  cases c <;> exact ⟨_, rfl⟩

theorem closeAtOnce_footprint (q : QueueNo) (lq : LiveQueue) :
    ∃ pl qs e, s.closeAtOnce q lq = { s with pool := pl, queues := qs, events := e } := by
  unfold closeAtOnce
  split <;> exact ⟨_, _, _, rfl⟩

theorem abandonSlot_footprint (p : Port) (c : ComposeNo) (k : Composing) :
    ∃ l x y pl sh ds e cm, s.abandonSlot p c k = { s with
      cellLinks := l, arm := x, lastInjection := y, pool := pl, shares := sh, descriptors := ds, events := e
      compose := cm } := by
  obtain ⟨m, h1⟩ := s.updMessage_footprint k.desc fun m => { m with state := .abandoned }
  unfold abandonSlot
  rw [h1]
  obtain ⟨l, x, y, pl, sh, ds, e, h2⟩ := (idleSlot { s with descriptors := m } p c).dropHolder_footprint k.desc
  rw [h2]
  exact ⟨_, _, _, _, _, _, _, _, rfl⟩

theorem releaseSlot_footprint (p : Port) (r : ReceiveNo) (h : Holding) :
    ∃ m l x y pl sh ds e rc, s.releaseSlot p r h = { s with
      nodeLinks := m, cellLinks := l, arm := x, lastInjection := y, pool := pl, shares := sh, descriptors := ds
      events := e, receive := rc } := by
  obtain ⟨m, x, y, pl, h1⟩ := s.returnNode_footprint h.node
  obtain ⟨l, x2, y2, pl2, sh, ds, e, h2⟩ := (s.returnNode h.node).dropHolder_footprint h.desc
  unfold releaseSlot
  rw [h2, h1]
  exact ⟨_, _, _, _, _, _, _, _, _, rfl⟩

end Sys2Proof.Machine.State
end

