-- ==== Sys2Proof/Laws/Effects.lean ====
section
/-!
SUPPORT. What the shared operations write: the words and records that stand after each of them, in states whose tables are in
canonical form.
-/
namespace Sys2Proof.Machine

namespace State

variable (s : State)

/-! ### The canonical forms, one at a time -/

theorem wf_payload {s : State} (h : s.memoriesWf = true) : Memory.wf payloadDefault s.payload = true :=
  (s.memoriesWf_iff.mp h).1

theorem wf_cellLinks {s : State} (h : s.memoriesWf = true) : Memory.wf cellLinkDefault s.cellLinks = true :=
  (s.memoriesWf_iff.mp h).2.1

theorem wf_nodeContents {s : State} (h : s.memoriesWf = true) : Memory.wf contentDefault s.nodeContents = true :=
  (s.memoriesWf_iff.mp h).2.2.1

theorem wf_nodeLinks {s : State} (h : s.memoriesWf = true) : Memory.wf nodeLinkDefault s.nodeLinks = true :=
  (s.memoriesWf_iff.mp h).2.2.2.1

theorem wf_descriptors {s : State} (h : s.memoriesWf = true) : Memory.wf descDefault s.descriptors = true :=
  (s.memoriesWf_iff.mp h).2.2.2.2.1

theorem wf_queues {s : State} (h : s.memoriesWf = true) : Memory.wf queueDefault s.queues = true :=
  (s.memoriesWf_iff.mp h).2.2.2.2.2

/-! ### Words -/

/-- Payload addresses tell cells and positions apart. -/
theorem payloadAddress_inj {c e : CellNo} {w i : Fin 16} (h : payloadAddress c w.val = payloadAddress e i.val) :
    (c, w) = (e, i) := by
  unfold payloadAddress at h
  have := w.isLt
  have := i.isLt
  have hc : c = e := Fin.ext (by omega)
  have hi : w = i := Fin.ext (by omega)
  rw [hc, hi]

theorem payloadWord_putPayload (h : Memory.wf payloadDefault s.payload = true) (c e : CellNo) (w i : Fin 16)
    (x : Stored Word) : (s.putPayload c w x).payloadWord e i = if (e, i) = (c, w) then x else s.payloadWord e i := by
  unfold payloadWord
  rw [putPayload_payload, Memory.get_set _ h]
  by_cases k : (e, i) = (c, w)
  · obtain ⟨rfl, rfl⟩ := Prod.mk.inj k
    simp
  · rw [if_neg k, if_neg fun a => k (payloadAddress_inj a)]

theorem cellLinkWord_putCellLink (h : Memory.wf cellLinkDefault s.cellLinks = true) (c e : CellNo)
    (x : Stored CellLink) : (s.putCellLink c x).cellLinkWord e = if e = c then x else s.cellLinkWord e := by
  unfold cellLinkWord
  rw [putCellLink_cellLinks, Memory.get_set _ h]
  simp [Fin.ext_iff]

theorem contentWord_putContent (h : Memory.wf contentDefault s.nodeContents = true) (n e : NodeNo)
    (x : Stored DescNo) : (s.putContent n x).contentWord e = if e = n then x else s.contentWord e := by
  unfold contentWord
  rw [putContent_nodeContents, Memory.get_set _ h]
  simp [Fin.ext_iff]

theorem nodeLinkWord_putNodeLink (h : Memory.wf nodeLinkDefault s.nodeLinks = true) (n e : NodeNo)
    (x : Stored NodeLink) : (s.putNodeLink n x).nodeLinkWord e = if e = n then x else s.nodeLinkWord e := by
  unfold nodeLinkWord
  rw [putNodeLink_nodeLinks, Memory.get_set _ h]
  simp [Fin.ext_iff]

/-- The inverted positions of a write are those of an arm set for its memory (R15, R16). -/
theorem armBits_eq_injected (target : InjectTarget) : s.armBits target = injected s target := by
  unfold armBits injected
  cases s.arm with
  | none => rfl
  | some a =>
    obtain ⟨t, k⟩ := a
    cases target <;> cases t <;> cases k <;> rfl

theorem takeArm_of_set {s : State} {target : InjectTarget} {kind : InjectKind} (h : s.arm = some ⟨target, kind⟩)
    (m : MemoryName) (w : WordKind) (i : Nat) :
    s.takeArm target m w i = { s with arm := none, lastInjection := some ⟨m, w, i, kind⟩ } := by
  unfold takeArm
  rw [h]
  simp

theorem takeArm_of_not {s : State} {target : InjectTarget} (h : ∀ kind, s.arm ≠ some ⟨target, kind⟩) (m : MemoryName)
    (w : WordKind) (i : Nat) : s.takeArm target m w i = s := by
  unfold takeArm
  split
  · rename_i a e
    rw [if_neg]
    intro k
    exact h a.kind (by rw [e, ← k])
  · rfl

/-! ### Messages and descriptors -/

theorem message_of_live {s : State} {d : DescNo} {m : Message} (h : s.desc d = .live m) : s.message d = some m := by
  unfold message
  rw [h]

theorem messageOf_of_live {s : State} {d : DescNo} {m : Message} (h : s.desc d = .live m) : s.messageOf d = m := by
  unfold messageOf
  rw [message_of_live h]
  rfl

theorem holders_of_live {s : State} {d : DescNo} {m : Message} (h : s.desc d = .live m) : s.holders d = m.holders := by
  unfold holders
  rw [message_of_live h]

theorem holders_of_free {s : State} {d : DescNo} (h : s.desc d = .free) : s.holders d = 0 := by
  unfold holders message
  rw [h]

theorem updMessage_of_live {s : State} {d : DescNo} {m : Message} (h : s.desc d = .live m) (f : Message → Message) :
    s.updMessage d f = s.setDesc d (.live (f m)) := by
  unfold updMessage
  rw [h]

theorem desc_updMessage {s : State} {d : DescNo} {m : Message} (w : Memory.wf descDefault s.descriptors = true)
    (h : s.desc d = .live m) (f : Message → Message) : (s.updMessage d f).desc d = .live (f m) := by
  rw [updMessage_of_live h, desc_setDesc _ w, if_pos rfl]

theorem desc_updMessage_ne {d e : DescNo} (h : e ≠ d) (f : Message → Message) :
    (s.updMessage d f).desc e = s.desc e := by
  unfold updMessage
  split
  · rfl
  · exact Memory.get_set_ne _ _ _ fun k => h (Fin.ext k)

theorem desc_setDesc_ne {d e : DescNo} (h : e ≠ d) (x : Descriptor) : (s.setDesc d x).desc e = s.desc e :=
  Memory.get_set_ne _ _ _ fun k => h (Fin.ext k)

theorem queue_setQueue_ne {q r : QueueNo} (h : r ≠ q) (x : Queue) : (s.setQueue q x).queue r = s.queue r :=
  Memory.get_set_ne _ _ _ fun k => h (Fin.ext k)

/-! ### Freeing a descriptor (R22) -/

theorem starvationEvaluation_charged (p q : Port) :
    ((s.starvationEvaluation p).share q).charged = (s.share q).charged ∧
      ((s.starvationEvaluation p).share q).reserve = (s.share q).reserve ∧
      ((s.starvationEvaluation p).share q).limit = (s.share q).limit ∧
      ((s.starvationEvaluation p).share q).refused = (s.share q).refused := by
  unfold starvationEvaluation
  split_ifs
  · rw [sendEvent, share_of_shares (setEvent_shares _ _ _)]
    by_cases h : q = p
    · subst h
      simp
    · simp [h]
  · simp

/-- The evaluations at a splice change no count of any port. -/
theorem starvationEvaluations_charged (q : Port) :
    (s.starvationEvaluations.share q).charged = (s.share q).charged ∧
      (s.starvationEvaluations.share q).reserve = (s.share q).reserve ∧
      (s.starvationEvaluations.share q).limit = (s.share q).limit ∧
      (s.starvationEvaluations.share q).refused = (s.share q).refused := by
  unfold starvationEvaluations
  simp [starvationEvaluation_charged]

theorem recoveryEvaluation_pool :
    s.recoveryEvaluation.pool =
      { s.pool with lowWater := if s.pool.lowWater = .tripped ∧ s.pool.recoverMark ≤ s.pool.freeCells then .armed
        else s.pool.lowWater } := by
  unfold recoveryEvaluation
  split_ifs
  · rfl
  · rfl

theorem starvationEvaluations_pool : s.starvationEvaluations.pool = s.pool := by
  obtain ⟨_, _, h⟩ := s.starvationEvaluations_footprint
  rw [h]

/-- A splice and a stranding leave the descriptor FIFO alone. -/
theorem returnCells_fifo (m : Message) : (s.returnCells m).pool.fifo = s.pool.fifo := by
  unfold returnCells splice
  split
  · split
    · dsimp only
      rw [setPool_pool, (writeCellLink_footprint _ _ _).choose_spec.choose_spec.choose_spec]
    · rfl
  · rfl

/-- What freeing descriptor d does to the tables, the FIFO, the counts and the free list (R22, R28). -/
theorem freeDescriptor_effect (w : Memory.wf descDefault s.descriptors = true) (d : DescNo) (m : Message) :
    Freed s (s.freeDescriptor d m) d m ∧
      (∀ e, e ≠ d → (s.freeDescriptor d m).desc e = s.desc e) ∧
      (∀ q, ((s.freeDescriptor d m).share q).reserve = (s.share q).reserve ∧
        ((s.freeDescriptor d m).share q).limit = (s.share q).limit ∧
        ((s.freeDescriptor d m).share q).refused = (s.share q).refused ∧
        (q ≠ m.port → ((s.freeDescriptor d m).share q).charged = (s.share q).charged)) ∧
      (s.freeDescriptor d m).pool = { (s.returnCells m).pool with
        fifo := s.pool.fifo ++ [d], lowWater := (s.freeDescriptor d m).pool.lowWater } ∧
      (s.freeDescriptor d m).cellLinks = (s.returnCells m).cellLinks ∧
      (s.freeDescriptor d m).arm = (s.returnCells m).arm ∧
      (s.freeDescriptor d m).lastInjection = (s.returnCells m).lastInjection ∧
      (m.chain = none → (s.freeDescriptor d m).events = s.events) := by
  have hf := s.returnCells_fifo m
  obtain ⟨l, x, y, pl, e⟩ := s.returnCells_footprint m
  have hsh : ∀ q, (s.returnCells m).share q = s.share q := fun q => share_of_shares (by rw [e]) q
  have hd : ∀ q, (s.returnCells m).desc q = s.desc q := fun q => desc_of_descriptors (by rw [e]) q
  have hw : Memory.wf descDefault (s.returnCells m).descriptors = true := by rw [e]; exact w
  have hev : (s.returnCells m).events = s.events := by rw [e]
  generalize hr : s.returnCells m = r at *
  have key : ∀ q, (((r.setShare m.port { r.share m.port with charged := (r.share m.port).charged - m.cells }).setDesc d
      .free).setPool { ((r.setShare m.port { r.share m.port with charged := (r.share m.port).charged - m.cells }).setDesc
        d .free).pool with fifo := ((r.setShare m.port { r.share m.port with
          charged := (r.share m.port).charged - m.cells }).setDesc d .free).pool.fifo ++ [d] }).share q =
      (r.setShare m.port { r.share m.port with charged := (r.share m.port).charged - m.cells }).share q := fun q => rfl
  have hshare : ∀ q, (r.setShare m.port { r.share m.port with charged := (r.share m.port).charged - m.cells }).share q =
      if q = m.port then { s.share m.port with charged := (s.share m.port).charged - m.cells } else s.share q := by
    intro q
    by_cases h : q = m.port
    · subst h
      simp [hsh]
    · simp [h, hsh]
  have hdesc : ∀ q, ((r.setShare m.port { r.share m.port with
      charged := (r.share m.port).charged - m.cells }).setDesc d .free).desc q = if q = d then .free else s.desc q := by
    intro q
    rw [desc_setDesc (setShare _ _ _) hw]
    split_ifs
    · rfl
    · exact (desc_of_descriptors rfl q).trans (hd q)
  unfold freeDescriptor
  rw [hr]
  dsimp only
  split
  · rename_i hc
    obtain ⟨pl2, e2, h2⟩ := (setPool _ _).starvationEvaluations.recoveryEvaluation_footprint
    obtain ⟨sh, e1, h1⟩ := (setPool _ _).starvationEvaluations_footprint
    refine ⟨⟨?_, ?_, ?_⟩, ?_, ?_, ?_, ?_, ?_, ?_, ?_⟩
    · rw [desc_of_descriptors (s := setDesc _ d .free) (by rw [h2, h1]; rfl), hdesc, if_pos rfl]
    · rw [recoveryEvaluation_pool, starvationEvaluations_pool]
      simp [hf]
    · rw [share_of_shares (s := (setPool _ _).starvationEvaluations) (by rw [h2]),
        (starvationEvaluations_charged _ _).1, key, hshare, if_pos rfl]
    · intro q hq
      rw [desc_of_descriptors (s := setDesc _ d .free) (by rw [h2, h1]; rfl), hdesc, if_neg hq]
    · intro q
      rw [share_of_shares (s := (setPool _ _).starvationEvaluations) (by rw [h2]),
        (starvationEvaluations_charged _ _).1, (starvationEvaluations_charged _ _).2.1,
        (starvationEvaluations_charged _ _).2.2.1, (starvationEvaluations_charged _ _).2.2.2, key, hshare]
      by_cases h : q = m.port
      · subst h
        simp
      · simp [h]
    · rw [recoveryEvaluation_pool, starvationEvaluations_pool]
      simp [hf]
    · rw [h2, h1]
      rfl
    · rw [h2, h1]
      rfl
    · rw [h2, h1]
      rfl
    · intro k
      rw [k] at hc
      exact absurd hc (by simp)
  · refine ⟨⟨?_, ?_, ?_⟩, ?_, ?_, ?_, ?_, ?_, ?_, ?_⟩
    · exact (desc_of_descriptors rfl d).trans ((hdesc d).trans (if_pos rfl))
    · simp [hf]
    · rw [key, hshare, if_pos rfl]
    · intro q hq
      exact (desc_of_descriptors rfl q).trans ((hdesc q).trans (if_neg hq))
    · intro q
      rw [key, hshare]
      by_cases h : q = m.port
      · subst h
        simp
      · simp [h]
    · simp [hf]
    · rfl
    · rfl
    · rfl
    · intro _
      exact hev

/-- A decrement that leaves a holder (R21). -/
theorem dropHolder_of_many {s : State} {d : DescNo} {m : Message} (h : s.desc d = .live m) (k : 1 < m.holders) :
    s.dropHolder d = s.setDesc d (.live { m with holders := m.holders - 1 }) := by
  unfold dropHolder
  rw [message_of_live h]
  dsimp only
  rw [if_neg (by omega), if_neg (by omega)]

/-- The decrement that frees (R21, R22). -/
theorem dropHolder_of_one {s : State} {d : DescNo} {m : Message} (h : s.desc d = .live m) (k : m.holders = 1) :
    s.dropHolder d = s.freeDescriptor d m := by
  unfold dropHolder
  rw [message_of_live h]
  dsimp only
  rw [if_neg (by omega), if_pos k]

/-! ### Appends and dispositions (R51, R87) -/

/-- A message whose destinations in `qs` have taken disposition `x`. -/
theorem dispose_dispose (m : Message) (x : Disposition) (q : QueueNo) (qs : List QueueNo) :
    (Message.dispose q x m).dests.map (fun t => if t.queue ∈ qs then { t with disposition := x } else t) =
      m.dests.map fun t => if t.queue ∈ q :: qs then { t with disposition := x } else t := by
  simp only [Message.dispose, List.map_map]
  apply List.map_congr_left
  intro t _
  by_cases h : t.queue = q <;> by_cases k : t.queue ∈ qs <;> simp [h, k]

theorem disposeAll_effect {s : State} {d : DescNo} {m : Message} (x : Disposition) (qs : List QueueNo)
    (w : Memory.wf descDefault s.descriptors = true) (h : s.desc d = .live m) :
    (s.disposeAll d x qs).desc d = .live { m with
        dests := m.dests.map fun t => if t.queue ∈ qs then { t with disposition := x } else t } ∧
      (∀ e, e ≠ d → (s.disposeAll d x qs).desc e = s.desc e) ∧
      Memory.wf descDefault (s.disposeAll d x qs).descriptors = true := by
  induction qs generalizing s m with
  | nil => simpa [disposeAll, w] using h
  | cons q qs ih =>
    have w1 : Memory.wf descDefault (s.updMessage d (Message.dispose q x)).descriptors = true := by
      rw [updMessage_of_live h]
      exact Memory.wf_set _ w _ _
    obtain ⟨h1, h2, h3⟩ := ih w1 (desc_updMessage w h (Message.dispose q x))
    refine ⟨?_, fun e he => ?_, h3⟩
    · rw [disposeAll, h1, dispose_dispose]
      rfl
    · rw [disposeAll, h2 e he, desc_updMessage_ne _ he]

/-- One append (R51): the node names the descriptor, the queue is one deeper, the descriptor has one holder more. -/
theorem appendNode_effect {s : State} {d : DescNo} {m : Message} (w : s.memoriesWf = true) (h : s.desc d = .live m)
    (n : NodeNo) (q : QueueNo) (lq : LiveQueue) :
    (s.appendNode n d q lq).desc d = .live (Message.link q m) ∧
      (∀ e, e ≠ d → (s.appendNode n d q lq).desc e = s.desc e) ∧
      (s.appendNode n d q lq).queue q = .live (lq.append n).afterAppend ∧
      (∀ r, r ≠ q → (s.appendNode n d q lq).queue r = s.queue r) ∧
      (s.appendNode n d q lq).contentWord n = ⟨d, s.armBits .node⟩ ∧
      (∀ i, i ≠ n → (s.appendNode n d q lq).contentWord i = s.contentWord i) ∧
      (s.appendNode n d q lq).memoriesWf = true := by
  obtain ⟨c, ml, x, y, e⟩ := s.appendWords_footprint n d lq
  have hc : (s.appendWords n d lq).nodeContents = (s.writeContent n d).nodeContents := by
    unfold appendWords
    dsimp only
    obtain ⟨a1, a2, a3, k⟩ := (s.writeContent n d).writeNodeLink_footprint n none
    split_ifs
    · rw [k]
    · split
      · rename_i t _
        obtain ⟨b1, b2, b3, j⟩ := ((s.writeContent n d).writeNodeLink n none).writeNodeLink_footprint t (some n)
        rw [j, k]
      · rw [k]
  have hw : Memory.wf descDefault ((s.appendWords n d lq).setQueue q (.live (lq.append n).afterAppend)).descriptors =
      true := by
    rw [e]
    exact wf_descriptors (s := s) w
  have hd : ((s.appendWords n d lq).setQueue q (.live (lq.append n).afterAppend)).desc d = .live m := by
    rw [← h]
    exact desc_of_descriptors (by rw [e]; rfl) d
  have hwf : (s.appendNode n d q lq).memoriesWf = true := (Quiet.appendNode .refl n d q lq).memoriesWf w
  have hq : ∀ r, ((s.appendWords n d lq).setQueue q (.live (lq.append n).afterAppend)).queue r =
      if r = q then .live (lq.append n).afterAppend else s.queue r := by
    intro r
    rw [queue_setQueue _ (by rw [e]; exact wf_queues (s := s) w)]
    split_ifs
    · rfl
    · exact queue_of_queues (by rw [e]) r
  have hcw : ∀ i, (s.appendWords n d lq).contentWord i =
      if i = n then ⟨d, s.armBits .node⟩ else s.contentWord i := by
    intro i
    have k : (s.appendWords n d lq).contentWord i = (s.writeContent n d).contentWord i := by
      unfold contentWord
      rw [hc]
    obtain ⟨x1, y1, j⟩ := s.takeArm_footprint .node .node .content n.val
    rw [k, writeContent, contentWord_putContent _ (by rw [j]; exact wf_nodeContents (s := s) w)]
    split_ifs
    · rfl
    · rw [j]
      rfl
  generalize hu : ((s.appendWords n d lq).setQueue q (.live (lq.append n).afterAppend)) = u at *
  have hcu : ∀ i, u.contentWord i = (s.appendWords n d lq).contentWord i := fun i => by rw [← hu]; rfl
  obtain ⟨ds, k⟩ := u.updMessage_footprint d (Message.link q)
  have kq : ∀ r, (u.updMessage d (Message.link q)).queue r = u.queue r := fun r => queue_of_queues (by rw [k]) r
  have kc : ∀ i, (u.updMessage d (Message.link q)).contentWord i = u.contentWord i := fun i => by
    unfold contentWord
    rw [k]
  have kd := desc_updMessage hw hd (Message.link q)
  have ke : ∀ e, e ≠ d → (u.updMessage d (Message.link q)).desc e = s.desc e := fun r hr => by
    rw [desc_updMessage_ne _ hr]
    exact desc_of_descriptors (by rw [← hu, e]; rfl) r
  have step : ∀ v : State, (v.descriptors = (u.updMessage d (Message.link q)).descriptors ∧
      v.queues = (u.updMessage d (Message.link q)).queues ∧
      v.nodeContents = (u.updMessage d (Message.link q)).nodeContents) →
      v.desc d = .live (Message.link q m) ∧ (∀ e, e ≠ d → v.desc e = s.desc e) ∧
        v.queue q = .live (lq.append n).afterAppend ∧ (∀ r, r ≠ q → v.queue r = s.queue r) ∧
        v.contentWord n = ⟨d, s.armBits .node⟩ ∧ (∀ i, i ≠ n → v.contentWord i = s.contentWord i) := by
    rintro v ⟨v1, v2, v3⟩
    have vc : ∀ i, v.contentWord i = u.contentWord i := fun i => by
      rw [← kc i]
      unfold contentWord
      rw [v3]
    refine ⟨(desc_of_descriptors v1 d).trans kd, fun r hr => (desc_of_descriptors v1 r).trans (ke r hr), ?_,
      fun r hr => ?_, ?_, fun i hi => ?_⟩
    · rw [queue_of_queues v2, kq, hq, if_pos rfl]
    · rw [queue_of_queues v2, kq, hq, if_neg hr]
    · rw [vc, hcu, hcw, if_pos rfl]
    · rw [vc, hcu, hcw, if_neg hi]
  have fin : (s.appendNode n d q lq).descriptors = (u.updMessage d (Message.link q)).descriptors ∧
      (s.appendNode n d q lq).queues = (u.updMessage d (Message.link q)).queues ∧
      (s.appendNode n d q lq).nodeContents = (u.updMessage d (Message.link q)).nodeContents := by
    unfold appendNode
    dsimp only
    rw [hu]
    split_ifs
    · exact ⟨rfl, rfl, rfl⟩
    · exact ⟨rfl, rfl, rfl⟩
  obtain ⟨a1, a2, a3, a4, a5, a6⟩ := step _ fin
  exact ⟨a1, a2, a3, a4, a5, a6, hwf⟩

/-- The queue records after one append. -/
theorem appendNode_queue {s : State} (w : s.memoriesWf = true) (n : NodeNo) (d : DescNo) (q : QueueNo) (lq : LiveQueue)
    (r : QueueNo) :
    (s.appendNode n d q lq).queue r = if r = q then .live (lq.append n).afterAppend else s.queue r := by
  obtain ⟨c, ml, x, y, e⟩ := s.appendWords_footprint n d lq
  obtain ⟨ds, k⟩ := ((s.appendWords n d lq).setQueue q (.live (lq.append n).afterAppend)).updMessage_footprint d
    (Message.link q)
  have h : (s.appendNode n d q lq).queues = ((s.appendWords n d lq).setQueue q (.live (lq.append n).afterAppend)).queues := by
    unfold appendNode
    dsimp only
    rw [k]
    split_ifs <;> rfl
  rw [queue_of_queues h, queue_setQueue _ (by rw [e]; exact wf_queues (s := s) w)]
  split_ifs
  · rfl
  · exact queue_of_queues (by rw [e]) r

/-- The appends of one link request: each destination queue is one deeper, and the descriptor counts one holder for each. -/
theorem appendAll_effect {s : State} {d : DescNo} {m : Message} (qs : List QueueNo) (ns : List NodeNo)
    (w : s.memoriesWf = true) (h : s.desc d = .live m) (hn : qs.Nodup) (hl : ns.length = qs.length)
    (hq : ∀ q ∈ qs, s.queue q ≠ .closed) :
    (s.appendAll d qs ns).desc d = .live { m with
        holders := m.holders + qs.length
        dests := m.dests.map fun t => if t.queue ∈ qs then { t with disposition := .linked } else t } ∧
      (∀ e, e ≠ d → (s.appendAll d qs ns).desc e = s.desc e) ∧
      (∀ q ∈ qs, ((s.appendAll d qs ns).queue q).depth = (s.queue q).depth + 1) ∧
      (∀ q, q ∉ qs → (s.appendAll d qs ns).queue q = s.queue q) ∧
      (∀ i ∈ ns, ((s.appendAll d qs ns).contentWord i).written = d) ∧
      (∀ i, i ∉ ns → (s.appendAll d qs ns).contentWord i = s.contentWord i) ∧
      (s.appendAll d qs ns).memoriesWf = true := by
  induction qs generalizing s m ns with
  | nil =>
    cases ns with
    | nil => simpa [appendAll, w] using h
    | cons n ns => simp at hl
  | cons q qs ih =>
    cases ns with
    | nil => simp at hl
    | cons n ns =>
      have hl1 : ns.length = qs.length := by simpa using hl
      obtain ⟨hq0, hn1⟩ := List.nodup_cons.mp hn
      cases hk : s.queue q with
      | closed => exact absurd hk (hq q (by simp))
      | live lq =>
        have e : s.appendAll d (q :: qs) (n :: ns) = (s.appendNode n d q lq).appendAll d qs ns := by
          simp only [appendAll, hk]
        obtain ⟨a1, a2, a3, a4, a5, a6, a7⟩ := appendNode_effect w h n q lq
        have hq1 : ∀ r ∈ qs, (s.appendNode n d q lq).queue r ≠ .closed := by
          intro r hr
          rw [a4 r fun k => hq0 (k ▸ hr)]
          exact hq r (List.mem_cons_of_mem _ hr)
        obtain ⟨b1, b2, b3, b4, b5, b6, b7⟩ := ih ns a7 a1 hn1 hl1 hq1
        rw [e]
        refine ⟨?_, ?_, ?_, ?_, ?_, ?_, b7⟩
        · rw [b1, show (Message.link q m).dests = (Message.dispose q .linked m).dests from rfl, dispose_dispose]
          simp only [Message.link, Message.dispose, List.length_cons]
          rw [Nat.add_right_comm, Nat.add_assoc]
        · intro r hr
          rw [b2 r hr, a2 r hr]
        · intro r hr
          rcases List.mem_cons.mp hr with rfl | hr
          · rw [b4 r hq0, a3, hk]
            rfl
          · rw [b3 r hr, a4 r fun k => hq0 (k ▸ hr)]
        · intro r hr
          obtain ⟨h1, h2⟩ := not_or.mp fun k => hr (List.mem_cons.mpr k)
          rw [b4 r h2, a4 r h1]
        · intro i hi
          by_cases hi2 : i ∈ ns
          · exact b5 i hi2
          · rcases List.mem_cons.mp hi with rfl | k
            · rw [b6 i hi2, a5]
            · exact absurd k hi2
        · intro i hi
          obtain ⟨h1, h2⟩ := not_or.mp fun k => hi (List.mem_cons.mpr k)
          rw [b6 i h2, a6 i h1]

/-! ### Node allocation (R29, R30) -/

theorem takeNodes_length (p : Port) (k : Nat) (acc : List NodeNo) {s1 : State} {ns : List NodeNo}
    (h : takeNodes p k s acc = (s1, ns, true)) : ns.length = acc.length + k := by
  induction k generalizing s acc with
  | zero =>
    unfold takeNodes at h
    cases h
    rfl
  | succ k ih =>
    unfold takeNodes at h
    split at h
    · cases h
    · rw [ih _ _ h, List.length_append, List.length_singleton]
      omega

/-- An allocation that succeeds gives as many nodes as were asked for. -/
theorem allocateNodes_length {s : State} {p : Port} {k : Nat} {s1 : State} {ns : List NodeNo}
    (h : s.allocateNodes p k = (s1, some ns)) : ns.length = k := by
  unfold allocateNodes at h
  split at h <;> rename_i e <;> cases h
  simpa using s.takeNodes_length p k [] e

end State
end Sys2Proof.Machine
end

