-- ==== Sys2Proof/Laws/Recovery.lean ====
section
/-!
SUPPORT. What freeing a descriptor gives back and whom it tells (R22, R28, R34, R37): one lemma for the free list, the stranded
cells, the episodes and the low-water state, and one for the entries sent.
-/
namespace Sys2Proof.Machine

theorem Message.chain_eq (m : Message) : m.chain =
    if m.splices then (match m.first, m.last with | some c1, some cn => some (c1, cn) | _, _ => none) else none := by
  unfold Message.chain Message.splices
  by_cases h : m.cells = 0
  · simp [h]
  · cases hb : m.linkBroken <;> cases hf : m.first <;> cases hl : m.last <;> simp [h]

/-- A chain to splice runs from the first cell to the last. -/
theorem Message.chain_of_splices {m : Message} (h : m.splices = true) :
    ∃ c1 cn, m.first = some c1 ∧ m.last = some cn ∧ m.chain = some (c1, cn) := by
  have hs := h
  simp only [Message.splices, Bool.and_eq_true, Option.isSome_iff_exists] at h
  obtain ⟨⟨_, c1, h1⟩, cn, h2⟩ := h
  exact ⟨c1, cn, h1, h2, by rw [Message.chain_eq, if_pos hs, h1, h2]⟩

theorem Message.chain_of_not_splices {m : Message} (h : m.splices = false) : m.chain = none := by
  rw [Message.chain_eq, h]
  rfl

namespace State

variable (s : State)

/-! ### The entries of the evaluations -/

/-- The quota rule reads the pool and the shares, not the episodes (R32). -/
theorem quotaGrants_congr {s t : State} (h : t.pool.cellHead = s.pool.cellHead) (hf : t.pool.freeCells = s.pool.freeCells)
    (hs : ∀ q, (t.share q).charged = (s.share q).charged ∧ (t.share q).reserve = (s.share q).reserve ∧
      (t.share q).limit = (s.share q).limit) (p : Port) : t.quotaGrants p = s.quotaGrants p := by
  have out : ∀ q, (t.share q).outstanding = (s.share q).outstanding := fun q => by
    rw [Share.outstanding, Share.outstanding, (hs q).1, (hs q).2.1]
  have others : othersOutstanding t.shares p = othersOutstanding s.shares p := by
    simp only [othersOutstanding]
    rw [show t.shares.q0.outstanding = s.shares.q0.outstanding from out 0,
      show t.shares.q1.outstanding = s.shares.q1.outstanding from out 1,
      show t.shares.q2.outstanding = s.shares.q2.outstanding from out 2,
      show t.shares.q3.outstanding = s.shares.q3.outstanding from out 3]
  have c : (t.shares.get p).charged = (s.shares.get p).charged := (hs p).1
  have r : (t.shares.get p).reserve = (s.shares.get p).reserve := (hs p).2.1
  have l : (t.shares.get p).limit = (s.shares.get p).limit := (hs p).2.2
  unfold quotaGrants
  rw [h, hf, others, c, r, l]

theorem event_sendAll (x : EventEntry) (q : Port) : (s.sendAll x).event q = (s.event q).arrive x := by
  fin_cases q <;> rfl

/-- The evaluation of one port: its episode and its event part; the other ports are as they were. -/
theorem starvationEvaluation_spec (p q : Port) :
    (s.starvationEvaluation p).share q = (if q = p ∧ s.quotaGrants p = true then { s.share q with starving := false }
      else s.share q) ∧
    (s.starvationEvaluation p).event q =
      (if q = p ∧ (s.share p).starving = true ∧ s.quotaGrants p = true then
        (s.event q).arrive (s.poolEntry .allocAvailable ((s.share p).refusedSlot.map (·.val))) else s.event q) ∧
    (s.starvationEvaluation p).pool = s.pool := by
  unfold starvationEvaluation
  by_cases hs : (s.share p).starving = true <;> by_cases hg : s.quotaGrants p = true <;> by_cases hq : q = p
  all_goals simp [hs, hg, hq, sendEvent, share_of_shares (setEvent_shares _ _ _), event_of_events (setShare_events _ _ _)]
  cases h : s.share p
  simp_all

theorem quotaGrants_starvationEvaluation (p q : Port) : (s.starvationEvaluation p).quotaGrants q = s.quotaGrants q :=
  quotaGrants_congr (by rw [(s.starvationEvaluation_spec p 0).2.2]) (by rw [(s.starvationEvaluation_spec p 0).2.2])
    (fun r => ⟨(s.starvationEvaluation_charged p r).1, (s.starvationEvaluation_charged p r).2.1,
      (s.starvationEvaluation_charged p r).2.2.1⟩) q

/-- The four evaluations at a splice: each open episode that the quota rule would now grant closes, with its entry (R34). -/
theorem starvationEvaluations_spec (q : Port) :
    s.starvationEvaluations.share q =
      (if s.quotaGrants q = true then { s.share q with starving := false } else s.share q) ∧
    s.starvationEvaluations.event q = (if (s.share q).starving = true ∧ s.quotaGrants q = true then
        (s.event q).arrive (s.poolEntry .allocAvailable ((s.share q).refusedSlot.map (·.val))) else s.event q) := by
  unfold starvationEvaluations
  have hp : ∀ u : State, ∀ p, (u.starvationEvaluation p).pool = u.pool := fun u p => (u.starvationEvaluation_spec p 0).2.2
  simp only [starvationEvaluation_spec, quotaGrants_starvationEvaluation, poolEntry, hp]
  fin_cases q <;> simp

/-! ### Freeing a descriptor -/

/-- The state of a freeing just before its evaluations. -/
def freedOf (s : State) (d : DescNo) (m : Message) : State :=
  let s1 := s.returnCells m
  let s2 := s1.setShare m.port { s1.share m.port with charged := (s1.share m.port).charged - m.cells }
  let s3 := s2.setDesc d .free
  s3.setPool { s3.pool with fifo := s3.pool.fifo ++ [d] }

theorem freeDescriptor_eq (d : DescNo) (m : Message) : s.freeDescriptor d m =
    if m.splices = true then (s.freedOf d m).starvationEvaluations.recoveryEvaluation else s.freedOf d m := by
  cases h : m.splices
  · rw [freeDescriptor, Message.chain_of_not_splices h]
    rfl
  · obtain ⟨c1, cn, _, _, hc⟩ := Message.chain_of_splices h
    rw [freeDescriptor, hc]
    rfl

theorem share_freedOf (d : DescNo) (m : Message) (q : Port) : (s.freedOf d m).share q =
    if q = m.port then { s.share q with charged := (s.share q).charged - m.cells } else s.share q := by
  obtain ⟨l, x, y, pl, e⟩ := s.returnCells_footprint m
  have h : ∀ r, (s.returnCells m).share r = s.share r := fun r => share_of_shares (by rw [e]) r
  show ((s.returnCells m).setShare m.port _).share q = _
  by_cases hq : q = m.port
  · subst hq
    simp [h]
  · simp [hq, h]

theorem event_freedOf (d : DescNo) (m : Message) (q : Port) : (s.freedOf d m).event q = s.event q := by
  obtain ⟨l, x, y, pl, e⟩ := s.returnCells_footprint m
  exact event_of_events (show (s.returnCells m).events = _ by rw [e]) q

theorem pool_freedOf (d : DescNo) (m : Message) :
    (s.freedOf d m).pool = { (s.returnCells m).pool with fifo := s.pool.fifo ++ [d] } := by
  rw [← s.returnCells_fifo m]
  rfl

theorem cellLinks_freedOf (d : DescNo) (m : Message) : (s.freedOf d m).cellLinks = (s.returnCells m).cellLinks := rfl

/-- What goes back to the cell free list: the chain, by one link write at most, or nothing (R22, R28). -/
theorem returnCells_spec (w : Memory.wf cellLinkDefault s.cellLinks = true) (m : Message) :
    (m.splices = true →
      (s.returnCells m).pool = { s.pool with
        cellHead := if s.pool.cellTail = none then m.first else s.pool.cellHead
        cellTail := m.last, freeCells := s.pool.freeCells + m.cells } ∧
      (s.pool.cellTail = none → (s.returnCells m).cellLinks = s.cellLinks ∧ SameInjection s (s.returnCells m)) ∧
      ∀ tl, s.pool.cellTail = some tl → (s.returnCells m).cellLinkWord tl = ⟨m.first, injected s .cellLink⟩ ∧
        ∀ x, x ≠ tl → (s.returnCells m).cellLinkWord x = s.cellLinkWord x) ∧
    (m.splices = false →
      s.returnCells m = s.setPool { s.pool with strandedCells := s.pool.strandedCells + m.cells }) := by
  refine ⟨fun h => ?_, fun h => ?_⟩
  · obtain ⟨c1, cn, h1, h2, hc⟩ := Message.chain_of_splices h
    have e : s.returnCells m = s.splice c1 cn m.cells := by rw [returnCells, hc]
    rw [e, h1, h2]
    cases ht : s.pool.cellTail with
    | none =>
      have e2 : s.splice c1 cn m.cells = s.setPool { s.pool with
          cellHead := some c1, cellTail := some cn, freeCells := s.pool.freeCells + m.cells } := by
        simp only [splice, ht]
      rw [e2]
      exact ⟨by simp, fun _ => ⟨rfl, rfl, rfl⟩, fun tl k => by cases k⟩
    | some t =>
      obtain ⟨l, x, y, f⟩ := s.writeCellLink_footprint t (some c1)
      have hp : (s.writeCellLink t (some c1)).pool = s.pool := by rw [f]
      have e2 : s.splice c1 cn m.cells = (s.writeCellLink t (some c1)).setPool { s.pool with
          cellTail := some cn, freeCells := s.pool.freeCells + m.cells } := by
        simp only [splice, ht, hp]
      rw [e2]
      refine ⟨by simp, fun k => (by cases k), fun tl k => ?_⟩
      cases k
      obtain ⟨x1, y1, j⟩ := s.takeArm_footprint .cellLink .cellLink .link t.val
      have hw : ∀ i, (s.writeCellLink t (some c1)).cellLinkWord i =
          if i = t then ⟨some c1, injected s .cellLink⟩ else s.cellLinkWord i := by
        intro i
        rw [writeCellLink, cellLinkWord_putCellLink _ (by rw [j]; exact w), armBits_eq_injected]
        split_ifs
        · rfl
        · rw [j]
          rfl
      refine ⟨(hw t).trans (if_pos rfl), fun i hi => (hw i).trans (if_neg hi)⟩
  · rw [returnCells, Message.chain_of_not_splices h]

/-- The evaluations that follow a splice, together (R34, R37). -/
theorem evaluations_spec (q : Port) :
    s.starvationEvaluations.recoveryEvaluation.pool = { s.pool with
      lowWater := if s.pool.lowWater = .tripped ∧ s.pool.recoverMark ≤ s.pool.freeCells then .armed
        else s.pool.lowWater } ∧
    s.starvationEvaluations.recoveryEvaluation.share q =
      (if s.quotaGrants q = true then { s.share q with starving := false } else s.share q) ∧
    s.starvationEvaluations.recoveryEvaluation.event q =
      ((if (s.share q).starving = true ∧ s.quotaGrants q = true then
        [s.poolEntry .allocAvailable ((s.share q).refusedSlot.map (·.val))] else []) ++
      (if s.pool.lowWater = .tripped ∧ s.pool.recoverMark ≤ s.pool.freeCells then
        [s.poolEntry .poolRecovered none] else [])).foldl EventPort.arrive (s.event q) := by
  have hp := s.starvationEvaluations_pool
  obtain ⟨h1, h2⟩ := s.starvationEvaluations_spec q
  refine ⟨by rw [recoveryEvaluation_pool, hp], ?_, ?_⟩
  · rw [← h1]
    obtain ⟨_, _, k⟩ := s.starvationEvaluations.recoveryEvaluation_footprint
    exact share_of_shares (by rw [k]) q
  · have hr : s.starvationEvaluations.recoveryEvaluation.event q =
        (if s.pool.lowWater = .tripped ∧ s.pool.recoverMark ≤ s.pool.freeCells then
          [s.poolEntry .poolRecovered none] else []).foldl EventPort.arrive (s.starvationEvaluations.event q) := by
      unfold recoveryEvaluation
      rw [hp]
      split_ifs
      · rw [event_sendAll, poolEntry, poolEntry, hp]
        rfl
      · rfl
    rw [List.foldl_append, hr, h2]
    split_ifs <;> rfl

/-- The counts that the quota rule reads stand as the freeing leaves them. -/
theorem quotaGrants_evaluations (q : Port) :
    s.starvationEvaluations.recoveryEvaluation.quotaGrants q = s.quotaGrants q := by
  have hp := (s.evaluations_spec 0).1
  refine quotaGrants_congr (by rw [hp]) (by rw [hp]) (fun r => ?_) q
  rw [(s.evaluations_spec r).2.1]
  split_ifs <;> exact ⟨rfl, rfl, rfl⟩

/-- A freeing without a chain to splice: the cells are stranded, and nothing is evaluated (R22). -/
theorem freeDescriptor_strands (w : Memory.wf cellLinkDefault s.cellLinks = true) (d : DescNo) {m : Message}
    (h : m.splices = false) :
    Recovered s (s.freeDescriptor d m) m ∧
      EventsSent s (s.freeDescriptor d m) (freeingEntries s (s.freeDescriptor d m) m) ∧
      SameNodeList s (s.freeDescriptor d m) := by
  have hr := (s.returnCells_spec w m).2 h
  have e : s.freeDescriptor d m = s.freedOf d m := by rw [freeDescriptor_eq, h]; rfl
  have hp : (s.freedOf d m).pool = { s.pool with
      strandedCells := s.pool.strandedCells + m.cells, fifo := s.pool.fifo ++ [d] } := by
    rw [pool_freedOf, hr]
    rfl
  have hl : (s.freedOf d m).cellLinks = s.cellLinks := by rw [cellLinks_freedOf, hr]; rfl
  have hs : ∀ q, ((s.freedOf d m).share q).starving = (s.share q).starving ∧
      ((s.freedOf d m).share q).reserve = (s.share q).reserve ∧ ((s.freedOf d m).share q).limit = (s.share q).limit ∧
      ((s.freedOf d m).share q).refused = (s.share q).refused ∧
      ((s.freedOf d m).share q).refusedSlot = (s.share q).refusedSlot ∧
      (q ≠ m.port → ((s.freedOf d m).share q).charged = (s.share q).charged) := fun q => by
    rw [share_freedOf]
    by_cases hq : q = m.port
    · rw [if_pos hq]
      exact ⟨rfl, rfl, rfl, rfl, rfl, fun k => absurd hq k⟩
    · rw [if_neg hq]
      exact ⟨rfl, rfl, rfl, rfl, rfl, fun _ => rfl⟩
  rw [e]
  refine ⟨⟨fun k => (by rw [h] at k; cases k), fun _ => ?_, fun q => (hs q).2⟩, fun q => ?_, ?_⟩
  · rw [hp]
    exact ⟨rfl, rfl, rfl, rfl, hl, fun q => (hs q).1, rfl⟩
  · rw [event_freedOf, freeingEntries, h]
    rfl
  · unfold SameNodeList
    rw [hp]
    exact ⟨rfl, rfl, rfl, rfl, rfl, rfl⟩

/-- A freeing whose chain is spliced, with its evaluations (R22, R28, R34, R37). -/
theorem freeDescriptor_splices (w : Memory.wf cellLinkDefault s.cellLinks = true) (d : DescNo) {m : Message}
    (h : m.splices = true) :
    Recovered s (s.freeDescriptor d m) m ∧
      EventsSent s (s.freeDescriptor d m) (freeingEntries s (s.freeDescriptor d m) m) ∧
      SameNodeList s (s.freeDescriptor d m) := by
  obtain ⟨hpool, hnone, hsome⟩ := (s.returnCells_spec w m).1 h
  have e : s.freeDescriptor d m = (s.freedOf d m).starvationEvaluations.recoveryEvaluation := by
    rw [freeDescriptor_eq, if_pos h]
  have hp : (s.freedOf d m).pool = { s.pool with
      cellHead := if s.pool.cellTail = none then m.first else s.pool.cellHead
      cellTail := m.last, freeCells := s.pool.freeCells + m.cells, fifo := s.pool.fifo ++ [d] } := by
    rw [pool_freedOf, hpool]
  have hl : (s.freeDescriptor d m).cellLinks = (s.returnCells m).cellLinks := by
    obtain ⟨_, _, k2⟩ := (s.freedOf d m).starvationEvaluations.recoveryEvaluation_footprint
    obtain ⟨_, _, k1⟩ := (s.freedOf d m).starvationEvaluations_footprint
    rw [e, k2, k1]
    rfl
  have hw : ∀ x, (s.freeDescriptor d m).cellLinkWord x = (s.returnCells m).cellLinkWord x := fun x => by
    unfold cellLinkWord
    rw [hl]
  have hq : ∀ q, (s.freeDescriptor d m).quotaGrants q = (s.freedOf d m).quotaGrants q := fun q => by
    rw [e, quotaGrants_evaluations]
  have hev := fun q => (s.freedOf d m).evaluations_spec q
  rw [← e] at hev
  have hpl : (s.freeDescriptor d m).pool = { s.pool with
      cellHead := if s.pool.cellTail = none then m.first else s.pool.cellHead
      cellTail := m.last, freeCells := s.pool.freeCells + m.cells, fifo := s.pool.fifo ++ [d]
      lowWater := if s.pool.lowWater = .tripped ∧ s.pool.recoverMark ≤ s.pool.freeCells + m.cells then .armed
        else s.pool.lowWater } := by
    rw [(hev 0).1, hp]
  generalize s.freeDescriptor d m = t at *
  have hsh : ∀ q, t.share q = if t.quotaGrants q = true then { (s.freedOf d m).share q with starving := false }
      else (s.freedOf d m).share q := fun q => by rw [hq]; exact (hev q).2.1
  have hst : ∀ q, ((s.freedOf d m).share q).starving = (s.share q).starving ∧
      ((s.freedOf d m).share q).refusedSlot = (s.share q).refusedSlot := fun q => by
    rw [share_freedOf]
    split_ifs <;> exact ⟨rfl, rfl⟩
  refine ⟨⟨fun _ => ?_, fun k => (by rw [h] at k; cases k), fun q => ?_⟩, fun q => ?_, ?_⟩
  · rw [hpl]
    refine ⟨rfl, rfl, rfl, fun k => ⟨if_pos k, hl.trans (hnone k).1⟩, fun tl k => ?_, fun q => ?_, rfl⟩
    · obtain ⟨h1, h2⟩ := hsome tl k
      exact ⟨if_neg (by rw [k]; simp), (hw tl).trans h1, fun x hx => (hw x).trans (h2 x hx)⟩
    · rw [hsh]
      cases hg : t.quotaGrants q <;> simp [hst]
  · rw [hsh, share_freedOf]
    refine ⟨?_, ?_, ?_, ?_, fun k => ?_⟩
    · split_ifs <;> rfl
    · split_ifs <;> rfl
    · split_ifs <;> rfl
    · split_ifs <;> rfl
    · rw [if_neg k]
      split_ifs <;> rfl
  · have hentry : ∀ k x, (s.freedOf d m).poolEntry k x = ⟨k, x, none, min t.pool.freeCells 255⟩ := fun k x => by
      rw [poolEntry, hp, hpl]
      rfl
    rw [(hev q).2.2, hentry, hentry, (hst q).1, (hst q).2, event_freedOf, freeingEntries, if_pos h, hq, hp, hpl]
  · unfold SameNodeList
    rw [hpl]
    exact ⟨rfl, rfl, rfl, rfl, rfl, rfl⟩

/-- Freeing a descriptor: what goes back to the pool, whom it tells, and that the node free list stays. -/
theorem freeDescriptor_recovered (w : Memory.wf cellLinkDefault s.cellLinks = true) (d : DescNo) (m : Message) :
    Recovered s (s.freeDescriptor d m) m ∧
      EventsSent s (s.freeDescriptor d m) (freeingEntries s (s.freeDescriptor d m) m) ∧
      SameNodeList s (s.freeDescriptor d m) := by
  cases h : m.splices
  · exact s.freeDescriptor_strands w d h
  · exact s.freeDescriptor_splices w d h

end State
end Sys2Proof.Machine
end

