-- ==== Sys2Proof/Laws/Injection.lean ====
section
/-!
SUPPORT. Which write of a request takes the injection arm (R16): one lemma for each shared operation that writes a memory, and their
composition: the arm is taken by the first write of its memory.
-/
namespace Sys2Proof.Machine

namespace InjectionTaken

variable {s t u : State} {f g : FirstWrites}

/-! ### The relation -/

theorem arm_none (h : InjectionTaken s t f) (k : s.arm = none) :
    t.arm = none ∧ t.lastInjection = s.lastInjection := by
  unfold InjectionTaken at h
  rwa [k] at h

theorem kept (h : InjectionTaken s t f) {a : Arm} (k : s.arm = some a) (j : f a.target = none) :
    t.arm = some a ∧ t.lastInjection = s.lastInjection := by
  unfold InjectionTaken at h
  rw [k] at h
  dsimp only at h
  rwa [j] at h

theorem taken (h : InjectionTaken s t f) {a : Arm} (k : s.arm = some a) {x : MemoryName × WordKind × Nat}
    (j : f a.target = some x) : t.arm = none ∧ t.lastInjection = some ⟨x.1, x.2.1, x.2.2, a.kind⟩ := by
  unfold InjectionTaken at h
  rw [k] at h
  dsimp only at h
  rwa [j] at h

theorem intro (h0 : s.arm = none → t.arm = none ∧ t.lastInjection = s.lastInjection)
    (h1 : ∀ a, s.arm = some a → f a.target = none → t.arm = some a ∧ t.lastInjection = s.lastInjection)
    (h2 : ∀ a x, s.arm = some a → f a.target = some x →
      t.arm = none ∧ t.lastInjection = some ⟨x.1, x.2.1, x.2.2, a.kind⟩) : InjectionTaken s t f := by
  unfold InjectionTaken
  cases h : s.arm with
  | none => exact h0 h
  | some a =>
    dsimp only
    cases k : f a.target with
    | none => exact h1 a h k
    | some x => exact h2 a x h k

/-- A request that writes no memory an arm may be set for. -/
theorem of_same (h : SameInjection s t) (hf : ∀ x, f x = none) : InjectionTaken s t f := by
  refine intro (fun k => ⟨h.1.trans k, h.2⟩) (fun a k _ => ⟨h.1.trans k, h.2⟩) fun a x _ k => ?_
  rw [hf] at k
  cases k

theorem congr (h : InjectionTaken s t f) (hs : u.arm = s.arm ∧ u.lastInjection = s.lastInjection)
    {v : State} (ht : v.arm = t.arm ∧ v.lastInjection = t.lastInjection) : InjectionTaken u v f := by
  unfold InjectionTaken at *
  rw [hs.1, hs.2, ht.1, ht.2]
  exact h

theorem congr_left (h : InjectionTaken s t f) (hs : u.arm = s.arm ∧ u.lastInjection = s.lastInjection) :
    InjectionTaken u t f := h.congr hs ⟨rfl, rfl⟩

theorem congr_right (h : InjectionTaken s t f) (ht : u.arm = t.arm ∧ u.lastInjection = t.lastInjection) :
    InjectionTaken s u f := h.congr ⟨rfl, rfl⟩ ht

theorem congr_writes (h : InjectionTaken s t f) (k : ∀ x, g x = f x) : InjectionTaken s t g := by
  rwa [show g = f from funext k]

/-- Two requests, or two parts of one: the second part takes an arm that the first left. -/
theorem trans (h : InjectionTaken s u f) (k : InjectionTaken u t g) : InjectionTaken s t fun x => (f x).or (g x) := by
  refine intro (fun a0 => ?_) (fun a ha hn => ?_) fun a x ha hx => ?_
  · obtain ⟨h1, h2⟩ := h.arm_none a0
    obtain ⟨k1, k2⟩ := k.arm_none h1
    exact ⟨k1, k2.trans h2⟩
  · cases hf : f a.target with
    | none =>
      rw [hf, Option.none_or] at hn
      obtain ⟨h1, h2⟩ := h.kept ha hf
      obtain ⟨k1, k2⟩ := k.kept h1 hn
      exact ⟨k1, k2.trans h2⟩
    | some y =>
      rw [hf, Option.some_or] at hn
      cases hn
  · cases hf : f a.target with
    | none =>
      rw [hf, Option.none_or] at hx
      obtain ⟨h1, h2⟩ := h.kept ha hf
      obtain ⟨k1, k2⟩ := k.taken h1 hx
      exact ⟨k1, k2⟩
    | some y =>
      rw [hf, Option.some_or] at hx
      cases hx
      obtain ⟨h1, h2⟩ := h.taken ha hf
      obtain ⟨k1, k2⟩ := k.arm_none h1
      exact ⟨k1, k2.trans h2⟩

/-- After the first write of a memory no later write of the request injects. -/
theorem injected_of_taken (h : InjectionTaken s t f) {target : InjectTarget} {x : MemoryName × WordKind × Nat}
    (hf : f target = some x) : injected t target = [] := by
  unfold injected
  cases ha : s.arm with
  | none => rw [(h.arm_none ha).1]; simp
  | some a =>
    by_cases ht : a.target = target
    · rw [(h.taken ha (by rw [ht]; exact hf)).1]
      simp
    · cases k : f a.target with
      | none =>
        rw [(h.kept ha k).1]
        obtain ⟨y, z⟩ := a
        have : y ≠ target := ht
        simp [this]
      | some y => rw [(h.taken ha k).1]; simp

/-- A write that leaves a memory alone leaves an arm set for it. -/
theorem injected_of_kept (h : InjectionTaken s t f) {target : InjectTarget} (hf : f target = none) :
    injected t target = injected s target := by
  unfold injected
  cases ha : s.arm with
  | none => rw [(h.arm_none ha).1]
  | some a =>
    by_cases ht : a.target = target
    · rw [(h.kept ha (by rw [ht]; exact hf)).1]
    · have no : ∀ k, (some a : Option Arm) ≠ some ⟨target, k⟩ := fun k e => ht (by cases e; rfl)
      cases k : f a.target with
      | none => rw [(h.kept ha k).1]
      | some y =>
        rw [(h.taken ha k).1]
        simp [no]

end InjectionTaken

namespace State

variable (s : State)

/-! ### The writes -/

theorem takeArm_taken (target : InjectTarget) (m : MemoryName) (w : WordKind) (i : Nat) :
    InjectionTaken s (s.takeArm target m w i) fun x => if x = target then some (m, w, i) else none := by
  refine .intro (fun h => ?_) (fun a h k => ?_) fun a x h k => ?_
  · rw [takeArm_of_not fun kind => by rw [h]; simp]
    exact ⟨h, rfl⟩
  · rw [takeArm_of_not fun kind e => ?_]
    · exact ⟨h, rfl⟩
    · rw [h] at e
      cases e
      simp at k
  · obtain ⟨t, kind⟩ := a
    dsimp only at k
    split_ifs at k with e
    cases k
    rw [e] at h
    rw [takeArm_of_set h]
    exact ⟨rfl, rfl⟩

theorem writeContent_taken (n : NodeNo) (d : DescNo) :
    InjectionTaken s (s.writeContent n d) fun x => if x = .node then some (.node, .content, n.val) else none :=
  s.takeArm_taken _ _ _ _

theorem writeNodeLink_taken (n : NodeNo) (v : NodeLink) :
    InjectionTaken s (s.writeNodeLink n v) fun x => if x = .node then some (.node, .link, n.val) else none :=
  s.takeArm_taken _ _ _ _

theorem writeCellLink_taken (c : CellNo) (v : CellLink) :
    InjectionTaken s (s.writeCellLink c v) fun x => if x = .cellLink then some (.cellLink, .link, c.val) else none :=
  s.takeArm_taken _ _ _ _

theorem writePayload_taken (c : CellNo) (w : Fin 16) (v : Word) :
    InjectionTaken s (s.writePayload c w v) fun x =>
      if x = .payload then some (bankOf c, .payload w, c.val) else none := s.takeArm_taken _ _ _ _

/-! ### Appends -/

theorem appendWords_taken (n : NodeNo) (d : DescNo) (lq : LiveQueue) :
    InjectionTaken s (s.appendWords n d lq) (appendWrites [n]) := by
  have k := (s.writeContent_taken n d).trans ((s.writeContent n d).writeNodeLink_taken n none)
  have k2 : InjectionTaken s ((s.writeContent n d).writeNodeLink n none) (appendWrites [n]) :=
    k.congr_writes fun x => by cases x <;> rfl
  unfold appendWords
  dsimp only
  split_ifs
  · exact k2
  · split
    · exact (k2.trans (writeNodeLink_taken _ _ _)).congr_writes fun x => by cases x <;> rfl
    · exact k2

theorem appendNode_taken (n : NodeNo) (d : DescNo) (q : QueueNo) (lq : LiveQueue) :
    InjectionTaken s (s.appendNode n d q lq) (appendWrites [n]) := by
  refine (s.appendWords_taken n d lq).congr_right ?_
  obtain ⟨ds, k⟩ := ((s.appendWords n d lq).setQueue q (.live (lq.append n).afterAppend)).updMessage_footprint d
    (Message.link q)
  unfold appendNode
  dsimp only
  rw [k]
  split_ifs <;> exact ⟨rfl, rfl⟩

theorem appendAll_taken {s : State} (d : DescNo) (room : List QueueNo) (ns : List NodeNo)
    (hl : ns.length = room.length) (hn : room.Nodup) (hq : ∀ q ∈ room, s.queue q ≠ .closed)
    (w : s.memoriesWf = true) : InjectionTaken s (s.appendAll d room ns) (appendWrites ns) := by
  induction room generalizing s ns with
  | nil =>
    obtain rfl : ns = [] := List.length_eq_zero_iff.mp hl
    have e : s.appendAll d [] [] = s := by unfold appendAll; rfl
    rw [e]
    exact .of_same ⟨rfl, rfl⟩ fun x => by cases x <;> rfl
  | cons q room ih =>
    cases ns with
    | nil => simp at hl
    | cons n ns =>
      obtain ⟨hq0, hn1⟩ := List.nodup_cons.mp hn
      cases hk : s.queue q with
      | closed => exact absurd hk (hq q (by simp))
      | live lq =>
        have e : s.appendAll d (q :: room) (n :: ns) = (s.appendNode n d q lq).appendAll d room ns := by
          simp only [appendAll, hk]
        have hq1 : ∀ r ∈ room, (s.appendNode n d q lq).queue r ≠ .closed := fun r hr => by
          have hne : r ≠ q := fun j => hq0 (j ▸ hr)
          rw [appendNode_queue w n d q lq r, if_neg hne]
          exact hq r (List.mem_cons_of_mem _ hr)
        have k := (s.appendNode_taken n d q lq).trans (ih ns (by simpa using hl) hn1 hq1
          ((Quiet.appendNode .refl n d q lq).memoriesWf w))
        rw [e]
        exact k.congr_writes fun x => by cases x <;> rfl

/-! ### Splices and freed descriptors -/

/-- The first writes of a splice of the chain of `m`. -/
def spliceWrites (m : Message) : FirstWrites
  | .cellLink => (s.spliceTail m).map fun c => (.cellLink, .link, c.val)
  | .payload | .node => none

theorem returnCells_taken (m : Message) : InjectionTaken s (s.returnCells m) (s.spliceWrites m) := by
  cases h : m.splices with
  | false =>
    rw [returnCells, Message.chain_of_not_splices h]
    exact .of_same ⟨rfl, rfl⟩ fun x => by cases x <;> simp [spliceWrites, spliceTail, h]
  | true =>
    obtain ⟨c1, cn, h1, h2, hc⟩ := Message.chain_of_splices h
    rw [returnCells, hc]
    dsimp only
    unfold splice
    cases ht : s.pool.cellTail with
    | none => exact .of_same ⟨rfl, rfl⟩ fun x => by cases x <;> simp [spliceWrites, spliceTail, h, ht]
    | some t =>
      refine ((s.writeCellLink_taken t (some c1)).congr_right ⟨rfl, rfl⟩).congr_writes fun x => ?_
      cases x <;> simp [spliceWrites, spliceTail, h, ht]

theorem freeDescriptor_taken (w : Memory.wf descDefault s.descriptors = true) (d : DescNo) (m : Message) :
    InjectionTaken s (s.freeDescriptor d m) (s.spliceWrites m) := by
  obtain ⟨-, -, -, -, -, h1, h2, -⟩ := s.freeDescriptor_effect w d m
  exact (s.returnCells_taken m).congr_right ⟨h1, h2⟩

/-- A decrement of the holder count of a descriptor that holds `m` (R21, R22). -/
theorem dropHolder_taken {s : State} (w : Memory.wf descDefault s.descriptors = true) {d : DescNo} {m : Message}
    (h : s.desc d = .live m) : InjectionTaken s (s.dropHolder d) (s.dropWrites m m.holders) := by
  unfold dropHolder
  rw [message_of_live h]
  dsimp only
  split_ifs with h0 h1
  · exact .of_same ⟨rfl, rfl⟩ fun x => by cases x <;> simp [dropWrites, h0]
  · exact (s.freeDescriptor_taken w d m).congr_writes fun x => by
      cases x <;> simp [dropWrites, spliceWrites, h1]
  · exact .of_same ⟨rfl, rfl⟩ fun x => by cases x <;> simp [dropWrites, h1]

/-! ### Returned nodes -/

theorem returnNode_taken (n : NodeNo) :
    InjectionTaken s (s.returnNode n) fun x => if x = .node then some (.node, .link, n.val) else none := by
  unfold returnNode
  dsimp only
  split
  · rename_i t _
    have k := (s.writeNodeLink_taken n none).trans ((s.writeNodeLink n none).writeNodeLink_taken t (some n))
    exact (k.congr_writes fun x => by cases x <;> rfl).congr_right ⟨rfl, rfl⟩
  · exact (s.writeNodeLink_taken n none).congr_right ⟨rfl, rfl⟩

theorem returnNodes_taken (ns : List NodeNo) : InjectionTaken s (s.returnNodes ns) fun x =>
    if x = .node then ns.head?.map fun n => (.node, .link, n.val) else none := by
  induction ns generalizing s with
  | nil => exact .of_same ⟨rfl, rfl⟩ fun x => by cases x <;> rfl
  | cons n ns ih =>
    exact ((s.returnNode_taken n).trans (ih _)).congr_writes fun x => by cases x <;> rfl

end State
end Sys2Proof.Machine
end

