-- ==== Sys2Proof/Laws/Links.lean ====
section
/-!
SUPPORT. The appends of one link request (R50, R51, R53): queue records, node words, the injection that the first write takes, and
the QUEUE_READY entries.
-/
namespace Sys2Proof.Machine.State

/-! ### One write of a node -/

theorem nodeLinkWord_writeNodeLink {s : State} (w : s.memoriesWf = true) (n e : NodeNo) (v : NodeLink) :
    (s.writeNodeLink n v).nodeLinkWord e = if e = n then ⟨v, s.armBits .node⟩ else s.nodeLinkWord e := by
  obtain ⟨x, y, j⟩ := s.takeArm_footprint .node .node .link n.val
  rw [writeNodeLink, nodeLinkWord_putNodeLink _ (by rw [j]; exact wf_nodeLinks (s := s) w)]
  split_ifs
  · rfl
  · rw [j]
    rfl

/-- The link words after one append: the node's is END, the old tail's names the node; both clean, as the content word was written
before them. -/
theorem appendWords_links {s : State} (w : s.memoriesWf = true) (n : NodeNo) (d : DescNo) (lq : LiveQueue) :
    let tl := if lq.depth = 0 then none else lq.tail
    (tl ≠ some n → (s.appendWords n d lq).nodeLinkWord n = ⟨none, []⟩) ∧
    (∀ t, tl = some t → (s.appendWords n d lq).nodeLinkWord t = ⟨some n, []⟩) ∧
    ∀ e, e ≠ n → tl ≠ some e → (s.appendWords n d lq).nodeLinkWord e = s.nodeLinkWord e := by
  intro tl
  have w1 : (s.writeContent n d).memoriesWf = true := (Quiet.writeContent .refl n d).memoriesWf w
  have w2 : ((s.writeContent n d).writeNodeLink n none).memoriesWf = true :=
    (Quiet.writeNodeLink .refl n none).memoriesWf w1
  have base : ∀ e, (s.writeContent n d).nodeLinkWord e = s.nodeLinkWord e := fun e => by
    obtain ⟨c, x, y, k⟩ := s.writeContent_footprint n d
    rw [k]
    rfl
  have arm1 : (s.writeContent n d).armBits .node = [] := by
    rw [armBits_eq_injected]
    exact (s.writeContent_taken n d).injected_of_taken rfl
  have arm2 : ((s.writeContent n d).writeNodeLink n none).armBits .node = [] := by
    rw [armBits_eq_injected]
    exact ((s.writeContent n d).writeNodeLink_taken n none).injected_of_taken rfl
  have one : ∀ e, ((s.writeContent n d).writeNodeLink n none).nodeLinkWord e =
      if e = n then ⟨none, []⟩ else s.nodeLinkWord e := fun e => by
    rw [nodeLinkWord_writeNodeLink w1, base, arm1]
  cases ht : tl with
  | none =>
    have e : s.appendWords n d lq = (s.writeContent n d).writeNodeLink n none := by
      unfold appendWords
      dsimp only
      by_cases h0 : lq.depth = 0
      · rw [if_pos h0]
      · have : lq.tail = none := by simpa [tl, h0] using ht
        rw [if_neg h0, this]
    rw [e]
    refine ⟨fun _ => by rw [one, if_pos rfl], fun t k => (by cases k), fun x hx _ => by rw [one, if_neg hx]⟩
  | some t =>
    have h0 : lq.depth ≠ 0 := fun k => by simp [tl, k] at ht
    have htl : lq.tail = some t := by simpa [tl, h0] using ht
    have e : s.appendWords n d lq = ((s.writeContent n d).writeNodeLink n none).writeNodeLink t (some n) := by
      unfold appendWords
      dsimp only
      rw [if_neg h0, htl]
    rw [e]
    refine ⟨fun h => ?_, fun x k => ?_, fun x hx k => ?_⟩
    · rw [nodeLinkWord_writeNodeLink w2, if_neg fun k => h (by rw [k]), one, if_pos rfl]
    · cases k
      rw [nodeLinkWord_writeNodeLink w2, if_pos rfl, arm2]
    · rw [nodeLinkWord_writeNodeLink w2, if_neg fun j => k (by rw [j]), one, if_neg hx]

/-! ### One append -/

/-- What one append does beside `appendNode_effect`: the link words and the events. -/
theorem appendNode_words (s : State) (n : NodeNo) (d : DescNo) (q : QueueNo) (lq : LiveQueue) :
    (∀ e, (s.appendNode n d q lq).nodeLinkWord e = (s.appendWords n d lq).nodeLinkWord e) ∧
    (∀ r, (s.appendNode n d q lq).event r = (if lq.consumer = r ∧ lq.armed = true ∧ lq.threshold ≤ lq.depth + 1 then
      [(⟨.queueReady, some q.val, none, min (lq.depth + 1) 255⟩ : EventEntry)] else []).foldl EventPort.arrive
        (s.event r)) := by
  obtain ⟨c, ml, x, y, e⟩ := s.appendWords_footprint n d lq
  obtain ⟨ds, k⟩ := ((s.appendWords n d lq).setQueue q (.live (lq.append n).afterAppend)).updMessage_footprint d
    (Message.link q)
  have hr : (lq.append n).ready = (lq.armed && decide (lq.threshold ≤ lq.depth + 1)) := rfl
  unfold appendNode
  dsimp only
  rw [k, hr]
  have hev : ∀ r, (s.appendWords n d lq).event r = s.event r := fun r => event_of_events (by rw [e]) r
  by_cases ha : lq.armed = true ∧ lq.threshold ≤ lq.depth + 1
  · rw [if_pos (by simpa using ha)]
    refine ⟨fun _ => rfl, fun r => ?_⟩
    by_cases hc : lq.consumer = r
    · rw [if_pos ⟨hc, ha⟩]
      subst hc
      show ((setEvent _ lq.consumer _).event lq.consumer) = _
      rw [event_setEvent_self]
      show EventPort.arrive ((s.appendWords n d lq).event lq.consumer) _ = _
      rw [hev]
      rfl
    · rw [if_neg fun j => hc j.1]
      show ((setEvent _ lq.consumer _).event r) = _
      rw [event_setEvent_ne _ (fun j => hc j.symm)]
      exact hev r
  · rw [if_neg (by simpa using ha)]
    refine ⟨fun _ => rfl, fun r => ?_⟩
    rw [if_neg fun j => ha j.2]
    exact hev r

/-- The queue record that an append leaves, in the words of the statements. -/
theorem queueWith_of_live {s : State} {q : QueueNo} {lq : LiveQueue} (h : s.queue q = .live lq) (n : NodeNo) :
    s.queueWith q n = .live (lq.append n).afterAppend := by
  unfold queueWith
  rw [h]
  simp only [LiveQueue.append, LiveQueue.afterAppend, LiveQueue.ready, Queue.live.injEq, LiveQueue.mk.injEq, true_and]
  cases lq.armed <;> simp
  by_cases k : lq.threshold ≤ lq.depth + 1
  · simp [k]
  · simp [k]
    omega

theorem listTail_of_live {s : State} {q : QueueNo} {lq : LiveQueue} (h : s.queue q = .live lq) :
    s.listTail q = if lq.depth = 0 then none else lq.tail := by
  unfold listTail
  rw [h]

theorem queueWith_of_queue {s t : State} {q : QueueNo} (h : t.queue q = s.queue q) (n : NodeNo) :
    t.queueWith q n = s.queueWith q n := by
  unfold queueWith
  rw [h]

theorem listTail_of_queue {s t : State} {q : QueueNo} (h : t.queue q = s.queue q) : t.listTail q = s.listTail q := by
  unfold listTail
  rw [h]

theorem readyEntries_of_queue {s t : State} {room : List QueueNo} (h : ∀ q ∈ room, t.queue q = s.queue q) (r : Port) :
    t.readyEntries room r = s.readyEntries room r := by
  unfold readyEntries
  exact List.filterMap_congr fun q hq => by rw [h q hq]

/-! ### The appends of one request -/

/-- The appends of one link request, in the words of the statements (R50, R51, R53). -/
theorem appendAll_linked {s : State} {d : DescNo} {m : Message} (room : List QueueNo) (ns : List NodeNo)
    (w : s.memoriesWf = true) (h : s.desc d = .live m) (hn : room.Nodup) (hl : ns.length = room.length)
    (hq : ∀ q ∈ room, s.queue q ≠ .closed) :
    Linked s s (s.appendAll d room ns) d room ns ∧ EventsSent s (s.appendAll d room ns) (s.readyEntries room) := by
  induction room generalizing s m ns with
  | nil =>
    obtain rfl : ns = [] := List.length_eq_zero_iff.mp hl
    have e : s.appendAll d [] [] = s := by unfold appendAll; rfl
    rw [e]
    exact ⟨⟨fun i q x k => by simp at k, fun _ _ => rfl, fun x k => by simp at k, fun _ _ => rfl,
      fun _ i x k => by simp at k, fun _ _ _ => ⟨fun x k => by simp at k, fun i q x tl k => by simp at k⟩,
      fun _ _ _ => rfl⟩, fun r => rfl⟩
  | cons q room ih =>
    cases ns with
    | nil => simp at hl
    | cons n ns =>
      have hl1 : ns.length = room.length := by simpa using hl
      obtain ⟨hq0, hn1⟩ := List.nodup_cons.mp hn
      cases hk : s.queue q with
      | closed => exact absurd hk (hq q (by simp))
      | live lq =>
        have e : s.appendAll d (q :: room) (n :: ns) = (s.appendNode n d q lq).appendAll d room ns := by
          simp only [appendAll, hk]
        obtain ⟨a1, a2, a3, a4, a5, a6, a7⟩ := appendNode_effect w h n q lq
        obtain ⟨w1, w4⟩ := s.appendNode_words n d q lq
        obtain ⟨l1, l2, l3⟩ := appendWords_links w n d lq
        have clean : injected (s.appendNode n d q lq) .node = [] := (s.appendNode_taken n d q lq).injected_of_taken rfl
        have ne : ∀ r ∈ room, r ≠ q := fun r hr k => hq0 (k ▸ hr)
        have hq1 : ∀ r ∈ room, (s.appendNode n d q lq).queue r ≠ .closed := fun r hr => by
          rw [a4 r (ne r hr)]
          exact hq r (List.mem_cons_of_mem _ hr)
        obtain ⟨⟨b1, b2, b3, b4, bw, b5, b6⟩, bev⟩ := ih ns a7 a1 hn1 hl1 hq1
        have tails : ∀ r ∈ room, (s.appendNode n d q lq).listTail r = s.listTail r := fun r hr =>
          listTail_of_queue (a4 r (ne r hr))
        have htl := listTail_of_live hk
        rw [← htl] at l1 l2 l3
        rw [e]
        generalize hu : s.appendNode n d q lq = u at *
        generalize ht : u.appendAll d room ns = t at *
        refine ⟨⟨?_, ?_, ?_, ?_, ?_, ?_, ?_⟩, ?_⟩
        · intro i r x hi hx
          cases i with
          | zero =>
            simp only [List.getElem?_cons_zero, Option.some.injEq] at hi hx
            subst hi hx
            rw [b2 q hq0, a3, queueWith_of_live hk]
          | succ i =>
            simp only [List.getElem?_cons_succ] at hi hx
            rw [b1 i r x hi hx, queueWith_of_queue (a4 r (ne r (List.mem_of_getElem? hi)))]
        · intro r hr
          obtain ⟨h1, h2⟩ := not_or.mp fun k => hr (List.mem_cons.mpr k)
          rw [b2 r h2, a4 r h1]
        · intro x hx
          by_cases hx2 : x ∈ ns
          · exact b3 x hx2
          · rcases List.mem_cons.mp hx with rfl | k
            · rw [b4 x hx2, a5]
            · exact absurd k hx2
        · intro x hx
          obtain ⟨h1, h2⟩ := not_or.mp fun k => hx (List.mem_cons.mpr k)
          rw [b4 x h2, a6 x h1]
        · intro hnd i x hx
          obtain ⟨hn0, hnd1⟩ := List.nodup_cons.mp hnd
          cases i with
          | zero =>
            simp only [List.getElem?_cons_zero, Option.some.injEq] at hx
            subst hx
            rw [b4 n hn0, a5, armBits_eq_injected, if_pos rfl]
          | succ i =>
            simp only [List.getElem?_cons_succ] at hx
            rw [bw hnd1 i x hx, clean, if_neg i.succ_ne_zero]
            split_ifs <;> rfl
        · intro hnd htails hdist
          obtain ⟨hn0, hnd1⟩ := List.nodup_cons.mp hnd
          have ht1 : ∀ r ∈ room, ∀ tl, u.listTail r = some tl → tl ∉ ns := fun r hr tl k => by
            rw [tails r hr] at k
            exact fun j => htails r (List.mem_cons_of_mem _ hr) tl k (List.mem_cons_of_mem _ j)
          have hd1 : ∀ r ∈ room, ∀ e ∈ room, r ≠ e → ∀ tl, u.listTail r = some tl → u.listTail e ≠ some tl :=
            fun r hr e he hre tl k => by
              rw [tails r hr] at k
              rw [tails e he]
              exact hdist r (List.mem_cons_of_mem _ hr) e (List.mem_cons_of_mem _ he) hre tl k
          obtain ⟨c1, c2⟩ := b5 hnd1 ht1 hd1
          have keep : ∀ x, x ∉ ns → (∀ r ∈ room, s.listTail r ≠ some x) →
              t.nodeLinkWord x = (s.appendWords n d lq).nodeLinkWord x := fun x h1 h2 => by
            rw [b6 x h1 fun r hr => by rw [tails r hr]; exact h2 r hr, w1]
          have nTail : ∀ r ∈ q :: room, s.listTail r ≠ some n := fun r hr k =>
            htails r hr n k List.mem_cons_self
          refine ⟨fun x hx => ?_, fun i r x tl hi hx hr => ?_⟩
          · rcases List.mem_cons.mp hx with rfl | k
            · rw [keep x hn0 fun r hr => nTail r (List.mem_cons_of_mem _ hr)]
              exact l1 (nTail q List.mem_cons_self)
            · exact c1 x k
          · cases i with
            | zero =>
              simp only [List.getElem?_cons_zero, Option.some.injEq] at hi hx
              subst hi hx
              have k1 : tl ∉ ns := fun k => htails q List.mem_cons_self tl hr (List.mem_cons_of_mem _ k)
              rw [keep tl k1 fun r hr2 => hdist q List.mem_cons_self r (List.mem_cons_of_mem _ hr2)
                (fun k => ne r hr2 k.symm) tl hr]
              exact l2 tl hr
            | succ i =>
              simp only [List.getElem?_cons_succ] at hi hx
              exact c2 i r x tl hi hx (by rw [tails r (List.mem_of_getElem? hi)]; exact hr)
        · intro x hx hr
          obtain ⟨h1, h2⟩ := not_or.mp fun k => hx (List.mem_cons.mpr k)
          rw [b6 x h2 fun r hr2 => by rw [tails r hr2]; exact hr r (List.mem_cons_of_mem _ hr2), w1]
          exact l3 x h1 (hr q List.mem_cons_self)
        · intro r
          rw [bev r, readyEntries_of_queue (s := s) (fun x hx => a4 x (ne x hx)), w4 r, ← List.foldl_append]
          congr 1
          unfold readyEntries
          rw [List.filterMap_cons, hk]
          by_cases k : lq.consumer = r ∧ lq.armed = true ∧ lq.threshold ≤ lq.depth + 1
          · simp only [if_pos k, List.cons_append, List.nil_append]
          · simp only [if_neg k, List.nil_append]

end Sys2Proof.Machine.State
end

