-- ==== Sys2Proof/Laws/Nodes.lean ====
section
/-!
SUPPORT. The node free list (R29, R30): the takes of an allocation request along a list whose link words read clean or corrected, the
truncation at an uncorrectable one, and the return of nodes to an empty list.
-/
namespace Sys2Proof.Machine.State

/-! ### One take -/

/-- A head whose link word reads clean or corrected gives the new head; a corrected word is stored clean and counted. -/
theorem takeHeadNode_spec {s : State} (w : s.memoriesWf = true) (p : Port) (n : NodeNo) (y : NodeLink)
    (h : (s.nodeLinkWord n).check = .clean y ∨ (s.nodeLinkWord n).check = .corrected y) :
    let t := s.takeHeadNode p n
    t = { s with
      nodeLinks := t.nodeLinks, integrity := { s.integrity with tracking := t.integrity.tracking }
      pool := { s.pool with
        nodeHead := y, nodeTail := if y = none then none else s.pool.nodeTail, freeNodes := s.pool.freeNodes - 1 } } ∧
    ((s.nodeLinkWord n).check = .corrected y → t.nodeLinkWord n = ⟨y, []⟩) ∧
    ((s.nodeLinkWord n).check = .clean y → t.nodeLinkWord n = s.nodeLinkWord n ∧ t.integrity = s.integrity) ∧
    ∀ e, e ≠ n → t.nodeLinkWord e = s.nodeLinkWord e := by
  intro t
  rcases h with h | h
  · have r : s.readNodeLink n = (s, some y) := by simp only [readNodeLink, h]
    have e : t = s.setPool { s.pool with
        nodeHead := y, nodeTail := if y = none then none else s.pool.nodeTail, freeNodes := s.pool.freeNodes - 1 } := by
      simp only [t, takeHeadNode, r]
    rw [e]
    exact ⟨rfl, fun k => (by rw [h] at k; cases k), fun _ => ⟨rfl, rfl⟩, fun _ _ => rfl⟩
  · have r : s.readNodeLink n = ((s.putNodeLink n ⟨y, []⟩).countCorrection .node, some y) := by
      simp only [readNodeLink, h]
    have e : t = ((s.putNodeLink n ⟨y, []⟩).countCorrection .node).setPool { s.pool with
        nodeHead := y, nodeTail := if y = none then none else s.pool.nodeTail, freeNodes := s.pool.freeNodes - 1 } := by
      simp only [t, takeHeadNode, r]
      rfl
    have hw : ∀ e, t.nodeLinkWord e = if e = n then ⟨y, []⟩ else s.nodeLinkWord e := fun i => by
      rw [e]
      exact nodeLinkWord_putNodeLink s (wf_nodeLinks w) n i ⟨y, []⟩
    refine ⟨by rw [e]; rfl, fun _ => (hw n).trans (if_pos rfl), fun k => (by rw [h] at k; cases k),
      fun i hi => (hw i).trans (if_neg hi)⟩

/-- A head whose link word is uncorrectable truncates the list, and is reported (R30). -/
theorem takeHeadNode_truncates {s : State} (p : Port) (n : NodeNo) (h : (s.nodeLinkWord n).check = .uncorrectable) :
    s.takeHeadNode p n = (s.setPool { s.pool with
      nodeHead := none, nodeTail := none, freeNodes := 0
      strandedNodes := s.pool.strandedNodes + (s.pool.freeNodes - 1) }).report
        ⟨.node, .link, n.val, .freeNodeTake, p, none, none⟩ .truncate := by
  have r : s.readNodeLink n = (s, none) := by simp only [readNodeLink, h]
  simp only [takeHeadNode, r]

/-! ### The takes along a run of readable heads -/

/-- The state after taking the nodes of a list in order. -/
def takeAll (p : Port) : List NodeNo → State → State
  | [], s => s
  | n :: ns, s => takeAll p ns (s.takeHeadNode p n)

/-- Reading on along the list is the same after a take. -/
theorem freeRun_congr {s t : State} {ns : List NodeNo} {head x : NodeLink}
    (h : ∀ n y, ((s.nodeLinkWord n).check = .clean y ∨ (s.nodeLinkWord n).check = .corrected y) →
      (t.nodeLinkWord n).check = .clean y ∨ (t.nodeLinkWord n).check = .corrected y) (k : s.freeRun head ns x) :
    t.freeRun head ns x := by
  induction ns generalizing head with
  | nil => exact k
  | cons n ns ih =>
    obtain ⟨h1, y, h2, h3⟩ := k
    exact ⟨h1, y, h n y h2, ih h3⟩

/-- What the takes along a run do: R29 for each node. -/
theorem takeAll_spec {s : State} (w : s.memoriesWf = true) (p : Port) (ns : List NodeNo) (x : NodeLink)
    (h : s.freeRun s.pool.nodeHead ns x) :
    let t := takeAll p ns s
    t = { s with
      nodeLinks := t.nodeLinks, integrity := { s.integrity with tracking := t.integrity.tracking }
      pool := { s.pool with
        nodeHead := x, nodeTail := if ns ≠ [] ∧ x = none then none else s.pool.nodeTail
        freeNodes := s.pool.freeNodes - ns.length } } ∧
    (∀ n ∈ ns, ∀ y, (s.nodeLinkWord n).check = .corrected y → t.nodeLinkWord n = ⟨y, []⟩) ∧
    (∀ n, (n ∉ ns ∨ ∃ y, (s.nodeLinkWord n).check = .clean y) → t.nodeLinkWord n = s.nodeLinkWord n) ∧
    ((∀ n ∈ ns, ∃ y, (s.nodeLinkWord n).check = .clean y) → t.integrity = s.integrity) ∧
    ∀ k acc, takeNodes p (ns.length + k) s acc = takeNodes p k t (acc ++ ns) := by
  induction ns generalizing s with
  | nil =>
    obtain rfl : s.pool.nodeHead = x := h
    exact ⟨rfl, fun n k => (by simp at k), fun _ _ => rfl, fun _ => rfl, fun k acc => by simp [takeAll]⟩
  | cons n ns ih =>
    obtain ⟨hh, y, hy, hr⟩ := h
    obtain ⟨e1, c1, c2, c3⟩ := takeHeadNode_spec w p n y hy
    have w1 : (s.takeHeadNode p n).memoriesWf = true := (Quiet.takeHeadNode .refl p n).memoriesWf w
    have hpool : (s.takeHeadNode p n).pool = { s.pool with
        nodeHead := y, nodeTail := if y = none then none else s.pool.nodeTail, freeNodes := s.pool.freeNodes - 1 } := by
      rw [e1]
    have hint : (s.takeHeadNode p n).integrity =
        { s.integrity with tracking := (s.takeHeadNode p n).integrity.tracking } := by
      rw [e1]
    have keep : ∀ i v, ((s.nodeLinkWord i).check = .clean v ∨ (s.nodeLinkWord i).check = .corrected v) →
        ((s.takeHeadNode p n).nodeLinkWord i).check = .clean v ∨
          ((s.takeHeadNode p n).nodeLinkWord i).check = .corrected v := by
      intro i v hi
      by_cases k : i = n
      · subst k
        rcases hy with hy | hy
        · rwa [(c2 hy).1]
        · rw [c1 hy]
          rw [hy] at hi
          rcases hi with hi | hi
          · cases hi
          · cases hi
            exact .inl rfl
      · rwa [c3 i k]
    have hrun : (s.takeHeadNode p n).freeRun (s.takeHeadNode p n).pool.nodeHead ns x := by
      rw [hpool]
      exact freeRun_congr keep hr
    obtain ⟨f1, f2, f3, f4, f5⟩ := ih w1 hrun
    have hstep : ∀ k acc, takeNodes p ((n :: ns).length + k) s acc =
        takeNodes p k (takeAll p ns (s.takeHeadNode p n)) (acc ++ n :: ns) := fun k acc => by
      rw [show (n :: ns).length + k = (ns.length + k) + 1 by simp; omega, takeNodes, hh]
      dsimp only
      rw [f5, List.append_assoc]
      rfl
    intro t
    have et : takeAll p ns (s.takeHeadNode p n) = t := rfl
    clear_value t
    rw [et] at f1 f2 f3 f4 hstep
    clear et f5
    generalize hu : s.takeHeadNode p n = u at *
    refine ⟨?_, fun i hi v hv => ?_, fun i hi => ?_, fun hc => ?_, hstep⟩
    · have hns : y = none → ns = [] := fun k => by
        cases ns with
        | nil => rfl
        | cons a l =>
          rw [k] at hr
          exact absurd hr.1 (by simp)
      have htail : (if ns ≠ [] ∧ x = none then none else if y = none then none else s.pool.nodeTail) =
          if n :: ns ≠ [] ∧ x = none then none else s.pool.nodeTail := by
        cases ns with
        | nil =>
          obtain rfl : y = x := hr
          simp
        | cons a l =>
          have : y ≠ none := fun k => by simpa using hns k
          simp [this]
      rw [f1, hint, hpool, e1]
      simp only [State.mk.injEq, Pool.mk.injEq, true_and, and_true]
      exact ⟨htail, by simp; omega⟩
    · by_cases k : i = n
      · subst k
        have hu2 : u.nodeLinkWord i = ⟨v, []⟩ := by
          rcases hy with hy | hy
          · rw [hv] at hy
            cases hy
          · rw [hv] at hy
            cases hy
            exact c1 hv
        rw [f3 i (.inr ⟨v, by rw [hu2]; rfl⟩), hu2]
      · have hi2 : i ∈ ns := by simpa [k] using hi
        exact f2 i hi2 v (by rw [c3 i k]; exact hv)
    · by_cases k : i = n
      · subst k
        rcases hi with hi | ⟨v, hv⟩
        · exact absurd List.mem_cons_self hi
        · have hy2 : (s.nodeLinkWord i).check = .clean y := by
            rcases hy with hy | hy
            · exact hy
            · rw [hv] at hy
              cases hy
          rw [f3 i (.inr ⟨v, by rw [(c2 hy2).1]; exact hv⟩), (c2 hy2).1]
      · rw [f3 i ?_, c3 i k]
        rcases hi with hi | ⟨v, hv⟩
        · exact .inl fun j => hi (List.mem_cons_of_mem _ j)
        · exact .inr ⟨v, by rw [c3 i k]; exact hv⟩
    · obtain ⟨v, hv⟩ := hc n List.mem_cons_self
      have hy2 : (s.nodeLinkWord n).check = .clean y := by
        rcases hy with hy | hy
        · exact hy
        · rw [hv] at hy
          cases hy
      rw [f4 fun i hi => ?_, (c2 hy2).2]
      obtain ⟨v2, hv2⟩ := hc i (List.mem_cons_of_mem _ hi)
      by_cases k : i = n
      · exact ⟨v2, by rw [k, (c2 hy2).1, ← k]; exact hv2⟩
      · exact ⟨v2, by rw [c3 i k]; exact hv2⟩

/-! ### The return of nodes (R30) -/

/-- One return: the node's link word becomes END by the first write of the access, the old tail's names the node. -/
theorem returnNode_words {s : State} (w : s.memoriesWf = true) (n : NodeNo) :
    (s.returnNode n).pool = { s.pool with
      nodeHead := if s.pool.nodeTail = none then some n else s.pool.nodeHead
      nodeTail := some n, freeNodes := s.pool.freeNodes + 1 } ∧
    (s.pool.nodeTail ≠ some n → (s.returnNode n).nodeLinkWord n = ⟨none, injected s .node⟩) ∧
    (∀ t, s.pool.nodeTail = some t → (s.returnNode n).nodeLinkWord t = ⟨some n, []⟩) ∧
    ∀ e, e ≠ n → s.pool.nodeTail ≠ some e → (s.returnNode n).nodeLinkWord e = s.nodeLinkWord e := by
  have w1 : (s.writeNodeLink n none).memoriesWf = true := (Quiet.writeNodeLink .refl n none).memoriesWf w
  obtain ⟨ml, x, y, k⟩ := s.writeNodeLink_footprint n none
  have hp : (s.writeNodeLink n none).pool = s.pool := by rw [k]
  cases ht : s.pool.nodeTail with
  | none =>
    have e : s.returnNode n = (s.writeNodeLink n none).setPool { s.pool with
        nodeHead := some n, nodeTail := some n, freeNodes := s.pool.freeNodes + 1 } := by
      simp only [returnNode, ht, hp]
    rw [e]
    refine ⟨by simp, fun _ => ?_, fun t k => (by cases k), fun i hi _ => ?_⟩
    · show (s.writeNodeLink n none).nodeLinkWord n = _
      rw [nodeLinkWord_writeNodeLink w, if_pos rfl, armBits_eq_injected]
    · show (s.writeNodeLink n none).nodeLinkWord i = _
      rw [nodeLinkWord_writeNodeLink w, if_neg hi]
  | some t =>
    obtain ⟨ml2, x2, y2, k2⟩ := (s.writeNodeLink n none).writeNodeLink_footprint t (some n)
    have hp2 : ((s.writeNodeLink n none).writeNodeLink t (some n)).pool = s.pool := by rw [k2, hp]
    have e : s.returnNode n = ((s.writeNodeLink n none).writeNodeLink t (some n)).setPool { s.pool with
        nodeTail := some n, freeNodes := s.pool.freeNodes + 1 } := by
      simp only [returnNode, ht, hp2]
    rw [e]
    refine ⟨by simp, fun h => ?_, fun i h => ?_, fun i hi h => ?_⟩
    · show ((s.writeNodeLink n none).writeNodeLink t (some n)).nodeLinkWord n = _
      rw [nodeLinkWord_writeNodeLink w1, if_neg fun j => h (by rw [j]), nodeLinkWord_writeNodeLink w, if_pos rfl,
        armBits_eq_injected]
    · cases h
      show ((s.writeNodeLink n none).writeNodeLink t (some n)).nodeLinkWord t = _
      rw [nodeLinkWord_writeNodeLink w1, if_pos rfl, armBits_eq_injected,
        (s.writeNodeLink_taken n none).injected_of_taken rfl]
    · show ((s.writeNodeLink n none).writeNodeLink t (some n)).nodeLinkWord i = _
      rw [nodeLinkWord_writeNodeLink w1, if_neg fun j => h (by rw [j]), nodeLinkWord_writeNodeLink w, if_neg hi]

/-- The words that a return of one node leaves, in the words of the statements. -/
theorem returnNode_returned {s : State} (w : s.memoriesWf = true) (n : NodeNo) : NodeReturned s (s.returnNode n) n := by
  obtain ⟨h1, h2, h3, h4⟩ := returnNode_words w n
  rw [NodeReturned, h1]
  exact ⟨rfl, rfl, rfl, h2, h3, h4⟩

/-- Distinct nodes returned behind a tail, or to an empty list, are linked in the order of their return; every word is clean but that of
a node returned alone, which the first write of the request left. -/
theorem returnNodes_words {s : State} (w : s.memoriesWf = true) (ns : List NodeNo) (hn : ns.Nodup)
    (ht : ∀ t, s.pool.nodeTail = some t → t ∉ ns) :
    (s.returnNodes ns).pool = { s.pool with
      nodeHead := if s.pool.nodeTail = none ∧ ns ≠ [] then ns.head? else s.pool.nodeHead
      nodeTail := if ns = [] then s.pool.nodeTail else ns.getLast?, freeNodes := s.pool.freeNodes + ns.length } ∧
    (∀ (i : Nat) (a : NodeNo), ns[i]? = some a → (s.returnNodes ns).nodeLinkWord a =
      ⟨ns[i + 1]?, if ns.length = 1 then injected s .node else []⟩) ∧
    (∀ t, s.pool.nodeTail = some t → ns ≠ [] → (s.returnNodes ns).nodeLinkWord t = ⟨ns.head?, []⟩) ∧
    ∀ e, e ∉ ns → s.pool.nodeTail ≠ some e → (s.returnNodes ns).nodeLinkWord e = s.nodeLinkWord e := by
  induction ns generalizing s with
  | nil => exact ⟨by simp [returnNodes], fun i a k => (by simp at k), fun _ _ k => absurd rfl k, fun _ _ _ => rfl⟩
  | cons n ns ih =>
    obtain ⟨hn0, hn1⟩ := List.nodup_cons.mp hn
    obtain ⟨p1, c1, c2, c3⟩ := returnNode_words w n
    have w1 : (s.returnNode n).memoriesWf = true := (Quiet.returnNode .refl n).memoriesWf w
    have htail : (s.returnNode n).pool.nodeTail = some n := by rw [p1]
    obtain ⟨q1, d1, d2, d3⟩ := ih w1 hn1 fun t k => by rw [htail] at k; cases k; exact hn0
    rw [htail] at q1 d2 d3
    have hnot : s.pool.nodeTail ≠ some n := fun k => ht n k List.mem_cons_self
    have clean : injected (s.returnNode n) .node = [] := (s.returnNode_taken n).injected_of_taken rfl
    have first : ((s.returnNode n).returnNodes ns).nodeLinkWord n =
        ⟨ns.head?, if (n :: ns).length = 1 then injected s .node else []⟩ := by
      cases ns with
      | nil => exact c1 hnot
      | cons a l =>
        rw [d2 n rfl (by simp), if_neg (by simp)]
    have e : s.returnNodes (n :: ns) = (s.returnNode n).returnNodes ns := rfl
    rw [e]
    refine ⟨?_, fun i a hi => ?_, fun t h _ => ?_, fun i hi h => ?_⟩
    · rw [q1, p1]
      simp only [Pool.mk.injEq, true_and, and_true]
      refine ⟨?_, ?_, by simp; omega⟩
      · simp
      · cases ns with
        | nil => simp
        | cons a l => simp
    · cases i with
      | zero =>
        simp only [List.getElem?_cons_zero, Option.some.injEq] at hi
        subst hi
        rw [first]
        simp [List.head?_eq_getElem?]
      | succ i =>
        simp only [List.getElem?_cons_succ] at hi ⊢
        have hlen : (n :: ns).length ≠ 1 := by
          intro k
          obtain rfl : ns = [] := by simpa using k
          simp at hi
        rw [d1 i a hi, clean, if_neg hlen]
        split_ifs <;> rfl
    · have h1 : t ∉ ns := fun k => ht t h (List.mem_cons_of_mem _ k)
      have h2 : t ≠ n := fun k => hnot (k ▸ h)
      rw [d3 t h1 fun k => h2 (by cases k; rfl)]
      exact c2 t h
    · obtain ⟨h1, h2⟩ := not_or.mp fun k => hi (List.mem_cons.mpr k)
      rw [d3 i h2 fun k => h1 (by cases k; rfl), c3 i h1 h]

end Sys2Proof.Machine.State
end

