-- ==== Sys2Proof/Laws/Openings.lean ====
section
/-!
SUPPORT. The completion of an open BEGIN (R77, R147) neither reads nor writes the management port: every operation that it makes commutes
with a change of that record.
-/
namespace Sys2Proof.Machine.State

variable (s : State) (x : Mgmt)

/-! ### Memory accesses -/

theorem setMgmt_sendEvent (p : Port) (e : EventEntry) : (s.setMgmt x).sendEvent p e = (s.sendEvent p e).setMgmt x := rfl

theorem setMgmt_sendAll (e : EventEntry) : (s.setMgmt x).sendAll e = (s.sendAll e).setMgmt x := rfl

theorem setMgmt_updMessage (d : DescNo) (f : Message → Message) :
    (s.setMgmt x).updMessage d f = (s.updMessage d f).setMgmt x := by
  have e : (s.setMgmt x).desc d = s.desc d := rfl
  rw [updMessage, updMessage, e]
  cases s.desc d <;> rfl

theorem setMgmt_takeArm (target : InjectTarget) (memory : MemoryName) (word : WordKind) (index : Nat) :
    (s.setMgmt x).takeArm target memory word index = (s.takeArm target memory word index).setMgmt x := by
  have e : (s.setMgmt x).arm = s.arm := rfl
  rw [takeArm, takeArm, e]
  cases s.arm with
  | none => rfl
  | some a =>
    by_cases h : a.target = target
    · simp only [h, if_true]
      rfl
    · simp only [h, if_false]

theorem setMgmt_writeCellLink (c : CellNo) (v : CellLink) :
    (s.setMgmt x).writeCellLink c v = (s.writeCellLink c v).setMgmt x := by
  rw [writeCellLink, setMgmt_takeArm]
  rfl

theorem setMgmt_writeContent (n : NodeNo) (v : DescNo) :
    (s.setMgmt x).writeContent n v = (s.writeContent n v).setMgmt x := by
  rw [writeContent, setMgmt_takeArm]
  rfl

theorem setMgmt_writeNodeLink (n : NodeNo) (v : NodeLink) :
    (s.setMgmt x).writeNodeLink n v = (s.writeNodeLink n v).setMgmt x := by
  rw [writeNodeLink, setMgmt_takeArm]
  rfl

theorem setMgmt_readNodeLink (n : NodeNo) :
    (s.setMgmt x).readNodeLink n = ((s.readNodeLink n).1.setMgmt x, (s.readNodeLink n).2) := by
  have e : (s.setMgmt x).nodeLinkWord n = s.nodeLinkWord n := rfl
  rw [readNodeLink, readNodeLink, e]
  cases (s.nodeLinkWord n).check <;> rfl

/-! ### The node free list (R29, R30) -/

theorem setMgmt_takeHeadNode (p : Port) (n : NodeNo) :
    (s.setMgmt x).takeHeadNode p n = (s.takeHeadNode p n).setMgmt x := by
  rw [takeHeadNode, takeHeadNode, setMgmt_readNodeLink]
  rcases s.readNodeLink n with ⟨s1, _ | y⟩ <;> rfl

theorem setMgmt_takeNodes (p : Port) (k : Nat) (acc : List NodeNo) :
    takeNodes p k (s.setMgmt x) acc = ((takeNodes p k s acc).1.setMgmt x, (takeNodes p k s acc).2) := by
  induction k generalizing s acc with
  | zero => rfl
  | succ k ih =>
    have e : (s.setMgmt x).pool.nodeHead = s.pool.nodeHead := rfl
    rw [takeNodes, takeNodes, e]
    cases s.pool.nodeHead with
    | none => rfl
    | some n => simp only [setMgmt_takeHeadNode, ih]

theorem setMgmt_returnNode (n : NodeNo) : (s.setMgmt x).returnNode n = (s.returnNode n).setMgmt x := by
  have e : (s.setMgmt x).pool.nodeTail = s.pool.nodeTail := rfl
  rw [returnNode, returnNode, e]
  cases s.pool.nodeTail <;> simp only [setMgmt_writeNodeLink] <;> rfl

theorem setMgmt_returnNodes (ns : List NodeNo) : (s.setMgmt x).returnNodes ns = (s.returnNodes ns).setMgmt x := by
  induction ns generalizing s with
  | nil => rfl
  | cons n ns ih => rw [returnNodes, setMgmt_returnNode, ih, returnNodes]

theorem setMgmt_allocateNodes (p : Port) (k : Nat) :
    (s.setMgmt x).allocateNodes p k = ((s.allocateNodes p k).1.setMgmt x, (s.allocateNodes p k).2) := by
  rw [allocateNodes, allocateNodes, setMgmt_takeNodes]
  rcases takeNodes p k s [] with ⟨s1, ns, _ | _⟩
  · simp only [setMgmt_returnNodes]
  · rfl

/-! ### Appends (R51, R53) -/

theorem setMgmt_appendWords (n : NodeNo) (d : DescNo) (lq : LiveQueue) :
    (s.setMgmt x).appendWords n d lq = (s.appendWords n d lq).setMgmt x := by
  unfold appendWords
  by_cases h : lq.depth = 0
  · simp only [h, if_true, setMgmt_writeContent, setMgmt_writeNodeLink]
  · simp only [h, if_false, setMgmt_writeContent, setMgmt_writeNodeLink]
    cases lq.tail <;> rfl

theorem setMgmt_appendNode (n : NodeNo) (d : DescNo) (q : QueueNo) (lq : LiveQueue) :
    (s.setMgmt x).appendNode n d q lq = (s.appendNode n d q lq).setMgmt x := by
  have e : ((s.appendWords n d lq).setMgmt x).setQueue q (.live (lq.append n).afterAppend) =
      ((s.appendWords n d lq).setQueue q (.live (lq.append n).afterAppend)).setMgmt x := rfl
  simp only [appendNode, setMgmt_appendWords, e, setMgmt_updMessage]
  cases (lq.append n).ready <;> rfl

theorem setMgmt_appendAll (d : DescNo) (qs : List QueueNo) (ns : List NodeNo) :
    (s.setMgmt x).appendAll d qs ns = (s.appendAll d qs ns).setMgmt x := by
  induction qs generalizing s ns with
  | nil => rfl
  | cons q qs ih =>
    cases ns with
    | nil => rfl
    | cons n ns =>
      have e : (s.setMgmt x).queue q = s.queue q := rfl
      rw [appendAll, appendAll, e]
      cases s.queue q with
      | closed => exact ih s ns
      | live lq => simp only [setMgmt_appendNode, ih]

theorem setMgmt_disposeAll (d : DescNo) (y : Disposition) (qs : List QueueNo) :
    (s.setMgmt x).disposeAll d y qs = (s.disposeAll d y qs).setMgmt x := by
  induction qs generalizing s with
  | nil => rfl
  | cons q qs ih => rw [disposeAll, setMgmt_updMessage, ih, disposeAll]

/-! ### Freeing (R22, R28, R34, R37) -/

theorem setMgmt_splice (c1 cn : CellNo) (k : Nat) : (s.setMgmt x).splice c1 cn k = (s.splice c1 cn k).setMgmt x := by
  have e : (s.setMgmt x).pool.cellTail = s.pool.cellTail := rfl
  rw [splice, splice, e]
  cases s.pool.cellTail with
  | none => rfl
  | some t => simp only [setMgmt_writeCellLink]; rfl

theorem setMgmt_returnCells (m : Message) : (s.setMgmt x).returnCells m = (s.returnCells m).setMgmt x := by
  rw [returnCells, returnCells]
  rcases m.chain with _ | ⟨c1, cn⟩
  · rfl
  · exact setMgmt_splice s x c1 cn m.cells

theorem setMgmt_starvationEvaluation (p : Port) :
    (s.setMgmt x).starvationEvaluation p = (s.starvationEvaluation p).setMgmt x := by
  have e : (s.setMgmt x).quotaGrants p = s.quotaGrants p := rfl
  have k : (s.setMgmt x).share p = s.share p := rfl
  rw [starvationEvaluation, starvationEvaluation, e, k]
  split_ifs <;> rfl

theorem setMgmt_starvationEvaluations : (s.setMgmt x).starvationEvaluations = s.starvationEvaluations.setMgmt x := by
  simp only [starvationEvaluations, setMgmt_starvationEvaluation]

theorem setMgmt_recoveryEvaluation : (s.setMgmt x).recoveryEvaluation = s.recoveryEvaluation.setMgmt x := by
  have e : (s.setMgmt x).pool = s.pool := rfl
  rw [recoveryEvaluation, recoveryEvaluation, e]
  split_ifs <;> rfl

theorem setMgmt_freeDescriptor (d : DescNo) (m : Message) :
    (s.setMgmt x).freeDescriptor d m = (s.freeDescriptor d m).setMgmt x := by
  unfold freeDescriptor
  simp only [setMgmt_returnCells]
  cases m.chain with
  | none => rfl
  | some _ => rw [← setMgmt_recoveryEvaluation, ← setMgmt_starvationEvaluations]; rfl

theorem setMgmt_dropHolder (d : DescNo) : (s.setMgmt x).dropHolder d = (s.dropHolder d).setMgmt x := by
  have e : (s.setMgmt x).message d = s.message d := rfl
  rw [dropHolder, dropHolder, e]
  cases s.message d with
  | none => rfl
  | some m =>
    by_cases h0 : m.holders = 0
    · simp only [h0, if_true]
    · by_cases h1 : m.holders = 1
      · simp only [h1, if_true]
        exact setMgmt_freeDescriptor s x d m
      · simp only [h0, h1, if_false]
        rfl

/-! ### The seal, and the completion of a BEGIN -/

theorem setMgmt_examine (p : Port) (d : DescNo) (m : Message) :
    (s.setMgmt x).examine p d m = ((s.examine p d m).1.setMgmt x, (s.examine p d m).2) := by
  have e : (s.setMgmt x).admittedDests p m.pendingDests = s.admittedDests p m.pendingDests := rfl
  have k : (s.setMgmt x).closedDests p m.pendingDests = s.closedDests p m.pendingDests := rfl
  have j : (s.setMgmt x).pool.freeNodes = s.pool.freeNodes := rfl
  unfold examine
  simp only [e, k, j, setMgmt_allocateNodes]
  cases fullPosition (s.admittedDests p m.pendingDests) with
  | some pos => rfl
  | none =>
    dsimp only
    split_ifs
    · rfl
    · rcases s.allocateNodes p (roomDests (s.admittedDests p m.pendingDests)).length with ⟨s1, _ | ns⟩
      · rfl
      · simp only [setMgmt_appendAll, setMgmt_disposeAll]

theorem setMgmt_sealSlot (p : Port) (c : ComposeNo) (k : Composing) (m : Message) (n : Nat) :
    (s.setMgmt x).sealSlot p c k m n =
      { s.sealSlot p c k m n with state := (s.sealSlot p c k m n).state.setMgmt x } := by
  unfold sealSlot
  rw [setMgmt_examine]
  rcases s.examine p k.desc m with ⟨s1, _ | _⟩
  · rfl
  · have e : ∀ u : State, (u.setMgmt x).idleSlot p c = (u.idleSlot p c).setMgmt x := fun _ => rfl
    simp only [setMgmt_updMessage, e, setMgmt_dropHolder]
    rfl

theorem setMgmt_endOpening (p : Port) : (s.setMgmt x).endOpening p = (s.endOpening p).setMgmt x := by
  have e : (s.setMgmt x).front p = s.front p := rfl
  rw [endOpening, endOpening, e]
  cases (s.front p).opening with
  | none => rfl
  | some o =>
    have k : (((s.setMgmt x).setFront p { s.front p with opening := none }).setIntegrity
        ((s.setMgmt x).integrity.resume p)) =
          ((s.setFront p { s.front p with opening := none }).setIntegrity (s.integrity.resume p)).setMgmt x := rfl
    simp only [k]
    generalize (s.setFront p { s.front p with opening := none }).setIntegrity (s.integrity.resume p) = u
    have l : (u.setMgmt x).composeSlot p o.slot = u.composeSlot p o.slot := rfl
    rw [l]
    cases (u.composeSlot p o.slot).phase with
    | idle => rfl
    | held _ _ => rfl
    | filling k =>
      have j : (u.setMgmt x).messageOf k.desc = u.messageOf k.desc := rfl
      simp only [beginSeal, j, setMgmt_sealSlot]
      rfl

theorem setMgmt_completeOpenings : (s.setMgmt x).completeOpenings = s.completeOpenings.setMgmt x := by
  simp only [completeOpenings, setMgmt_endOpening]

/-- A port without an open BEGIN has none to complete. -/
theorem endOpening_of_none {p : Port} (h : (s.front p).opening = none) : s.endOpening p = s := by
  rw [endOpening, h]

end Sys2Proof.Machine.State
end

