-- ==== Sys2Proof/Laws/PerInstr.lean ====
section
/-!
SUPPORT. The family PassesDecode: the acting access that a well-formed row of an agent stands for passes decode (R161), so no row but
ACCESS_DECODE_ERROR spells an access that decode refuses.
-/
namespace Sys2Proof.Laws

/-! ### The apertures decode to their slots (R161) -/

theorem decode_composeAddress (c : ComposeNo) (word : BitVec 8) : decodeAddress (composeAddress c word) = .compose c := by
  have h1 := c.isLt
  have h2 := word.isLt
  have h : (composeAddress c word).toNat = 0x1000 + 0x400 * c.val + 4 * word.toNat := by
    simp only [composeAddress, BitVec.toNat_ofNat]
    omega
  unfold decodeAddress
  dsimp only
  rw [h, if_neg (by omega), if_neg (by omega), if_pos (by omega)]
  congr 1
  apply Fin.ext
  simp only [Fin.val_ofNat]
  omega

theorem decode_receiveAddress (r : ReceiveNo) (word : BitVec 8) : decodeAddress (receiveAddress r word) = .receive r := by
  have h1 := r.isLt
  have h2 := word.isLt
  have h : (receiveAddress r word).toNat = 0x2000 + 0x400 * r.val + 4 * word.toNat := by
    simp only [receiveAddress, BitVec.toNat_ofNat]
    omega
  unfold decodeAddress
  dsimp only
  rw [h, if_neg (by omega), if_neg (by omega), if_neg (by omega), if_pos (by omega)]
  congr 1
  apply Fin.ext
  simp only [Fin.val_ofNat]
  omega

namespace PassesDecode

/-- The acting access of a well-formed row passes decode. -/
def Statement (i : Instr) : Prop :=
  WellFormed i = true → ∀ (p : Port) (a : BitVec 16), Machine.actingAccess i = some (p, a) →
    decodeAddress a ≠ .misaligned ∧ decodeAddress a ≠ .unmapped

/-- A row that stands for no acting access. -/
theorem of_none {i : Instr} (h : Machine.actingAccess i = none) : Statement i := by
  intro _ p a k
  rw [h] at k
  exact absurd k (by simp)

/-- A row whose acting access has a target. -/
theorem of_some {i : Instr} {p : Port} {a : BitVec 16} (h : Machine.actingAccess i = some (p, a))
    (k : decodeAddress a ≠ .misaligned ∧ decodeAddress a ≠ .unmapped) : Statement i := by
  intro _ q b e
  rw [h] at e
  cases e
  exact k

theorem resetNAssert (ma : BitVec 2) : Statement (.resetNAssert ma) := of_none rfl

theorem resetNRelease : Statement .resetNRelease := of_none rfl

theorem initRebuildEnd : Statement .initRebuildEnd := of_none rfl

theorem restartRebuildEnd : Statement .restartRebuildEnd := of_none rfl

theorem accessDecodeError (p : Port) (addr : BitVec 16) (access : Access) : Statement (.accessDecodeError p addr access) :=
  of_none rfl

theorem registerWrite (p : Port) (offset : BitVec 16) (data : Word) : Statement (.registerWrite p offset data) := by
  intro w q b e
  cases e
  simp only [WellFormed, writeHasNoRow] at w
  constructor <;> (intro h; rw [h] at w; exact absurd w (by simp))

theorem commandCodeInvalid (p : Port) (code : BitVec 8) (f : CommandFields) : Statement (.commandCodeInvalid p code f) :=
  of_some rfl (by decide)

theorem openQueue (p : Port) (f : CommandFields) : Statement (.openQueue p f) := of_some rfl (by decide)

theorem modifyQueue (p : Port) (f : CommandFields) : Statement (.modifyQueue p f) := of_some rfl (by decide)

theorem closeQueue (p : Port) (f : CommandFields) : Statement (.closeQueue p f) := of_some rfl (by decide)

theorem queryQueue (p : Port) (f : CommandFields) : Statement (.queryQueue p f) := of_some rfl (by decide)

theorem beginMessage (p : Port) (f : BeginFields) : Statement (.beginMessage p f) := by
  by_cases h : f.part = .second
  · exact of_none (if_pos h)
  · exact of_some (if_neg h) (by decide)

theorem sealMessage (p : Port) (f : CommandFields) : Statement (.sealMessage p f) := of_some rfl (by decide)

theorem abandonMessage (p : Port) (f : CommandFields) : Statement (.abandonMessage p f) := of_some rfl (by decide)

theorem fetchMessage (p : Port) (f : CommandFields) : Statement (.fetchMessage p f) := of_some rfl (by decide)

theorem rewindMessage (p : Port) (f : CommandFields) : Statement (.rewindMessage p f) := of_some rfl (by decide)

theorem releaseMessage (p : Port) (f : CommandFields) : Statement (.releaseMessage p f) := of_some rfl (by decide)

theorem portReset (p : Port) (f : CommandFields) : Statement (.portReset p f) := of_some rfl (by decide)

theorem composeApertureWrite (p : Port) (s : ComposeNo) (word : BitVec 8) (data : Word) : Statement (.composeApertureWrite p s word data) :=
  of_some rfl (by rw [decode_composeAddress]; exact ⟨nofun, nofun⟩)

theorem composeApertureRead (p : Port) (s : ComposeNo) (word : BitVec 8) : Statement (.composeApertureRead p s word) :=
  of_some rfl (by rw [decode_composeAddress]; exact ⟨nofun, nofun⟩)

theorem receiveApertureRead (p : Port) (r : ReceiveNo) (word : BitVec 8) : Statement (.receiveApertureRead p r word) :=
  of_some rfl (by rw [decode_receiveAddress]; exact ⟨nofun, nofun⟩)

theorem receiveApertureWrite (p : Port) (r : ReceiveNo) (word : BitVec 8) (data : Word) : Statement (.receiveApertureWrite p r word data) :=
  of_some rfl (by rw [decode_receiveAddress]; exact ⟨nofun, nofun⟩)

theorem eventHeadRead (p : Port) : Statement (.eventHeadRead p) := of_some rfl (by decide)

theorem eventEnableWrite (p : Port) (data : Word) : Statement (.eventEnableWrite p data) := of_some rfl (by decide)

theorem interruptEnableWrite (p : Port) (data : Word) : Statement (.interruptEnableWrite p data) :=
  of_some rfl (by decide)

theorem i2cIndexByte (addr : BitVec 7) (index : Byte) : Statement (.i2cIndexByte addr index) := of_none rfl

theorem partialWord (start : Option WriteStart) (bytes : WordPart) : Statement (.partialWord start bytes) := of_none rfl

theorem managementUnmappedRead (start : Option (BitVec 7)) (last : Fin 4) : Statement (.managementUnmappedRead start last) :=
  of_none rfl

theorem managementRegisterWrite (start : Option WriteStart) (bytes : WordBytes) : Statement (.managementRegisterWrite start bytes) :=
  of_none rfl

theorem mintNEnableWrite (start : Option WriteStart) (bytes : WordBytes) : Statement (.mintNEnableWrite start bytes) :=
  of_none rfl

theorem managementCodeInvalid (start : Option WriteStart) (code : BitVec 8) (f : MgmtFields) : Statement (.managementCodeInvalid start code f) :=
  of_none rfl

theorem refusedBusy (start : Option WriteStart) (code : BitVec 8) (f : MgmtFields) : Statement (.refusedBusy start code f) :=
  of_none rfl

theorem restartExchange (start : Option WriteStart) (f : MgmtFields) : Statement (.restartExchange start f) :=
  of_none rfl

theorem resetPort (start : Option WriteStart) (f : MgmtFields) : Statement (.resetPort start f) := of_none rfl

theorem fencePort (start : Option WriteStart) (f : MgmtFields) : Statement (.fencePort start f) := of_none rfl

theorem unfencePort (start : Option WriteStart) (f : MgmtFields) : Statement (.unfencePort start f) := of_none rfl

theorem setPartition (start : Option WriteStart) (f : MgmtFields) : Statement (.setPartition start f) := of_none rfl

theorem setPoolMarks (start : Option WriteStart) (f : MgmtFields) : Statement (.setPoolMarks start f) := of_none rfl

theorem setTimeout (start : Option WriteStart) (f : MgmtFields) : Statement (.setTimeout start f) := of_none rfl

theorem setPolicy (start : Option WriteStart) (f : MgmtFields) : Statement (.setPolicy start f) := of_none rfl

theorem ackFault (start : Option WriteStart) (f : MgmtFields) : Statement (.ackFault start f) := of_none rfl

theorem clearCounters (start : Option WriteStart) (f : MgmtFields) : Statement (.clearCounters start f) := of_none rfl

theorem inject (start : Option WriteStart) (f : MgmtFields) : Statement (.inject start f) := of_none rfl

theorem unitBoundary : Statement .unitBoundary := of_none rfl

theorem timerExpiry (p : Port) (s : ComposeNo) : Statement (.timerExpiry p s) := of_none rfl

theorem drainStep (q : QueueNo) : Statement (.drainStep q) := of_none rfl

theorem fenceRequest : Statement .fenceRequest := of_none rfl

theorem stopRequest : Statement .stopRequest := of_none rfl

theorem teardownAbandon (p : Port) : Statement (.teardownAbandon p) := of_none rfl

theorem teardownRelease (p : Port) : Statement (.teardownRelease p) := of_none rfl

theorem teardownClose (p : Port) : Statement (.teardownClose p) := of_none rfl

theorem teardownCloseComplete (p : Port) : Statement (.teardownCloseComplete p) := of_none rfl

theorem teardownEventReset (p : Port) : Statement (.teardownEventReset p) := of_none rfl

theorem teardownEnd (p : Port) : Statement (.teardownEnd p) := of_none rfl

theorem managementRegisterRead (start : Option (BitVec 7)) (last : Fin 4) : Statement (.managementRegisterRead start last) :=
  of_none rfl

end PassesDecode
end Sys2Proof.Laws
end

