-- ==== Sys2Proof/Laws/Seals.lean ====
section
/-!
SUPPORT. The examination of a seal and the seal itself in the words of the statements (R85 to R87), and the records that a taken
BEGIN leaves (R76).
-/
namespace Sys2Proof.Machine.State

/-! ### Admission in the words of the statements -/

theorem admitted_isSome (s : State) (p : Port) (q : QueueNo) : (s.admitted p q).isSome = s.admits p q := by
  unfold admitted admits
  cases s.queue q with
  | closed => rfl
  | live lq =>
    dsimp only
    by_cases h : lq.phase = .opened
    · cases lq.mask.getLsbD p.val <;> simp only [h, true_and, decide_true] <;> rfl
    · rw [if_neg fun k => h k.1, decide_eq_false h]
      rfl

/-- An admitted destination gives its record. -/
theorem admitted_some {s : State} {p : Port} {q : QueueNo} {lq : LiveQueue} (h : s.admitted p q = some lq) :
    s.queue q = .live lq := by
  unfold admitted at h
  cases hq : s.queue q with
  | closed => rw [hq] at h; cases h
  | live x =>
    rw [hq] at h
    dsimp only at h
    split_ifs at h
    cases h
    rfl

theorem atLimit_of_live {s : State} {q : QueueNo} {lq : LiveQueue} (h : s.queue q = .live lq) :
    lq.atLimit = s.limitReached q := by
  unfold limitReached
  rw [h]
  rfl

theorem refuses_of_live {s : State} {q : QueueNo} {lq : LiveQueue} (h : s.queue q = .live lq) :
    decide (lq.policy = .refuse) = s.refusesFull q := by
  unfold refusesFull
  rw [h]

theorem cut_of_live {s : State} {q : QueueNo} {lq : LiveQueue} (h : s.queue q = .live lq) :
    decide (lq.mode = .cut) = s.isCut q := by
  unfold isCut
  rw [h]

/-! ### The lists of an examination -/

/-- The destinations of a list that receive a node. -/
theorem roomDests_admitted (s : State) (p : Port) (l : List (Nat × QueueNo)) :
    roomDests (s.admittedDests p l) = (l.map (·.2)).filter fun q => s.admits p q && !s.limitReached q := by
  induction l with
  | nil => rfl
  | cons x l ih =>
    unfold roomDests admittedDests at *
    rw [List.filterMap_cons, List.map_cons, List.filter_cons, ← admitted_isSome]
    cases h : s.admitted p x.2 with
    | none => simpa using ih
    | some lq =>
      have hl := atLimit_of_live (admitted_some h)
      cases hb : s.limitReached x.2 <;> simp [hl, hb, ih]

/-- The destinations of a list that are dropped as full. -/
theorem fullDests_admitted (s : State) (p : Port) (l : List (Nat × QueueNo)) :
    fullDests (s.admittedDests p l) = (l.map (·.2)).filter fun q => s.admits p q && s.limitReached q := by
  induction l with
  | nil => rfl
  | cons x l ih =>
    unfold fullDests admittedDests at *
    rw [List.filterMap_cons, List.map_cons, List.filter_cons, ← admitted_isSome]
    cases h : s.admitted p x.2 with
    | none => simpa using ih
    | some lq =>
      have hl := atLimit_of_live (admitted_some h)
      cases hb : s.limitReached x.2 <;> simp [hl, hb, ih]

theorem closedDests_eq (s : State) (p : Port) (l : List (Nat × QueueNo)) :
    s.closedDests p l = (l.map (·.2)).filter fun q => !s.admits p q := by
  induction l with
  | nil => rfl
  | cons x l ih =>
    unfold closedDests at *
    rw [List.filter_cons, List.map_cons, List.filter_cons, ← admitted_isSome]
    cases h : s.admitted p x.2 <;> simp [ih]

/-- The first destination on which a seal is refused REFUSED_FULL. -/
theorem fullPosition_admitted (s : State) (p : Port) (l : List (Nat × QueueNo)) :
    fullPosition (s.admittedDests p l) =
      (l.find? fun x => s.admits p x.2 && s.refusesFull x.2 && s.limitReached x.2).map (·.1) := by
  induction l with
  | nil => rfl
  | cons x l ih =>
    unfold fullPosition admittedDests at *
    rw [List.filterMap_cons, List.find?_cons, ← admitted_isSome]
    cases h : s.admitted p x.2 with
    | none => simpa using ih
    | some lq =>
      have hl := atLimit_of_live (admitted_some h)
      have hr := refuses_of_live (admitted_some h)
      simp only [Option.map_some, List.find?_cons, hl, hr, Option.isSome_some, Bool.true_and]
      cases hb : (s.refusesFull x.2 && s.limitReached x.2)
      · simpa using ih
      · rfl

theorem zipIdx_filter_queues (l : List Destination) (n : Nat) :
    (((l.zipIdx n).filter fun t => t.1.disposition = .pending).map fun t => (t.2, t.1.queue)).map (·.2) =
      (l.filter fun x => decide (x.disposition = .pending)).map (·.queue) := by
  induction l generalizing n with
  | nil => rfl
  | cons x l ih =>
    rw [List.zipIdx_cons, List.filter_cons, List.filter_cons]
    by_cases h : x.disposition = .pending
    · simp only [h, decide_true, if_true, List.map_cons]
      exact congrArg _ (ih (n + 1))
    · simp only [h, decide_false, Bool.false_eq_true, if_false]
      exact ih (n + 1)

theorem pendingDests_queues (m : Message) :
    m.pendingDests.map (·.2) = (m.dests.filter fun x => decide (x.disposition = .pending)).map (·.queue) :=
  zipIdx_filter_queues m.dests 0

/-- The destinations that a seal links. -/
theorem roomDests_sealRoom (s : State) (p : Port) (m : Message) :
    roomDests (s.admittedDests p m.pendingDests) = s.sealRoom p m := by
  rw [roomDests_admitted, pendingDests_queues]
  rfl

/-- A list without a destination that refuses a seal. -/
theorem zipIdx_find_none (s : State) (p : Port) (l : List Destination) (n : Nat)
    (h : ∀ x ∈ l, s.sealStops p x = false) :
    ((((l.zipIdx n).filter fun t => t.1.disposition = .pending).map fun t => (t.2, t.1.queue)).find? fun x =>
      s.admits p x.2 && s.refusesFull x.2 && s.limitReached x.2) = none := by
  induction l generalizing n with
  | nil => rfl
  | cons x l ih =>
    have hx := h x List.mem_cons_self
    have hl := ih (n + 1) fun y hy => h y (List.mem_cons_of_mem _ hy)
    rw [List.zipIdx_cons, List.filter_cons]
    by_cases hp : x.disposition = .pending
    · simp only [sealStops, hp, decide_true, Bool.true_and] at hx
      simp only [hp, decide_true, if_true, List.map_cons, List.find?_cons, hx]
      exact hl
    · simp only [hp, decide_false, Bool.false_eq_true, if_false]
      exact hl

/-- The position of the first destination that refuses a seal. -/
theorem zipIdx_find_some (s : State) (p : Port) (l : List Destination) (n pos : Nat) (x : Destination)
    (hx : l[pos]? = some x) (hs : s.sealStops p x = true)
    (hb : ∀ i, i < pos → ∀ e, l[i]? = some e → s.sealStops p e = false) :
    (((((l.zipIdx n).filter fun t => t.1.disposition = .pending).map fun t => (t.2, t.1.queue)).find? fun x =>
      s.admits p x.2 && s.refusesFull x.2 && s.limitReached x.2).map (·.1)) = some (n + pos) := by
  induction l generalizing n pos with
  | nil => simp at hx
  | cons y l ih =>
    rw [List.zipIdx_cons, List.filter_cons]
    cases pos with
    | zero =>
      simp only [List.getElem?_cons_zero, Option.some.injEq] at hx
      subst hx
      simp only [sealStops, Bool.and_eq_true, decide_eq_true_eq] at hs
      obtain ⟨⟨⟨h1, h2⟩, h3⟩, h4⟩ := hs
      simp [h1, h2, h3, h4]
    | succ pos =>
      simp only [List.getElem?_cons_succ] at hx
      have h0 := hb 0 (by omega) y rfl
      have hl := ih (n + 1) pos hx fun i hi e he => hb (i + 1) (by omega) e (by simpa using he)
      rw [show n + 1 + pos = n + (pos + 1) by omega] at hl
      by_cases hp : y.disposition = .pending
      · simp only [sealStops, hp, decide_true, Bool.true_and] at h0
        simp only [hp, decide_true, if_true, List.map_cons, List.find?_cons, h0]
        exact hl
      · simp only [hp, decide_false, Bool.false_eq_true, if_false]
        exact hl

theorem fullPosition_none {s : State} {p : Port} {m : Message} (h : ∀ x ∈ m.dests, s.sealStops p x = false) :
    fullPosition (s.admittedDests p m.pendingDests) = none := by
  rw [fullPosition_admitted, Message.pendingDests, zipIdx_find_none s p m.dests 0 h]
  rfl

theorem fullPosition_some {s : State} {p : Port} {m : Message} {pos : Nat} {x : Destination}
    (hx : m.dests[pos]? = some x) (hs : s.sealStops p x = true)
    (hb : ∀ i, i < pos → ∀ e, m.dests[i]? = some e → s.sealStops p e = false) :
    fullPosition (s.admittedDests p m.pendingDests) = some pos := by
  rw [fullPosition_admitted, Message.pendingDests, zipIdx_find_some s p m.dests 0 pos x hx hs hb, Nat.zero_add]

/-! ### The examination (R85) -/

theorem examine_stops {s : State} {p : Port} {m : Message} {pos : Nat} {x : Destination} (d : DescNo)
    (hx : m.dests[pos]? = some x) (hs : s.sealStops p x = true)
    (hb : ∀ i, i < pos → ∀ e, m.dests[i]? = some e → s.sealStops p e = false) :
    s.examine p d m = (s, .refused .refusedFull (some pos)) := by
  simp only [examine, fullPosition_some hx hs hb]

theorem examine_few {s : State} {p : Port} {m : Message} (d : DescNo) (h : ∀ x ∈ m.dests, s.sealStops p x = false)
    (hf : s.pool.freeNodes < (s.sealRoom p m).length) : s.examine p d m = (s, .refused .refusedNoNode none) := by
  simp only [examine, fullPosition_none h, roomDests_sealRoom, if_pos hf]

theorem examine_truncated {s s1 : State} {p : Port} {m : Message} (d : DescNo)
    (h : ∀ x ∈ m.dests, s.sealStops p x = false) (hf : (s.sealRoom p m).length ≤ s.pool.freeNodes)
    (ha : s.allocateNodes p (s.sealRoom p m).length = (s1, none)) :
    s.examine p d m = (s1, .refused .refusedNoNode none) := by
  simp only [examine, fullPosition_none h, roomDests_sealRoom, if_neg (not_lt.mpr hf), ha]

theorem examine_passes {s s1 : State} {p : Port} {m : Message} {ns : List NodeNo} (d : DescNo)
    (h : ∀ x ∈ m.dests, s.sealStops p x = false) (hf : (s.sealRoom p m).length ≤ s.pool.freeNodes)
    (ha : s.allocateNodes p (s.sealRoom p m).length = (s1, some ns)) :
    s.examine p d m = (((s1.appendAll d (s.sealRoom p m) ns).disposeAll d .droppedClosed
      (s.closedDests p m.pendingDests)).disposeAll d .droppedFull (fullDests (s.admittedDests p m.pendingDests)),
        .passed) := by
  simp only [examine, fullPosition_none h, roomDests_sealRoom, if_neg (not_lt.mpr hf), ha]

/-! ### The destinations that a seal resolves (R85, R87) -/

/-- The record of a destination that a seal has resolved. -/
def resolved (s : State) (p : Port) (x : Destination) : Destination :=
  if x.disposition ≠ .pending then x
  else if !s.admits p x.queue then { x with disposition := .droppedClosed }
  else if s.limitReached x.queue then { x with disposition := .droppedFull }
  else { x with disposition := .linked }

theorem eq_of_queue {l : List Destination} (h : (l.map (·.queue)).Nodup) {x y : Destination} (hx : x ∈ l) (hy : y ∈ l)
    (k : x.queue = y.queue) : x = y := List.inj_on_of_nodup_map h hx hy k

/-- A queue stands among the pending ones only for its own destination. -/
theorem mem_pending {m : Message} (hn : (m.dests.map (·.queue)).Nodup) {x : Destination} (hx : x ∈ m.dests)
    (P : QueueNo → Bool) :
    x.queue ∈ (((m.dests.filter fun x => decide (x.disposition = .pending)).map (·.queue)).filter P) ↔
      x.disposition = .pending ∧ P x.queue = true := by
  simp only [List.mem_filter, List.mem_map, decide_eq_true_eq]
  constructor
  · rintro ⟨⟨y, ⟨hy, hd⟩, hq⟩, hP⟩
    rw [eq_of_queue hn hy hx hq] at hd
    exact ⟨hd, hP⟩
  · rintro ⟨hd, hP⟩
    exact ⟨⟨x, ⟨hx, hd⟩, rfl⟩, hP⟩

/-- The appends and the two rounds of drops resolve every destination. -/
theorem dests_resolved (s : State) (p : Port) (m : Message) (hn : (m.dests.map (·.queue)).Nodup) :
    ((m.dests.map fun t => if t.queue ∈ s.sealRoom p m then { t with disposition := .linked } else t).map fun t =>
        if t.queue ∈ s.closedDests p m.pendingDests then { t with disposition := .droppedClosed } else t).map (fun t =>
      if t.queue ∈ fullDests (s.admittedDests p m.pendingDests) then { t with disposition := .droppedFull } else t) =
      m.dests.map (s.resolved p) := by
  rw [List.map_map, List.map_map, closedDests_eq, fullDests_admitted, pendingDests_queues]
  apply List.map_congr_left
  intro x hx
  have h1 := mem_pending hn hx fun q => s.admits p q && !s.limitReached q
  have h2 := mem_pending hn hx fun q => !s.admits p q
  have h3 := mem_pending hn hx fun q => s.admits p q && s.limitReached q
  simp only [Function.comp_apply, sealRoom, resolved]
  by_cases hd : x.disposition = .pending
  · simp only [hd, true_and] at h1 h2 h3
    by_cases ha : s.admits p x.queue = true <;> by_cases hl : s.limitReached x.queue = true <;>
      simp [h1, h2, h3, hd, ha, hl]
  · simp only [hd, false_and, iff_false] at h1 h2 h3
    simp [h1, h2, h3, hd]

theorem resolved_queue (s : State) (p : Port) (x : Destination) : (s.resolved p x).queue = x.queue := by
  unfold resolved
  split_ifs <;> rfl

/-- The number of destinations a seal leaves LINKED. -/
theorem linkedCount_resolved (s : State) (p : Port) (m : Message) :
    ((m.dests.map (s.resolved p)).filter fun x => decide (x.disposition = .linked)).length =
      m.linkedWith (s.sealRoom p m) := by
  unfold Message.linkedWith sealRoom
  induction m.dests with
  | nil => rfl
  | cons x l ih =>
    simp only [List.map_cons, List.filter_cons, resolved]
    by_cases hd : x.disposition = .pending
    · by_cases ha : s.admits p x.queue = true <;> by_cases hl : s.limitReached x.queue = true <;>
        simp [hd, ha, hl] <;> omega
    · by_cases hk : x.disposition = .linked <;> simp [hd, hk] <;> omega

/-- The number of destinations a seal leaves dropped. -/
theorem droppedCount_resolved (s : State) (p : Port) (m : Message) :
    ((m.dests.map (s.resolved p)).filter fun x => decide (x.disposition = .droppedFull)).length +
      ((m.dests.map (s.resolved p)).filter fun x => decide (x.disposition = .droppedClosed)).length =
      m.droppedWith (s.sealRoom p m) := by
  unfold Message.droppedWith sealRoom
  simp only [Bool.decide_or]
  have room_le : ∀ l : List Destination, (((l.filter fun x => decide (x.disposition = .pending)).map (·.queue)).filter
      fun q => s.admits p q && !s.limitReached q).length ≤
        (l.filter fun x => decide (x.disposition = .pending)).length := fun l => by
    refine (List.length_filter_le _ _).trans ?_
    rw [List.length_map]
  induction m.dests with
  | nil => rfl
  | cons x l ih =>
    have hle := room_le l
    simp only [List.map_cons, List.filter_cons, resolved]
    by_cases hd : x.disposition = .pending
    · by_cases ha : s.admits p x.queue = true <;> by_cases hl : s.limitReached x.queue = true <;>
        simp [hd, ha, hl] <;> omega
    · cases hk : x.disposition <;> simp [hk] at hd <;> simp [hk] <;> omega

/-! ### What a freeing reads of the state before -/

/-- A freeing in the words of another state before, where pool, cell links, arm and shares agree. -/
theorem recovered_congr {s v t : State} {m m' : Message} (hp : v.pool = s.pool) (hl : v.cellLinks = s.cellLinks)
    (ha : v.arm = s.arm) (hs : v.shares = s.shares) (hm : m'.cells = m.cells ∧ m'.linkBroken = m.linkBroken ∧
      m'.first = m.first ∧ m'.last = m.last ∧ m'.port = m.port) (h : Recovered v t m') : Recovered s t m := by
  obtain ⟨h1, h2, h3, h4, h5⟩ := hm
  have hsp : m'.splices = m.splices := by simp only [Message.splices, h1, h2, h3, h4]
  have hw : ∀ x, v.cellLinkWord x = s.cellLinkWord x := fun x => by rw [cellLinkWord, cellLinkWord, hl]
  have hi : injected v .cellLink = injected s .cellLink := by rw [injected, injected, ha]
  have hsh : ∀ q, v.share q = s.share q := fun q => share_of_shares hs q
  unfold Recovered at *
  simpa only [hsp, h1, h3, h4, h5, hp, hl, hw, hi, hsh] using h

theorem freeingEntries_congr {s v t : State} {m m' : Message} (hp : v.pool = s.pool) (hs : v.shares = s.shares)
    (hm : m'.cells = m.cells ∧ m'.linkBroken = m.linkBroken ∧ m'.first = m.first ∧ m'.last = m.last) :
    freeingEntries v t m' = freeingEntries s t m := by
  obtain ⟨h1, h2, h3, h4⟩ := hm
  have hsp : m'.splices = m.splices := by simp only [Message.splices, h1, h2, h3, h4]
  funext q
  simp only [freeingEntries, hsp, hp, share_of_shares hs q]

/-- Two rounds of arrivals. -/
theorem eventsSent_trans {s u t : State} {a b : Port → List EventEntry} (h : EventsSent s u a) (k : EventsSent u t b) :
    EventsSent s t fun q => a q ++ b q := fun q => by
  show t.event q = _
  rw [k q, h q, List.foldl_append]

theorem eventsSent_of_events {s t : State} (h : t.events = s.events) : EventsSent s t fun _ => [] := fun q =>
  event_of_events h q

/-! ### Letting go of a descriptor (R21, R22) -/

/-- The decrement of a holder, in the words of the statements. -/
theorem dropHolder_spec {s : State} {d : DescNo} {m : Message} (w : s.memoriesWf = true) (h : s.desc d = .live m)
    (k : 1 ≤ m.holders) :
    (m.holders ≠ 1 → s.dropHolder d = s.setDesc d (.live { m with holders := m.holders - 1 })) ∧
    (m.holders = 1 → Freed s (s.dropHolder d) d m ∧ Recovered s (s.dropHolder d) m ∧
      SameNodeList s (s.dropHolder d)) ∧
    EventsSent s (s.dropHolder d) (dropEntries s (s.dropHolder d) m) ∧
    SameOtherDescriptors s (s.dropHolder d) d ∧
    (s.dropHolder d).holders d = m.holders - 1 := by
  by_cases h1 : m.holders = 1
  · have e := dropHolder_of_one h h1
    have f := s.freeDescriptor_effect (wf_descriptors w) d m
    obtain ⟨r, ev, nl⟩ := s.freeDescriptor_recovered (wf_cellLinks w) d m
    rw [e]
    refine ⟨fun j => absurd h1 j, fun _ => ⟨f.1, r, nl⟩, ?_, f.2.1, ?_⟩
    · intro q
      rw [dropEntries, if_pos h1]
      exact ev q
    · rw [holders_of_free f.1.1, h1]
  · have e := dropHolder_of_many h (by omega)
    have hd : (s.dropHolder d).desc d = .live { m with holders := m.holders - 1 } := by
      rw [e, desc_setDesc _ (wf_descriptors w), if_pos rfl]
    refine ⟨fun _ => e, fun j => absurd j h1, fun q => ?_, fun x hx => by rw [e, desc_setDesc_ne _ hx], ?_⟩
    · rw [dropEntries, if_neg h1, e]
      rfl
    · rw [holders_of_live hd]

/-! ### The seal that succeeds (R85 to R87) -/

/-- A seal whose examination passed, in the words of the statements. -/
theorem sealSlot_sealed {s s1 : State} {p : Port} {c : ComposeNo} {k : Composing} {m : Message} {n : Nat}
    {ns : List NodeNo} (w : s.memoriesWf = true) (hm : s.desc k.desc = .live m) (hn : (m.dests.map (·.queue)).Nodup)
    (hh : 1 ≤ m.holders) (hs : ∀ x ∈ m.dests, s.sealStops p x = false)
    (hf : (s.sealRoom p m).length ≤ s.pool.freeNodes)
    (ha : s.allocateNodes p (s.sealRoom p m).length = (s1, some ns)) :
    let o := s.sealSlot p c k m n
    Sealed s s1 o.state p c k m n ns ∧ EventsSent s o.state (sealEntries s o.state p m) ∧ o.outcome = .passed ∧
      o.message.linkedCount = m.linkedWith (s.sealRoom p m) ∧ o.message.droppedCount = m.droppedWith (s.sealRoom p m) ∧
      o.message.poison = m.poison ∧ o.message.tag = m.tag ∧
      o.state.holders k.desc = m.holders + (s.sealRoom p m).length - 1 ∧
      o.state.integrity = s1.integrity ∧ o.state.fronts = s.fronts ∧ SameControl s o.state := by
  intro o
  obtain ⟨ml, it, pl, e1⟩ := s.allocateNodes_some_footprint p _ ha
  have w1 : s1.memoriesWf = true := by
    have := (Quiet.allocateNodes .refl p (s.sealRoom p m).length).memoriesWf w
    rwa [ha] at this
  have hm1 : s1.desc k.desc = .live m := by rw [e1]; exact hm
  have hroom : (s.sealRoom p m).Nodup := by
    refine List.Nodup.filter _ (List.Nodup.sublist ?_ hn)
    exact (List.filter_sublist).map _
  have hlive : ∀ q ∈ s.sealRoom p m, s1.queue q ≠ .closed := by
    intro q hq k
    have : s.admits p q = true := by
      simp only [sealRoom, List.mem_filter, Bool.and_eq_true] at hq
      exact hq.2.1
    rw [e1] at k
    unfold admits at this
    rw [show s.queue q = .closed from k] at this
    cases this
  have hlen := allocateNodes_length ha
  obtain ⟨b1, b2, -, -, -, -, w2⟩ := appendAll_effect (s.sealRoom p m) ns w1 hm1 hroom hlen hlive
  obtain ⟨⟨L1, L2, L3, L4, Lw, L5, L6⟩, Lev⟩ := appendAll_linked (s.sealRoom p m) ns w1 hm1 hroom hlen hlive
  have Lin := appendAll_taken k.desc (s.sealRoom p m) ns hlen hroom hlive w1
  obtain ⟨c2, m2, x2, y2, qt2, ds2, ev2, e2⟩ := s1.appendAll_footprint k.desc (s.sealRoom p m) ns
  generalize hu : s1.appendAll k.desc (s.sealRoom p m) ns = u at *
  -- the drops
  obtain ⟨d1, d2, d3⟩ := disposeAll_effect .droppedClosed (s.closedDests p m.pendingDests) (wf_descriptors w2) b1
  obtain ⟨f1, f2, f3⟩ := disposeAll_effect .droppedFull (fullDests (s.admittedDests p m.pendingDests)) d3 d1
  have g1 := State.disposeAll_footprint u k.desc .droppedClosed (s.closedDests p m.pendingDests)
  have g2 := State.disposeAll_footprint (u.disposeAll k.desc .droppedClosed (s.closedDests p m.pendingDests)) k.desc
    .droppedFull (fullDests (s.admittedDests p m.pendingDests))
  have hex := examine_passes (d := k.desc) hs hf ha
  rw [hu] at hex
  have hres := dests_resolved s p m hn
  generalize hv : (u.disposeAll k.desc .droppedClosed (s.closedDests p m.pendingDests)).disposeAll k.desc .droppedFull
    (fullDests (s.admittedDests p m.pendingDests)) = v at *
  dsimp only at f1
  rw [hres] at f1
  obtain ⟨dsv, ev⟩ : ∃ ds, v = { u with descriptors := ds } := by
    obtain ⟨a, ea⟩ := g1
    obtain ⟨b, eb⟩ := g2
    exact ⟨b, by rw [eb, ea]⟩
  have wv : v.memoriesWf = true := by
    rw [← hv]
    exact (Quiet.disposeAll _ _ _ (Quiet.disposeAll _ _ _ .refl)).memoriesWf w2
  -- the sealed message and the slot
  let ms : Message := { m with
    state := .isSealed, final := some n, holders := m.holders + (s.sealRoom p m).length
    dests := m.dests.map (s.resolved p) }
  let z := (v.updMessage k.desc fun x => { x with state := .isSealed, final := some n }).idleSlot p c
  have hz : z.desc k.desc = .live ms := by
    have := desc_updMessage (wf_descriptors wv) f1 fun x => { x with state := .isSealed, final := some n }
    exact this
  have wz : z.memoriesWf = true := ((Quiet.updMessage .refl _ _).idleSlot p c).memoriesWf wv
  have ez : z = { v with descriptors := z.descriptors, compose := z.compose } := by
    obtain ⟨x, ex⟩ := v.updMessage_footprint k.desc fun x => { x with state := .isSealed, final := some n }
    simp only [z, ex]
    rfl
  have eo : o = ⟨z.dropHolder k.desc, ms, .passed⟩ := by
    have hmo : (v.updMessage k.desc fun x => { x with state := .isSealed, final := some n }).messageOf k.desc = ms :=
      messageOf_of_live hz
    simp only [o, sealSlot, hex, hmo]
    rfl
  obtain ⟨k1, k2, k3, k4, k5⟩ := dropHolder_spec wz hz (show 1 ≤ ms.holders by simp only [ms]; omega)
  obtain ⟨l, x3, y3, pl3, sh3, ds3, ev3, e3⟩ := z.dropHolder_footprint k.desc
  have hslot : z.compose = s.compose.set p ((s.compose.get p).set c { s.composeSlot p c with phase := .idle }) := by
    obtain ⟨x, ex⟩ := v.updMessage_footprint k.desc fun x => { x with state := .isSealed, final := some n }
    have hc : (v.updMessage k.desc fun x => { x with state := .isSealed, final := some n }).compose = s.compose := by
      rw [ex, ev, e2, e1]
    show (State.idleSlot _ p c).compose = _
    simp only [idleSlot, setComposeSlot, composeSlot, hc]
  have other : ∀ e, e ≠ k.desc → z.desc e = s.desc e := fun e he => by
    have a1 : z.desc e = v.desc e := by
      show (v.updMessage k.desc _).desc e = _
      exact desc_updMessage_ne _ he _
    rw [a1, f2 e he, d2 e he, b2 e he, e1]
    rfl
  -- fields of z in terms of s1 and s
  have zq : z.queues = u.queues := by rw [ez, ev]
  have zc : z.nodeContents = u.nodeContents := by rw [ez, ev]
  have zn : z.nodeLinks = u.nodeLinks := by rw [ez, ev]
  have za : z.arm = u.arm := by rw [ez, ev]
  have zi : z.lastInjection = u.lastInjection := by rw [ez, ev]
  have zp : z.pool = s1.pool := by rw [ez, ev, e2]
  have zl : z.cellLinks = s.cellLinks := by rw [ez, ev, e2, e1]
  have zs : z.shares = s.shares := by rw [ez, ev, e2, e1]
  have ze : z.events = u.events := by rw [ez, ev]
  have zt : z.integrity = s1.integrity := by rw [ez, ev, e2]
  have ux : s1.queues = s.queues ∧ s1.nodeContents = s.nodeContents ∧ s1.arm = s.arm ∧
      s1.lastInjection = s.lastInjection ∧ s1.events = s.events := by rw [e1]; exact ⟨rfl, rfl, rfl, rfl, rfl⟩
  obtain ⟨uq, uc, ua, ui, ue⟩ := ux
  -- the case of no other holder
  have lone : m.holders + (s.sealRoom p m).length = 1 → s1 = s ∧ ns = [] ∧ s.sealRoom p m = [] := fun h => by
    have h0 : (s.sealRoom p m).length = 0 := by omega
    have h2 : s.sealRoom p m = [] := List.length_eq_zero_iff.mp h0
    rw [h0] at ha
    have : s.allocateNodes p 0 = (s, some []) := rfl
    rw [this] at ha
    cases ha
    exact ⟨rfl, rfl, h2⟩
  have hqu : ∀ q x, s1.queueWith q x = s.queueWith q x := fun q x => queueWith_of_queue (queue_of_queues uq q) x
  have hlt : ∀ q, s1.listTail q = s.listTail q := fun q => listTail_of_queue (queue_of_queues uq q)
  rw [eo]
  dsimp only
  refine ⟨⟨?_, ?_, ?_, ?_, ⟨?_, ?_, ?_, ?_, ?_, ?_, ?_⟩, ?_, ?_, ?_, ?_⟩, ?_, rfl, ?_, ?_, rfl, rfl, k5, ?_, ?_, ?_⟩
  · show (z.dropHolder k.desc).composeSlot p c = _
    rw [composeSlot_of_compose (s := z) (by rw [e3]), composeSlot, hslot]
    simp
  · intro q e he
    rw [composeSlot_of_compose (s := z) (by rw [e3]), composeSlot, hslot]
    exact composeSlot_setComposeSlot_ne s he _
  · intro h
    have e4 := k1 (show ms.holders ≠ 1 from h)
    refine ⟨?_, ?_, ?_, ?_⟩
    · rw [e4, desc_setDesc _ (wf_descriptors wz), if_pos rfl]
      rfl
    · rw [e4]; exact zp
    · rw [e4]; exact zs
    · rw [e4]; exact zl
  · intro h
    obtain ⟨hs1, hns, hr⟩ := lone h
    obtain ⟨⟨g1, g2, g3⟩, r, nl⟩ := k2 (show ms.holders = 1 from h)
    have zpool : z.pool = s.pool := by rw [zp, hs1]
    have zarm : z.arm = s.arm := by
      rw [za, ← ua, ← hu, hns, hr]
      unfold appendAll
      rfl
    refine ⟨⟨g1, by rw [g2, zpool], ?_⟩, recovered_congr zpool zl zarm zs ⟨rfl, rfl, rfl, rfl, rfl⟩ r, ?_⟩
    · rw [← share_of_shares (s := s) zs]
      exact g3
    · unfold SameNodeList at *
      rw [zpool] at nl
      exact nl
  · intro i q x hi hx
    rw [queue_of_queues (s := u) (by rw [e3]; exact zq), L1 i q x hi hx, hqu]
  · intro q hq
    rw [queue_of_queues (s := u) (by rw [e3]; exact zq), L2 q hq, queue_of_queues uq]
  · intro x hx
    rw [show (z.dropHolder k.desc).contentWord x = u.contentWord x by rw [contentWord, contentWord, e3]; exact by rw [zc]]
    exact L3 x hx
  · intro x hx
    rw [show (z.dropHolder k.desc).contentWord x = u.contentWord x by rw [contentWord, contentWord, e3]; exact by rw [zc],
      L4 x hx, contentWord, uc]
    rfl
  · intro hnd i x hx
    rw [show (z.dropHolder k.desc).contentWord x = u.contentWord x by rw [contentWord, contentWord, e3]; exact by rw [zc],
      Lw hnd i x hx, injected, injected, ua]
  · intro h1 h2 h3
    have hw : ∀ x, (z.dropHolder k.desc).nodeLinkWord x = u.nodeLinkWord x := fun x => by
      rw [nodeLinkWord, nodeLinkWord, e3]
      exact by rw [zn]
    obtain ⟨i1, i2⟩ := L5 h1 (fun q hq tl k => h2 q hq tl (by rw [← hlt]; exact k))
      (fun q hq e he j tl k => by rw [hlt]; exact h3 q hq e he j tl (by rw [← hlt]; exact k))
    exact ⟨fun x hx => by rw [hw]; exact i1 x hx,
      fun i q x tl hi hx k => by rw [hw]; exact i2 i q x tl hi hx (by rw [hlt]; exact k)⟩
  · intro x hx hq
    rw [show (z.dropHolder k.desc).nodeLinkWord x = u.nodeLinkWord x by
      rw [nodeLinkWord, nodeLinkWord, e3]; exact by rw [zn]]
    exact L6 x hx fun q hq2 => by rw [hlt]; exact hq q hq2
  · have d1 : InjectionTaken s z (appendWrites ns) := Lin.congr ⟨ua.symm, ui.symm⟩ ⟨za, zi⟩
    have d2 := d1.trans (dropHolder_taken (wf_descriptors wz) hz)
    refine d2.congr_writes fun x => ?_
    congr 1
    cases x
    · rfl
    · show (if m.holders + (s.sealRoom p m).length = 1 then _ else _) =
        if m.holders + (s.sealRoom p m).length = 1 then _ else _
      split_ifs with h
      · have : z.pool = s.pool := by rw [zp, (lone h).1]
        have tail : z.spliceTail ms = s.spliceTail m := by
          show (if m.splices = true then z.pool.cellTail else none) = if m.splices = true then s.pool.cellTail else none
          rw [this]
        rw [tail]
      · rfl
    · rfl
  · intro e he
    rw [k4 e he, other e he]
  · rw [e3]
    show z.payload = _
    rw [ez, ev, e2, e1]
  · rw [e3]
    show z.receive = _
    rw [ez, ev, e2, e1]
  · by_cases h : m.holders + (s.sealRoom p m).length = 1
    · obtain ⟨hs1, hns, hr⟩ := lone h
      intro q
      have zev : z.event q = s.event q := by
        refine event_of_events ?_ q
        rw [ze, ← ue, ← hu, hns, hr]
        unfold appendAll
        rfl
      have := k3 q
      rw [zev, dropEntries, if_pos (show ms.holders = 1 from h)] at this
      rw [this, sealEntries, if_pos h]
      rw [freeingEntries_congr (s := s) (t := z.dropHolder k.desc) (m := m) (m' := ms) (by rw [zp, hs1]) zs ⟨rfl, rfl, rfl, rfl⟩]
    · intro q
      rw [k1 (show ms.holders ≠ 1 from h), sealEntries, if_neg h]
      have zev : z.event q = u.event q := event_of_events ze q
      show z.event q = _
      rw [zev, Lev q, readyEntries_of_queue (s := s) (fun x _ => queue_of_queues uq x), event_of_events ue]
  · exact linkedCount_resolved s p m
  · exact droppedCount_resolved s p m
  · rw [e3]
    exact zt
  · rw [e3]
    show z.fronts = _
    rw [ez, ev, e2, e1]
  · unfold SameControl
    rw [e3]
    show z.resetAsserted = _ ∧ z.ma = _ ∧ z.exchange = _ ∧ z.ports = _ ∧ z.timeouts = _ ∧ z.mint = _ ∧ z.mgmt = _ ∧
      z.pending = _
    rw [ez, ev, e2, e1]
    exact ⟨rfl, rfl, rfl, rfl, rfl, rfl, rfl, rfl⟩

end Sys2Proof.Machine.State
end

