-- ==== Sys2Proof/Laws/Views.lean ====
section
/-!
SUPPORT. What the fields of a packed word read, and what the bytes of a management word carry: the register views and the
transactions are read through these lemmas.
-/
namespace Sys2Proof.Machine

/-! ### Fields of a word -/

/-- A field of a word, bit by bit. -/
theorem testBit_bits (w : Word) (lo k i : Nat) : (bits w lo k).testBit i = (decide (i < k) && w.getLsbD (lo + i)) := by
  unfold bits
  rw [Nat.testBit_mod_two_pow, Nat.testBit_div_two_pow, BitVec.getLsbD, Nat.add_comm]

/-- A packed word, bit by bit: its first field, or the rest. -/
theorem getLsbD_pack_cons (lo k v i : Nat) (fs : List (Nat × Nat × Nat)) (hi : i < 32) :
    (pack ((lo, k, v) :: fs)).getLsbD i = ((decide (lo ≤ i ∧ i < lo + k) && v.testBit (i - lo)) || (pack fs).getLsbD i) := by
  show (BitVec.ofNat 32 (v % 2 ^ k * 2 ^ lo) ||| pack fs).getLsbD i = _
  rw [BitVec.getLsbD_or, BitVec.getLsbD_ofNat, Nat.testBit_mul_two_pow, Nat.testBit_mod_two_pow]
  by_cases h1 : lo ≤ i
  · have h2 : (i - lo < k) ↔ (i < lo + k) := by omega
    simp [h1, h2, hi]
  · simp [h1]

/-- No field of the list reaches the bits lo to lo + k - 1. -/
def apart (lo k : Nat) : List (Nat × Nat × Nat) → Bool
  | [] => true
  | f :: fs => (decide (f.1 + f.2.1 ≤ lo) || decide (lo + k ≤ f.1)) && apart lo k fs

theorem getLsbD_pack_apart {lo k i : Nat} (hi : lo ≤ i) (hk : i < lo + k) (h32 : i < 32) :
    ∀ fs, apart lo k fs = true → (pack fs).getLsbD i = false
  | [], _ => by show (0 : Word).getLsbD i = false; simp
  | (a, b, v) :: fs, h => by
    simp only [apart, Bool.and_eq_true, Bool.or_eq_true, decide_eq_true_eq] at h
    rw [getLsbD_pack_cons _ _ _ _ _ h32, getLsbD_pack_apart hi hk h32 fs h.2]
    have : ¬(a ≤ i ∧ i < a + b) := by omega
    simp [this]

/-- The first field of a packed word reads its value, cut to its width. -/
theorem bits_pack_here (lo k v : Nat) (fs : List (Nat × Nat × Nat)) (h : apart lo k fs = true) (h32 : lo + k ≤ 32) :
    bits (pack ((lo, k, v) :: fs)) lo k = v % 2 ^ k := by
  refine Nat.eq_of_testBit_eq fun i => ?_
  rw [testBit_bits, Nat.testBit_mod_two_pow]
  by_cases hi : i < k
  · rw [getLsbD_pack_cons _ _ _ _ _ (by omega), getLsbD_pack_apart (by omega) (by omega) (by omega) fs h]
    have : lo ≤ lo + i ∧ lo + i < lo + k := by omega
    simp [hi, this]
  · simp [hi]

/-- A field beside the first one is read from the rest of the word. -/
theorem bits_pack_skip (a b v lo k : Nat) (fs : List (Nat × Nat × Nat)) (h : a + b ≤ lo ∨ lo + k ≤ a) (h32 : lo + k ≤ 32) :
    bits (pack ((a, b, v) :: fs)) lo k = bits (pack fs) lo k := by
  refine Nat.eq_of_testBit_eq fun i => ?_
  rw [testBit_bits, testBit_bits]
  by_cases hi : i < k
  · rw [getLsbD_pack_cons _ _ _ _ _ (by omega)]
    have : ¬(a ≤ lo + i ∧ lo + i < a + b) := by omega
    simp [this]
  · simp [hi]

/-- The last field of a packed word. -/
theorem bits_pack_last (lo k v : Nat) (h32 : lo + k ≤ 32) : bits (pack [(lo, k, v)]) lo k = v % 2 ^ k :=
  bits_pack_here lo k v [] rfl h32

theorem bits_lt (w : Word) (lo k : Nat) : bits w lo k < 2 ^ k := Nat.mod_lt _ (Nat.two_pow_pos k)

/-! ### The bytes of a management word (R172, R173) -/

theorem joinBytes_bytesOf (w : Word) :
    joinBytes (w.extractLsb' 24 8) (w.extractLsb' 16 8) (w.extractLsb' 8 8) (w.extractLsb' 0 8) = w := by
  apply BitVec.eq_of_getLsbD_eq
  intro i hi
  simp only [joinBytes, BitVec.getLsbD_append, BitVec.getLsbD_extractLsb']
  by_cases h0 : i < 8
  · simp [h0]
  · by_cases h1 : i < 16
    · simp [h0, show i - 8 < 8 by omega, show 8 + (i - 8) = i by omega]
    · by_cases h2 : i < 24
      · simp [h0, show ¬i - 8 < 8 by omega, show i - 8 - 8 < 8 by omega, show 16 + (i - 8 - 8) = i by omega]
      · simp [h0, show ¬i - 8 < 8 by omega, show ¬i - 8 - 8 < 8 by omega, show i - 8 - 8 - 8 < 8 by omega,
          show 24 + (i - 8 - 8 - 8) = i by omega]

/-- Four bytes received at the start of a word are the word written to the register that the pointer names. -/
theorem State.receiveBytes_four (s : State) (b3 b2 b1 b0 : Byte) (h : s.mgmt.assembly = []) :
    ((s.receiveBytes [b3, b2, b1, b0]) =
      ((s.setMgmt { s.mgmt with assembly := [b3, b2, b1] }).writeMgmtRegister (joinBytes b3 b2 b1 b0)).mgmtAdvance) := by
  simp [State.receiveBytes, State.receiveByte, h, State.setMgmt]

/-- The three bytes before the fourth. -/
def State.threeBytes (s : State) (w : Word) : State :=
  s.setMgmt { s.mgmt with
    acknowledged := some true, assembly := [w.extractLsb' 24 8, w.extractLsb' 16 8, w.extractLsb' 8 8] }

/-- The bytes of a word, at the start of a word of the open write transaction, write that word. -/
theorem State.dataBytes_word {s : State} (h : s.AtWord) (w : Word) :
    s.dataBytes (bytesOf w) id = ((s.threeBytes w).writeMgmtRegister w).mgmtAdvance := by
  have ho : s.writeOpen = true := by simp [State.writeOpen, h.1, h.2.1]
  rw [State.dataBytes, if_pos ho, id_eq, bytesOf,
    State.receiveBytes_four (s.setMgmt { s.mgmt with acknowledged := some true }) _ _ _ _ h.2.2, joinBytes_bytesOf]
  rfl

/-- A row that starts its write transaction is the index byte and then the row of its bytes (R172). -/
theorem State.mgmtData_start (s : State) (w : WriteStart) (bs : List Byte) (finish : State → State) :
    s.mgmtData (some w) bs finish = (s.indexByte w.addr w.index).mgmtData none bs finish := rfl

/-- The word of a management command carries its code and its operands. -/
theorem mgmtWordOf_toWord (c : MgmtWord) : mgmtWordOf c.toWord = c := by
  obtain ⟨code, p, a, b⟩ := c
  have h1 := code.isLt
  have h2 := p.isLt
  have h3 := a.isLt
  have h4 := b.isLt
  simp [mgmtWordOf, MgmtWord.toWord, bits_pack_here, bits_pack_last, bits_pack_skip, apart, Nat.mod_eq_of_lt, h1, h2, h3,
    h4]

/-- A command row for the management command register is the command taken or refused by its unit. -/
theorem State.commandBytes_ready {s : State} (h : s.MgmtReady) (c : MgmtWord) :
    s.commandBytes none c = ((s.threeBytes c.toWord).mgmtCommand c).mgmtAdvance := by
  have hp : decodeMgmtRegister (s.threeBytes c.toWord).mgmt.pointer = some .command := by
    show decodeMgmtRegister s.mgmt.pointer = _
    rw [h.2.1]
    rfl
  show (s.dataBytes (bytesOf c.toWord) id) = _
  rw [State.dataBytes_word h.1]
  unfold State.writeMgmtRegister
  rw [hp]
  simp only [mgmtWordOf_toWord]

end Sys2Proof.Machine
end

