-- ==== Sys2Proof/Tests/Slice0.lean ====
section
/-!
SUPPORT. The model's own tests: small closed facts about one step, their expected results taken from the spec, and for each statement
with hypotheses a concrete state and operands that meet them. A theorem witness_<Name> belongs to Obligations.<Name>.
-/
namespace Sys2Proof.Tests

set_option Elab.async false

open Sys2Proof.Machine

/-! ### The checks of WellFormed refuse ill-formed terms -/

/-- 0x0040 is an assigned register, so an access to it is no decode error. -/
theorem test_wf_refuses_mapped_decode_error :
    WellFormed (.accessDecodeError 0 0x0040 .read) = false := by decide

/-- The command register has rows of its own. -/
theorem test_wf_refuses_command_register_write :
    WellFormed (.registerWrite 0 0x000C 0) = false := by decide

/-- 0x003C is assigned to no register. -/
theorem test_wf_refuses_unassigned_register_write :
    WellFormed (.registerWrite 0 0x003C 0) = false := by decide

/-- 0x20 is FETCH. -/
theorem test_wf_refuses_assigned_agent_code :
    WellFormed (.commandCodeInvalid 1 0x20 ⟨0, 0⟩) = false := by decide

/-- 0x23 is INJECT. -/
theorem test_wf_refuses_assigned_management_code :
    WellFormed (.managementCodeInvalid none 0x23 ⟨0, 0, 0⟩) = false := by decide

theorem test_wf_accepts_misaligned :
    WellFormed (.accessDecodeError 1 0x1C02 .read) = true := by decide

/-! ### States for the tests -/

/-- The block in RUNNING with every port ACTIVE, as the initial rebuild leaves it. -/
def run : State := { State.reset with resetAsserted := false, exchange := .running }

/-- The state after a command; the reset state where there is none. -/
def after (o : Host.Outcome State Fault Refusal) : State :=
  match o with
  | .next t => t
  | .fault _ | .refused _ => State.reset

/-- The parameters of port p's next command. -/
def params (s : State) (p : Port) (a b c : Word) : State := s.setFront p { s.front p with params := ⟨a, b, c, 0⟩ }

/-- The management port within a write transaction at the command register, with two parameters. -/
def board (s : State) (a b : Word) : State :=
  s.setMgmt { s.mgmt with transaction := .write, pointer := 0xF4, params := ⟨a, b, 0, 0⟩ }

/-- An acting port: p's slots, queues and events as in `s`, with every event kind enabled at port p. -/
def listening (s : State) (p : Port) : State := s.setEvent p { s.event p with enables := 0xFFF }

/-- A completed request of port 2 with one waiting report, about a payload read, and the place of its record. -/
def waitingPayload (record : Option Nat) : ReportingRequest := ⟨.completed, [⟨.payload, 2, record⟩]⟩

/-- RUNNING with reports waiting, a class PAYLOAD policy and listed records. -/
def escalating (e : Escalation) (ws : List ReportingRequest) (xs : List FaultRecord) : State :=
  run.setIntegrity { run.integrity with waiting := ws, faults := xs, policy := { Policy.reset with payload := e } }

/-- The record of a payload report of port 2. -/
def payloadRecord (n : BitVec 8) (e : Escalation) : FaultRecord :=
  ⟨n, .payload, .payloadBank0, 7, 2, none, some 37, some 3, .poison, e⟩

/-- An OPEN queue with port 1 alone in its producer mask. -/
def queueOf (consumer : Port) (mode : QueueMode) (depth limit threshold : Nat) (armed : Bool) (head : Option NodeNo) :
    LiveQueue :=
  ⟨.opened, consumer, 0b0010, mode, .refuse, limit, threshold, armed, depth, head, head⟩

/-- The message of worked example 4.9 with W bytes written in k cells from cell 900. -/
def example49 (written cells holders : Nat) : Message :=
  { state := .filling, port := 1, slot := 2, tag := 0x0501, declared := none, written := written, final := none
    first := if cells = 0 then none else some 900
    last := if cells = 0 then none else some (Fin.ofNat 2048 (899 + cells))
    cells := cells, holders := holders, dests := [⟨4, .linked⟩, ⟨9, .pending⟩], poison := none, linkBroken := false }

/-- The queues, pool and front end of worked example 4.9, before its step 1. -/
def start49 : State :=
  let s := { run with
    queues := [(4, .live (queueOf 2 .cut 0 8 1 true none)), (9, .live (queueOf 3 .store 2 2 2 false (some 7)))]
    events := run.events.set 2 { EventPort.reset with enables := 0xC27, interrupt := true }
    pool := { Pool.reset with
      fifo := [37, 0, 1, 2, 3, 4], nodeHead := some 120, freeNodes := 500, cellHead := some 900, freeCells := 1000 }
    shares := run.shares.set 1 { Share.reset with charged := 100 } }
  params s 1 0x00020501 0x00007FFF 0x00000904

/-- Worked example 4.9 with port 1's slot 2 in a phase, descriptor 37 holding `m`. -/
def compose49 (m : Message) (phase : ComposePhase) : State :=
  (start49.setDesc 37 (.live m)).setComposeSlot 1 2 ⟨phase, false, false⟩

/-- A receive slot of port 2 holding node 120 of descriptor 37, at an offset, with its current cell. -/
def reading (m : Message) (offset : Nat) (cell : Option CellNo) : State :=
  (start49.setDesc 37 (.live m)).setReceiveSlot 2 0 ⟨.holding ⟨4, 120, 37, offset, cell⟩, false, false, false, false⟩

/-- A port RESETTING at step n of a teardown. -/
def tearing (s : State) (p : Port) (n : Nat) (q : Option QueueNo) (cursor : Nat) (reported : Bool) : State :=
  s.setPort p (.resetting ⟨.portReset, .active, n, q, cursor, reported⟩)

/-! ### Reset, initialisation and restart -/

/-- R146: released, rebuilt, RUNNING. -/
theorem test_power_on_reaches_running :
    (after (exec .resetNRelease State.reset)).mgmt.busy = true ∧
      after (exec .initRebuildEnd (after (exec .resetNRelease State.reset))) = run := by decide +kernel

theorem witness_InitialRebuildLeadsToRunning :
    State.reset.resetAsserted = true ∧ (after (exec .resetNRelease State.reset)).resetAsserted = false ∧
      (after (exec .resetNRelease State.reset)).exchange = .init := by decide +kernel

theorem witness_RestartResetsAndRetains :
    (board run 0 0).MgmtReady ∧ (board run 0 0).exchange = .running ∧
      (board run.stopRequested 0 0).MgmtReady ∧ (board run.stopRequested 0 0).exchange = .stopped :=
  ⟨⟨⟨rfl, rfl, rfl⟩, rfl, rfl⟩, rfl, ⟨⟨rfl, rfl, rfl⟩, rfl, rfl⟩, rfl⟩

/-- A waiting report settles in the RESTART: its record, which stands at place 1, shows the escalation of the table; the record before it
is as it was, and an unlisted report changes none (R130, R135). -/
theorem witness_RestartResetsAndRetains_settled :
    let s := board (escalating .fence [waitingPayload none, waitingPayload (some 1)]
      [payloadRecord 0 .none, payloadRecord 1 .none]) 0 0
    let t := after (exec (.restartExchange none ⟨0, 0, 0⟩) s)
    s.MgmtReady ∧ s.IntegrityBounded ∧
      t.integrity.faults = [payloadRecord 0 .none, payloadRecord 1 .fence] ∧ t.integrity.waiting = [] ∧
      t.cellLinkWord 2047 = ⟨none, []⟩ := by
  refine ⟨⟨⟨rfl, rfl, rfl⟩, rfl, rfl⟩, ⟨by decide, by decide, by decide, fun m => by cases m <;> decide⟩, ?_⟩
  decide +kernel

/-- 10.4: a RESTART of a stopped exchange, and its end. -/
theorem test_restart_of_a_stopped_exchange :
    let s := after (exec (.restartExchange none ⟨0, 0, 0⟩) (board run.stopRequested 0 0))
    s.exchange = .restarting ⟨true, .all .fenced⟩ ∧ s.mgmt.result = ⟨some 0x01, .pending, none⟩ ∧
      ((after (exec .restartRebuildEnd s)).event 3).queue = [⟨.exchangeRestarted, none, none, 0x21⟩] ∧
      (after (exec .restartRebuildEnd s)).mgmt.result = ⟨some 0x01, .ok, none⟩ := by decide +kernel

theorem witness_RestartEndAnnouncesItself :
    { run with exchange := .restarting ⟨true, .all .fenced⟩ }.exchange = .restarting ⟨true, .all .fenced⟩ ∧
      { run with exchange := .restarting ⟨true, .all .fenced⟩ }.event 0 = ⟨[], false, 0xC26, false, none⟩ := by
  decide +kernel

/-! ### Accesses of an agent port -/

/-- 9.1: 0x1C02 is misaligned; the edges of the gaps of the window are unmapped. R162: a status read is OKAY in reset and in a RESETTING
port too. -/
theorem witness_DecodeErrorsAndStatusReadsChangeNothingElse :
    (0x1C02#16).toNat % 4 ≠ 0 ∧ after (exec (.accessDecodeError 0 0x1C02 .read) run) = run.refusedAccess 0 0x1C02 .misaligned ∧
      ([0x2800#16, 0xFFFC, 0x0100, 0x0FFC, 0x0098, 0x00FC, 0x003C, 0x0078, 0x007C].all fun a =>
        a.toNat % 4 = 0 ∧ after (exec (.accessDecodeError 0 a (.write 5)) run) = run.refusedAccess 0 a .unmapped) ∧
      decodeAddress 0x04 = .register .portStatus ∧ PortRegister.portStatus ≠ .eventHead ∧
      after (exec (.accessDecodeError 3 0x04 .read) State.reset) = State.reset.answered 3 (.okayRead 0x003FFF03) ∧
      ((after (exec (.accessDecodeError 3 0x00 .read) (tearing run 3 1 none 0 false))).front 3).answer =
        some (.okayRead 0x2A412801) := by
  decide +kernel

theorem witness_ActingAccessesAreGatedByExchangeAndPort :
    WellFormed (.fetchMessage 1 ⟨0, 4⟩) = true ∧ actingAccess (.fetchMessage 1 ⟨0, 4⟩) = some (1, 0x000C) ∧
      State.reset.exchange = .init ∧
      { run with exchange := .restarting ⟨true, .all .active⟩ }.exchange = .restarting ⟨true, .all .active⟩ ∧
      run.stopRequested.exchange = .stopped ∧ (tearing run 1 1 none 0 false).exchange = .running ∧
      (tearing run 1 1 none 0 false).port 1 = .resetting ⟨.portReset, .active, 1, none, 0, false⟩ ∧
      (run.setPort 1 .fenced).port 1 = .fenced := by decide +kernel

theorem witness_BusyUnitsRetryAndInvalidCodesAreRefused :
    (run.setFront 0 { FrontEnd.reset with unit := .closing 3 }).Serves 0 ∧
      ((run.setFront 0 { FrontEnd.reset with unit := .closing 3 }).front 0).unit ≠ .idle ∧ run.Ready 0 ∧
      0x05#8 ∉ [0x01#8, 0x02, 0x03, 0x04, 0x10, 0x11, 0x12, 0x20, 0x21, 0x22, 0x30] :=
  ⟨⟨rfl, rfl, rfl⟩, by decide, ⟨⟨rfl, rfl, rfl⟩, rfl⟩, by decide⟩

/-- R165, R180: PARAM0 keeps bits 18 to 0 and PARAM3 none; the READ_ONLY registers. R117: the two fixed kinds stay enabled. -/
theorem witness_RegisterWritesAndTheInterruptLine :
    run.Serves 2 ∧ (0x10#16).toNat = 0x10 + 4 * (0 : Fin 4).val ∧ (0x1C#16).toNat = 0x10 + 4 * (3 : Fin 4).val ∧
      ((after (exec (.registerWrite 2 0x10 0xFFFFFFFF) run)).front 2).params.get 0 = 0x0007FFFF ∧
      ((after (exec (.registerWrite 2 0x14 0xFFFFFFFF) run)).front 2).params.get 1 = 0xFFFFFFFF ∧
      ((after (exec (.registerWrite 2 0x1C 77) run)).front 2).params.get 3 = 0 ∧
      ([0x00#16, 0x08, 0x20, 0x30, 0x40, 0x5C, 0x60, 0x74, 0x80, 0x8C, 0x90, 0x94].all fun a =>
        after (exec (.registerWrite 2 a 77) run) = run.refusedAccess 2 a .readOnly) ∧
      ((after (exec (.eventEnableWrite 2 0) run)).event 2).enables = 0xC00 ∧
      ((after (exec (.interruptEnableWrite 2 1) run)).event 2).interrupt = true := by
  refine ⟨⟨rfl, rfl, rfl⟩, rfl, rfl, ?_⟩
  decide +kernel

/-- 6.7: the emptying pop returns overflow set and more clear, and clears the flag. -/
theorem witness_EventHeadReadPops :
    let e : EventPort := { EventPort.reset with queue := [⟨.queueClosed, some 8, none, 3⟩], overflow := true }
    run.Serves 2 ∧ (run.event 2).queue = [] ∧ ((run.setEvent 2 e).event 2).queue = [⟨.queueClosed, some 8, none, 3⟩] ∧
      ((after (exec (.eventHeadRead 2) (run.setEvent 2 e))).event 2).overflow = false ∧
      ((after (exec (.eventHeadRead 2) (run.setEvent 2 e))).front 2).answer = some (.okayRead 0x00030822) := by
  refine ⟨⟨rfl, rfl, rfl⟩, ?_⟩
  decide +kernel

/-- Words of the port registers at chosen values: a slot that composes, one that reads, and the results of 4.9 (11.2, 11.3). -/
theorem witness_AgentRegisterWords :
    let m := example49 152 3 2
    let s := compose49 m (.held ⟨37, some 902, 0, false⟩ 150)
    let r := reading { m with poison := some 8 } 148 (some 902)
    let q := (start49.setFront 0 { FrontEnd.reset with
      result1 := .query .opened 2 (some ⟨8, 3, 0b0010, .store⟩), lastCommand := some ⟨0x04, ⟨0, 9⟩⟩
      errorRecord := some ⟨.link, 0x2400⟩, unit := .closing 9 })
    s.Composes 1 2 ⟨37, some 902, 0, false⟩ m ∧ r.Receives 2 0 ⟨4, 120, 37, 148, some 902⟩ { m with poison := some 8 } ∧
      s.portRegister 1 (.composeStatusA 2) = 0x00980252 ∧ s.portRegister 1 (.composeStatusB 2) = 0x00000096 ∧
      r.portRegister 2 (.receiveStatusA 0) = 0x50250081 ∧ r.portRegister 2 (.receiveStatusB 0) = 0x00980094 ∧
      r.portRegister 2 (.receiveStatusC 0) = 0x00000008 ∧
      q.portRegister 0 .result1 = 0x4B404002 ∧ q.portRegister 0 .command = 0x00090004 ∧
      q.portRegister 0 .errorRecord = 0x2400000D ∧ q.portRegister 0 .portStatus = 0x00090344 ∧
      q.portRegister 0 .identification = 0x2A412801 := by
  refine ⟨⟨by decide +kernel, .inr ⟨150, by decide +kernel⟩⟩, ⟨by decide +kernel, by decide +kernel⟩, ?_⟩
  decide +kernel

/-! ### Queues -/

/-- R45: the limits at their bounds, and each refusal. -/
theorem witness_OpenQueueChecksThenOpens :
    run.Ready 0 ∧ 31 < (⟨0, 32⟩ : CommandFields).queue.toNat ∧ (⟨0, 31⟩ : CommandFields).queue.toNat = (31 : QueueNo).val ∧
      run.queue 31 = .closed ∧
      (after (exec (.openQueue 0 ⟨0, 31⟩) (params run 0 0xF05 0x04000400 0))).queue 31 =
        .live ⟨.opened, 0, 0xF, .store, .skip, 1024, 1024, true, 0, none, none⟩ ∧
      [0x00000001#32, 0x00010000, 0x00010401, 0x00020001].all fun w =>
        ((after (exec (.openQueue 0 ⟨0, 31⟩) (params run 0 0 w 0))).front 0).result0 = .refusedParam := by
  refine ⟨⟨⟨rfl, rfl, rfl⟩, rfl⟩, ?_⟩
  decide +kernel

/-- R47, R54: queue 9 of worked example 4.9 with its threshold lowered to its depth tells nobody a second time; armed, it does. -/
theorem witness_ModifyQueueChecksThenReplaces :
    let s := params (start49.setQueue 9 (.live (queueOf 3 .store 2 2 2 true none))) 3 0 0x00020400 0
    s.Ready 3 ∧ s.queue 9 = .live (queueOf 3 .store 2 2 2 true none) ∧ s.queue 8 = .closed ∧
      ((after (exec (.modifyQueue 3 ⟨0, 9⟩) s)).front 3).result1 = .depth 2 ∧
      (after (exec (.modifyQueue 3 ⟨0, 9⟩) s)).queue 9 =
        .live { queueOf 3 .store 2 1024 2 false none with mask := 0 } := by
  refine ⟨⟨⟨rfl, rfl, rfl⟩, rfl⟩, ?_⟩
  decide +kernel

/-- R60: an OPEN queue with nodes drains; an empty and a QUARANTINED one close at once. -/
theorem witness_CloseQueueClosesOrStartsADrain :
    start49.Ready 3 ∧ start49.Ready 2 ∧ start49.queue 9 = .live (queueOf 3 .store 2 2 2 false (some 7)) ∧
      start49.queue 4 = .live (queueOf 2 .cut 0 8 1 true none) ∧ start49.queue 5 = .closed ∧
      ((after (exec (.closeQueue 3 ⟨0, 9⟩) start49)).front 3).unit = .closing 9 ∧
      (after (exec (.closeQueue 2 ⟨0, 4⟩) start49)).queue 4 = .closed ∧
      ((after (exec (.closeQueue 3 ⟨0, 9⟩)
        (start49.setQueue 9 (.live { queueOf 3 .store 2 2 2 false none with phase := .quarantined })))).front 3).result1 =
          .close 0 2 := by
  refine ⟨⟨⟨rfl, rfl, rfl⟩, rfl⟩, ⟨⟨rfl, rfl, rfl⟩, rfl⟩, ?_⟩
  decide +kernel

theorem witness_QueryQueueReportsAnyQueue :
    start49.Ready 0 ∧ start49.queue 5 = .closed ∧
      ((after (exec (.queryQueue 0 ⟨0, 9⟩) start49)).front 0).result1 = .query .opened 2 (some ⟨2, 3, 0b0010, .store⟩) := by
  refine ⟨⟨⟨rfl, rfl, rfl⟩, rfl⟩, ?_⟩
  decide +kernel

/-! ### Composing: worked example 4.9 -/

/-- Step 1 of 4.9 passes the checks of BEGIN with node 120. -/
theorem witness_BeginAllocatesLinksAndFills :
    start49.BeginPasses 1 ⟨2, 0⟩ 2 [4, 9] 37 [0, 1, 2, 3, 4] [120] (start49.allocateNodes 1 1).1 ∧
      bits ((start49.front 1).params.get 1) 0 15 ≠ 0 := by
  refine ⟨⟨⟨⟨⟨rfl, rfl, rfl⟩, rfl⟩, ?_⟩, ?_, ?_⟩, ?_⟩ <;> decide +kernel

/-- Step 1 of 4.9: descriptor 37, linked 1, dropped 0, holders 2; QUEUE_READY to port 2 with detail 1; 499 nodes free. -/
theorem test_begin_of_worked_example :
    let t := after (exec (.beginMessage 1 ⟨⟨2, 0⟩, .whole⟩) start49)
    (t.front 1).result1 = .message { desc := some 37, linked := some 1, dropped := some 0, holders := some 2 } ∧
      t.desc 37 = .live (example49 0 0 2) ∧ t.pool.freeNodes = 499 ∧ t.pool.nodeHead = some 121 ∧
      t.queue 4 = .live (queueOf 2 .cut 1 8 1 false (some 120)) ∧
      (t.event 2).queue = [⟨.queueReady, some 4, none, 1⟩] := by decide +kernel

/-- Each check of BEGIN at a state that reaches it (R74). -/
theorem witness_BeginChecksInOrder :
    let refused := fun (s : State) (slot : BitVec 4) =>
      (((after (exec (.beginMessage 1 ⟨⟨slot, 0⟩, .whole⟩) s)).front 1).result0,
        ((after (exec (.beginMessage 1 ⟨⟨slot, 0⟩, .whole⟩) s)).front 1).result1)
    start49.Ready 1 ∧ refused start49 4 = (.refusedParam, .message {}) ∧
      refused (compose49 (example49 0 0 2) (.filling ⟨37, none, 0, false⟩)) 2 = (.refusedState, .message {}) ∧
      refused (params start49 1 0x00000501 0x7FFF 0x0904) 2 = (.refusedParam, .message {}) ∧
      refused (params start49 1 0x00050501 0x7FFF 0x0904) 2 = (.refusedParam, .message {}) ∧
      refused (params start49 1 0x00020501 0x7FFF 0x2004) 2 = (.refusedParam, .message { failing := some 1 }) ∧
      refused (params start49 1 0x00020501 0x7FFF 0x0404) 2 = (.refusedParam, .message { failing := some 1 }) ∧
      refused (params start49 1 0x00020501 0x4001 0x0904) 2 = (.refusedParam, .message {}) ∧
      refused (params start49 1 0x00020501 0x4000 0x0804) 2 = (.refusedDest, .message { failing := some 1 }) ∧
      refused { start49 with pool := { start49.pool with fifo := [] } } 2 = (.refusedNoDesc, .message {}) ∧
      refused { start49 with pool := { start49.pool with freeNodes := 0 } } 2 = (.refusedNoNode, .message {}) ∧
      refused (start49.setQueue 4 (.live (queueOf 2 .cut 8 8 1 false none))) 2 =
        (.refusedFull, .message { failing := some 0 }) := by
  refine ⟨⟨⟨rfl, rfl, rfl⟩, rfl⟩, ?_⟩
  decide +kernel

/-- R29 from head 120, with the link word of node 121 corrected on the way; R30 with the link word of node 121 lost, where two nodes
are asked for and where three are. -/
theorem witness_NodeRequestsTakeHeadsOrTruncate :
    let c := start49.putNodeLink 121 ⟨some 122, [3]⟩
    let l := start49.putNodeLink 121 ⟨some 122, [0, 1]⟩
    c.memoriesWf = true ∧ c.freeRun c.pool.nodeHead [120, 121] (some 122) ∧ l.memoriesWf = true ∧
      l.freeRun l.pool.nodeHead [120] (some 121) ∧ (l.nodeLinkWord 121).check = .uncorrectable ∧
      (c.allocateNodes 1 2).2 = some [120, 121] ∧ (c.allocateNodes 1 2).1.pool.nodeHead = some 122 ∧
      (l.allocateNodes 1 2).2 = some [120, 121] ∧ (l.allocateNodes 1 2).1.pool.strandedNodes = 498 ∧
      (l.allocateNodes 1 3).2 = none ∧ (l.allocateNodes 1 3).1.pool.freeNodes = 2 ∧
      (l.allocateNodes 1 3).1.pool.nodeHead = some 120 ∧ (l.allocateNodes 1 3).1.nodeLinkWord 120 = ⟨some 121, []⟩ := by
  refine ⟨by decide +kernel, ⟨rfl, some 121, .inl (by decide +kernel), rfl, some 122, .inr (by decide +kernel), rfl⟩,
    by decide +kernel, ⟨rfl, some 121, .inl (by decide +kernel), rfl⟩, ?_⟩
  decide +kernel

/-- R30 in a BEGIN with two CUT destinations and in a SEAL with two PENDING ones: the link word of the head node is lost. -/
theorem witness_NodeRequestsTakeHeadsOrTruncate_refused :
    let lost := fun s : State => s.putNodeLink 120 ⟨some 121, [0, 1]⟩
    let b := lost (start49.setQueue 9 (.live (queueOf 3 .cut 1 2 2 true (some 7))))
    let m := { example49 152 3 1 with dests := [⟨4, .pending⟩, ⟨9, .pending⟩] }
    let h := lost ((compose49 m (.held ⟨37, some 902, 0, false⟩ 150)).setQueue 9
      (.live (queueOf 3 .store 1 2 2 true (some 7))))
    let t := after (exec (.beginMessage 1 ⟨⟨2, 0⟩, .whole⟩) b)
    let u := after (exec (.sealMessage 1 ⟨2, 0⟩) h)
    b.BeginReaches 1 ⟨2, 0⟩ 2 [4, 9] 37 [0, 1, 2, 3, 4] ∧ (b.allocateNodes 1 (b.cutRoom [4, 9]).length).2 = none ∧
      h.SealReaches 1 ⟨2, 0⟩ 2 ⟨37, some 902, 0, false⟩ m 150 ∧ (∀ x ∈ m.dests, h.sealStops 1 x = false) ∧
      (h.sealRoom 1 m).length ≤ h.pool.freeNodes ∧ (h.allocateNodes 1 (h.sealRoom 1 m).length).2 = none ∧
      (t.front 1).result0 = .refusedNoNode ∧ t.pool.freeNodes = 1 ∧ t.pool.strandedNodes = 499 ∧
      (u.front 1).result0 = .refusedNoNode ∧ (u.composeSlot 1 2).phase = .held ⟨37, some 902, 0, false⟩ 150 := by
  refine ⟨⟨⟨⟨rfl, rfl, rfl⟩, rfl⟩, by decide +kernel⟩, by decide +kernel,
    ⟨⟨⟨rfl, rfl, rfl⟩, rfl⟩, by decide, by decide +kernel, .inl (by decide +kernel)⟩, ?_⟩
  decide +kernel

/-- R77: with declared length 0 the STORE destination at its limit holds the slot; with room the descriptor is SEALED with final length
0 and the slot IDLE. -/
theorem witness_BeginOfLengthZeroSeals :
    let s := params start49 1 0x00020501 0 0x0904
    let t := after (exec (.beginMessage 1 ⟨⟨2, 0⟩, .whole⟩) (s.setQueue 9 (.live (queueOf 3 .store 1 2 2 true (some 7)))))
    s.BeginPasses 1 ⟨2, 0⟩ 2 [4, 9] 37 [0, 1, 2, 3, 4] [120] (s.allocateNodes 1 1).1 ∧
      bits ((s.front 1).params.get 1) 0 15 = 0 ∧
      (after (exec (.beginMessage 1 ⟨⟨2, 0⟩, .whole⟩) s)).composeSlot 1 2 = ⟨.held ⟨37, none, 0, false⟩ 0, false, false⟩ ∧
      ((after (exec (.beginMessage 1 ⟨⟨2, 0⟩, .whole⟩) s)).front 1).result1 = .message
        { desc := some 37, linked := some 1, dropped := some 0, holders := some 2, failing := some 1
          sealOutcome := some .refusedFull } ∧
      t.composeSlot 1 2 = ⟨.idle, false, false⟩ ∧
      t.desc 37 = .live { example49 0 0 2 with
        state := .isSealed, declared := some 0, final := some 0, dests := [⟨4, .linked⟩, ⟨9, .linked⟩] } := by
  refine ⟨⟨⟨⟨⟨rfl, rfl, rfl⟩, rfl⟩, ?_⟩, ?_, ?_⟩, ?_⟩ <;> decide +kernel

/-- The seal of a BEGIN of length 0 without a free node, with a truncation, and one that frees its message: the one destination was
dropped as full. -/
theorem witness_BeginOfLengthZeroSeals_others :
    let s := (params start49 1 0x00020501 0 0x0904).setQueue 9 (.live (queueOf 3 .store 1 2 2 true (some 7)))
    let n := s.setPool { s.pool with freeNodes := 1 }
    let l := (s.setQueue 4 (.live (queueOf 2 .store 0 8 1 true none))).putNodeLink 120 ⟨some 121, [0, 1]⟩
    let f := (params start49 1 0x00010501 0 0x04).setQueue 4
      (.live { queueOf 2 .cut 8 8 1 false none with policy := .skip })
    let t := after (exec (.beginMessage 1 ⟨⟨2, 0⟩, .whole⟩) f)
    let outcome := fun s : State => ((after (exec (.beginMessage 1 ⟨⟨2, 0⟩, .whole⟩) s)).front 1).result1
    n.BeginPasses 1 ⟨2, 0⟩ 2 [4, 9] 37 [0, 1, 2, 3, 4] [120] (n.allocateNodes 1 1).1 ∧
      l.BeginPasses 1 ⟨2, 0⟩ 2 [4, 9] 37 [0, 1, 2, 3, 4] [] l ∧ f.BeginPasses 1 ⟨2, 0⟩ 2 [4] 37 [0, 1, 2, 3, 4] [] f ∧
      outcome n = .message { desc := some 37, linked := some 1, dropped := some 0, holders := some 2
                             sealOutcome := some .refusedNoNode } ∧
      outcome l = .message { desc := some 37, linked := some 0, dropped := some 0, holders := some 1
                             sealOutcome := some .refusedNoNode } ∧
      outcome f = .message { desc := some 37, linked := some 0, dropped := some 1, holders := some 0
                             sealOutcome := some .ok } ∧
      t.desc 37 = .free ∧ t.pool.fifo = [0, 1, 2, 3, 4, 37] ∧ t.composeSlot 1 2 = ⟨.idle, false, false⟩ := by
  refine ⟨⟨⟨⟨⟨rfl, rfl, rfl⟩, rfl⟩, ?_⟩, ?_, ?_⟩, ⟨⟨⟨⟨rfl, rfl, rfl⟩, rfl⟩, ?_⟩, ?_, ?_⟩,
    ⟨⟨⟨⟨rfl, rfl, rfl⟩, rfl⟩, ?_⟩, ?_, ?_⟩, ?_⟩ <;>
    decide +kernel

/-- R84: with W = 152 the valid lengths are 149 to 152; a declared length, an IDLE slot and slot 4 are refused. -/
theorem witness_SealChecksAndRefusals :
    let s := compose49 (example49 152 3 2) (.filling ⟨37, some 902, 5, false⟩)
    let code := fun (s : State) (slot : BitVec 4) (l : Word) =>
      ((after (exec (.sealMessage 1 ⟨slot, 0⟩) (params s 1 l 0 0))).front 1).result0
    s.Ready 1 ∧ (s.composeSlot 1 2).phase = .filling ⟨37, some 902, 5, false⟩ ∧
      s.desc 37 = .live (example49 152 3 2) ∧ code s 4 150 = .refusedParam ∧ code start49 2 150 = .refusedState ∧
      code s 2 148 = .refusedParam ∧ code s 2 153 = .refusedParam ∧ code s 2 149 = .refusedFull ∧
      code s 2 152 = .refusedFull ∧
      code (compose49 { example49 0 0 2 with declared := some 8 } (.filling ⟨37, none, 0, false⟩)) 2 0 = .refusedState ∧
      code (compose49 (example49 0 0 2) (.filling ⟨37, none, 0, false⟩)) 2 1 = .refusedParam := by
  refine ⟨⟨⟨rfl, rfl, rfl⟩, rfl⟩, ?_⟩
  decide +kernel

/-- Step 5 of 4.9: refused REFUSED_FULL at position 1, HELD with 150; and with no free node REFUSED_NO_NODE. -/
theorem witness_SealChecksAndRefusals_held :
    let s := params (compose49 (example49 152 3 2) (.filling ⟨37, some 902, 5, false⟩)) 1 150 0 0
    let n := { s.setQueue 9 (.live (queueOf 3 .store 1 2 2 true (some 7))) with pool := { s.pool with freeNodes := 0 } }
    s.SealReaches 1 ⟨2, 0⟩ 2 ⟨37, some 902, 5, false⟩ (example49 152 3 2) 150 ∧
      s.sealStops 1 ⟨9, .pending⟩ = true ∧ s.sealStops 1 ⟨4, .linked⟩ = false ∧
      n.SealReaches 1 ⟨2, 0⟩ 2 ⟨37, some 902, 5, false⟩ (example49 152 3 2) 150 ∧
      n.pool.freeNodes < (n.sealRoom 1 (example49 152 3 2)).length ∧
      (after (exec (.sealMessage 1 ⟨2, 0⟩) s)).composeSlot 1 2 = ⟨.held ⟨37, some 902, 0, false⟩ 150, false, false⟩ ∧
      ((after (exec (.sealMessage 1 ⟨2, 0⟩) s)).front 1).result1 =
        .message { holders := some 2, failing := some 1, poisoned := some false } := by
  refine ⟨⟨⟨⟨rfl, rfl, rfl⟩, rfl⟩, by decide, by decide +kernel, .inr ?_⟩, by decide +kernel, by decide +kernel,
    ⟨⟨⟨rfl, rfl, rfl⟩, rfl⟩, by decide, by decide +kernel, .inr ?_⟩, ?_⟩ <;> decide +kernel

/-- The state of 4.9 before step 8: slot 2 HELD with 150, queue 9 below its limit. -/
def before8 : State :=
  ((compose49 (example49 152 3 2) (.held ⟨37, some 902, 0, false⟩ 150)).setQueue 9
    (.live (queueOf 3 .store 1 2 2 true (some 7)))).setPool { start49.pool with nodeHead := some 121, freeNodes := 499 }

theorem witness_SealLinksDropsAndLetsGo :
    before8.SealReaches 1 ⟨2, 0⟩ 2 ⟨37, some 902, 0, false⟩ (example49 152 3 2) 150 ∧ before8.memoriesWf = true ∧
      ((example49 152 3 2).dests.map (·.queue)).Nodup ∧
      (∀ x ∈ (example49 152 3 2).dests, before8.sealStops 1 x = false) ∧
      before8.sealRoom 1 (example49 152 3 2) = [9] ∧
      (before8.allocateNodes 1 1).2 = some [121] := by
  refine ⟨⟨⟨⟨rfl, rfl, rfl⟩, rfl⟩, by decide, by decide +kernel, .inl (by decide +kernel)⟩, ?_⟩
  decide +kernel

/-- Step 8 of 4.9: linked 2, dropped 0, holders 2; SEALED with 150; 498 nodes free. -/
theorem test_seal_of_worked_example :
    let t := after (exec (.sealMessage 1 ⟨2, 0⟩) before8)
    (t.front 1).result1 =
        .message { linked := some 2, dropped := some 0, holders := some 2, poisoned := some false } ∧
      t.desc 37 = .live { example49 152 3 2 with
        state := .isSealed, final := some 150, dests := [⟨4, .linked⟩, ⟨9, .linked⟩] } ∧
      t.pool.freeNodes = 498 ∧ t.composeSlot 1 2 = ⟨.idle, false, false⟩ ∧ (t.queue 9).depth = 2 := by decide +kernel

/-- A seal that leaves no holder frees the message: its one destination is CLOSED (R85 step 1, R22). -/
theorem witness_SealLinksDropsAndLetsGo_freed :
    let m := { example49 152 3 1 with dests := [⟨8, .pending⟩] }
    let s := compose49 m (.held ⟨37, some 902, 0, false⟩ 150)
    let t := after (exec (.sealMessage 1 ⟨2, 0⟩) s)
    s.SealReaches 1 ⟨2, 0⟩ 2 ⟨37, some 902, 0, false⟩ m 150 ∧ s.memoriesWf = true ∧ (m.dests.map (·.queue)).Nodup ∧
      (∀ x ∈ m.dests, s.sealStops 1 x = false) ∧ (s.allocateNodes 1 (s.sealRoom 1 m).length).2 = some [] ∧
      t.desc 37 = .free ∧ t.pool.freeCells = 1003 ∧
      (t.front 1).result1 =
        .message { linked := some 0, dropped := some 1, holders := some 0, poisoned := some false } := by
  refine ⟨⟨⟨⟨rfl, rfl, rfl⟩, rfl⟩, by decide, by decide +kernel, .inl (by decide +kernel)⟩, ?_⟩
  decide +kernel

/-- The alternative end of 4.9: ABANDON leaves the descriptor ABANDONED with 1 holder; the last holder's ABANDON frees it. -/
theorem witness_AbandonGivesUpTheMessage :
    before8.Ready 1 ∧ before8.Composes 1 2 ⟨37, some 902, 0, false⟩ (example49 152 3 2) ∧ before8.memoriesWf = true ∧
      (start49.composeSlot 1 2).phase = .idle ∧
      (after (exec (.abandonMessage 1 ⟨2, 0⟩) before8)).desc 37 =
        .live { example49 152 3 1 with state := .abandoned } ∧
      ((after (exec (.abandonMessage 1 ⟨2, 0⟩) before8)).front 1).result1 =
        .message { desc := some 37, holders := some 1 } := by
  refine ⟨⟨⟨rfl, rfl, rfl⟩, rfl⟩, ⟨by decide +kernel, .inr ⟨150, by decide +kernel⟩⟩, ?_⟩
  decide +kernel

/-- R22, R28: the chain 900 to 902 of port 1 joins the tail 2047 of the free list; a broken chain is stranded. -/
theorem witness_FreeingSplicesOrStrandsTheChain :
    let s := compose49 (example49 152 3 1) (.filling ⟨37, some 902, 0, false⟩)
    let b := compose49 { example49 152 3 1 with linkBroken := true } (.filling ⟨37, some 902, 0, false⟩)
    s.Ready 1 ∧ s.Composes 1 2 ⟨37, some 902, 0, false⟩ (example49 152 3 1) ∧ s.memoriesWf = true ∧
      b.Composes 1 2 ⟨37, some 902, 0, false⟩ { example49 152 3 1 with linkBroken := true } ∧
      (after (exec (.abandonMessage 1 ⟨2, 0⟩) s)).pool.freeCells = 1003 ∧
      (after (exec (.abandonMessage 1 ⟨2, 0⟩) s)).cellLinkWord 2047 = ⟨some 900, []⟩ ∧
      ((after (exec (.abandonMessage 1 ⟨2, 0⟩) s)).share 1).charged = 97 ∧
      (after (exec (.abandonMessage 1 ⟨2, 0⟩) b)).pool.strandedCells = 3 := by
  refine ⟨⟨⟨rfl, rfl, rfl⟩, rfl⟩, ⟨by decide +kernel, .inl (by decide +kernel)⟩, by decide +kernel,
    ⟨by decide +kernel, .inl (by decide +kernel)⟩, ?_⟩
  decide +kernel

/-- R34, R37: a splice ends the starvation episode of port 1 and re-arms the low-water state, told in that order. -/
theorem witness_FreeingSplicesOrStrandsTheChain_evaluations :
    let m := example49 152 3 1
    let s := listening ((compose49 m (.filling ⟨37, some 902, 0, false⟩)).setShare 1
      { Share.reset with charged := 100, starving := true, refusedSlot := some 2 }) 1
    let e := s.setPool { s.pool with lowWater := .tripped }
    let t := after (exec (.abandonMessage 1 ⟨2, 0⟩) e)
    e.Ready 1 ∧ e.Composes 1 2 ⟨37, some 902, 0, false⟩ m ∧ e.memoriesWf = true ∧ m.splices = true ∧
      (t.event 1).queue = [⟨.allocAvailable, some 2, none, 255⟩, ⟨.poolRecovered, none, none, 255⟩] ∧
      (t.share 1).starving = false ∧ t.pool.lowWater = .armed := by
  refine ⟨⟨⟨rfl, rfl, rfl⟩, rfl⟩, ⟨by decide +kernel, .inl (by decide +kernel)⟩, ?_⟩
  decide +kernel

theorem witness_ComposeApertureErrorsAndRetries :
    let s := compose49 (example49 16384 256 2) (.filling ⟨37, some 902, 0, false⟩)
    let g := (compose49 (example49 64 1 2) (.filling ⟨37, some 900, 0, false⟩)).setShare 1
      { Share.reset with charged := 1024, refused := 65535 }
    s.Serves 1 ∧ g.Serves 1 ∧ (s.composeSlot 1 2).phase = .filling ⟨37, some 902, 0, false⟩ ∧
      s.desc 37 = .live (example49 16384 256 2) ∧ (start49.composeSlot 1 2).phase = .idle ∧
      ((after (exec (.composeApertureWrite 1 2 255 9) s)).front 1).errorRecord = some ⟨.length, 0x1BFC⟩ ∧
      ((after (exec (.composeApertureRead 1 2 0) s)).front 1).errorRecord = some ⟨.apertureRead, 0x1800⟩ ∧
      (g.composeSlot 1 2).phase = .filling ⟨37, some 900, 0, false⟩ ∧ g.desc 37 = .live (example49 64 1 2) ∧
      g.quotaGrants 1 = false ∧ ((after (exec (.composeApertureWrite 1 2 0 1) g)).share 1).refused = 65535 ∧
      ((after (exec (.composeApertureWrite 1 2 0 1) g)).front 1).answer = some .retry := by
  refine ⟨⟨rfl, rfl, rfl⟩, ⟨rfl, rfl, rfl⟩, ?_⟩
  decide +kernel

/-- A word at offset 60 of cell 900, and one with an injection armed (R16). -/
theorem witness_DataWriteStoresTheNextWord :
    let s := { compose49 (example49 60 1 2) (.filling ⟨37, some 900, 3, false⟩) with arm := some ⟨.payload, .double⟩ }
    let t := after (exec (.composeApertureWrite 1 2 7 0xCAFE) s)
    s.Serves 1 ∧ s.memoriesWf = true ∧ (s.composeSlot 1 2).phase = .filling ⟨37, some 900, 3, false⟩ ∧
      s.desc 37 = .live (example49 60 1 2) ∧ t.payloadWord 900 15 = ⟨0xCAFE, [0, 1]⟩ ∧ t.arm = none ∧
      t.lastInjection = some ⟨.payloadBank0, .payload 15, 900, .double⟩ ∧
      t.composeSlot 1 2 = ⟨.filling ⟨37, some 900, 0, false⟩, false, false⟩ := by
  refine ⟨⟨rfl, rfl, rfl⟩, ?_⟩
  decide +kernel

/-- Step 4 of 4.9: the word at offset 64 takes cell 901, which cell 900 links to; and the same with cell 901's link word lost. -/
theorem witness_FirstWordOfACellTakesTheHeadCell :
    let s := (compose49 (example49 64 1 2) (.filling ⟨37, some 900, 0, false⟩)).setPool
      { start49.pool with cellHead := some 901, freeCells := 999 }
    let b := s.putCellLink 901 ⟨some 902, [0, 1]⟩
    let t := after (exec (.composeApertureWrite 1 2 0 0xCAFE) s)
    let u := after (exec (.composeApertureWrite 1 2 0 0xCAFE) b)
    s.Serves 1 ∧ s.memoriesWf = true ∧ b.memoriesWf = true ∧ s.desc 37 = .live (example49 64 1 2) ∧
      s.quotaGrants 1 = true ∧ (s.cellLinkWord 901).check = .clean (some 902) ∧
      (b.cellLinkWord 901).check = .uncorrectable ∧ t.pool.freeCells = 998 ∧ t.pool.cellHead = some 902 ∧
      t.cellLinkWord 900 = ⟨some 901, []⟩ ∧ t.payloadWord 901 0 = ⟨0xCAFE, []⟩ ∧ (t.share 1).charged = 101 ∧
      u.pool.freeCells = 0 ∧ u.pool.strandedCells = 998 ∧ u.integrity.faults.length = 1 := by
  refine ⟨⟨rfl, rfl, rfl⟩, ?_⟩
  decide +kernel

/-- R37: a grant that leaves 63 free cells trips the low-water state; R11: the head's link word may read corrected. -/
theorem witness_FirstWordOfACellTakesTheHeadCell_lowWater :
    let s := listening (((compose49 (example49 0 0 2) (.filling ⟨37, none, 0, false⟩)).setPool
      { start49.pool with freeCells := 64 }).putCellLink 900 ⟨some 901, [2]⟩) 0
    let t := after (exec (.composeApertureWrite 1 2 0 5) s)
    s.Serves 1 ∧ s.memoriesWf = true ∧ s.desc 37 = .live (example49 0 0 2) ∧ s.quotaGrants 1 = true ∧
      (s.cellLinkWord 900).check = .corrected (some 901) ∧ t.pool.lowWater = .tripped ∧ t.pool.cellHead = some 901 ∧
      (t.event 0).queue = [⟨.poolLow, none, none, 63⟩] ∧ t.desc 37 = .live (example49 4 1 2) := by
  refine ⟨⟨rfl, rfl, rfl⟩, ?_⟩
  decide +kernel

/-- R32 and R37 at their boundary values. -/
theorem witness_QuotaAndLowWaterRules :
    let s := start49.setPool { start49.pool with freeCells := 63 }
    let t := start49.setPool { start49.pool with lowWater := .tripped, freeCells := 128 }
    s.pool.lowWater = .armed ∧ s.pool.freeCells < s.pool.lowMark ∧ s.lowWaterEvaluation.pool.lowWater = .tripped ∧
      t.pool.recoverMark ≤ t.pool.freeCells ∧ t.recoveryEvaluation.pool.lowWater = .armed ∧
      start49.pool.lowMark ≤ start49.pool.freeCells ∧ s.quotaGrants 1 = true ∧
      (s.setShare 1 { s.share 1 with charged := 128 }).quotaGrants 1 = false := by decide +kernel

/-- R89: W reaches D = 62 with the write at offset 60. -/
theorem witness_ReachingTheDeclaredLengthSeals :
    let m := { example49 60 1 2 with declared := some 62 }
    let l := { m with dests := [⟨4, .linked⟩] }
    let s := compose49 m (.filling ⟨37, some 900, 0, false⟩)
    let e := { compose49 l (.filling ⟨37, some 900, 0, false⟩) with
      events := start49.events.set 1 { EventPort.reset with enables := 0xFFF } }
    s.Serves 1 ∧ e.Serves 1 ∧ s.memoriesWf = true ∧ e.memoriesWf = true ∧ s.desc 37 = .live m ∧ e.desc 37 = .live l ∧
      s.sealStops 1 ⟨9, .pending⟩ = true ∧ (∀ x ∈ l.dests, x.disposition ≠ .pending) ∧
      (after (exec (.composeApertureWrite 1 2 0 1) s)).composeSlot 1 2 =
        ⟨.held ⟨37, some 900, 0, false⟩ 62, false, false⟩ ∧
      ((after (exec (.composeApertureWrite 1 2 0 1) e)).event 1).queue = [⟨.sealDone, some 2, some 0x0501, 1⟩] := by
  refine ⟨⟨rfl, rfl, rfl⟩, ⟨rfl, rfl, rfl⟩, ?_⟩
  decide +kernel

/-- An auto-seal that links queue 9, one without a free node, one that meets a truncation, and one that frees its message; and a write
that opens the cell in which the declared length is reached. -/
theorem witness_ReachingTheDeclaredLengthSeals_others :
    let m := { example49 60 1 2 with declared := some 62 }
    let both := { m with holders := 1, dests := [⟨4, .pending⟩, ⟨9, .pending⟩] }
    let closed := { m with holders := 1, dests := [⟨8, .pending⟩] }
    let opening := { example49 64 1 2 with declared := some 65 }
    let s := fun m : Message => listening ((compose49 m (.filling ⟨37, some 900, 0, false⟩)).setQueue 9
      (.live (queueOf 3 .store 1 2 2 true (some 7)))) 1
    let lost := (s both).putNodeLink 120 ⟨some 121, [0, 1]⟩
    let none := (s m).setPool { start49.pool with freeNodes := 0 }
    let cell := (s opening).setPool { start49.pool with cellHead := some 901 }
    let write := fun s : State => after (exec (.composeApertureWrite 1 2 0 1) s)
    let events := fun s : State => ((write s).event 1).queue
    (s m).Serves 1 ∧ (s m).memoriesWf = true ∧ lost.memoriesWf = true ∧ (s m).desc 37 = .live m ∧
      cell.quotaGrants 1 = true ∧ (m.dests.map (·.queue)).Nodup ∧ (both.dests.map (·.queue)).Nodup ∧
      (s m).sealStops 1 ⟨9, .pending⟩ = false ∧
      events (s m) = [⟨.sealDone, some 2, some 0x0501, 2⟩] ∧ ((write (s m)).queue 9).depth = 2 ∧
      events none = [⟨.sealHeld, some 2, some 0x0501, 9⟩] ∧ events lost = [⟨.sealHeld, some 2, some 0x0501, 9⟩] ∧
      (write lost).pool.strandedNodes = 499 ∧ (write lost).integrity.waiting = [] ∧
      (write (lost.setIntegrity { lost.integrity with policy := { Policy.reset with nodeLink := .stop } })).integrity.waiting =
        [⟨.completed, [⟨.nodeLink, 1, some 0⟩]⟩] ∧
      (write (s closed)).desc 37 = .free ∧ events (s closed) = [⟨.sealDone, some 2, some 0x0501, 0⟩] ∧
      (write cell).desc 37 = .live { example49 68 2 2 with
        state := .isSealed, declared := some 65, final := some 65, dests := [⟨4, .linked⟩, ⟨9, .linked⟩] } := by
  refine ⟨⟨rfl, rfl, rfl⟩, ?_⟩
  decide +kernel

/-! ### Receiving -/

/-- Queue 4 of 4.9 with node 120, which names descriptor 37. -/
def listed : State :=
  ((start49.setQueue 4 (.live (queueOf 2 .cut 1 8 1 false (some 120)))).setDesc 37 (.live (example49 64 1 2))).putContent
    120 ⟨37, []⟩ |>.putNodeLink 120 ⟨none, []⟩

/-- Each check of FETCH at a state that reaches it (R55, R99). -/
theorem witness_FetchChecksInOrder :
    let code := fun (s : State) (p : Port) (slot : BitVec 4) (q : BitVec 8) =>
      ((after (exec (.fetchMessage p ⟨slot, q⟩) s)).front p).result0
    listed.Ready 2 ∧ listed.Ready 1 ∧ code listed 2 2 4 = .refusedParam ∧
      code (reading (example49 64 1 2) 0 (some 900)) 2 0 4 = .refusedState ∧ code listed 2 0 32 = .refusedParam ∧
      code listed 2 0 5 = .refusedState ∧ code listed 1 0 4 = .refusedOwner ∧
      code (listed.setQueue 4 (.live { queueOf 2 .cut 1 8 1 false none with phase := .quarantined })) 2 0 4 =
        .refusedQuarantined ∧
      code (listed.setQueue 4 (.live { queueOf 2 .cut 1 8 1 false none with
        phase := .draining ⟨2, true, false, 0, 0⟩ })) 2 0 4 = .refusedState ∧
      code start49 2 0 4 = .empty := by
  refine ⟨⟨⟨rfl, rfl, rfl⟩, rfl⟩, ⟨⟨rfl, rfl, rfl⟩, rfl⟩, ?_⟩
  decide +kernel

/-- Step 3 of 4.9: node 120 is detached into slot 0, queue 4 is empty and re-armed. -/
theorem witness_FetchDetachesTheHeadNode :
    let t := after (exec (.fetchMessage 2 ⟨0, 4⟩) listed)
    listed.Ready 2 ∧ (listed.receiveSlot 2 0).phase = .idle ∧
      listed.queue 4 = .live (queueOf 2 .cut 1 8 1 false (some 120)) ∧ listed.contentWord 120 = ⟨37, []⟩ ∧
      listed.nodeLinkWord 120 = ⟨none, []⟩ ∧ listed.desc 37 = .live (example49 64 1 2) ∧
      t.receiveSlot 2 0 = ⟨.holding ⟨4, 120, 37, 0, some 900⟩, false, false, false, false⟩ ∧
      t.queue 4 = .live (queueOf 2 .cut 0 8 1 true none) ∧
      (t.front 2).result1 = .fetch ⟨37, 0x0501, 1, .filling, false, false⟩ := by
  refine ⟨⟨⟨rfl, rfl, rfl⟩, rfl⟩, ?_⟩
  decide +kernel

/-- R11, R53: words of node 120 that read corrected, and a queue of two nodes with threshold 2 that re-arms. -/
theorem witness_FetchDetachesTheHeadNode_corrected :
    let s := ((listed.setQueue 4 (.live (queueOf 2 .cut 2 8 2 false (some 120)))).putContent 120 ⟨37, [5]⟩).putNodeLink 120
      ⟨some 7, [1]⟩
    let t := after (exec (.fetchMessage 2 ⟨0, 4⟩) s)
    s.Ready 2 ∧ (s.contentWord 120).check = .corrected 37 ∧ (s.nodeLinkWord 120).check = .corrected (some 7) ∧
      t.queue 4 = .live { queueOf 2 .cut 1 8 2 true (some 120) with head := some 7 } ∧
      t.contentWord 120 = ⟨37, []⟩ ∧ (t.tracking .node).count = 2 := by
  refine ⟨⟨⟨rfl, rfl, rfl⟩, rfl⟩, ?_⟩
  decide +kernel

/-- R57, R58 and both together: the content word, the link word, and both words of node 120 lost. -/
theorem witness_FetchContainsNodeFaults :
    let c := listed.putContent 120 ⟨37, [0, 1]⟩
    let l := listed.putNodeLink 120 ⟨none, [0, 1]⟩
    let b := c.putNodeLink 120 ⟨none, [0, 1]⟩
    let t := after (exec (.fetchMessage 2 ⟨0, 4⟩) c)
    let u := after (exec (.fetchMessage 2 ⟨0, 4⟩) l)
    let v := after (exec (.fetchMessage 2 ⟨0, 4⟩) b)
    c.Ready 2 ∧ l.Ready 2 ∧ b.Ready 2 ∧ c.memoriesWf = true ∧ l.memoriesWf = true ∧ b.memoriesWf = true ∧
      (c.contentWord 120).check = .uncorrectable ∧ (l.nodeLinkWord 120).check = .uncorrectable ∧
      l.contentWord 120 = ⟨37, []⟩ ∧ t.pool.strandedNodes = 1 ∧ t.integrity.faults.map (·.base) = [.strand] ∧
      (u.queue 4).tag = .quarantined ∧ u.integrity.faults.map (·.cls) = [.nodeLink] ∧
      v.integrity.faults.map (fun y => (y.cls, y.base)) = [(.nodeContent, .quarantine), (.nodeLink, .quarantine)] := by
  refine ⟨⟨⟨rfl, rfl, rfl⟩, rfl⟩, ⟨⟨rfl, rfl, rfl⟩, rfl⟩, ⟨⟨rfl, rfl, rfl⟩, rfl⟩, ?_⟩
  decide +kernel

theorem witness_RewindStartsAgain :
    let s := reading (example49 64 1 2) 64 (some 900)
    s.Ready 2 ∧ s.Receives 2 0 ⟨4, 120, 37, 64, some 900⟩ (example49 64 1 2) ∧ (s.receiveSlot 2 1).phase = .idle ∧
      (after (exec (.rewindMessage 2 ⟨0, 0⟩) s)).receiveSlot 2 0 =
        ⟨.holding ⟨4, 120, 37, 0, some 900⟩, false, false, false, false⟩ := by
  refine ⟨⟨⟨rfl, rfl, rfl⟩, rfl⟩, ⟨by decide +kernel, by decide +kernel⟩, ?_⟩
  decide +kernel

/-- R112: node 120 joins the tail 1023 of the free list. -/
theorem witness_ReleaseGivesTheNodeBack :
    let s := reading (example49 64 1 2) 64 (some 900)
    let t := after (exec (.releaseMessage 2 ⟨0, 0⟩) s)
    s.Ready 2 ∧ s.Receives 2 0 ⟨4, 120, 37, 64, some 900⟩ (example49 64 1 2) ∧ s.memoriesWf = true ∧
      t.pool.freeNodes = 501 ∧ t.pool.nodeTail = some 120 ∧ t.nodeLinkWord 1023 = ⟨some 120, []⟩ ∧
      t.desc 37 = .live (example49 64 1 1) ∧ (t.receiveSlot 2 0).phase = .idle := by
  refine ⟨⟨⟨rfl, rfl, rfl⟩, rfl⟩, ⟨by decide +kernel, by decide +kernel⟩, ?_⟩
  decide +kernel

/-- R104: with L = 150 the word at offset 148 delivers its low half; at offset 64 the reader goes from cell 900 to 901. -/
theorem witness_ReadDeliversTheNextWord :
    let m := { example49 152 3 2 with state := .isSealed, final := some 150 }
    let s := (reading m 148 (some 902)).putPayload 902 5 ⟨0xAABBCCDD, []⟩
    let a := ((reading m 64 (some 900)).putPayload 901 0 ⟨0x11223344, []⟩)
    s.Serves 2 ∧ s.Receives 2 0 ⟨4, 120, 37, 148, some 902⟩ m ∧ s.payloadWord 902 5 = ⟨0xAABBCCDD, []⟩ ∧
      a.cellLinkWord 900 = ⟨some 901, []⟩ ∧
      ((after (exec (.receiveApertureRead 2 0 0) s)).front 2).answer = some (.okayRead 0x0000CCDD) ∧
      ((after (exec (.receiveApertureRead 2 0 0) a)).front 2).answer = some (.okayRead 0x11223344) ∧
      (after (exec (.receiveApertureRead 2 0 0) a)).receiveSlot 2 0 =
        ⟨.holding ⟨4, 120, 37, 68, some 901⟩, false, false, false, false⟩ := by
  refine ⟨⟨rfl, rfl, rfl⟩, ⟨by decide +kernel, by decide +kernel⟩, ?_⟩
  decide +kernel

/-- R11 in a delivery: the link word and the payload word read corrected. -/
theorem witness_ReadDeliversTheNextWord_corrected :
    let m := example49 152 3 2
    let s := ((reading m 64 (some 900)).putPayload 901 0 ⟨0x11223344, [9]⟩).putCellLink 900 ⟨some 901, [0]⟩
    let t := after (exec (.receiveApertureRead 2 0 0) s)
    s.Serves 2 ∧ s.Receives 2 0 ⟨4, 120, 37, 64, some 900⟩ m ∧ (s.cellLinkWord 900).check = .corrected (some 901) ∧
      (s.payloadWord 901 0).check = .corrected 0x11223344 ∧ (t.front 2).answer = some (.okayRead 0x11223344) ∧
      t.payloadWord 901 0 = ⟨0x11223344, []⟩ ∧ t.cellLinkWord 900 = ⟨some 901, []⟩ := by
  refine ⟨⟨rfl, rfl, rfl⟩, ⟨by decide +kernel, by decide +kernel⟩, ?_⟩
  decide +kernel

/-- Each read that reaches no memory, at its boundary (R105, R106, R109). -/
theorem witness_ReadsThatReachNoMemory :
    let answer := fun (m : Message) (o : Nat) =>
      ((after (exec (.receiveApertureRead 2 0 1) (reading m o none))).front 2).answer
    let reason := fun (m : Message) (o : Nat) =>
      ((after (exec (.receiveApertureRead 2 0 1) (reading m o none))).front 2).errorRecord
    let m := example49 152 3 2
    (reading m 152 none).Serves 2 ∧ (reading m 152 none).Receives 2 0 ⟨4, 120, 37, 152, none⟩ m ∧
      answer m 152 = some .retry ∧ answer { m with state := .isSealed, final := some 150 } 152 = some (.okayRead 0) ∧
      reason { m with state := .abandoned } 152 = some ⟨.abandoned, 0x2004⟩ ∧
      reason { m with poison := some 8 } 8 = some ⟨.poisoned, 0x2004⟩ ∧
      reason { m with poison := some 64, linkBroken := true } 64 = some ⟨.link, 0x2004⟩ ∧
      ((after (exec (.receiveApertureRead 0 1 0) run)).front 0).errorRecord = some ⟨.notHolding, 0x2400⟩ ∧
      ((after (exec (.receiveApertureWrite 0 1 255 7) run)).front 0).errorRecord = some ⟨.apertureWrite, 0x27FC⟩ := by
  refine ⟨⟨rfl, rfl, rfl⟩, ⟨by decide +kernel, by decide +kernel⟩, ?_⟩
  decide +kernel

/-- R107 at offset 4 of cell 900, R108 at offset 64 with cell 900's link word lost; the source is told. -/
theorem witness_FindingsMarkTheMessage :
    let m := example49 152 3 2
    let listen := fun s : State => { s with events := s.events.set 1 { EventPort.reset with enables := 0xFFF } }
    let s := listen ((reading m 4 (some 900)).putPayload 900 1 ⟨7, [0, 1]⟩)
    let b := listen ((reading m 64 (some 900)).putCellLink 900 ⟨some 901, [0, 1]⟩)
    let t := after (exec (.receiveApertureRead 2 0 0) s)
    let u := after (exec (.receiveApertureRead 2 0 0) b)
    s.Serves 2 ∧ b.Serves 2 ∧ s.memoriesWf = true ∧ b.memoriesWf = true ∧
      (s.payloadWord 900 1).check = .uncorrectable ∧ (b.cellLinkWord 900).check = .uncorrectable ∧
      t.desc 37 = .live { m with poison := some 4 } ∧
      (t.event 1).queue = [⟨.messagePoisoned, some 2, some 0x0501, 0x20⟩] ∧
      u.desc 37 = .live { m with poison := some 64, linkBroken := true } ∧
      (u.event 1).queue = [⟨.messagePoisoned, some 2, some 0x0501, 0x21⟩] := by
  refine ⟨⟨rfl, rfl, rfl⟩, ⟨rfl, rfl, rfl⟩, ?_⟩
  decide +kernel

/-- R107 step 2: the first word of cell 901 is lost; the slot keeps cell 900, from which the read advanced. -/
theorem witness_FindingsMarkTheMessage_afterAnAdvance :
    let m := example49 152 3 2
    let s := (reading m 64 (some 900)).putPayload 901 0 ⟨7, [0, 1]⟩
    let t := after (exec (.receiveApertureRead 2 0 0) s)
    s.Serves 2 ∧ s.memoriesWf = true ∧ s.Receives 2 0 ⟨4, 120, 37, 64, some 900⟩ m ∧
      (s.cellLinkWord 900).check = .clean (some 901) ∧ (s.payloadWord 901 0).check = .uncorrectable ∧
      t.receiveSlot 2 0 = ⟨.holding ⟨4, 120, 37, 64, some 900⟩, false, true, false, false⟩ ∧
      t.readData 2 = some 0 ∧ t.desc 37 = .live { m with poison := some 64 } := by
  refine ⟨⟨rfl, rfl, rfl⟩, by decide +kernel, ⟨by decide +kernel, by decide +kernel⟩, ?_⟩
  decide +kernel

/-- R11: one inverted bit in each kind of word, in canonical memories; R10: two give no value. -/
theorem witness_ReadsCorrectAndCount :
    let s := ((((run.putPayload 3 2 ⟨9, [4]⟩).putCellLink 3 ⟨none, [0]⟩).putContent 8 ⟨5, [1]⟩).putNodeLink 8 ⟨none, [0]⟩)
    let d := ((((run.putPayload 3 2 ⟨9, [4, 5]⟩).putCellLink 3 ⟨none, [0, 1]⟩).putContent 8 ⟨5, [1, 2]⟩).putNodeLink 8
      ⟨none, [0, 3]⟩)
    s.memoriesWf = true ∧ d.memoriesWf = true ∧ s.payloadWord 3 2 = ⟨9, [4]⟩ ∧ s.cellLinkWord 3 = ⟨none, [0]⟩ ∧
      s.contentWord 8 = ⟨5, [1]⟩ ∧ s.nodeLinkWord 8 = ⟨none, [0]⟩ ∧ d.contentWord 8 = ⟨5, [1, 2]⟩ ∧
      d.nodeLinkWord 8 = ⟨none, [0, 3]⟩ ∧ (s.readPayload 3 2).2 = some 9 ∧ (d.readPayload 3 2).2 = none ∧
      (d.readCellLink 3).2 = none ∧ (d.readNode 8).2 = (none, none) ∧
      ((s.readNode 8).1.tracking .node).count = 2 ∧ ((s.readPayload 3 2).1.tracking .payloadBank1).count = 1 := by
  decide +kernel

/-- A full fault list sets the full flag, and the report waits unlisted; the reports of one request stand together (R137, R141). A report
whose class gives NONE passes when its request completes; behind one that calls for a STOP it waits (R130). -/
theorem test_reports_wait_listed_or_not :
    let r : ErrorReport := ⟨.node, .content, 7, .fetch, 2, some 4, none⟩
    let made := fun p : Policy =>
      let s := (escalating .none [] [payloadRecord 0 .none, payloadRecord 1 .none, payloadRecord 2 .none]).setIntegrity
        { run.integrity with
          policy := p, faults := [payloadRecord 0 .none, payloadRecord 1 .none, payloadRecord 2 .none] }
      (((s.report r .quarantine).report { r with word := .link } .quarantine).completeRequest 0).integrity
    (made { Policy.reset with nodeContent := .stop }).waiting =
        [⟨.completed, [⟨.nodeContent, 2, some 3⟩, ⟨.nodeLink, 2, none⟩]⟩] ∧
      (made { Policy.reset with nodeLink := .fence }).waiting = [⟨.completed, [⟨.nodeLink, 2, none⟩]⟩] ∧
      (made Policy.reset).waiting = [] ∧ (made Policy.reset).full = true ∧ (made Policy.reset).faults.length = 4 ∧
      (made Policy.reset).nextSequence = 2 := by decide +kernel

/-! ### The management port -/

/-- R171: another target's address byte, and RESET_N, end the transaction; the words that follow are ignored. R172: the index byte. -/
theorem witness_TransactionsAddressIndexAndPartialWords :
    let cut := after (exec .resetNRelease (after (exec (.resetNAssert 0) (board run 0 0))))
    ¬run.Hears 0x39 ∧ i2cAddress (.i2cIndexByte 0x39 7) = some 0x39 ∧ run.Hears 0x38 ∧
      i2cData (.inject none ⟨0, 2, 1⟩) = some [0x00, 0x12, 0x00, 0x23] ∧ run.mgmt.transaction ≠ .write ∧
      (board run 0 0).AtWord ∧ (board run 0 0).mgmt.transaction ≠ .read ∧
      after (exec (.i2cIndexByte 0x39 7) (board run 0 0)) =
        (board run 0 0).setMgmt { (board run 0 0).mgmt with acknowledged := some false, transaction := .none } ∧
      cut.resetAsserted = false ∧ cut.mgmt.transaction = .none ∧
      after (exec (.managementRegisterWrite none ⟨1, 2, 3, 4⟩) cut) = cut.setMgmt { cut.mgmt with acknowledged := some false } ∧
      (after (exec (.i2cIndexByte 0x38 0xF4) run)).mgmt.pointer = 0xF4 ∧
      startingRow (.inject (some ⟨0x38, 0xF4⟩) ⟨0, 2, 1⟩) = some (⟨0x38, 0xF4⟩, .inject none ⟨0, 2, 1⟩) ∧
      (after (exec (.inject (some ⟨0x38, 0xF4⟩) ⟨0, 2, 1⟩) run)).arm = some ⟨.node, .double⟩ ∧
      (after (exec (.partialWord none (.two 1 2)) (board run 0 0))).mgmt.record = some ⟨.incomplete, 0xF4⟩ ∧
      (after (exec (.partialWord none (.two 1 2)) (board run 0 0))).mgmt.transaction = .none := by
  refine ⟨fun h => absurd h.2 (by decide), rfl, ⟨rfl, rfl⟩, by decide +kernel, by decide, ⟨rfl, rfl, rfl⟩, ?_⟩
  decide +kernel

/-- R173: index 0x00 reads the identification word, sent most significant byte first; an unassigned index reads 0. -/
theorem witness_ManagementReadsCaptureAndSend :
    let s := run.setMgmt { run.mgmt with pointer := 0x05 }
    let t := after (exec (.managementRegisterRead (some 0x38) 3) run)
    run.Hears 0x38 ∧ t.Sending ∧ decodeMgmtRegister run.mgmt.pointer = some .identification ∧
      decodeMgmtRegister s.mgmt.pointer = none ∧ t.mgmt.capture = some 0x2A412801 ∧
      t.mgmt.sent = [0x2A, 0x41, 0x28, 0x01] ∧ t.mgmt.pointer = 0x01 ∧
      (after (exec (.managementRegisterRead none 1) t)).mgmt.sent.length = 2 ∧
      (after (exec (.managementRegisterRead none 1) t)).mgmt.pointer = 0x01 ∧
      (after (exec (.managementUnmappedRead (some 0x38) 2) s)).mgmt.record = some ⟨.unmapped, 0x05⟩ ∧
      (after (exec (.managementUnmappedRead (some 0x38) 2) s)).mgmt.sent = [0, 0, 0] := by
  refine ⟨⟨rfl, rfl⟩, ⟨by decide +kernel, by decide +kernel⟩, ?_⟩
  decide +kernel

/-- Words of the management registers at chosen values (11.5, 11.6). -/
theorem witness_ManagementRegisterWords :
    let s := (escalating .stop [] [payloadRecord 9 .fence]).setPort 2 (.resetting ⟨.escalation, .fenced, 3, some 9, 9, false⟩)
    let a := { s with arm := some ⟨.node, .double⟩, lastInjection := some ⟨.node, .link, 120, .single⟩ }
    s.integrity.faults[(0 : Fin 4).val]? = some (payloadRecord 9 .fence) ∧ s.integrity.faults[(1 : Fin 4).val]? = none ∧
      s.mgmtRegister (.faultRecordA 0) = 0x3F240009 ∧ s.mgmtRegister (.faultRecordB 0) = 0x0C250007 ∧
      s.mgmtRegister (.teardown 2) = 0x00000937 ∧ s.mgmtRegister .policy = 0x00000022 ∧
      s.mgmtRegister .status = 0x1000FF01 ∧ a.mgmtRegister .arm = 0x00000121 ∧ s.mgmtRegister .arm = 0x00000130 ∧
      a.mgmtRegister .lastInjection = 0x00780F13 ∧ s.mgmtRegister .mintConditions = 0x00000009 ∧
      s.mgmtRegister .result = 0xFFFF00FF := by decide +kernel

theorem witness_ManagementWordsByIndex :
    let at_ := fun i : BitVec 8 => run.setMgmt { run.mgmt with transaction := .write, pointer := i }
    let w := fun i : BitVec 8 => after (exec (.managementRegisterWrite none ⟨0, 0, 1, 0x9A⟩) (at_ i))
    let b := board { State.reset with resetAsserted := false, mgmt := { Mgmt.reset with busy := true } } 0 0
    (at_ 0xF3).AtWord ∧ b.AtWord ∧ (at_ 0xF3).mgmt.pointer = 0xF0 + BitVec.ofNat 8 (3 : Fin 4).val ∧
      (w 0xF3).mgmt.params.get 3 = 0x0000019A ∧
      (after (exec (.mintNEnableWrite none ⟨0, 0, 0, 0x10⟩) (at_ 0x03))).mint = ⟨false, ⟨false, false, false, true⟩⟩ ∧
      (w 0x00).mgmt.record = some ⟨.readOnly, 0x00⟩ ∧ (w 0xFF).mgmt.record = some ⟨.unmapped, 0xFF⟩ ∧
      (w 0xFF).mgmt.pointer = 0x00 ∧ b.mgmt.pointer = 0xF4 ∧ b.mgmt.busy = true ∧ (board run 0 0).mgmt.busy = false ∧
      0x05#8 ∉ [0x01#8, 0x02, 0x03, 0x04, 0x10, 0x11, 0x12, 0x20, 0x21, 0x22, 0x23] ∧
      after (exec (.refusedBusy none 0x10 ⟨0, 0, 0⟩) b) = b.mgmtRefused ⟨0x10, ⟨0, 0, 0⟩⟩ .refusedBusy ∧
      after (exec (.managementCodeInvalid none 0x05 ⟨0, 0, 0⟩) (board run 0 0)) =
        (board run 0 0).mgmtRefused ⟨0x05, ⟨0, 0, 0⟩⟩ .refusedParam := by
  refine ⟨⟨rfl, rfl, rfl⟩, ⟨rfl, rfl, rfl⟩, ?_⟩
  decide +kernel

/-- R35, R38, R178 at their boundary values. -/
theorem witness_PartitionMarksAndTimeoutsAreSet :
    let good := (board run 0 0).setMgmt { (board run 0 0).mgmt with
      params := ⟨0x08000800, 0x00010000, 0x08000000, 0x00010000⟩ }
    let bad := (board run 0 0).setMgmt { (board run 0 0).mgmt with
      params := ⟨0x08000800, 0x00010001, 0x08000000, 0x00010000⟩ }
    let code := fun s : State => s.mgmt.result.result
    good.MgmtReady ∧ (board run 0x080007FF 0).MgmtReady ∧
      code (after (exec (.setPartition none ⟨0, 0, 0⟩) good)) = .ok ∧
      code (after (exec (.setPartition none ⟨0, 0, 0⟩) bad)) = .refusedParam ∧
      code (after (exec (.setPoolMarks none ⟨0, 0, 0⟩) (board run 0x080007FF 0))) = .ok ∧
      code (after (exec (.setPoolMarks none ⟨0, 0, 0⟩) (board run 0x08000800 0))) = .refusedParam ∧
      (after (exec (.setTimeout none ⟨3, 0, 0⟩) (board run 255 0))).timeouts.get 3 = 255 ∧
      code (after (exec (.setTimeout none ⟨3, 0, 0⟩) (board run 256 0))) = .refusedParam ∧
      code (after (exec (.setTimeout none ⟨4, 0, 0⟩) (board run 0 0))) = .refusedParam := by
  refine ⟨⟨⟨rfl, rfl, rfl⟩, rfl, rfl⟩, ⟨⟨rfl, rfl, rfl⟩, rfl, rfl⟩, ?_⟩
  decide +kernel

/-- R132, R138, R140, R15. -/
theorem witness_IntegrityCommandsTakeEffect :
    let s := board (run.report ⟨.node, .link, 7, .fetch, 2, some 4, none⟩ .quarantine) 0 0
    let code := fun s : State => s.mgmt.result.result
    s.MgmtReady ∧ (board run 0 0).MgmtReady ∧ s.integrity.faults ≠ [] ∧ run.integrity.faults = [] ∧
      (after (exec (.setPolicy none ⟨0, 4, 2⟩) s)).integrity.policy.nodeLink = .stop ∧
      code (after (exec (.setPolicy none ⟨0, 5, 2⟩) s)) = .refusedParam ∧
      code (after (exec (.setPolicy none ⟨0, 4, 3⟩) s)) = .refusedParam ∧
      (after (exec (.ackFault none ⟨0, 0, 0⟩) s)).integrity.faults = [] ∧
      (after (exec (.ackFault none ⟨0, 0, 0⟩) s)).mgmt.result = ⟨some 0x21, .ok, some 0⟩ ∧
      code (after (exec (.ackFault none ⟨0, 0, 0⟩) (board run 0 0))) = .refusedState ∧
      (after (exec (.inject none ⟨0, 2, 1⟩) s)).arm = some ⟨.node, .double⟩ ∧
      code (after (exec (.inject none ⟨0, 3, 0⟩) s)) = .refusedParam ∧
      code (after (exec (.clearCounters none ⟨0, 0, 0⟩) s)) = .ok := by
  refine ⟨⟨⟨rfl, rfl, rfl⟩, rfl, rfl⟩, ⟨⟨rfl, rfl, rfl⟩, rfl, rfl⟩, ?_⟩
  decide +kernel

/-- ACK_FAULT of the record of a waiting report, behind an unlisted one; and of a record whose report waits no longer (log 11). -/
theorem witness_IntegrityCommandsTakeEffect_waiting :
    let s := board (escalating .fence [waitingPayload none, waitingPayload (some 0)] [payloadRecord 1 .none]) 0 0
    let e := board (escalating .fence [waitingPayload none, waitingPayload (some 1)]
      [payloadRecord 0 .none, payloadRecord 1 .none]) 0 0
    let ack := fun s : State => (after (exec (.ackFault none ⟨0, 0, 0⟩) s)).integrity.waiting
    s.MgmtReady ∧ e.MgmtReady ∧ s.integrity.faults = payloadRecord 1 .none :: [] ∧
      ack s = [waitingPayload none, waitingPayload none] ∧ ack e = [waitingPayload none, waitingPayload (some 0)] := by
  refine ⟨⟨⟨rfl, rfl, rfl⟩, rfl, rfl⟩, ⟨⟨rfl, rfl, rfl⟩, rfl, rfl⟩, ?_⟩
  decide +kernel

/-- A SET_POLICY that gives NONE passes the reports that wait for it, their records showing NONE; a BEGIN in progress keeps its report; and
one that gives STOP acts on no report that has passed (R130, R132). -/
theorem witness_IntegrityCommandsTakeEffect_passes :
    let open1 : ReportingRequest := ⟨.inProgress 1, [⟨.payload, 1, none⟩]⟩
    let s := board (escalating .fence [open1, waitingPayload (some 0)] [payloadRecord 5 .fence]) 0 0
    let t := after (exec (.setPolicy none ⟨0, 0, 0⟩) s)
    let u := after (exec (.setPolicy none ⟨0, 0, 2⟩) (board (escalating .none [] [payloadRecord 5 .none]) 0 0))
    s.MgmtReady ∧ t.integrity.waiting = [open1] ∧ t.integrity.faults = [payloadRecord 5 .none] ∧
      u.integrity.policy.payload = .stop ∧ after (exec .stopRequest u) = u := by
  refine ⟨⟨⟨rfl, rfl, rfl⟩, rfl, rfl⟩, ?_⟩
  decide +kernel

/-- R150, R158 in each port state and in STOPPED. -/
theorem witness_PortCommandsFollowThePortState :
    let t := board (tearing run 3 2 none 0 false) 0 0
    let f := board (run.setPort 3 .fenced) 0 0
    let code := fun s : State => s.mgmt.result.result
    (board run 0 0).MgmtReady ∧ t.MgmtReady ∧ f.MgmtReady ∧ (board run.stopRequested 0 0).MgmtReady ∧
      (after (exec (.resetPort none ⟨3, 0, 0⟩) (board run 0 0))).port 3 =
        .resetting ⟨.resetPort, .active, 1, none, 0, false⟩ ∧
      (after (exec (.fencePort none ⟨3, 0, 0⟩) t)).port 3 = .resetting ⟨.portReset, .fenced, 2, none, 0, false⟩ ∧
      (after (exec (.unfencePort none ⟨3, 0, 0⟩) f)).port 3 = .active ∧
      ((after (exec (.unfencePort none ⟨3, 0, 0⟩) f)).event 3).queue = [⟨.portResetDone, none, none, 2⟩] ∧
      code (after (exec (.resetPort none ⟨4, 0, 0⟩) f)) = .refusedParam ∧
      code (after (exec (.resetPort none ⟨3, 0, 0⟩) f)) = .refusedState ∧
      code (after (exec (.unfencePort none ⟨3, 0, 0⟩) (board run.stopRequested 0 0))) = .refusedState := by
  refine ⟨⟨⟨rfl, rfl, rfl⟩, rfl, rfl⟩, ⟨⟨rfl, rfl, rfl⟩, rfl, rfl⟩, ⟨⟨rfl, rfl, rfl⟩, rfl, rfl⟩,
    ⟨⟨rfl, rfl, rfl⟩, rfl, rfl⟩, ?_⟩
  decide +kernel

/-! ### Timers, drains, escalations and teardowns -/

/-- R92: with T = 2 a count of 2 falls due at the next boundary; R93: the due slot is abandoned and the port told. -/
theorem witness_TimersAdvanceAndExpire :
    let s := { compose49 (example49 8 1 2) (.filling ⟨37, some 900, 2, false⟩) with timeouts := ⟨0, 2, 0, 0⟩ }
    let d := after (exec .unitBoundary s)
    let t := after (exec (.timerExpiry 1 2) d)
    d.composeSlot 1 2 = ⟨.filling ⟨37, some 900, 3, true⟩, false, false⟩ ∧
      d.Composes 1 2 ⟨37, some 900, 3, true⟩ (example49 8 1 2) ∧ d.Serves 1 ∧ d.memoriesWf = true ∧
      (s.composeSlot 1 2).phase = .filling ⟨37, some 900, 2, false⟩ ∧ after (exec (.timerExpiry 1 2) s) = s ∧
      t.desc 37 = .live { example49 8 1 1 with state := .abandoned } ∧
      (t.event 1).queue = [⟨.slotExpired, some 2, some 0x0501, 0⟩] := by
  refine ⟨by decide +kernel, ⟨by decide +kernel, .inl (by decide +kernel)⟩, ⟨by decide +kernel, by decide +kernel⟩, ?_⟩
  decide +kernel

/-- A queue of port 2 draining its one node for a CLOSE_QUEUE. -/
def draining : State :=
  (listed.setQueue 4 (.live { queueOf 2 .cut 1 8 1 false (some 120) with
    phase := .draining ⟨2, true, false, 0, 0⟩ })).setFront 2 { FrontEnd.reset with unit := .closing 4 }

/-- R61, R64: the last node drained closes the queue; R63: its link word lost strands it. -/
theorem witness_DrainStepsRemoveNodes :
    let l := draining.putNodeLink 120 ⟨none, [0, 1]⟩
    let c := (draining.putContent 120 ⟨37, [0, 1]⟩).setQueue 4 (.live { queueOf 2 .cut 2 8 1 false (some 120) with
      phase := .draining ⟨2, true, false, 0, 0⟩ })
    let t := after (exec (.drainStep 4) draining)
    let u := after (exec (.drainStep 4) l)
    let v := after (exec (.drainStep 4) c)
    draining.exchange = .running ∧ draining.memoriesWf = true ∧ l.memoriesWf = true ∧ c.memoriesWf = true ∧
      draining.contentWord 120 = ⟨37, []⟩ ∧ draining.nodeLinkWord 120 = ⟨none, []⟩ ∧
      draining.desc 37 = .live (example49 64 1 2) ∧ (c.contentWord 120).check = .uncorrectable ∧
      (l.nodeLinkWord 120).check = .uncorrectable ∧ t.queue 4 = .closed ∧ (t.front 2).unit = .idle ∧
      (t.front 2).result1 = .close 1 0 ∧ (t.event 2).queue = [⟨.queueClosed, some 4, none, 0⟩] ∧
      t.pool.freeNodes = 501 ∧ u.pool.strandedNodes = 1 ∧ (u.event 2).queue.length = 2 ∧
      v.pool.strandedNodes = 1 ∧ (v.queue 4).depth = 1 := by decide +kernel

/-- A drain with words that read corrected; the last node stranded, for a teardown of port 2 that waits for the close; and a node with
both words lost, the CONTENT report before the LINK report (R62 to R64, R141). -/
theorem witness_DrainStepsRemoveNodes_others :
    let torn := tearing (draining.setQueue 4 (.live { queueOf 2 .cut 1 8 1 false (some 120) with
      phase := .draining ⟨2, false, true, 0, 0⟩ })) 2 3 (some 4) 4 false
    let k := (draining.putContent 120 ⟨37, [2]⟩).putNodeLink 120 ⟨none, [2]⟩
    let c := torn.putContent 120 ⟨37, [0, 1]⟩
    let b := c.putNodeLink 120 ⟨none, [0, 1]⟩
    let t := after (exec (.drainStep 4) c)
    let u := after (exec (.drainStep 4) b)
    k.memoriesWf = true ∧ c.memoriesWf = true ∧ b.memoriesWf = true ∧ (k.contentWord 120).check = .corrected 37 ∧
      (k.nodeLinkWord 120).check = .corrected none ∧ (after (exec (.drainStep 4) k)).pool.freeNodes = 501 ∧
      (c.contentWord 120).check = .uncorrectable ∧ (c.nodeLinkWord 120).check = .clean none ∧ t.queue 4 = .closed ∧
      t.port 2 = .resetting ⟨.portReset, .active, 3, some 4, 4, true⟩ ∧ t.pool.strandedNodes = 1 ∧
      (t.event 2).queue = [⟨.queueClosed, some 4, none, 1⟩] ∧ (b.nodeLinkWord 120).check = .uncorrectable ∧
      u.integrity.waiting = [] ∧ u.port 2 = .resetting ⟨.portReset, .active, 3, some 4, 4, true⟩ := by decide +kernel

/-- R141, R142: a teardown drain that loses both words, content FENCE and link NONE: the FENCE is applied, the LINK report passes, and the
teardown goes on to its next queue, ending FENCED. -/
theorem test_a_fence_in_a_teardown_drain_lets_the_teardown_go_on :
    let s := (tearing (draining.setQueue 4 (.live { queueOf 2 .cut 1 8 1 false (some 120) with
      phase := .draining ⟨2, false, true, 0, 0⟩ })) 2 3 (some 4) 4 false).setIntegrity
        { run.integrity with policy := { Policy.reset with nodeContent := .fence } }
    let b := (s.putContent 120 ⟨37, [0, 1]⟩).putNodeLink 120 ⟨none, [0, 1]⟩
    let u := after (exec (.drainStep 4) b)
    let v := after (exec .fenceRequest u)
    u.integrity.waiting = [⟨.completed, [⟨.nodeContent, 2, some 0⟩, ⟨.nodeLink, 2, some 1⟩]⟩] ∧
      v.integrity.waiting = [] ∧ v.integrity.faults.map (·.escalation) = [.fence, .none] ∧
      (after (exec (.teardownCloseComplete 2) v)).port 2 =
        .resetting ⟨.portReset, .fenced, 3, none, 5, false⟩ := by decide +kernel

/-- R130, R133, R149: a waiting report whose class calls for FENCE, and for STOP, in each port state and exchange state. -/
theorem witness_EscalationsFenceOrStop :
    let w : Waiting := ⟨.payload, 2, some 0⟩
    let s := fun e : Escalation => escalating e [waitingPayload (some 0)] [payloadRecord 5 .none]
    (s .fence).integrity.waiting = [] ++ ⟨.completed, w :: []⟩ :: [] ∧ (s .fence).integrity.policy.of w.cls = .fence ∧
      (s .stop).integrity.policy.of w.cls = .stop ∧
      (s .fence).port 2 = .active ∧ ((tearing (s .fence) 2 1 none 0 false).port 2).tag = .resetting ∧
      ((s .fence).setPort 2 .fenced).port 2 = .fenced ∧ (s .stop).stopRequested.exchange ≠ .running ∧
      (after (exec .fenceRequest (s .fence))).port 2 = .resetting ⟨.escalation, .fenced, 1, none, 0, false⟩ ∧
      (after (exec .fenceRequest (s .fence))).integrity.faults = [payloadRecord 5 .fence] ∧
      (after (exec .stopRequest (s .stop))).exchange = .stopped ∧
      (after (exec .stopRequest (s .stop))).integrity.waiting = [] ∧
      after (exec .stopRequest (s .fence)) = s .fence := by decide +kernel

/-- R131, R132: a SET_POLICY between step 2 and step 3 decides; R135: an unlisted report changes no record; a BEGIN in progress and a
request that calls for the other escalation are passed over; R141: behind a FENCE the reports of the request whose class gives NONE
pass, and no teardown step of port 2 comes between two escalations of one request. -/
theorem witness_EscalationsFenceOrStop_order :
    let p := after (exec (.setPolicy none ⟨0, 0, 1⟩)
      (board (escalating .stop [waitingPayload (some 0)] [payloadRecord 5 .none]) 0 0))
    let four := [payloadRecord 0 .none, payloadRecord 1 .none, payloadRecord 2 .none, payloadRecord 3 .none]
    let u := escalating .fence [waitingPayload none] four
    let before : List ReportingRequest := [⟨.inProgress 1, [⟨.payload, 1, none⟩]⟩, ⟨.completed, [⟨.freeLink, 3, none⟩]⟩]
    let o := escalating .fence (before ++ [waitingPayload none]) four
    let n := escalating .fence [⟨.completed, [⟨.payload, 2, some 0⟩, ⟨.cellLink, 2, some 1⟩]⟩]
      [payloadRecord 5 .none, payloadRecord 6 .fence]
    let f := tearing (escalating .stop [⟨.escalating, [⟨.payload, 2, some 0⟩]⟩] [payloadRecord 5 .none]) 2 1 none 0 false
    (after (exec .fenceRequest p)).integrity.faults = [payloadRecord 5 .fence] ∧
      ((after (exec .fenceRequest p)).port 2).tag = .resetting ∧
      (after (exec .fenceRequest u)).integrity.faults = four ∧ ((after (exec .fenceRequest u)).port 2).tag = .resetting ∧
      (after (exec .fenceRequest o)).integrity.waiting = before ∧
      (after (exec .fenceRequest n)).integrity.waiting = [] ∧
      (after (exec .fenceRequest n)).integrity.faults = [payloadRecord 5 .fence, payloadRecord 6 .none] ∧
      after (exec (.teardownAbandon 2) f) = f ∧ (after (exec .stopRequest f)).exchange = .stopped := by decide +kernel

/-! ### A BEGIN of length 0 in two parts -/

/-- The BEGIN of worked example 4.9 with a declared length of 0, and queue 9 below its limit. -/
def zero49 : State := (params start49 1 0x00020501 0 0x0904).setQueue 9 (.live (queueOf 3 .store 1 2 2 true (some 7)))

/-- The same after its first link request. -/
def opened49 : State := after (exec (.beginMessage 1 ⟨⟨2, 0⟩, .first⟩) zero49)

/-- R77, R160: between the two link requests the slot is FILLING, nothing is answered, and no access of the port is taken; the second
part ends the BEGIN as the whole does where nothing came between. -/
theorem witness_BeginOfLengthZeroSeals_parts :
    let m := { example49 0 0 2 with declared := some 0 }
    (opened49.front 1).opening = some ⟨⟨0x10, ⟨2, 0⟩⟩, 2⟩ ∧ (opened49.front 1).answer = none ∧
      (opened49.composeSlot 1 2).phase = .filling ⟨37, none, 0, false⟩ ∧ opened49.desc 37 = .live m ∧
      opened49.memoriesWf = true ∧ (m.dests.map (·.queue)).Nodup ∧ 1 ≤ m.holders ∧ (start49.front 1).opening = none ∧
      after (exec (.accessDecodeError 1 0x0004 .read) opened49) = opened49 ∧
      WellFormed (.fetchMessage 1 ⟨0, 4⟩) = true ∧ actingAccess (.fetchMessage 1 ⟨0, 4⟩) = some (1, 0x000C) ∧
      after (exec (.fetchMessage 1 ⟨0, 4⟩) opened49) = opened49 ∧
      after (exec (.timerExpiry 1 2) opened49) = opened49 ∧
      after (exec (.beginMessage 1 ⟨⟨2, 0⟩, .second⟩) opened49) =
        after (exec (.beginMessage 1 ⟨⟨2, 0⟩, .whole⟩) zero49) := by decide +kernel

/-- R77: queue 9 is closed between the two link requests, so the seal drops its destination; the front end takes the whole result. -/
theorem test_a_close_between_the_link_requests_drops_the_destination :
    let s := after (exec (.closeQueue 3 ⟨0, 9⟩) opened49)
    let t := after (exec (.beginMessage 1 ⟨⟨2, 0⟩, .second⟩) s)
    (s.queue 9).tag = .draining ∧
      t.desc 37 = .live { example49 0 0 1 with
        state := .isSealed, declared := some 0, final := some 0, dests := [⟨4, .linked⟩, ⟨9, .droppedClosed⟩] } ∧
      (t.front 1).result1 = .message { desc := some 37, linked := some 1, dropped := some 1, holders := some 1
                                       sealOutcome := some .ok } ∧
      (t.front 1).opening = none ∧ (t.front 1).answer = some .okayWrite := by decide +kernel

/-- R147, R152: a RESTART completes the BEGIN first, and a teardown of its port waits for it. -/
theorem witness_RestartResetsAndRetains_opening :
    let s := board opened49 0 0
    let f := tearing opened49 1 1 none 0 false
    s.MgmtReady ∧ s.exchange = .running ∧ (s.front 1).opening = some ⟨⟨0x10, ⟨2, 0⟩⟩, 2⟩ ∧ (s.front 0).opening = none ∧
      after (exec (.restartExchange none ⟨0, 0, 0⟩) s) =
        after (exec (.restartExchange none ⟨0, 0, 0⟩) (after (exec (.beginMessage 1 ⟨⟨2, 0⟩, .second⟩) s))) ∧
      after (exec (.teardownAbandon 1) f) = f := by
  refine ⟨⟨⟨rfl, rfl, rfl⟩, rfl, rfl⟩, ?_⟩
  decide +kernel

/-- R96, R113: the last compose slot and the last receive slot of a port, IDLE and in use. -/
theorem witness_TeardownEmptiesTheSlots :
    let i := tearing run 1 1 none 3 false
    let a := tearing (compose49 (example49 8 1 2) (.filling ⟨37, some 900, 2, false⟩)) 1 1 none 2 false
    let j := tearing run 2 2 none 1 false
    let r := tearing (reading (example49 64 1 2) 8 (some 900)) 2 2 none 0 false
    i.TearsDown 1 ⟨.portReset, .active, 1, none, 3, false⟩ 1 ∧ a.TearsDown 1 ⟨.portReset, .active, 1, none, 2, false⟩ 1 ∧
      j.TearsDown 2 ⟨.portReset, .active, 2, none, 1, false⟩ 2 ∧ r.TearsDown 2 ⟨.portReset, .active, 2, none, 0, false⟩ 2 ∧
      a.Composes 1 2 ⟨37, some 900, 2, false⟩ (example49 8 1 2) ∧
      r.Receives 2 0 ⟨4, 120, 37, 8, some 900⟩ (example49 64 1 2) ∧ a.memoriesWf = true ∧ r.memoriesWf = true ∧
      (after (exec (.teardownAbandon 1) i)).port 1 = .resetting ⟨.portReset, .active, 2, none, 0, false⟩ ∧
      (after (exec (.teardownAbandon 1) a)).desc 37 = .live { example49 8 1 1 with state := .abandoned } ∧
      (after (exec (.teardownRelease 2) j)).port 2 = .resetting ⟨.portReset, .active, 3, none, 0, false⟩ ∧
      (after (exec (.teardownRelease 2) r)).pool.freeNodes = 501 := by
  refine ⟨⟨rfl, rfl, rfl, rfl, rfl⟩, ⟨rfl, rfl, rfl, rfl, rfl⟩, ⟨rfl, rfl, rfl, rfl, rfl⟩, ⟨rfl, rfl, rfl, rfl, rfl⟩,
    ⟨by decide +kernel, .inl (by decide +kernel)⟩, ⟨by decide +kernel, by decide +kernel⟩, ?_⟩
  decide +kernel

/-- R153 for each kind of queue: of another port, empty, with nodes, DRAINING, QUARANTINED, CLOSED; and the last number. -/
theorem witness_TeardownClosesTheQueues :
    let s := fun (p : Port) (q : Nat) => tearing start49 p 3 none q false
    let q9 := fun phase => (s 3 9).setQueue 9 (.live { queueOf 3 .store 2 2 2 false (some 7) with phase := phase })
    let waits : PortState := .resetting ⟨.portReset, .active, 3, some 9, 9, false⟩
    (s 3 9).TearsDown 3 ⟨.portReset, .active, 3, none, 9, false⟩ 3 ∧
      (after (exec (.teardownClose 3) (s 3 4))).port 3 = .resetting ⟨.portReset, .active, 3, none, 5, false⟩ ∧
      (after (exec (.teardownClose 2) (s 2 4))).queue 4 = .closed ∧ (after (exec (.teardownClose 3) (s 3 9))).port 3 = waits ∧
      (after (exec (.teardownClose 3) (q9 (.draining ⟨3, true, false, 1, 0⟩)))).port 3 = waits ∧
      (after (exec (.teardownClose 3) (q9 .quarantined))).pool.strandedNodes = 2 ∧
      (after (exec (.teardownClose 3) (s 3 31))).port 3 = .resetting ⟨.portReset, .active, 4, none, 0, false⟩ ∧
      (after (exec (.teardownCloseComplete 3) (tearing start49 3 3 (some 9) 9 true))).port 3 =
        .resetting ⟨.portReset, .active, 3, none, 10, false⟩ ∧
      after (exec (.teardownClose 3) (tearing start49 3 3 (some 9) 9 false)) = tearing start49 3 3 (some 9) 9 false := by
  refine ⟨⟨rfl, rfl, rfl, rfl, rfl⟩, ?_⟩
  decide +kernel

/-- R151, R154, R155. -/
theorem witness_PortResetStartsAndTeardownEnds :
    let s := tearing run 0 4 none 0 false
    let e := tearing run 0 5 none 0 false
    run.Ready 0 ∧ s.TearsDown 0 ⟨.portReset, .active, 4, none, 0, false⟩ 4 ∧
      e.TearsDown 0 ⟨.portReset, .active, 5, none, 0, false⟩ 5 ∧
      (run.setPort 0 (.resetting ⟨.fencePort, .fenced, 5, none, 0, false⟩)).TearsDown 0
        ⟨.fencePort, .fenced, 5, none, 0, false⟩ 5 ∧
      ((after (exec (.portReset 0 ⟨0, 0⟩) run)).front 0).unit = .resetting ∧
      ((after (exec (.teardownEventReset 0) s)).front 0).result0 = .ok ∧
      ((after (exec (.teardownEnd 0) e)).event 0).queue = [⟨.portResetDone, none, none, 0⟩] ∧
      (after (exec (.teardownEnd 0) (run.setPort 0 (.resetting ⟨.fencePort, .fenced, 5, none, 0, false⟩)))).port 0 =
        .fenced := by
  refine ⟨⟨⟨rfl, rfl, rfl⟩, rfl⟩, ⟨rfl, rfl, rfl, rfl, rfl⟩, ⟨rfl, rfl, rfl, rfl, rfl⟩, ⟨rfl, rfl, rfl, rfl, rfl⟩, ?_⟩
  decide +kernel

/-- R16, R112, R28: a RELEASE by the last holder returns node 120 with the first write of a node word, at its own link word, and splices
the chain with one cell link write: each takes an arm set for its memory, and one for payload stays. -/
theorem test_a_release_takes_the_arm_of_its_memory :
    let s := fun a : InjectTarget => { reading (example49 64 1 1) 64 (some 900) with arm := some ⟨a, .double⟩ }
    let t := fun a : InjectTarget => after (exec (.releaseMessage 2 ⟨0, 0⟩) (s a))
    (t .node).nodeLinkWord 120 = ⟨none, [0, 1]⟩ ∧ (t .node).nodeLinkWord 1023 = ⟨some 120, []⟩ ∧
      (t .node).lastInjection = some ⟨.node, .link, 120, .double⟩ ∧ (t .node).arm = none ∧
      (t .cellLink).cellLinkWord 2047 = ⟨some 900, [0, 1]⟩ ∧ (t .cellLink).nodeLinkWord 120 = ⟨none, []⟩ ∧
      (t .cellLink).lastInjection = some ⟨.cellLink, .link, 2047, .double⟩ ∧
      (t .payload).arm = some ⟨.payload, .double⟩ ∧ (t .payload).lastInjection = none := by decide +kernel

/-! ### The invariants have states and steps to speak of -/

theorem witness_StepTakesTheFrontCommandOrIdles : State.reset.pending = [] := rfl

theorem witness_EveryStepKeepsTablesBoundsAndControlStates_tables :
    start49.memoriesWf = true ∧
      step { start49 with pending := [.beginMessage 1 ⟨⟨2, 0⟩, .whole⟩] } =
        .next (after (exec (.beginMessage 1 ⟨⟨2, 0⟩, .whole⟩) start49)) :=
  ⟨by decide +kernel, rfl⟩

/-- The bounds hold in RUNNING with a report waiting, and a step leads on from there. -/
theorem witness_EveryStepKeepsTablesBoundsAndControlStates_bounds :
    let s := escalating .fence [waitingPayload (some 0)] [payloadRecord 0 .none]
    s.EventsBounded ∧ s.IntegrityBounded ∧ ∃ t, step { s with pending := [.unitBoundary] } = .next t := by
  refine ⟨fun p => ?_, ⟨by decide, by decide, by decide, fun m => ?_⟩, ⟨_, rfl⟩⟩
  · fin_cases p <;> exact ⟨by decide, by decide, by decide, by decide⟩
  · cases m <;> decide

theorem witness_EveryStepKeepsTablesBoundsAndControlStates_control :
    run.ControlLegal ∧ ∃ t, step { run with pending := [.unitBoundary] } = .next t := by
  refine ⟨⟨fun h => absurd h (by decide), fun h => absurd rfl h.1, fun h => absurd h (by decide), ?_⟩, ⟨_, rfl⟩⟩
  exact ⟨fun h => absurd h (by decide), fun h => absurd rfl h.2.1⟩

theorem witness_EveryStepConservesTheNodes :
    run.NodesAccounted ∧ ∃ t, step { run with pending := [.unitBoundary] } = .next t := by
  refine ⟨⟨by decide +kernel, ?_, fun h => absurd h (by decide), fun h => absurd rfl h.1⟩, ⟨_, rfl⟩⟩
  unfold State.NodesConserved
  decide +kernel

/-- RUNNING with one message in the block: descriptor 0 of port 1, FILLING in slot 2 with one cell, and listed by queue 4 with node 0. Cells
1 and 2 and nodes 1 and 2 are free, and the others stranded. -/
def counted : State :=
  let m := { example49 4 1 2 with first := some 0, last := some 0, dests := [⟨4, .linked⟩] }
  { run.setComposeSlot 1 2 ⟨.filling ⟨0, some 0, 0, false⟩, false, false⟩ with
    descriptors := [(0, .live m)]
    queues := [(4, .live (queueOf 2 .cut 1 8 1 false (some 0)))]
    cellLinks := [(0, ⟨none, []⟩), (2, ⟨none, []⟩)]
    nodeLinks := [(0, ⟨none, []⟩), (2, ⟨none, []⟩)]
    pool := { Pool.reset with
      fifo := (List.finRange 512).tail, cellHead := some 1, cellTail := some 2, freeCells := 2, strandedCells := 2045
      nodeHead := some 1, nodeTail := some 2, freeNodes := 2, strandedNodes := 1021 }
    shares := run.shares.set 1 { Share.reset with charged := 1 } }

theorem counted_desc (d : DescNo) (h : d ≠ 0) : counted.desc d = .free := by
  have : ¬(d.val = 0) := fun k => h (Fin.ext k)
  simp [counted, State.desc, Memory.get, this, descDefault]

theorem counted_queue (q : QueueNo) (h : q ≠ 4) : counted.queue q = .closed := by
  have : ¬(q.val = 4) := fun e => h (Fin.ext e)
  simp [counted, State.queue, Memory.get, this, queueDefault]

theorem counted_fifo : counted.pool.fifo = (List.finRange 512).tail := by simp only [counted]

theorem counted_accounted : counted.DescriptorsAccounted := by
  refine ⟨by decide +kernel, ?_, fun d => ?_, fun d m h => ?_, fun p c k h => ?_, fun d => ?_,
    fun h => absurd h (by decide), fun h => absurd rfl h.1⟩
  · rw [counted_fifo]
    exact (List.nodup_finRange 512).tail
  · rw [counted_fifo]
    by_cases h : d = 0
    · rw [h]
      decide +kernel
    · refine ⟨fun _ => counted_desc d h, fun _ => ?_⟩
      have : (List.finRange 512) = 0 :: (List.finRange 512).tail := by decide +kernel
      have k := List.mem_finRange d
      rw [this] at k
      exact (List.mem_cons.mp k).resolve_left h
  · by_cases k : d = 0
    · rw [k] at h
      cases h
      decide
    · rw [counted_desc d k] at h
      cases h
  · fin_cases p <;> fin_cases c <;> cases h
    exact ⟨_, rfl, rfl⟩
  · by_cases k : d = 0
    · rw [k]
      decide +kernel
    · have h0 : counted.composeHolds d = 0 := by
        have : ∀ e : DescNo, e ≠ 0 → counted.composeHolds e = 0 := by decide +kernel
        exact this d k
      have h1 : counted.receiveHolds d = 0 := rfl
      omega

/-- The premises of the counting statements hold, with a data write, a FETCH and a BEGIN waiting to be made. -/
theorem witness_EveryStepConservesTheCells :
    counted.DescriptorsAccounted ∧ (counted.pool.cellHead ≠ none → 1 ≤ counted.pool.freeCells) ∧
      counted.CellsConserved ∧ counted.ChargesCounted ∧
      ∃ t, step { counted with pending := [.composeApertureWrite 1 2 0 7] } = .next t := by
  refine ⟨counted_accounted, fun _ => by decide, ?_, ?_, ⟨_, rfl⟩⟩
  · unfold State.CellsConserved
    decide +kernel
  · unfold State.ChargesCounted
    decide +kernel

theorem witness_EveryStepKeepsTheHolderCounts :
    counted.DescriptorsAccounted ∧ counted.HeadsCounted ∧
      ∃ t, step { counted with pending := .fetchMessage 2 ⟨0, 4⟩ :: [] } = .next t ∧
        t.composeHolds 0 = 1 ∧ t.receiveHolds 0 = 1 := by
  refine ⟨counted_accounted, fun q lq h hd => ?_, ⟨after (exec (.fetchMessage 2 ⟨0, 4⟩) counted), rfl, ?_⟩⟩
  · by_cases k : q = 4
    · rw [k] at h
      cases h
      refine ⟨0, rfl, fun d hc => ?_⟩
      have : counted.contentWord 0 = ⟨0, []⟩ := rfl
      rw [this] at hc
      rcases hc with hc | hc <;> cases hc
      decide +kernel
    · rw [counted_queue q k] at h
      cases h
  · decide +kernel

/-- Descriptor 0 has cell 0 and every other descriptor none; cells 1 and 2 are free. -/
theorem witness_EveryStepKeepsTheCellListsLaidOut :
    counted.DescriptorsAccounted ∧ counted.CellsLaidOut ∧ counted.pool.cellHead ≠ none ∧
      ∃ t, step { counted with pending := [.composeApertureWrite 1 2 0 7] } = .next t := by
  refine ⟨counted_accounted, ⟨by decide +kernel, [1, 2], fun d => if d = 0 then [0] else [], ⟨rfl, rfl, rfl⟩, rfl, rfl,
    fun d h => ?_, fun d m h => ?_, by decide +kernel⟩, by decide, ⟨_, rfl⟩⟩
  · by_cases k : d = 0
    · subst k
      cases h
    · exact if_neg k
  · by_cases k : d = 0
    · subst k
      cases h
      exact ⟨⟨rfl, rfl⟩, rfl, rfl⟩
    · rw [counted_desc d k] at h
      cases h

/-- Queue 4 lists node 0 and every other queue none; nodes 1 and 2 are free. -/
theorem witness_EveryStepKeepsTheNodeListsLaidOut :
    counted.DescriptorsAccounted ∧ counted.NodesLaidOut ∧
      ∃ t, step { counted with pending := .fetchMessage 2 ⟨0, 4⟩ :: [] } = .next t := by
  refine ⟨counted_accounted, ⟨by decide +kernel, [1, 2], fun q => if q = 4 then [0] else [], ⟨rfl, rfl, rfl⟩, rfl, rfl,
    fun q h => ?_, fun q lq h => ?_, by decide +kernel, by decide +kernel⟩, ⟨_, rfl⟩⟩
  · by_cases k : q = 4
    · subst k
      cases h
    · exact if_neg k
  · by_cases k : q = 4
    · subst k
      cases h
      exact ⟨⟨rfl, rfl⟩, rfl, rfl⟩
    · rw [counted_queue q k] at h
      cases h

end Sys2Proof.Tests
end

section
/-!
SUPPORT. What every step keeps, walked through once. `Edits Q` says that the invariant `Q` survives every edit of a record that the lists of the
two link memories do not depend on; `Kept P Q` adds the operations that take, link and return cells and nodes, and the resets. From `Kept P Q`
follows that a step from a state with `P` ends in a state with `Q`, so each invariant is proved by its `Kept P Q` alone.
-/
namespace Sys2Proof.Machine

/-! ### The ends of a list, in the record that owns it -/

/-- Head, tail and length of a list that runs through a link memory. -/
structure ListEnds (α : Type) where
  head : Option α
  tail : Option α
  count : Nat

def ListEnds.empty {α : Type} : ListEnds α := ⟨none, none, 0⟩

/-- The nodes that a queue lists (R42); a CLOSED queue lists none. -/
def Queue.ends : Queue → ListEnds NodeNo
  | .closed => .empty
  | .live q => ⟨q.head, q.tail, q.depth⟩

/-- The chain of a descriptor (R18); a FREE one has none. -/
def Descriptor.ends : Descriptor → ListEnds CellNo
  | .free => .empty
  | .live m => ⟨m.first, m.last, m.cells⟩

/-- The descriptor that a compose slot holds (R71). -/
def ComposeSlot.holder (x : ComposeSlot) : Option DescNo := x.phase.composing.map (·.desc)

/-- The node that a receive slot holds, with the descriptor that it names (R97). -/
def ReceiveSlot.holder (x : ReceiveSlot) : Option (NodeNo × DescNo) := x.phase.holds.map fun h => (h.node, h.desc)

/-- Two pool records with the same two free lists. -/
def Pool.SameLists (a b : Pool) : Prop :=
  a.cellHead = b.cellHead ∧ a.cellTail = b.cellTail ∧ a.freeCells = b.freeCells ∧
    a.nodeHead = b.nodeHead ∧ a.nodeTail = b.nodeTail ∧ a.freeNodes = b.freeNodes

/-- A change of a message that leaves its chain and its holder count alone. -/
def Message.KeepsLists (f : Message → Message) : Prop :=
  ∀ m, (f m).first = m.first ∧ (f m).last = m.last ∧ (f m).cells = m.cells ∧ (f m).holders = m.holders

/-! ### Edits -/

/-- `Q` survives every edit that leaves the lists of cells and nodes, and who holds them, as they are. -/
structure Edits (Q : State → Prop) : Prop where
  front : ∀ {s : State} (p : Port) (x : FrontEnd), Q s → Q (s.setFront p x)
  event : ∀ {s : State} (p : Port) (x : EventPort), ((s.event p).Bounded → x.Bounded) → Q s → Q (s.setEvent p x)
  port : ∀ {s : State} (p : Port) (x : PortState), s.exchange = .running → Q s → Q (s.setPort p x)
  compose : ∀ {s : State} (x : Quad (Quad ComposeSlot)),
    (∀ p c, ((x.get p).get c).holder = (s.composeSlot p c).holder) → Q s → Q { s with compose := x }
  receive : ∀ {s : State} (p : Port) (r : ReceiveNo) (x : ReceiveSlot), x.holder = (s.receiveSlot p r).holder → Q s →
    Q (s.setReceiveSlot p r x)
  shares : ∀ {s : State} (x : Quad Share), Q s → Q { s with shares := x }
  integrity : ∀ {s : State} (x : Integrity), (s.IntegrityBounded → (s.setIntegrity x).IntegrityBounded) → Q s →
    Q (s.setIntegrity x)
  mgmt : ∀ {s : State} (x : Mgmt), x.busy = s.mgmt.busy → Q s → Q (s.setMgmt x)
  mint : ∀ {s : State} (x : MintEnables), Q s → Q { s with mint := x }
  timeouts : ∀ {s : State} (x : Quad Nat), Q s → Q { s with timeouts := x }
  arm : ∀ {s : State} (a : Option Arm) (l : Option InjectionRecord), Q s → Q { s with arm := a, lastInjection := l }
  fresh : ∀ {s : State} (n : Nat), Q s → Q { s with fresh := n }
  pool : ∀ {s : State} (x : Pool), x.SameLists s.pool → Q s → Q (s.setPool x)
  queue : ∀ {s : State} (q : QueueNo) (x : Queue), (x.ends = (s.queue q).ends ∨ x.ends = .empty) → Q s →
    Q (s.setQueue q x)
  message : ∀ {s : State} (d : DescNo) (f : Message → Message), Message.KeepsLists f → Q s → Q (s.updMessage d f)
  payload : ∀ {s : State} (c : CellNo) (w : Fin 16) (x : Stored Word), Q s → Q (s.putPayload c w x)
  readCellLink : ∀ {s : State} (c : CellNo), Q s → Q (s.readCellLink c).1

namespace Edits

variable {Q : State → Prop} (E : Edits Q) {s : State}

include E

theorem share (p : Port) (x : Share) (h : Q s) : Q (s.setShare p x) := E.shares _ h

theorem arrive (p : Port) (x : EventEntry) (h : Q s) : Q (s.sendEvent p x) := E.event p _ (fun b => b.arrive x) h

/-- A compose slot that goes on holding the same descriptor. -/
theorem composeSlot {p : Port} {c : ComposeNo} (x : ComposeSlot) (hx : x.holder = (s.composeSlot p c).holder)
    (h : Q s) : Q (s.setComposeSlot p c x) := by
  refine E.compose _ (fun q e => ?_) h
  show ((s.setComposeSlot p c x).composeSlot q e).holder = _
  by_cases hq : (q, e) = (p, c)
  · cases hq
    rw [State.composeSlot_setComposeSlot_self, hx]
  · rw [State.composeSlot_setComposeSlot_ne _ hq]

/-- Waiting reports that are among those before, beside a fault list of the same length. -/
theorem quiet_integrity {x : Integrity} (q : Quiet s (s.setIntegrity x)) (h : Q s) : Q (s.setIntegrity x) :=
  E.integrity x q.integrityBounded h

theorem report (r : ErrorReport) (b : BaseAction) (h : Q s) : Q (s.report r b) :=
  E.quiet_integrity (Quiet.refl.report r b) h

theorem completeRequest (n : Nat) (h : Q s) : Q (s.completeRequest n) :=
  E.quiet_integrity (Quiet.refl.completeRequest n) h

theorem countCorrection (m : MemoryName) (h : Q s) : Q (s.countCorrection m) :=
  E.quiet_integrity (Quiet.refl.count m) h

theorem readPayload (c : CellNo) (w : Fin 16) (h : Q s) : Q (s.readPayload c w).1 := by
  unfold State.readPayload
  split
  · exact h
  · exact E.countCorrection _ (E.payload c w _ h)
  · exact h

theorem writePayload (c : CellNo) (w : Fin 16) (v : Word) (h : Q s) : Q (s.writePayload c w v) := by
  obtain ⟨x, y, e⟩ := s.takeArm_footprint .payload (bankOf c) (.payload w) c.val
  exact E.payload c w _ (e ▸ E.arm x y h)

/-! ### Queues -/

theorem strandNodes (k : Nat) (h : Q s) : Q (s.strandNodes k) := E.pool _ ⟨rfl, rfl, rfl, rfl, rfl, rfl⟩ h

theorem closeRecord (q : QueueNo) (p : Port) (k : Nat) (h : Q s) : Q (s.closeRecord q p k) :=
  E.arrive _ _ (E.queue q .closed (.inr rfl) h)

theorem closeAtOnce (q : QueueNo) (lq : LiveQueue) (h : Q s) : Q (s.closeAtOnce q lq) := by
  unfold State.closeAtOnce
  split
  · exact E.closeRecord _ _ _ (E.strandNodes _ h)
  all_goals exact E.closeRecord _ _ _ h

theorem quarantine {q : QueueNo} {lq : LiveQueue} (k : s.queue q = .live lq) (h : Q s) : Q (s.quarantine q lq) :=
  E.arrive _ _ (E.queue q _ (.inl (by rw [k]; rfl)) h)

theorem completeCommand (p : Port) (q : QueueNo) (a b : Nat) (h : Q s) : Q (s.completeCommand p q a b) := by
  unfold State.completeCommand
  split_ifs
  · exact E.front _ _ h
  · exact h

theorem completeTeardown (p : Port) (q : QueueNo) (r : s.exchange = .running) (h : Q s) :
    Q (s.completeTeardown p q) := by
  unfold State.completeTeardown
  split
  · split_ifs
    · exact E.port _ _ r h
    · exact h
  all_goals exact h

theorem finishClose (q : QueueNo) (p : Port) (c : CloseRecord) (r : s.exchange = .running) (h : Q s) :
    Q (s.finishClose q p c) := by
  have h1 := E.closeRecord q p c.stranded h
  have r1 : (s.closeRecord q p c.stranded).exchange = .running := r
  have h2 : Q (if c.agent then (s.closeRecord q p c.stranded).completeCommand p q c.drained c.stranded
      else s.closeRecord q p c.stranded) := by
    split_ifs
    · exact E.completeCommand _ _ _ _ h1
    · exact h1
  have r2 : (if c.agent then (s.closeRecord q p c.stranded).completeCommand p q c.drained c.stranded
      else s.closeRecord q p c.stranded).exchange = .running := by
    split_ifs
    · exact (Quiet.refl.completeCommand p q c.drained c.stranded).exchange.trans r1
    · exact r1
  unfold State.finishClose
  dsimp only
  split
  · exact E.completeTeardown _ _ r2 h2
  · exact h2

theorem reportBroken (n : NodeNo) (c : Option DescNo) (a : ReadAccess) (p : Port) (q : QueueNo) (h : Q s) :
    Q (s.reportBroken n c a p q) := by
  unfold State.reportBroken
  split
  · exact E.report _ _ (E.report _ _ h)
  · exact E.report _ _ h

/-! ### Ports -/

theorem startTeardown (p : Port) (o : TeardownOrigin) (e : TeardownEnd) (r : s.exchange = .running) (h : Q s) :
    Q (s.startTeardown p o e) := E.port _ _ r (E.share _ _ h)

theorem fenceBy (p : Port) (o : TeardownOrigin) (r : s.exchange = .running) (h : Q s) : Q (s.fenceBy p o) := by
  unfold State.fenceBy
  split
  · exact E.startTeardown _ _ _ r h
  · exact E.port _ _ r h
  · exact h

/-! ### Accesses of an agent port -/

theorem answer (p : Port) (a : Answer) (h : Q s) : Q (s.answer p a) := E.front _ _ h

theorem answerError (p : Port) (a : BitVec 16) (r : ErrorReason) (h : Q s) : Q (s.answerError p a r) := E.front _ _ h

/-- An acting access is answered, or its target runs on the state as it is, in RUNNING. -/
theorem acting (p : Port) (a : BitVec 16) {f : State → State} (h : Q s) (hf : s.exchange = .running → Q (f s)) :
    Q (s.acting p a f) := by
  unfold State.acting State.oneAccess
  split
  · exact h
  · dsimp only
    split <;> rename_i r
    · exact E.answer _ _ h
    · exact E.answer _ _ h
    · exact E.answerError _ _ _ h
    · split
      · exact E.answer _ _ h
      · exact E.answerError _ _ _ h
      · exact hf r

theorem commandAccess (p : Port) {f : State → State} (h : Q s) (hf : s.exchange = .running → Q (f s)) :
    Q (s.commandAccess p f) := by
  refine E.acting p _ h fun r => ?_
  split
  · exact hf r
  all_goals exact E.answer _ _ h

theorem takeCommand (p : Port) (c : CommandWord) {f : State → CommandOutcome} (h : Q s)
    (hf : s.exchange = .running → Q (f s).state) : Q (s.takeCommand p c f) :=
  E.commandAccess p h fun r => E.front _ _ (hf r)

/-! ### Queue commands -/

theorem openQueue (p : Port) (f : CommandFields) (h : Q s) : Q (openQueue p f s).state := by
  unfold Machine.openQueue
  split
  · exact h
  · split
    · exact h
    · dsimp only
      split
      · split_ifs
        · exact h
        · exact E.queue _ _ (.inr rfl) h
      · exact h

theorem modifyQueue (p : Port) (f : CommandFields) (h : Q s) : Q (modifyQueue p f s).state := by
  unfold Machine.modifyQueue
  split
  · exact h
  · split
    · exact h
    · rename_i lq k
      split_ifs
      · exact h
      · split
        · exact h
        · exact h
        · dsimp only
          split
          · exact h
          · split_ifs
            · exact h
            · have hq := E.queue _ (.live (lq.modified (queueParams (s.front p).params) ‹_›).afterModify)
                (.inl (by rw [k]; rfl)) h
              unfold modifyTaken
              dsimp only
              split_ifs
              · exact E.arrive _ _ hq
              · exact hq

theorem closeQueue (p : Port) (f : CommandFields) (h : Q s) : Q (closeQueue p f s).state := by
  unfold Machine.closeQueue
  split
  · exact h
  · split
    · exact h
    · rename_i lq k
      split
      · exact h
      · split
        · exact h
        · exact E.closeAtOnce _ _ h
        · split_ifs
          · exact E.closeAtOnce _ _ h
          · exact E.queue _ _ (.inl (by rw [k]; rfl)) h

omit E in
theorem queryQueue_state (f : CommandFields) : (queryQueue f s).state = s := by
  unfold Machine.queryQueue
  split
  all_goals rfl

/-! ### The receive aperture, REWIND, the event registers -/

theorem rewindMessage (p : Port) (f : CommandFields) (h : Q s) : Q (rewindMessage p f s).state := by
  unfold Machine.rewindMessage
  split
  · exact h
  · split <;> rename_i k
    · exact h
    · exact E.receive _ _ _ (by rw [ReceiveSlot.holder, ReceiveSlot.holder, k]; rfl) h

theorem currentCell (x : Holding) (m : Message) (h : Q s) : Q (currentCell s x m).1 := by
  unfold Machine.currentCell
  split
  · exact h
  · exact h
  · exact E.fresh _ h

theorem findCell (x : Holding) (c : CellNo) (h : Q s) : Q (findCell s x c).1 := by
  have k := E.readCellLink c h
  unfold Machine.findCell
  split_ifs
  · split <;> rename_i e <;> rw [e] at k
    · exact k
    · exact E.fresh _ k
    · exact k
  · exact h

omit E in
theorem keepsLists_poisonAt (o : Nat) : Message.KeepsLists (Message.poisonAt o) := fun _ => ⟨rfl, rfl, rfl, rfl⟩

omit E in
theorem keepsLists_breakAt (o : Nat) : Message.KeepsLists (Message.breakAt o) := fun _ => ⟨rfl, rfl, rfl, rfl⟩

theorem foundPoison (p : Port) (r : ReceiveNo) (a : BitVec 16) (x : Holding) (m : Message) (c : CellNo) (w : Fin 16)
    (h : Q s) : Q (foundPoison s p r a x m c w) :=
  E.answerError _ _ _ (E.arrive _ _ (E.message _ _ (keepsLists_poisonAt _) (E.receive _ _ _ rfl (E.report _ _ h))))

theorem foundBreak (p : Port) (r : ReceiveNo) (a : BitVec 16) (x : Holding) (m : Message) (c : CellNo)
    (h : Q s) : Q (foundBreak s p r a x m c) :=
  E.answerError _ _ _ (E.arrive _ _ (E.message _ _ (keepsLists_breakAt _) (E.receive _ _ _ rfl (E.report _ _ h))))

omit E in
/-- Finding the cell and reading the word leave the receive slots alone. -/
theorem receive_of_deliver_reads (x : Holding) (m : Message) (c0 : CellNo) (s0 s1 : State) (c : CellNo) (w : Fin 16)
    (o : Option CellNo) (h0 : Machine.currentCell s x m = (s0, c0)) (h1 : Machine.findCell s0 x c0 = (s1, o)) :
    (s1.readPayload c w).1.receive = s.receive := by
  have e0 : s0.receive = s.receive := by
    have := congrArg (fun y => y.1.receive) h0
    rw [← this]
    unfold Machine.currentCell
    split <;> rfl
  have e1 : s1.receive = s0.receive := by
    have := congrArg (fun y => y.1.receive) h1
    rw [← this]
    obtain ⟨l, i, k⟩ := s0.readCellLink_footprint c0
    unfold Machine.findCell
    split_ifs
    · split <;> rename_i e <;> rw [e] at k
      all_goals exact (congrArg State.receive k :)
    · rfl
  obtain ⟨l, i, k⟩ := s1.readPayload_footprint c w
  rw [k]
  exact e1.trans e0

theorem deliver (p : Port) (r : ReceiveNo) (a : BitVec 16) {x : Holding} (m : Message)
    (hx : (s.receiveSlot p r).phase = .holding x) (h : Q s) : Q (deliver s p r a x m) := by
  have k := E.currentCell x m h
  unfold Machine.deliver
  split
  rename_i s0 c0 e0
  rw [e0] at k
  have k1 := E.findCell x c0 k
  split <;> rename_i e1 <;> rw [e1] at k1
  · exact E.foundBreak _ _ _ _ _ _ k1
  · rename_i s1 c
    dsimp only
    have k2 := E.readPayload c (Fin.ofNat 16 (x.offset % 64 / 4)) k1
    have er := receive_of_deliver_reads x m c0 s0 s1 c (Fin.ofNat 16 (x.offset % 64 / 4)) _ e0 e1
    split <;> rename_i e2 <;> rw [e2] at k2 er
    · exact E.foundPoison _ _ _ _ _ _ _ k2
    · refine E.answer _ _ (E.receive _ _ _ ?_ k2)
      rw [State.receiveSlot_of_receive er, ReceiveSlot.holder, ReceiveSlot.holder, hx]
      rfl

theorem dataRead (p : Port) (r : ReceiveNo) (a : BitVec 16) (h : Q s) : Q (dataRead p r a s) := by
  unfold Machine.dataRead
  split
  · exact E.answerError _ _ _ h
  · rename_i x hx
    dsimp only
    split_ifs
    · unfold Machine.poisonedRead
      split_ifs
      all_goals exact E.answerError _ _ _ (E.receive _ _ _ rfl h)
    · unfold Machine.readAtEnd
      split
      · exact E.answer _ _ (E.receive _ _ _ rfl h)
      · exact E.answer _ _ h
      · exact E.answerError _ _ _ (E.receive _ _ _ rfl h)
    · exact E.completeRequest _ (E.deliver _ _ _ _ hx h)

omit E in
/-- A pop keeps the bounds: the overflow flag goes with the last entry (R118, R120). -/
theorem bounded_pop {e : EventPort} {x : EventEntry} {xs : List EventEntry} (hq : e.queue = x :: xs)
    (t : Option (BitVec 16)) (h : e.Bounded) :
    EventPort.Bounded { e with queue := xs, overflow := e.overflow && !xs.isEmpty, tagLatch := t } := by
  obtain ⟨h1, _, h3, h4⟩ := h
  rw [hq, List.length_cons] at h1
  refine ⟨by show xs.length ≤ _; omega, fun ho => ?_, h3, h4⟩
  show xs ≠ []
  rintro rfl
  simp at ho

theorem popEvent (p : Port) (h : Q s) : Q (popEvent p s) := by
  unfold Machine.popEvent
  dsimp only
  split <;> rename_i hq
  · exact E.answer _ _ (E.event p _ (fun b => b) h)
  · exact E.answer _ _ (E.event p _ (bounded_pop hq _) h)

omit E in
/-- Whatever a write sets, the two fixed kinds stay enabled (R117). -/
theorem bounded_enables {e : EventPort} (data : Word) (h : e.Bounded) :
    EventPort.Bounded { e with enables := enablesOf data } := by
  obtain ⟨h1, h2, _, _⟩ := h
  refine ⟨h1, h2, ?_, ?_⟩
  · show (BitVec.ofNat 12 (bits data 0 12) ||| 0xC00).getLsbD 10 = true
    simp
  · show (BitVec.ofNat 12 (bits data 0 12) ||| 0xC00).getLsbD 11 = true
    simp

theorem writeEnables (p : Port) (data : Word) (h : Q s) : Q (writeEnables p data s) :=
  E.answer _ _ (E.event p _ (bounded_enables data) h)

theorem writeInterrupt (p : Port) (data : Word) (h : Q s) : Q (writeInterrupt p data s) :=
  E.answer _ _ (E.event p _ (fun b => b) h)

omit E in
theorem bounded_reset : EventPort.reset.Bounded := ⟨by decide, by decide, by decide, by decide⟩

/-! ### Management owners that change no list -/

omit E in
theorem portCommand (f : MgmtFields) {act : Port → MgmtOutcome} (h : Q s)
    (hf : s.exchange = .running → ∀ p, Q (act p).state) : Q (portCommand f s act).state := by
  unfold Machine.portCommand
  split
  · exact h
  · split <;> rename_i r
    · exact hf r _
    all_goals exact h

theorem resetPortOwner (f : MgmtFields) (h : Q s) : Q (resetPortOwner f s).state := by
  refine portCommand f h fun r p => ?_
  split
  · exact E.startTeardown _ _ _ r h
  all_goals exact h

theorem fencePortOwner (f : MgmtFields) (h : Q s) : Q (fencePortOwner f s).state := by
  refine portCommand f h fun r p => ?_
  split
  · exact E.fenceBy _ _ r h
  · exact E.fenceBy _ _ r h
  · exact h

theorem unfencePortOwner (f : MgmtFields) (h : Q s) : Q (unfencePortOwner f s).state := by
  refine portCommand f h fun r p => ?_
  split
  · exact E.arrive _ _ (E.port _ _ r h)
  all_goals exact h

theorem setPartitionOwner (h : Q s) : Q (setPartitionOwner s).state := by
  unfold Machine.setPartitionOwner
  dsimp only
  split_ifs
  · exact h
  · exact E.shares _ h

theorem setPoolMarksOwner (h : Q s) : Q (setPoolMarksOwner s).state := by
  unfold Machine.setPoolMarksOwner
  dsimp only
  split_ifs
  · exact h
  · exact E.pool _ ⟨rfl, rfl, rfl, rfl, rfl, rfl⟩ h

theorem setTimeoutOwner (f : MgmtFields) (h : Q s) : Q (setTimeoutOwner f s).state := by
  unfold Machine.setTimeoutOwner
  split
  · exact h
  · dsimp only
    split_ifs
    · exact h
    · exact E.timeouts _ h

omit E in
/-- The requests and records after a SET_POLICY (R132). -/
theorem bounded_setPolicy (c : FaultClass) (e : Escalation) (h : s.IntegrityBounded) :
    (s.setIntegrity (s.integrity.setPolicy c e)).IntegrityBounded := by
  have b : (s.setIntegrity { s.integrity with
      waiting := s.integrity.waiting.flatMap (requestUnder (s.integrity.policy.put c e))
      faults := shownIn s.integrity.faults (s.integrity.waiting.flatMap
        (passingUnder (s.integrity.policy.put c e))) .none }).IntegrityBounded := by
    refine h.requests (length_shownIn _ _ _) fun g hg w hw => ?_
    obtain ⟨g0, h0, hg0⟩ := List.mem_flatMap.mp hg
    refine ⟨g0, h0, ?_⟩
    unfold requestUnder at hg0
    split at hg0
    · rw [List.mem_singleton.mp hg0] at hw
      exact hw
    all_goals
      rw [Quiet.mem_requestOf hg0] at hw
      exact (List.dropWhile_sublist _).subset hw
  have k : s.integrity.setPolicy c e = { s.integrity with
      policy := s.integrity.policy.put c e
      waiting := s.integrity.waiting.flatMap (requestUnder (s.integrity.policy.put c e))
      faults := shownIn s.integrity.faults (s.integrity.waiting.flatMap
        (passingUnder (s.integrity.policy.put c e))) .none } := by
    rw [Integrity.setPolicy]
    dsimp only
    rw [passRequests_eq]
  rw [k]
  exact b

theorem setPolicyOwner (f : MgmtFields) (h : Q s) : Q (setPolicyOwner f s).state := by
  unfold Machine.setPolicyOwner
  split
  · exact E.integrity _ (bounded_setPolicy _ _) h
  · exact h

omit E in
/-- The records move up by one, and so do the places that the waiting reports know (R138). -/
theorem bounded_ack {r : FaultRecord} {rs : List FaultRecord} (hf : s.integrity.faults = r :: rs)
    (h : s.IntegrityBounded) : (s.setIntegrity { s.integrity with
      faults := rs, full := s.integrity.full && !rs.isEmpty
      waiting := s.integrity.waiting.map fun g => { g with reports := g.reports.map (·.acknowledge) } }).IntegrityBounded := by
  obtain ⟨h1, hw, _, h3⟩ := h
  rw [hf] at h1 hw
  refine ⟨(Nat.le_succ _).trans h1, fun g hg w hm k hk => ?_, fun hn => ?_, h3⟩
  · obtain ⟨g0, h0, rfl⟩ := List.mem_map.mp hg
    obtain ⟨w0, hm0, rfl⟩ := List.mem_map.mp hm
    have := hw g0 h0 w0 hm0 (k + 1)
    unfold Waiting.acknowledge at hk
    dsimp only at hk
    split at hk <;> rename_i e <;> cases hk
    exact Nat.lt_of_succ_lt_succ (this e)
  · show rs ≠ []
    rintro rfl
    simp [State.setIntegrity] at hn

theorem ackFaultOwner (h : Q s) : Q (ackFaultOwner s).state := by
  unfold Machine.ackFaultOwner
  split <;> rename_i hf
  · exact h
  · exact E.integrity _ (bounded_ack hf) h

omit E in
theorem bounded_cleared (h : s.IntegrityBounded) :
    (s.setIntegrity { s.integrity with tracking := .all ⟨0, false⟩ }).IntegrityBounded :=
  ⟨h.1, h.2.1, h.2.2.1, fun m => by
    show ((Quad.all (⟨0, false⟩ : Tracking)).get m.index).count ≤ 255
    rw [Quad.get_all]
    exact Nat.zero_le _⟩

theorem clearCountersOwner (h : Q s) : Q (clearCountersOwner s).state :=
  E.shares _ (E.integrity _ bounded_cleared h)

theorem injectOwner (f : MgmtFields) (h : Q s) : Q (injectOwner f s).state := by
  unfold Machine.injectOwner
  split
  · exact E.arm _ _ h
  · exact h

/-! ### Escalations -/

omit E in
/-- The requests and records that an escalation leaves are among those before. -/
theorem escalate_kept {table : Policy} {e : Escalation} {gs : List ReportingRequest} {fs : List FaultRecord}
    {x : Waiting × List ReportingRequest × List FaultRecord} (h : escalate table e gs fs = some x) :
    x.2.2.length = fs.length ∧ ∀ g ∈ x.2.1, ∀ w ∈ g.reports, ∃ y ∈ gs, w ∈ y.reports := by
  induction gs generalizing x with
  | nil => cases h
  | cons g gs ih =>
    have later : ∀ {z}, (escalate table e gs fs).map (fun x => (x.1, g :: x.2.1, x.2.2)) = some z →
        z.2.2.length = fs.length ∧ ∀ y ∈ z.2.1, ∀ w ∈ y.reports, ∃ y ∈ g :: gs, w ∈ y.reports := by
      intro z hz
      obtain ⟨y, hy, rfl⟩ := Option.map_eq_some_iff.mp hz
      refine ⟨(ih hy).1, fun a ha w hw => ?_⟩
      rcases List.mem_cons.mp ha with rfl | ha
      · exact ⟨a, List.mem_cons_self, hw⟩
      · obtain ⟨b, hb, hwb⟩ := (ih hy).2 a ha w hw
        exact ⟨b, List.mem_cons_of_mem _ hb, hwb⟩
    rw [escalate] at h
    dsimp only at h
    split at h
    · exact later h
    · split_ifs at h
      · cases h
        simp only [passReports_eq, remaining_eq, Waiting.settle_eq, length_shownIn]
        refine ⟨trivial, fun a ha w hw => ?_⟩
        rcases List.mem_append.mp ha with ha | ha
        · rw [Quiet.mem_requestOf ha] at hw
          exact ⟨g, List.mem_cons_self, List.mem_of_mem_tail ((List.dropWhile_sublist _).subset hw)⟩
        · exact ⟨a, List.mem_cons_of_mem _ ha, hw⟩
      · exact later h

theorem escalation {e : Escalation} {p : Port} {t : State} (k : s.escalation e = some (p, t)) (h : Q s) : Q t := by
  obtain ⟨x, hx, hp⟩ := Option.map_eq_some_iff.mp k
  cases hp
  obtain ⟨hl, hm⟩ := escalate_kept hx
  exact E.quiet_integrity (Quiet.refl.requests _ _ hl hm) h

omit E in
theorem escalation_exchange {e : Escalation} {p : Port} {t : State} (k : s.escalation e = some (p, t)) :
    t.exchange = s.exchange := by
  obtain ⟨x, _, hp⟩ := Option.map_eq_some_iff.mp k
  cases hp
  rfl

/-! ### Teardown steps that change no list -/

theorem teardownCloseQueue {p : Port} (t : Teardown) (q : QueueNo) (r : s.exchange = .running) (h : Q s) :
    Q (s.teardownCloseQueue p t q) := by
  have closed : ∀ lq, Q ((s.closeAtOnce q lq).setTeardown p (t.advance 31)) := fun lq =>
    E.port _ _ ((Quiet.refl.closeAtOnce q lq).exchange.trans r) (E.closeAtOnce _ _ h)
  unfold State.teardownCloseQueue
  split
  · exact E.port _ _ r h
  · rename_i lq k
    split
    · exact E.port _ _ r h
    · split
      · exact closed lq
      · split_ifs
        · exact closed lq
        · exact E.port _ _ r (E.queue q _ (.inl (by rw [k]; rfl)) h)
      · exact E.port _ _ r (E.queue q _ (.inl (by rw [k]; rfl)) h)

omit E in
theorem teardownAt_running {p : Port} {n : Nat} {t : Teardown} (h : s.teardownAt p n = some t) :
    s.exchange = .running := by
  unfold State.teardownAt at h
  split at h
  · assumption
  · cases h

end Edits
end Sys2Proof.Machine
end

section
namespace Sys2Proof.Machine

/-! ### Edits, operations and resets -/

/-- A step from a state with `P` ends in a state with `Q`, provided that `Q` survives the edits, the operations that take, link and return
cells and nodes, and the resets. Only a BEGIN and the initial rebuild ask for more of the state before them than `Q`. -/
structure Kept (P Q : State → Prop) : Prop extends Edits Q where
  weaken : ∀ {s : State}, P s → Q s
  pending : ∀ {s : State} (l : List Instr), P s → P { s with pending := l }
  grantStep : ∀ {s : State} {p : Port} {c : ComposeNo} {k : Composing} {h : CellNo},
    (s.composeSlot p c).phase = .filling k → s.pool.cellHead = some h → Q s → Q (grantStep s p c k h)
  sealSlot : ∀ {s : State} {p : Port} {c : ComposeNo} {k : Composing} (m : Message) (n : Nat),
    (s.composeSlot p c).phase.composing = some k → Q s → Q (s.sealSlot p c k m n).state
  abandonSlot : ∀ {s : State} {p : Port} {c : ComposeNo} {k : Composing},
    (s.composeSlot p c).phase.composing = some k → Q s → Q (s.abandonSlot p c k)
  releaseSlot : ∀ {s : State} {p : Port} {r : ReceiveNo} {h : Holding},
    (s.receiveSlot p r).phase = .holding h → Q s → Q (s.releaseSlot p r h)
  detach : ∀ {s : State} {p : Port} {r : ReceiveNo} {q : QueueNo} {lq : LiveQueue},
    (s.receiveSlot p r).phase = .idle → s.queue q = .live lq → lq.depth ≠ 0 → Q s → Q (detach s p r q lq).state
  drainHead : ∀ {s : State} {q : QueueNo} {lq : LiveQueue} (c : CloseRecord), s.exchange = .running →
    s.queue q = .live lq → lq.depth ≠ 0 → Q s → Q (s.drainHead q lq c)
  beginLink : ∀ {s : State} {p : Port} {c : ComposeNo} (b : BeginParams) (qs : List QueueNo),
    (s.composeSlot p c).phase = .idle → P s → Q (beginLink s p c b qs).state
  powerOn : ∀ (ma : BitVec 2) (n : Nat) (l : List Instr), Q { State.reset with ma := ma, fresh := n, pending := l }
  released : ∀ {s : State}, s.resetAsserted = true → P s →
    Q { s.rebuildLinks.rebuildPool with resetAsserted := false, mgmt := { s.mgmt with busy := true } }
  initialised : ∀ {s : State}, s.resetAsserted = false → s.exchange = .init → Q s →
    Q { s with exchange := .running, mgmt := { s.mgmt with busy := false } }
  restarted : ∀ {s : State} (b : Bool), (s.exchange = .running ∨ s.exchange = .stopped) → Q s → Q (s.restarted b)
  resumed : ∀ {s : State} {o : RestartOrigin} (r : MgmtResult), s.exchange = .restarting o → Q s →
    Q { s with exchange := .running, mgmt := { s.mgmt with busy := false, result := r } }
  stopped : ∀ {s : State}, s.exchange = .running → Q s → Q { s with exchange := .stopped, ports := .all .fenced }

/-- The slot that a BEGIN of length 0 seals is the one that it made FILLING (R76, R77). -/
theorem beginLink_sealing {s : State} {p : Port} {c e : ComposeNo} {b : BeginParams} {qs : List QueueNo} {k : Composing}
    (h : (beginLink s p c b qs).sealing = some (e, k)) :
    ((beginLink s p c b qs).state.composeSlot p e).phase = .filling k := by
  generalize e' : beginLink s p c b qs = o at h ⊢
  have refused : ∀ {u : State} {code : ResultCode} {x : Option Nat}, beginRefused u code x = o → False := fun r => by
    rw [← r] at h
    cases h
  unfold beginLink at e'
  dsimp only at e'
  split at e'
  · exact (refused e').elim
  · split at e'
    · exact (refused e').elim
    · split at e'
      · exact (refused e').elim
      · split at e'
        · exact (refused e').elim
        · split at e'
          · exact (refused e').elim
          · subst e'
            unfold beginResult at h
            dsimp only at h
            split at h <;> cases h
            exact congrArg ComposeSlot.phase (State.composeSlot_setComposeSlot_self _ _ _ _)

theorem beginFirst_sealing {s : State} {p : Port} {f : CommandFields} {e : ComposeNo} {k : Composing}
    (h : (beginFirst p f s).sealing = some (e, k)) :
    ((beginFirst p f s).state.composeSlot p e).phase = .filling k := by
  unfold beginFirst at h ⊢
  dsimp only at h ⊢
  split at h
  · cases h
  · split at h
    · cases h
    · cases h
    · split at h
      · cases h
      · exact beginLink_sealing h

namespace Kept

variable {P Q : State → Prop} (K : Kept P Q) {s : State}

include K

/-! ### Compose commands -/

theorem beginFirst (p : Port) (f : CommandFields) (h : P s) : Q (beginFirst p f s).state := by
  unfold Machine.beginFirst
  split
  · exact K.weaken h
  · split <;> rename_i i
    · exact K.weaken h
    · exact K.weaken h
    · dsimp only
      split
      · exact K.weaken h
      · exact K.beginLink _ _ i h

theorem beginSeal {p : Port} {c : ComposeNo} {k : Composing} (hk : (s.composeSlot p c).phase = .filling k) (h : Q s) :
    Q (beginSeal s p c k).state :=
  K.sealSlot _ _ (by rw [hk]; rfl) h

theorem beginMessage (p : Port) (f : CommandFields) (h : P s) : Q (beginMessage p f s).state := by
  refine K.completeRequest _ ?_
  have k := K.beginFirst p f h
  unfold BeginOutcome.finish
  split <;> rename_i e
  · exact k
  · exact K.beginSeal (beginFirst_sealing e) k

theorem beginOpen (p : Port) (f : CommandFields) (h : P s) : Q (beginOpen p f s) := by
  have k := K.beginFirst p f h
  unfold Machine.beginOpen
  dsimp only
  split
  · exact K.front _ _ (K.completeRequest _ k)
  · exact K.front _ _ (K.quiet_integrity (Quiet.refl.suspend _ _) k)

theorem endOpening (p : Port) (h : Q s) : Q (s.endOpening p) := by
  unfold State.endOpening
  split
  · exact h
  · have k := K.quiet_integrity (Quiet.refl.resume p) (K.front p { s.front p with opening := none } h)
    dsimp only
    split <;> rename_i e
    · exact K.front _ _ (K.completeRequest _ (K.beginSeal e k))
    · exact K.completeRequest _ k
    · exact K.completeRequest _ k

omit K in
theorem sealResult_state (o : State.SealOutcome) (d : DescNo) : (sealResult o d).state = o.state := by
  unfold sealResult
  split <;> rfl

theorem sealMessage (p : Port) (f : CommandFields) (h : Q s) : Q (sealMessage p f s).state := by
  refine K.completeRequest _ ?_
  unfold sealTaken
  split
  · exact h
  · split <;> rename_i e
    · exact h
    · rw [sealResult_state]
      exact K.sealSlot _ _ (by rw [e]; rfl) h
    · dsimp only
      split_ifs
      · exact h
      · rw [sealResult_state]
        exact K.sealSlot _ _ (by rw [e]; rfl) h
      · exact h

theorem abandonMessage (p : Port) (f : CommandFields) (h : Q s) : Q (abandonMessage p f s).state := by
  unfold Machine.abandonMessage
  split
  · exact h
  · split <;> rename_i e
    · exact h
    · exact K.abandonSlot e h

theorem autoSeal {p : Port} {c : ComposeNo} {k : Composing} (hk : (s.composeSlot p c).phase = .filling k) (h : Q s) :
    Q (autoSeal s p c k) := by
  unfold Machine.autoSeal
  dsimp only
  split
  · exact h
  · split_ifs
    · exact K.arrive _ _ (K.sealSlot _ _ (by rw [hk]; rfl) h)
    · exact h

omit K in
theorem keepsLists_written : Message.KeepsLists fun m => { m with written := m.written + 4 } := fun _ => ⟨rfl, rfl, rfl, rfl⟩

/-- The word, the count and the timer, and the auto-seal (R81 steps 2 to 5). -/
theorem storeWord {p : Port} {c : ComposeNo} {k l : Composing} (w : Word)
    (hk : (s.composeSlot p c).phase = .filling l) (hd : l.desc = k.desc) (h : Q s) : Q (storeWord s p c k w) := by
  have stored : ∀ u : State, u.compose = s.compose → Q u →
      Q ((Machine.autoSeal ((u.updMessage k.desc fun m => { m with written := m.written + 4 }).setComposeSlot p c
        { (u.updMessage k.desc fun m => { m with written := m.written + 4 }).composeSlot p c with
          phase := .filling { k with timer := 0, due := false } }) p c { k with timer := 0, due := false }).answer p
            .okayWrite) := by
    intro u hc hu
    obtain ⟨ds, e⟩ := u.updMessage_footprint k.desc fun m => { m with written := m.written + 4 }
    refine K.answer _ _ (K.autoSeal (by rw [State.composeSlot_setComposeSlot_self]) (K.composeSlot _ ?_
      (K.message _ _ keepsLists_written hu)))
    have hs : (u.updMessage k.desc fun m => { m with written := m.written + 4 }).composeSlot p c = s.composeSlot p c :=
      State.composeSlot_of_compose (by rw [e, hc]) p c
    rw [hs, ComposeSlot.holder, ComposeSlot.holder, hk]
    exact congrArg some hd.symm
  unfold Machine.storeWord
  dsimp only
  split
  · rename_i cell _
    obtain ⟨m, x, y, e⟩ := s.writePayload_footprint cell (Fin.ofNat 16 ((s.messageOf k.desc).written % 64 / 4)) w
    exact stored _ (by rw [e]) (K.writePayload _ _ _ h)
  · exact stored s rfl h

omit K in
theorem composeSlot_grantStep (p : Port) (c : ComposeNo) (k : Composing) (x : CellNo) :
    ((Machine.grantStep s p c k x).composeSlot p c).phase = .filling { k with cell := some x } := by
  unfold Machine.grantStep
  dsimp only
  rw [State.composeSlot_setComposeSlot_self]

theorem dataWrite (p : Port) (c : ComposeNo) (a : BitVec 16) (w : Word) (h : Q s) : Q (dataWrite p c a w s) := by
  unfold Machine.dataWrite
  split <;> rename_i e
  · exact K.answerError _ _ _ h
  · exact K.answerError _ _ _ h
  · split_ifs
    · exact K.answerError _ _ _ (K.composeSlot _ rfl h)
    · split <;> rename_i g _
      · exact K.completeRequest _ (K.storeWord _ (composeSlot_grantStep _ _ _ _) rfl (K.grantStep e g h))
      · exact K.answer _ _ (K.composeSlot _ rfl (K.share _ _ h))
    · exact K.completeRequest _ (K.storeWord _ e rfl h)

/-! ### Receive commands -/

theorem fetchMessage (p : Port) (f : CommandFields) (h : Q s) : Q (fetchMessage p f s).state := by
  unfold Machine.fetchMessage
  split
  · exact h
  · split <;> rename_i hi
    · exact h
    · unfold Machine.fetchFrom
      split
      · exact h
      · split <;> rename_i hq
        · exact h
        · split
          · exact h
          · split
            · exact h
            · exact h
            · split_ifs with hd
              · exact h
              · exact K.completeRequest _ (K.detach hi hq hd h)

theorem releaseMessage (p : Port) (f : CommandFields) (h : Q s) : Q (releaseMessage p f s).state := by
  unfold Machine.releaseMessage
  split
  · exact h
  · split <;> rename_i e
    · exact h
    · exact K.releaseSlot e h

/-! ### Accesses of an agent port -/

theorem agentOwner (k : AgentCommand) (p : Port) (f : CommandFields) (r : s.exchange = .running) (h : P s) :
    Q (AgentCommand.owner k p f s).state := by
  cases k with
  | openQueue => exact K.openQueue p f (K.weaken h)
  | modifyQueue => exact K.modifyQueue p f (K.weaken h)
  | closeQueue => exact K.closeQueue p f (K.weaken h)
  | queryQueue => exact (Edits.queryQueue_state f).symm ▸ K.weaken h
  | beginMessage => exact K.beginMessage p f h
  | sealMessage => exact K.sealMessage p f (K.weaken h)
  | abandonMessage => exact K.abandonMessage p f (K.weaken h)
  | fetchMessage => exact K.fetchMessage p f (K.weaken h)
  | rewindMessage => exact K.rewindMessage p f (K.weaken h)
  | releaseMessage => exact K.releaseMessage p f (K.weaken h)
  | portReset => exact K.startTeardown _ _ _ r (K.weaken h)

theorem commandOwner (p : Port) (c : CommandWord) (r : s.exchange = .running) (h : P s) :
    Q (commandOwner p c s).state := by
  unfold Machine.commandOwner
  split
  · exact K.agentOwner _ _ _ r h
  · exact K.weaken h

theorem writeRegister (p : Port) (a : BitVec 16) (reg : PortRegister) (w : Word) (h : P s) :
    Q (writeRegister p a reg w s) := by
  have q := K.weaken h
  unfold Machine.writeRegister
  split
  · exact K.acting p a q fun _ => K.answer _ _ (K.front _ _ q)
  · exact K.takeCommand p _ q fun r => K.commandOwner _ _ r h
  · exact K.acting p a q fun _ => K.writeEnables p w q
  · exact K.acting p a q fun _ => K.writeInterrupt p w q
  all_goals exact K.acting p a q fun _ => K.answerError _ _ _ q

theorem agentAccess (p : Port) (a : BitVec 16) (x : Access) (h : P s) : Q (agentAccess p a x s) := by
  have q := K.weaken h
  unfold Machine.agentAccess State.oneAccess
  split
  · exact q
  · unfold Machine.decodedAccess
    split
    · exact K.answerError _ _ _ q
    · exact K.answerError _ _ _ q
    · split
      · unfold Machine.readRegister
        split
        · exact K.acting p a q fun _ => K.popEvent p q
        · exact K.answer _ _ q
      · exact K.writeRegister _ _ _ _ h
    · split
      · exact K.acting p a q fun _ => K.answerError _ _ _ q
      · exact K.acting p a q fun _ => K.dataWrite _ _ _ _ q
    · split
      · exact K.acting p a q fun _ => K.dataRead _ _ _ q
      · exact K.acting p a q fun _ => K.answerError _ _ _ q

/-! ### The management port -/

theorem restart (b : Bool) (r : s.exchange = .running ∨ s.exchange = .stopped) (h : Q s) : Q (s.restart b) := by
  have q : Quiet s s.completeOpenings := (((Quiet.refl.endOpening 0).endOpening 1).endOpening 2).endOpening 3
  exact K.restarted b (by rwa [q.exchange]) (K.endOpening 3 (K.endOpening 2 (K.endOpening 1 (K.endOpening 0 h))))

theorem mgmtOwner (k : MgmtCommand) (f : MgmtFields) (h : Q s) : Q (MgmtCommand.owner k f s).state := by
  cases k with
  | restartExchange =>
    show Q (restartOwner s).state
    unfold restartOwner
    split <;> rename_i e
    · exact K.restart _ (.inl e) h
    · exact K.restart _ (.inr e) h
    · exact h
    · exact h
  | resetPort => exact K.resetPortOwner f h
  | fencePort => exact K.fencePortOwner f h
  | unfencePort => exact K.unfencePortOwner f h
  | setPartition => exact K.setPartitionOwner h
  | setPoolMarks => exact K.setPoolMarksOwner h
  | setTimeout => exact K.setTimeoutOwner f h
  | setPolicy => exact K.setPolicyOwner f h
  | ackFault => exact K.ackFaultOwner h
  | clearCounters => exact K.clearCountersOwner h
  | inject => exact K.injectOwner f h

theorem mgmtCommand (c : MgmtWord) (h : Q s) : Q (s.mgmtCommand c) := by
  unfold State.mgmtCommand
  split_ifs
  · exact K.mgmt _ rfl h
  · split
    · exact K.mgmt _ rfl h
    · have k := K.mgmtOwner ‹_› c.fields h
      unfold State.mgmtOwned
      split
      · exact K.mgmt _ rfl (K.mgmt _ rfl k)
      · exact K.mgmt _ rfl (K.mgmt _ rfl k)
      · exact K.mgmt _ rfl k

theorem writeMgmtRegister (w : Word) (h : Q s) : Q (s.writeMgmtRegister w) := by
  unfold State.writeMgmtRegister
  split
  · exact K.mgmt _ rfl h
  · exact K.mgmtCommand _ h
  · exact K.mint _ h
  · exact K.mgmt _ rfl h
  · exact K.mgmt _ rfl h

theorem receiveBytes (bs : List Byte) (h : Q s) : Q (s.receiveBytes bs) := by
  induction bs generalizing s with
  | nil => exact h
  | cons b bs ih =>
    refine ih ?_
    unfold State.receiveByte
    split
    · exact K.mgmt _ rfl (K.writeMgmtRegister _ h)
    · exact K.mgmt _ rfl h

theorem startTransaction (a : BitVec 7) (t : Transaction) (h : Q s) : Q (s.startTransaction a t) := by
  unfold State.startTransaction
  split_ifs
  all_goals exact K.mgmt _ rfl h

theorem indexByte (a : BitVec 7) (i : Byte) (h : Q s) : Q (s.indexByte a i) := by
  have k := K.startTransaction a .write h
  unfold State.indexByte
  dsimp only
  split_ifs
  · exact K.mgmt _ rfl k
  · exact k

theorem dataBytes (bs : List Byte) {finish : State → State} (hf : ∀ u, Q u → Q (finish u)) (h : Q s) :
    Q (s.dataBytes bs finish) := by
  unfold State.dataBytes
  split_ifs
  · exact hf _ (K.receiveBytes _ (K.mgmt _ rfl h))
  · exact K.mgmt _ rfl h

theorem mgmtData (start : Option WriteStart) (bs : List Byte) {finish : State → State}
    (hf : ∀ u, Q u → Q (finish u)) (h : Q s) : Q (s.mgmtData start bs finish) := by
  unfold State.mgmtData
  split
  · exact K.dataBytes _ hf (K.indexByte _ _ h)
  · exact K.dataBytes _ hf h

theorem commandBytes (start : Option WriteStart) (c : MgmtWord) (h : Q s) : Q (s.commandBytes start c) :=
  K.mgmtData _ _ (fun _ q => q) h

theorem partialWord (start : Option WriteStart) (b : WordPart) (h : Q s) :
    Q (s.mgmtData start (partBytes b) (·.endPartial)) :=
  K.mgmtData _ _ (fun u hu => K.mgmt (s := u.mgmtReason .incomplete) _ rfl (K.mgmt (s := u) _ rfl hu)) h

theorem sendRegister (last : Fin 4) (h : Q s) : Q (s.sendRegister last) := by
  unfold State.sendRegister
  dsimp only
  split
  · exact K.mgmt _ rfl h
  · exact K.mgmt _ rfl (K.mgmt _ rfl h)

theorem mgmtRead (start : Option (BitVec 7)) (last : Fin 4) (h : Q s) : Q (s.mgmtRead start last) := by
  have sent : ∀ u, Q u → Q (if u.readOpen then u.sendRegister last else u) := fun u hu => by
    split_ifs
    · exact K.sendRegister _ hu
    · exact hu
  unfold State.mgmtRead
  split
  · exact sent _ (K.startTransaction _ _ h)
  · exact sent _ h

/-! ### Timers, drains, escalations and teardowns -/

theorem unitBoundary (h : Q s) : Q { s with
    compose := ⟨s.tickedSlots 0, s.tickedSlots 1, s.tickedSlots 2, s.tickedSlots 3⟩ } := by
  have tick : ∀ (x : ComposeSlot) (t : Nat) (b : Bool), (x.tick t b).holder = x.holder := by
    intro x t b
    have kept : ∀ k : Composing, (k.tick t b).desc = k.desc := fun k => by
      unfold Composing.tick
      split_ifs <;> rfl
    unfold ComposeSlot.tick ComposeSlot.holder
    split <;> rename_i e <;> rw [e]
    · exact congrArg some (kept _)
    · exact congrArg some (kept _)
  refine K.compose _ (fun p c => ?_) h
  have e : (⟨s.tickedSlots 0, s.tickedSlots 1, s.tickedSlots 2, s.tickedSlots 3⟩ : Quad (Quad ComposeSlot)).get p =
      s.tickedSlots p := by
    fin_cases p <;> rfl
  rw [e, State.tickedSlots, Quad.get_map, tick]
  rfl

theorem timerExpiry {t : State} (p : Port) (c : ComposeNo) (h : Q s) (e : execTimerExpiry p c s = .next t) : Q t := by
  have expired : ∀ k b, (s.composeSlot p c).phase.composing = some k → Q (expireSlot s p c k b) := fun k b hk =>
    K.arrive _ _ (K.abandonSlot hk h)
  unfold execTimerExpiry at e
  split at e
  · split at e <;> rename_i hp
    · cases e
      exact h
    · split at e <;> cases e
      · exact expired _ _ (by rw [hp]; rfl)
      · exact h
    · split at e <;> cases e
      · exact expired _ _ (by rw [hp]; rfl)
      · exact h
  · cases e
    exact h

theorem drainStep {t : State} (q : QueueNo) (h : Q s) (e : execDrainStep q s = .next t) : Q t := by
  unfold execDrainStep at e
  split at e
  · rename_i r hq
    split at e
    · split at e <;> rename_i hd <;> cases e
      · exact K.finishClose _ _ _ r h
      · exact K.completeRequest _ (K.drainHead _ r hq hd h)
    all_goals
      cases e
      exact h
  · cases e
    exact h

theorem fenceRequest {t : State} (h : Q s) (e : execFenceRequest s = .next t) : Q t := by
  unfold execFenceRequest at e
  split at e <;> rename_i x <;> cases e
  · have k := K.escalation x h
    unfold State.fenceRequested
    split <;> rename_i r
    · exact K.fenceBy _ _ r k
    all_goals exact k
  · exact h

theorem stopRequest {t : State} (h : Q s) (e : execStopRequest s = .next t) : Q t := by
  unfold execStopRequest at e
  split at e <;> rename_i x <;> cases e
  · have k := K.escalation x h
    unfold State.stopRequested
    split <;> rename_i r
    · exact K.stopped r k
    all_goals exact k
  · exact h

theorem teardownAbandon {t : State} (p : Port) (h : Q s) (e : execTeardownAbandon p s = .next t) : Q t := by
  unfold execTeardownAbandon at e
  split at e <;> rename_i x <;> cases e
  · have r := Edits.teardownAt_running x
    unfold State.teardownAbandonSlot
    dsimp only
    split <;> rename_i k hk
    · exact K.port _ _ ((Quiet.refl.abandonSlot _ _ k).exchange.trans r) (K.composeSlot _ rfl (K.abandonSlot hk h))
    · exact K.port _ _ r (K.composeSlot _ rfl h)
  · exact h

theorem teardownRelease {t : State} (p : Port) (h : Q s) (e : execTeardownRelease p s = .next t) : Q t := by
  unfold execTeardownRelease at e
  split at e <;> rename_i n x <;> cases e
  · have r := Edits.teardownAt_running x
    unfold State.teardownReleaseSlot
    dsimp only
    split <;> rename_i x hk
    · exact K.port _ _ ((Quiet.refl.releaseSlot p (Fin.ofNat 2 n.cursor) x).exchange.trans r) (K.receive _ _ _ rfl (K.releaseSlot hk h))
    · exact K.port _ _ r (K.receive _ _ _ rfl h)
  · exact h

theorem teardownClose {t : State} (p : Port) (h : Q s) (e : execTeardownClose p s = .next t) : Q t := by
  unfold execTeardownClose at e
  split at e <;> rename_i x
  · split at e <;> cases e
    · exact K.teardownCloseQueue _ _ (Edits.teardownAt_running x) h
    · exact h
  · cases e
    exact h

theorem teardownCloseComplete {t : State} (p : Port) (h : Q s) (e : execTeardownCloseComplete p s = .next t) :
    Q t := by
  unfold execTeardownCloseComplete at e
  split at e <;> rename_i x
  · split at e <;> cases e
    · exact K.port _ _ (Edits.teardownAt_running x) h
    · exact h
  · cases e
    exact h

theorem teardownEventReset {t : State} (p : Port) (h : Q s) (e : execTeardownEventReset p s = .next t) : Q t := by
  unfold execTeardownEventReset at e
  split at e <;> rename_i x <;> cases e
  · have r := Edits.teardownAt_running x
    exact K.port _ _ r (K.front _ _ (K.event _ _ (fun _ => Edits.bounded_reset) h))
  · exact h

theorem teardownEnd {t : State} (p : Port) (h : Q s) (e : execTeardownEnd p s = .next t) : Q t := by
  unfold execTeardownEnd at e
  split at e <;> rename_i x
  · split at e <;> cases e
    · exact K.arrive _ _ (K.port _ _ (Edits.teardownAt_running x) h)
    · exact K.port _ _ (Edits.teardownAt_running x) h
  · cases e
    exact h

/-! ### The resets, and every command -/

theorem resetNRelease {t : State} (h : P s) (e : execResetNRelease s = .next t) : Q t := by
  unfold execResetNRelease at e
  split at e <;> rename_i r <;> cases e
  · exact K.released r h
  · exact K.weaken h

theorem initRebuildEnd {t : State} (h : Q s) (e : execInitRebuildEnd s = .next t) : Q t := by
  unfold execInitRebuildEnd at e
  split at e <;> rename_i r
  · cases e
    exact h
  · split at e <;> rename_i i <;> cases e
    · exact K.initialised (by simpa using r) i h
    all_goals exact h

theorem restartRebuildEnd {t : State} (h : Q s) (e : execRestartRebuildEnd s = .next t) : Q t := by
  unfold execRestartRebuildEnd at e
  split at e <;> rename_i o <;> cases e
  · exact K.arrive _ _ (K.arrive _ _ (K.arrive _ _ (K.arrive _ _ (K.resumed _ o h))))
  all_goals exact h

/-- What a command ends in, by its row of the table. -/
theorem exec {t : State} (i : Instr) (h : P s) (e : exec i s = .next t) : Q t := by
  have q := K.weaken h
  have same : ∀ {u : State}, Q u → Host.Outcome.next u = (.next t : Host.Outcome State Fault Refusal) → Q t :=
    fun hu he => by
      cases he
      exact hu
  cases i with
  | resetNAssert ma => exact same (K.powerOn ma s.fresh s.pending) e
  | resetNRelease => exact K.resetNRelease h e
  | initRebuildEnd => exact K.initRebuildEnd q e
  | restartRebuildEnd => exact K.restartRebuildEnd q e
  | accessDecodeError p a x => exact same (K.agentAccess p a x h) e
  | registerWrite p a w => exact same (K.agentAccess p a _ h) e
  | commandCodeInvalid p c f => exact same (K.takeCommand p _ q fun r => K.commandOwner _ _ r h) e
  | openQueue p f => exact same (K.takeCommand p _ q fun _ => K.openQueue _ _ q) e
  | modifyQueue p f => exact same (K.takeCommand p _ q fun _ => K.modifyQueue _ _ q) e
  | closeQueue p f => exact same (K.takeCommand p _ q fun _ => K.closeQueue _ _ q) e
  | queryQueue p f => exact same (K.takeCommand p _ q fun r => K.agentOwner .queryQueue p f r h) e
  | beginMessage p f =>
    change execBeginMessage p f s = _ at e
    unfold execBeginMessage at e
    split at e
    · exact same (K.takeCommand p _ q fun _ => K.beginMessage _ _ h) e
    · exact same (K.commandAccess p q fun _ => K.beginOpen _ _ h) e
    · exact same (K.endOpening p q) e
  | sealMessage p f => exact same (K.takeCommand p _ q fun _ => K.sealMessage _ _ q) e
  | abandonMessage p f => exact same (K.takeCommand p _ q fun _ => K.abandonMessage _ _ q) e
  | fetchMessage p f => exact same (K.takeCommand p _ q fun _ => K.fetchMessage _ _ q) e
  | rewindMessage p f => exact same (K.takeCommand p _ q fun _ => K.rewindMessage _ _ q) e
  | releaseMessage p f => exact same (K.takeCommand p _ q fun _ => K.releaseMessage _ _ q) e
  | portReset p f => exact same (K.takeCommand p _ q fun r => K.startTeardown _ _ _ r q) e
  | composeApertureWrite p c w d => exact same (K.acting p _ q fun _ => K.dataWrite _ _ _ _ q) e
  | composeApertureRead p c w => exact same (K.acting p _ q fun _ => K.answerError _ _ _ q) e
  | receiveApertureRead p r w => exact same (K.acting p _ q fun _ => K.dataRead _ _ _ q) e
  | receiveApertureWrite p r w d => exact same (K.acting p _ q fun _ => K.answerError _ _ _ q) e
  | eventHeadRead p => exact same (K.acting p _ q fun _ => K.popEvent _ q) e
  | eventEnableWrite p d => exact same (K.acting p _ q fun _ => K.writeEnables _ _ q) e
  | interruptEnableWrite p d => exact same (K.acting p _ q fun _ => K.writeInterrupt _ _ q) e
  | i2cIndexByte a x => exact same (K.indexByte a x q) e
  | partialWord w b => exact same (K.partialWord w b q) e
  | managementUnmappedRead w l => exact same (K.mgmtRead w l q) e
  | managementRegisterWrite w b => exact same (K.mgmtData _ _ (fun _ hu => hu) q) e
  | mintNEnableWrite w b => exact same (K.mgmtData _ _ (fun _ hu => hu) q) e
  | managementCodeInvalid w c f | refusedBusy w c f => exact same (K.commandBytes w _ q) e
  | restartExchange w f | resetPort w f | fencePort w f | unfencePort w f | setPartition w f | setPoolMarks w f
  | setTimeout w f | setPolicy w f | ackFault w f | clearCounters w f | inject w f =>
    exact same (K.commandBytes w _ q) e
  | unitBoundary => exact same (K.unitBoundary q) e
  | timerExpiry p c => exact K.timerExpiry p c q e
  | drainStep x => exact K.drainStep x q e
  | fenceRequest => exact K.fenceRequest q e
  | stopRequest => exact K.stopRequest q e
  | teardownAbandon p => exact K.teardownAbandon p q e
  | teardownRelease p => exact K.teardownRelease p q e
  | teardownClose p => exact K.teardownClose p q e
  | teardownCloseComplete p => exact K.teardownCloseComplete p q e
  | teardownEventReset p => exact K.teardownEventReset p q e
  | teardownEnd p => exact K.teardownEnd p q e
  | managementRegisterRead w l => exact same (K.mgmtRead w l q) e

/-- The front command of the queue, or none. -/
theorem step {t : State} (h : P s) (e : step s = .next t) : Q t := by
  unfold Machine.step at e
  split at e
  · cases e
    exact K.weaken h
  · exact K.exec _ (K.pending _ h) e

end Kept
end Sys2Proof.Machine
end

section
/-!
SUPPORT. The tables, the bounds and the control states (R14, R115, R117, R118, R137, R145, R149, R169, R176): what survives every edit of the
data path is kept by every step once the control rows and the resets keep it.
-/
namespace Sys2Proof.Machine

/-- The edits, for an invariant that survives every edit of the data path. -/
theorem Edits.of_quiet {Q : State → Prop} (quiet : ∀ {s t : State}, Quiet s t → Q s → Q t)
    (event : ∀ {s : State} (p : Port) (x : EventPort), ((s.event p).Bounded → x.Bounded) → Q s → Q (s.setEvent p x))
    (port : ∀ {s : State} (p : Port) (x : PortState), s.exchange = .running → Q s → Q (s.setPort p x))
    (integrity : ∀ {s : State} (x : Integrity), (s.IntegrityBounded → (s.setIntegrity x).IntegrityBounded) → Q s →
      Q (s.setIntegrity x))
    (mgmt : ∀ {s : State} (x : Mgmt), x.busy = s.mgmt.busy → Q s → Q (s.setMgmt x))
    (others : ∀ {s : State} (x : Quad (Quad ComposeSlot)) (y : Quad Share) (m : MintEnables) (n : Quad Nat), Q s →
      Q { s with compose := x, shares := y, mint := m, timeouts := n }) : Edits Q where
  front p x := quiet (Quiet.refl.front p x)
  event := event
  port := port
  compose x _ := others x _ _ _
  receive p r x _ := quiet (Quiet.refl.receive p r x)
  shares y := others _ y _ _
  integrity := integrity
  mgmt := mgmt
  mint m := others _ _ m _
  timeouts n := others _ _ _ n
  arm a l := quiet (Quiet.refl.arm a l)
  fresh n := quiet (Quiet.refl.fresh n)
  pool x _ := quiet (Quiet.refl.pool x)
  queue q x _ := quiet (Quiet.refl.queue q x)
  message d f _ := quiet (Quiet.refl.updMessage d f)
  payload c w x := quiet (Quiet.refl.payload c w x)
  readCellLink c := quiet (Quiet.refl.readCellLink c)

/-- A drain step is an edit of the data path, but for the completion report of a close that it ends (R64). -/
theorem Edits.drainHead_of_quiet {Q : State → Prop} (E : Edits Q) (quiet : ∀ {s t : State}, Quiet s t → Q s → Q t)
    {s : State} (q : QueueNo) (lq : LiveQueue) (c : CloseRecord) (r : s.exchange = .running) (h : Q s) :
    Q (s.drainHead q lq c) := by
  have closed : ∀ {u : State} (p : Port) (e : CloseRecord), Quiet s u → Q (u.finishClose q p e) := fun p e hu =>
    E.finishClose q p e (hu.exchange.trans r) (quiet hu h)
  have goesOn : ∀ {u : State} (l : LiveQueue) (e : CloseRecord), Quiet s u → Q (u.drainOn q l e) := fun l e hu => by
    unfold State.drainOn
    split_ifs
    · exact closed _ _ hu
    · exact quiet (hu.queue _ _) h
  have k := Quiet.refl.headNode (s := s) lq
  unfold State.drainHead
  split
  rename_i s1 n e
  rw [e] at k
  have k2 := k.readNode n
  split <;> rename_i e2 <;> rw [e2] at k2
  · exact goesOn _ _ ((k2.returnNode _).dropHolder _)
  · exact goesOn _ _ ((k2.strandNodes 1).report _ _)
  · exact closed _ _ (((k2.reportBroken _ _ _ _ _).quarantine _ _).strandNodes _)

/-- Every step, for an invariant that survives every edit of the data path. -/
theorem Kept.of_quiet {Q : State → Prop} (E : Edits Q) (quiet : ∀ {s t : State}, Quiet s t → Q s → Q t)
    (pending : ∀ {s : State} (l : List Instr), Q s → Q { s with pending := l })
    (powerOn : ∀ (ma : BitVec 2) (n : Nat) (l : List Instr),
      Q { State.reset with ma := ma, fresh := n, pending := l })
    (released : ∀ {s : State}, s.resetAsserted = true → Q s →
      Q { s.rebuildLinks.rebuildPool with resetAsserted := false, mgmt := { s.mgmt with busy := true } })
    (initialised : ∀ {s : State}, s.resetAsserted = false → s.exchange = .init → Q s →
      Q { s with exchange := .running, mgmt := { s.mgmt with busy := false } })
    (restarted : ∀ {s : State} (b : Bool), (s.exchange = .running ∨ s.exchange = .stopped) → Q s → Q (s.restarted b))
    (resumed : ∀ {s : State} {o : RestartOrigin} (r : MgmtResult), s.exchange = .restarting o → Q s →
      Q { s with exchange := .running, mgmt := { s.mgmt with busy := false, result := r } })
    (stopped : ∀ {s : State}, s.exchange = .running → Q s →
      Q { s with exchange := .stopped, ports := .all .fenced }) : Kept Q Q where
  toEdits := E
  weaken h := h
  pending := pending
  grantStep _ _ := quiet (Quiet.refl.grantStep _ _ _ _)
  sealSlot m n _ := quiet (Quiet.refl.sealSlot _ _ _ m n)
  abandonSlot _ := quiet (Quiet.refl.abandonSlot _ _ _)
  releaseSlot _ := quiet (Quiet.refl.releaseSlot _ _ _)
  detach _ _ _ := quiet (Quiet.refl.detach _ _ _ _)
  drainHead c r _ _ h := E.drainHead_of_quiet quiet _ _ c r h
  beginLink b qs _ := quiet (Quiet.refl.beginLink _ _ b qs)
  powerOn := powerOn
  released := released
  initialised := initialised
  restarted := restarted
  resumed := resumed
  stopped := stopped

/-! ### The canonical form of the tables -/

theorem kept_memoriesWf : Kept (fun s => s.memoriesWf = true) (fun s => s.memoriesWf = true) := by
  have quiet : ∀ {s t : State}, Quiet s t → s.memoriesWf = true → t.memoriesWf = true := fun q h => q.memoriesWf h
  have rebuilt : ∀ {s t : State}, t.payload = s.payload → t.nodeContents = s.nodeContents → t.cellLinks = [] →
      t.nodeLinks = [] → t.descriptors = [] → (t.queues = s.queues ∨ t.queues = []) → s.memoriesWf = true →
      t.memoriesWf = true := by
    intro s t h1 h2 h3 h4 h5 h6 h
    rw [State.memoriesWf_iff, h1, h2, h3, h4, h5]
    refine ⟨State.wf_payload h, rfl, State.wf_nodeContents h, rfl, rfl, ?_⟩
    rcases h6 with h6 | h6 <;> rw [h6]
    · exact State.wf_queues h
    · rfl
  exact Kept.of_quiet
    (Edits.of_quiet quiet (fun _ _ _ h => h) (fun _ _ _ h => h) (fun _ _ h => h) (fun _ _ h => h) (fun _ _ _ _ h => h))
    quiet (fun _ h => h) (fun _ _ _ => rfl) (fun {s} _ h => rebuilt (s := s) rfl rfl rfl rfl rfl (.inl rfl) h) (fun _ _ h => h)
    (fun {s} _ _ h => rebuilt (s := s) rfl rfl rfl rfl rfl (.inr rfl) h) (fun _ _ h => h) (fun _ h => h)

/-! ### The bounds of the event queues and of the Integrity Monitor -/

/-- Step 3 of a waiting report changes no length of the fault list. -/
theorem length_settle (w : Waiting) (e : Escalation) (fs : List FaultRecord) : (w.settle e fs).length = fs.length := by
  rw [Waiting.settle_eq, length_shownIn]

theorem length_settleAll (i : Integrity) : i.settleAll.faults.length = i.faults.length := by
  have fold : ∀ (ws : List Waiting) (fs : List FaultRecord),
      (ws.foldl (fun fs w => w.settle (i.policy.of w.cls) fs) fs).length = fs.length := by
    intro ws
    induction ws with
    | nil => exact fun _ => rfl
    | cons w ws ih => exact fun fs => (ih _).trans (length_settle w _ fs)
  exact fold _ _

/-- RESTART leaves no report waiting and no record removed (R148). -/
theorem integrityBounded_settleAll {s t : State} (h : s.IntegrityBounded) (ht : t.integrity = s.integrity.settleAll) :
    t.IntegrityBounded := by
  have b : (s.setIntegrity s.integrity.settleAll).IntegrityBounded :=
    h.requests (length_settleAll _) fun _ hg => absurd hg List.not_mem_nil
  unfold State.IntegrityBounded State.tracking at b ⊢
  rw [ht]
  exact b

theorem eventsBounded_reset {s : State} (h : s.events = .all .reset) : s.EventsBounded := fun p => by
  rw [State.event, h, Quad.get_all]
  exact Edits.bounded_reset

theorem kept_bounds :
    Kept (fun s => s.EventsBounded ∧ s.IntegrityBounded) (fun s => s.EventsBounded ∧ s.IntegrityBounded) := by
  have quiet : ∀ {s t : State}, Quiet s t → s.EventsBounded ∧ s.IntegrityBounded →
      t.EventsBounded ∧ t.IntegrityBounded := fun q h => ⟨q.eventsBounded h.1, q.integrityBounded h.2⟩
  have powerOn : State.reset.IntegrityBounded := by
    refine ⟨by decide, fun _ hg => absurd hg List.not_mem_nil, by decide, fun m => ?_⟩
    show ((Quad.all (⟨0, false⟩ : Tracking)).get m.index).count ≤ 255
    rw [Quad.get_all]
    exact Nat.zero_le _
  exact Kept.of_quiet
    (Edits.of_quiet quiet (fun p _ hx h => ⟨h.1.setEvent p (hx (h.1 p)), h.2⟩) (fun _ _ _ h => h)
      (fun _ hx h => ⟨h.1, hx h.2⟩) (fun _ _ h => h) (fun _ _ _ _ h => h))
    quiet (fun _ h => h) (fun _ _ _ => ⟨eventsBounded_reset rfl, powerOn⟩) (fun _ h => h) (fun _ _ h => h)
    (fun _ _ h => ⟨eventsBounded_reset rfl, integrityBounded_settleAll h.2 rfl⟩) (fun _ _ h => h) (fun _ h => h)

/-! ### The control states -/

/-- The control records are those that the invariant speaks of. -/
theorem controlLegal_congr {s t : State} (he : t.exchange = s.exchange) (hp : t.ports = s.ports)
    (hr : t.resetAsserted = s.resetAsserted) (hb : t.mgmt.busy = s.mgmt.busy) (h : s.ControlLegal) :
    t.ControlLegal := by
  unfold State.ControlLegal State.port at h ⊢
  rwa [he, hp, hr, hb]

/-- RUNNING allows every port state. -/
theorem controlLegal_running {t : State} (he : t.exchange = .running) (hr : t.resetAsserted = false)
    (hb : t.mgmt.busy = false) : t.ControlLegal := by
  unfold State.ControlLegal
  simp [he, hr, hb]

/-- While a rebuild runs every port is ACTIVE and the management command unit BUSY. -/
theorem controlLegal_rebuilding {t : State} (he : t.exchange ≠ .running ∧ t.exchange ≠ .stopped)
    (hp : ∀ p, t.port p = .active) (hr : t.resetAsserted = false) (hb : t.mgmt.busy = true) : t.ControlLegal := by
  unfold State.ControlLegal
  simp [he, hp, hr, hb]

/-- In RUNNING and STOPPED, RESET_N is released and the management command unit IDLE. -/
theorem ControlLegal.idle {s : State} (h : s.ControlLegal) (he : s.exchange = .running ∨ s.exchange = .stopped) :
    s.resetAsserted = false ∧ s.mgmt.busy = false := by
  obtain ⟨_, _, hr, hb⟩ := h
  rcases he with he | he <;> rw [he] at hr hb <;> simp_all

theorem kept_controlLegal : Kept State.ControlLegal State.ControlLegal := by
  have quiet : ∀ {s t : State}, Quiet s t → s.ControlLegal → t.ControlLegal := fun q h =>
    controlLegal_congr q.exchange q.ports q.resetAsserted (by rw [q.mgmt]) h
  refine Kept.of_quiet
    (Edits.of_quiet quiet (fun _ _ _ h => h) (fun _ _ he h => ?_) (fun _ _ h => h)
      (fun {s} _ hb h => controlLegal_congr (s := s) rfl rfl rfl hb h) (fun _ _ _ _ h => h))
    quiet (fun _ h => h) (fun _ _ _ => ?_) (fun hr h => ?_) (fun hr _ _ => controlLegal_running rfl hr rfl)
    (fun _ he h => ?_) (fun _ he h => ?_) (fun he h => ?_)
  · exact controlLegal_running he (ControlLegal.idle h (.inl he)).1 (ControlLegal.idle h (.inl he)).2
  · exact ⟨nofun, fun _ p => Quad.get_all _ p, fun _ => rfl, ⟨nofun, fun x => nomatch x.1⟩⟩
  · have he := h.2.2.1 hr
    have hx : (.init : Exchange) ≠ .running ∧ (.init : Exchange) ≠ .stopped := ⟨nofun, nofun⟩
    exact controlLegal_rebuilding (he ▸ hx) (h.2.1 (he ▸ hx)) rfl rfl
  · exact controlLegal_rebuilding ⟨nofun, nofun⟩ (fun p => Quad.get_all _ p) (ControlLegal.idle h he).1 rfl
  · have hx : (.restarting ‹_› : Exchange) ≠ .running ∧ (.restarting ‹_› : Exchange) ≠ .stopped := ⟨nofun, nofun⟩
    refine controlLegal_running rfl ?_ rfl
    by_contra hr
    have := h.2.2.1 (by simpa using hr)
    rw [he] at this
    cases this
  · obtain ⟨hr, hb⟩ := ControlLegal.idle h (.inl he)
    exact ⟨fun _ p => Quad.get_all _ p, fun x => absurd rfl x.2, fun x => absurd (hr.symm.trans x) nofun,
      ⟨fun x => absurd (hb.symm.trans x) nofun, fun x => absurd rfl x.2.2⟩⟩

/-- Settles O54: each of the three invariants survives every edit of the data path, every control row and every reset. -/
theorem everyStepKeepsTablesBoundsAndControlStates : Obligations.EveryStepKeepsTablesBoundsAndControlStates :=
  ⟨fun _ _ h e => kept_memoriesWf.step h e, fun _ _ h e => kept_bounds.step h e,
    fun _ _ h e => kept_controlLegal.step h e⟩

end Sys2Proof.Machine
end

section
/-!
SUPPORT. Lists that share one link memory: the free list beside the lists of the owners (R2, R3, R24, R29). A layout says that the links run through
pairwise distinct entries, with head, tail and count of each list; the operations on such lists (take the head, join the tail, splice, give up
a list) keep it.
-/
namespace Sys2Proof.Machine

/-- From `head` the links run through the entries to END. -/
def Run {α : Type} (next : α → Option α) : Option α → List α → Prop
  | head, [] => head = none
  | head, a :: as => head = some a ∧ Run next (next a) as

namespace Run

variable {α : Type} {next next' : α → Option α} {head mid : Option α} {as bs : List α}

theorem congr (h : Run next head as) (k : ∀ a ∈ as, next' a = next a) : Run next' head as := by
  induction as generalizing head with
  | nil => exact h
  | cons a as ih =>
    refine ⟨h.1, ?_⟩
    rw [k a List.mem_cons_self]
    exact ih h.2 fun b hb => k b (List.mem_cons_of_mem _ hb)

/-- Where the last entry is linked to a second run, the two are one run. -/
theorem join (h : Run next head as) (hn : as.Nodup) {l : α} (hl : as.getLast? = some l) (hm : next' l = mid)
    (ho : ∀ a ∈ as, a ≠ l → next' a = next a) (k : Run next' mid bs) : Run next' head (as ++ bs) := by
  induction as generalizing head with
  | nil => cases hl
  | cons a as ih =>
    refine ⟨h.1, ?_⟩
    rw [List.nodup_cons] at hn
    cases as with
    | nil =>
      obtain rfl : a = l := Option.some.inj hl
      rw [hm]
      exact k
    | cons b as =>
      rw [List.getLast?_cons_cons] at hl
      have hne : a ≠ l := fun e => hn.1 (e ▸ List.mem_of_getLast? hl)
      rw [ho a List.mem_cons_self hne]
      exact ih h.2 hn.2 hl fun c hc => ho c (List.mem_cons_of_mem _ hc)

theorem head_eq (h : Run next head as) : head = as.head? := by
  cases as with
  | nil => exact h
  | cons a as => exact h.1

end Run

/-- A sum over a family of which one member is replaced. -/
theorem sum_update {ι β : Type} [Fintype ι] [DecidableEq ι] (g : β → Nat) (f : ι → β) (i : ι) (b : β) :
    ∑ j, g (Function.update f i b j) + g (f i) = ∑ j, g (f j) + g b := by
  have e : ∀ F : ι → β, ∑ j, g (F j) = ∑ j ∈ Finset.univ.erase i, g (F j) + g (F i) := fun F =>
    (Finset.sum_erase_add _ _ (Finset.mem_univ i)).symm
  have k : ∑ j ∈ Finset.univ.erase i, g (Function.update f i b j) = ∑ j ∈ Finset.univ.erase i, g (f j) :=
    Finset.sum_congr rfl fun j hj => by rw [Function.update_of_ne (Finset.ne_of_mem_erase hj)]
  rw [e, e f, k, Function.update_self]
  omega

/-- The lists of the owners `ι`, with heads, tails and counts `ends`, run through entries that are all distinct, and `extra` entries stand in none
of them. -/
structure Layout {ι α : Type} [Fintype ι] [DecidableEq α] (next : α → Option α) (ends : ι → ListEnds α)
    (extra : α → Nat) (lists : ι → List α) : Prop where
  run : ∀ i, Run next (ends i).head (lists i)
  tail : ∀ i, (ends i).tail = (lists i).getLast?
  count : ∀ i, (ends i).count = (lists i).length
  distinct : ∀ a, extra a + ∑ i, (lists i).count a ≤ 1

namespace Layout

variable {ι α : Type} [Fintype ι] [DecidableEq ι] [DecidableEq α] {next next' : α → Option α}
  {ends ends' : ι → ListEnds α} {extra extra' : α → Nat} {lists : ι → List α}

section
omit [DecidableEq ι]

theorem count_le (L : Layout next ends extra lists) (i : ι) (a : α) : extra a + (lists i).count a ≤ 1 := by
  have := Finset.single_le_sum (f := fun i => (lists i).count a) (fun _ _ => Nat.zero_le _) (Finset.mem_univ i)
  have := L.distinct a
  omega

theorem nodup (L : Layout next ends extra lists) (i : ι) : (lists i).Nodup :=
  List.nodup_iff_count_le_one.mpr fun a => (Nat.le_add_left _ _).trans (L.count_le i a)

/-- A listed entry is not among the others. -/
theorem extra_of_mem (L : Layout next ends extra lists) {i : ι} {a : α} (h : a ∈ lists i) : extra a = 0 := by
  have := L.count_le i a
  have := List.count_pos_iff.mpr h
  omega

theorem tail_eq_none (L : Layout next ends extra lists) (i : ι) : (ends i).tail = none ↔ lists i = [] := by
  rw [L.tail, List.getLast?_eq_none_iff]

theorem count_eq_zero (L : Layout next ends extra lists) (i : ι) : (ends i).count = 0 ↔ lists i = [] := by
  rw [L.count, List.length_eq_zero_iff]

theorem tail_mem (L : Layout next ends extra lists) {i : ι} {t : α} (h : (ends i).tail = some t) : t ∈ lists i :=
  List.mem_of_getLast? ((L.tail i).symm.trans h)

theorem head_cons (L : Layout next ends extra lists) {i : ι} {a : α} (h : (ends i).head = some a) :
    ∃ as, lists i = a :: as ∧ Run next (next a) as := by
  have r := L.run i
  rw [h] at r
  revert r
  cases lists i with
  | nil => exact nofun
  | cons b as =>
    rintro ⟨e, r⟩
    cases e
    exact ⟨as, rfl, r⟩

/-- The same lists beside links that agree on every listed entry. -/
theorem relink (L : Layout next ends extra lists) (h : ∀ a, extra a = 0 → next' a = next a)
    (he : ∀ a, extra' a ≤ extra a) : Layout next' ends extra' lists where
  run i := (L.run i).congr fun a ha => h a (L.extra_of_mem ha)
  tail := L.tail
  count := L.count
  distinct a := (Nat.add_le_add_right (he a) _).trans (L.distinct a)

end

theorem mem_ne (L : Layout next ends extra lists) {i j : ι} (h : i ≠ j) {a : α} (ha : a ∈ lists i) : a ∉ lists j := by
  intro hb
  have hs := Finset.sum_le_sum_of_subset (f := fun i => (lists i).count a) (Finset.subset_univ {i, j})
  rw [Finset.sum_pair h] at hs
  have := L.distinct a
  have := List.count_pos_iff.mpr ha
  have := List.count_pos_iff.mpr hb
  omega

/-- One owner's list and its ends change, the links of the other lists do not. -/
theorem update (L : Layout next ends extra lists) {i : ι} {l : List α} (hr : Run next' (ends' i).head l)
    (ht : (ends' i).tail = l.getLast?) (hc : (ends' i).count = l.length) (hj : ∀ j, j ≠ i → ends' j = ends j)
    (hn : ∀ j, j ≠ i → ∀ a ∈ lists j, next' a = next a)
    (he : ∀ a, extra' a + l.count a ≤ extra a + (lists i).count a) :
    Layout next' ends' extra' (Function.update lists i l) := by
  have split : ∀ {p : ListEnds α → List α → Prop}, p (ends' i) l → (∀ j, j ≠ i → p (ends j) (lists j)) → ∀ j,
      p (ends' j) (Function.update lists i l j) := by
    intro p h0 h j
    by_cases e : j = i
    · subst e
      rwa [Function.update_self]
    · rw [hj j e, Function.update_of_ne e]
      exact h j e
  refine ⟨split (p := fun x l => Run next' x.head l) hr fun j e => (L.run j).congr (hn j e),
    split (p := fun x l => x.tail = l.getLast?) ht fun j _ => L.tail j,
    split (p := fun x l => x.count = l.length) hc fun j _ => L.count j, fun a => ?_⟩
  have hs := sum_update (fun l : List α => l.count a) lists i l
  have h1 := L.distinct a
  have h2 := he a
  omega

/-- One owner gives up its list. -/
theorem clear (L : Layout next ends extra lists) (i : ι) (hi : ends' i = .empty) (hj : ∀ j, j ≠ i → ends' j = ends j)
    (he : ∀ a, extra' a ≤ extra a + (lists i).count a) :
    Layout next ends' extra' (Function.update lists i []) :=
  L.update (by rw [hi]; rfl) (by rw [hi]; rfl) (by rw [hi]; rfl) hj (fun _ _ _ _ => rfl) he

/-- The head of a list is taken. -/
theorem pop (L : Layout next ends extra lists) {i : ι} {a : α} {as : List α} (hl : lists i = a :: as)
    (hi : ends' i = ⟨next a, if next a = none then none else (ends i).tail, (ends i).count - 1⟩)
    (hj : ∀ j, j ≠ i → ends' j = ends j) (he : ∀ b, extra' b ≤ extra b + if b = a then 1 else 0) :
    Layout next ends' extra' (Function.update lists i as) := by
  have r := L.run i
  rw [hl] at r
  refine L.update (by rw [hi]; exact r.2) ?_ (by rw [hi, L.count, hl]; rfl) hj (fun _ _ _ _ => rfl) fun b => ?_
  · rw [hi, L.tail, hl]
    have hh := r.2.head_eq
    cases as with
    | nil => rw [show next a = none from hh]; rfl
    | cons b as => rw [show next a = some b from hh, List.getLast?_cons_cons]; rfl
  · have := he b
    rw [hl, List.count_cons]
    simp only [beq_iff_eq, eq_comm (a := a) (b := b)]
    omega

/-- An entry that no list holds joins the tail of a list. -/
theorem push (L : Layout next ends extra lists) {i : ι} {a : α} (ha : 1 ≤ extra a) (hn : next' a = none)
    (ht : ∀ t, (ends i).tail = some t → next' t = some a)
    (ho : ∀ b, b ≠ a → (ends i).tail ≠ some b → next' b = next b)
    (h0 : (ends i).tail = none → (ends' i).head = some a) (h1 : (ends i).tail ≠ none → (ends' i).head = (ends i).head)
    (h2 : (ends' i).tail = some a) (h3 : (ends' i).count = (ends i).count + 1) (hj : ∀ j, j ≠ i → ends' j = ends j)
    (he : ∀ b, (extra' b + if b = a then 1 else 0) ≤ extra b) :
    Layout next' ends' extra' (Function.update lists i (lists i ++ [a])) := by
  have fresh : ∀ j, a ∉ lists j := fun j hm => by
    have := L.extra_of_mem hm
    omega
  have last : Run next' (some a) [a] := ⟨rfl, hn⟩
  refine L.update ?_ (by rw [h2, List.getLast?_append, List.getLast?_singleton]; rfl)
    (by rw [h3, L.count, List.length_append]; rfl) hj (fun j hne b hb => ho b ?_ ?_) fun b => ?_
  · cases e : (ends i).tail with
    | none =>
      rw [h0 e, (L.tail_eq_none i).mp e]
      exact last
    | some t =>
      rw [h1 (by rw [e]; exact nofun)]
      refine (L.run i).join (L.nodup i) ((L.tail i).symm.trans e) (ht t e) (fun b hb hne => ho b ?_ ?_) last
      · exact fun k => fresh i (k ▸ hb)
      · rw [e]
        exact fun k => hne (Option.some.inj k).symm
  · exact fun k => fresh j (k ▸ hb)
  · exact fun k => L.mem_ne hne hb (L.tail_mem k)
  · have := he b
    rw [List.count_append, List.count_singleton]
    simp only [beq_iff_eq, eq_comm (a := a) (b := b)]
    omega

/-- The list of owner j joins the tail of the list of owner i. -/
theorem splice (L : Layout next ends extra lists) {i j : ι} (hij : i ≠ j) (hl : lists j ≠ [])
    (ht : ∀ t, (ends i).tail = some t → next' t = (ends j).head) (ho : ∀ b, (ends i).tail ≠ some b → next' b = next b)
    (h0 : (ends i).tail = none → (ends' i).head = (ends j).head)
    (h1 : (ends i).tail ≠ none → (ends' i).head = (ends i).head)
    (h2 : (ends' i).tail = (ends j).tail) (h3 : (ends' i).count = (ends i).count + (ends j).count)
    (h4 : ends' j = .empty) (hk : ∀ k, k ≠ i → k ≠ j → ends' k = ends k) :
    Layout next' ends' extra (Function.update (Function.update lists j []) i (lists i ++ lists j)) := by
  have cleared : Layout next (Function.update ends j .empty) (fun a => extra a + (lists j).count a)
      (Function.update lists j []) :=
    L.clear j (Function.update_self _ _ _) (fun k e => Function.update_of_ne e _ _) fun _ => Nat.le_refl _
  have other : ∀ b, b ∈ lists j → next' b = next b := fun b hb =>
    ho b fun k => L.mem_ne hij (L.tail_mem k) hb
  have second : Run next' (ends j).head (lists j) := (L.run j).congr other
  refine cleared.update ?_ ?_ ?_ (fun k e => ?_) (fun k e b hb => ho b ?_) fun b => ?_
  · cases e : (ends i).tail with
    | none =>
      rw [h0 e, (L.tail_eq_none i).mp e]
      exact second
    | some t =>
      rw [h1 (by rw [e]; exact nofun)]
      refine (L.run i).join (L.nodup i) ((L.tail i).symm.trans e) (ht t e) (fun b _ hne => ho b ?_) second
      rw [e]
      exact fun k => hne (Option.some.inj k).symm
  · rw [h2, L.tail, List.getLast?_append_of_ne_nil _ hl]
  · rw [h3, L.count, L.count, List.length_append]
  · by_cases ej : k = j
    · subst ej
      rw [h4, Function.update_self]
    · rw [hk k e ej, Function.update_of_ne ej]
  · by_cases ej : k = j
    · subst ej
      rw [Function.update_self] at hb
      cases hb
    · rw [Function.update_of_ne ej] at hb
      exact fun x => L.mem_ne (Ne.symm e) (L.tail_mem x) hb
  · rw [Function.update_of_ne hij, List.count_append]
    omega

end Layout

/-- The rebuilt links run through every index in order (R17). -/
theorem run_finRange (N : Nat) : ∀ k n : Nat, k + n = N →
    Run (fun c : Fin N => if h : c.val + 1 < N then some ⟨c.val + 1, h⟩ else none)
      (if h : n < N then some ⟨n, h⟩ else none) ((List.finRange N).drop n)
  | 0, n, e => by
    rw [List.drop_eq_nil_of_le (by rw [List.length_finRange]; omega), dif_neg (by omega)]
    rfl
  | k + 1, n, e => by
    have hn : n < N := by omega
    rw [List.drop_eq_getElem_cons (by rwa [List.length_finRange]), dif_pos hn, List.getElem_finRange]
    exact ⟨rfl, run_finRange N k (n + 1) (by omega)⟩

/-- The list that a rebuild makes of a link memory: every index once, from 0 to the last. -/
theorem exists_rebuilt_list (N : Nat) [NeZero N] : ∃ l : List (Fin N),
    Run (fun c : Fin N => if h : c.val + 1 < N then some ⟨c.val + 1, h⟩ else none) (some 0) l ∧
      l.getLast? = some ⟨N - 1, Nat.sub_one_lt (NeZero.ne N)⟩ ∧ l.length = N ∧ l.Nodup := by
  have hN : 0 < N := Nat.pos_of_ne_zero (NeZero.ne N)
  refine ⟨List.finRange N, ?_, ?_, List.length_finRange, List.nodup_finRange N⟩
  · have h := run_finRange N N 0 (Nat.add_zero N)
    rwa [dif_pos hN, List.drop_zero] at h
  · rw [List.getLast?_eq_getElem?, List.length_finRange,
      List.getElem?_eq_getElem (by rw [List.length_finRange]; omega), List.getElem_finRange]
    rfl

end Sys2Proof.Machine
end

section
/-!
SUPPORT. The cell lists (R2, R18, R24, R25, R28): `CellsLaidOut` as a layout of the cell free list and the chains of the messages, and the
operations that move cells: a grant, the freeing of a descriptor, a BEGIN.
-/
namespace Sys2Proof.Machine

/-! ### The view of the cell lists -/

namespace State

/-- The link value written in a cell. -/
def cellNext (s : State) (c : CellNo) : CellLink := (s.cellLinkWord c).written

/-- The owners of cells: the free list, and each descriptor. -/
def cellEnds (s : State) : Option DescNo → ListEnds CellNo
  | none => ⟨s.pool.cellHead, s.pool.cellTail, s.pool.freeCells⟩
  | some d => (s.desc d).ends

/-- The cell lists with the cells `extra` beside them, and no link word with more than two inverted bits. -/
def CellOrder (s : State) (extra : CellNo → Nat) (lists : Option DescNo → List CellNo) : Prop :=
  (∀ c, (s.cellLinkWord c).inverted.length ≤ 2) ∧ Layout s.cellNext s.cellEnds extra lists

theorem cellRun_iff (s : State) (head : CellLink) (cs : List CellNo) : s.cellRun head cs ↔ Run s.cellNext head cs := by
  induction cs generalizing head with
  | nil => exact Iff.rfl
  | cons c cs ih => exact and_congr_right fun _ => ih _

/-- How often an entry stands in the lists of a family. -/
theorem count_flatMap_finRange {α : Type} [DecidableEq α] {n : Nat} (f : Fin n → List α) (a : α) :
    ((List.finRange n).flatMap f).count a = ∑ i, (f i).count a := by
  rw [List.count_flatMap, Fin.sum_univ_def]
  rfl

/-- The chain of a descriptor by its ends. -/
theorem chain_of_ends {s : State} {d : DescNo} {cs : List CellNo} (h : Run s.cellNext (s.desc d).ends.head cs)
    (ht : (s.desc d).ends.tail = cs.getLast?) (hc : (s.desc d).ends.count = cs.length) :
    (s.desc d = .free → cs = []) ∧ ∀ m, s.desc d = .live m →
      s.cellRun m.first cs ∧ m.last = cs.getLast? ∧ m.cells = cs.length := by
  refine ⟨fun e => ?_, fun m e => ?_⟩
  · rw [e] at hc
    exact List.length_eq_zero_iff.mp hc.symm
  · rw [e] at h ht hc
    exact ⟨(s.cellRun_iff _ _).mpr h, ht, hc⟩

theorem cellsLaidOut_iff (s : State) : s.CellsLaidOut ↔ ∃ lists, s.CellOrder (fun _ => 0) lists := by
  constructor
  · rintro ⟨hi, free, chain, hr, ht, hc, hf, hl, hn⟩
    refine ⟨fun o => o.elim free chain, hi, ?_, ?_, ?_, fun a => ?_⟩
    · rintro (_ | d)
      · exact (s.cellRun_iff _ _).mp hr
      · show Run _ (s.desc d).ends.head (chain d)
        cases e : s.desc d with
        | free => rw [hf d e]; rfl
        | live m => exact (s.cellRun_iff _ _).mp (hl d m e).1
    · rintro (_ | d)
      · exact ht
      · show (s.desc d).ends.tail = (chain d).getLast?
        cases e : s.desc d with
        | free => rw [hf d e]; rfl
        | live m => exact (hl d m e).2.1
    · rintro (_ | d)
      · exact hc
      · show (s.desc d).ends.count = (chain d).length
        cases e : s.desc d with
        | free => rw [hf d e]; rfl
        | live m => exact (hl d m e).2.2
    · rw [Fintype.sum_option, Nat.zero_add]
      have := List.nodup_iff_count_le_one.mp hn a
      rwa [List.count_append, count_flatMap_finRange] at this
  · rintro ⟨lists, hi, L⟩
    refine ⟨hi, lists none, fun d => lists (some d), (s.cellRun_iff _ _).mpr (L.run none), L.tail none, L.count none,
      fun d => (chain_of_ends (L.run (some d)) (L.tail (some d)) (L.count (some d))).1,
      fun d => (chain_of_ends (L.run (some d)) (L.tail (some d)) (L.count (some d))).2, ?_⟩
    refine List.nodup_iff_count_le_one.mpr fun a => ?_
    have := L.distinct a
    rwa [Fintype.sum_option, Nat.zero_add, ← count_flatMap_finRange, ← List.count_append] at this

/-- The canonical tables beside laid out cells: what every step keeps. -/
def CellsKept (s : State) : Prop := s.memoriesWf = true ∧ ∃ lists, s.CellOrder (fun _ => 0) lists

/-- Two pool records with the same cell free list. -/
def SameCellList (s t : State) : Prop :=
  t.pool.cellHead = s.pool.cellHead ∧ t.pool.cellTail = s.pool.cellTail ∧ t.pool.freeCells = s.pool.freeCells

/-- `t` has the cell lists of `s`: the link values, the free list and the chains. -/
structure SameCells (s t : State) : Prop where
  links : ∀ c, t.cellNext c = s.cellNext c ∧ ((s.cellLinkWord c).inverted.length ≤ 2 →
    (t.cellLinkWord c).inverted.length ≤ 2)
  ends : ∀ o, t.cellEnds o = s.cellEnds o

namespace SameCells

variable {s t u : State}

theorem refl (s : State) : SameCells s s := ⟨fun _ => ⟨rfl, fun h => h⟩, fun _ => rfl⟩

theorem trans (h : SameCells s t) (k : SameCells t u) : SameCells s u :=
  ⟨fun c => ⟨(k.links c).1.trans (h.links c).1, fun e => (k.links c).2 ((h.links c).2 e)⟩,
    fun o => (k.ends o).trans (h.ends o)⟩

/-- The link words, the free list and the chains each as they were. -/
theorem of_eq (hl : t.cellLinks = s.cellLinks) (hp : SameCellList s t) (hd : ∀ d, (t.desc d).ends = (s.desc d).ends) :
    SameCells s t := by
  have words : ∀ c, t.cellLinkWord c = s.cellLinkWord c := fun c => by rw [cellLinkWord, cellLinkWord, hl]
  obtain ⟨h1, h2, h3⟩ := hp
  refine ⟨fun c => ⟨congrArg Stored.written (words c), fun h => by rwa [words c]⟩, ?_⟩
  rintro (_ | d)
  · simp only [cellEnds, h1, h2, h3]
  · exact hd d

theorem order (h : SameCells s t) {extra : CellNo → Nat} {lists : Option DescNo → List CellNo}
    (o : s.CellOrder extra lists) : t.CellOrder extra lists := by
  have hn : t.cellNext = s.cellNext := funext fun c => (h.links c).1
  have he : t.cellEnds = s.cellEnds := funext h.ends
  refine ⟨fun c => (h.links c).2 (o.1 c), ?_⟩
  rw [hn, he]
  exact o.2

end SameCells

/-- A word with at most two inverted bits reads its written value or nothing (R13). -/
theorem check_of_le {α : Type} {w : Stored α} (h : w.inverted.length ≤ 2) :
    w.check = .clean w.written ∨ w.check = .corrected w.written ∨ w.check = .uncorrectable := by
  unfold Stored.check
  split
  · exact .inl rfl
  · exact .inr (.inl rfl)
  · exact .inr (.inr rfl)
  · rename_i x h0 h1 h2
    exfalso
    rcases hx : w.inverted with _ | ⟨a, _ | ⟨b, _ | ⟨c, l⟩⟩⟩
    · exact h0 hx
    · exact h1 a hx
    · exact h2 a b hx
    · rw [hx] at h
      simp at h

theorem written_of_check {α : Type} {w : Stored α} (h : w.inverted.length ≤ 2) {v : α}
    (k : w.check = .clean v ∨ w.check = .corrected v) : v = w.written := by
  rcases check_of_le h with e | e | e <;> rw [e] at k <;> rcases k with k | k <;> cases k <;> rfl

/-- A read of a link word gives the value written, or nothing. -/
theorem readCellLink_written {s : State} {c : CellNo} (h : (s.cellLinkWord c).inverted.length ≤ 2) {x : CellLink}
    (k : (s.readCellLink c).2 = some x) : x = s.cellNext c := by
  unfold readCellLink at k
  split at k <;> rename_i v e
  · cases k
    exact written_of_check h (.inl e)
  · cases k
    exact written_of_check h (.inr e)
  · cases k

theorem sameCells_readCellLink {s : State} (w : s.memoriesWf = true) (h : ∀ c, (s.cellLinkWord c).inverted.length ≤ 2)
    (c : CellNo) : SameCells s (s.readCellLink c).1 := by
  unfold readCellLink
  split <;> rename_i v e
  · exact SameCells.refl s
  · have words : ∀ x, ((s.putCellLink c ⟨v, []⟩).countCorrection .cellLink).cellLinkWord x =
        if x = c then ⟨v, []⟩ else s.cellLinkWord x := fun x =>
      cellLinkWord_putCellLink s (wf_cellLinks w) c x ⟨v, []⟩
    refine ⟨fun x => ?_, fun o => by cases o <;> rfl⟩
    rw [cellNext, words]
    split_ifs with hx
    · subst hx
      exact ⟨written_of_check (h x) (.inr e), fun _ => Nat.zero_le _⟩
    · exact ⟨rfl, fun k => k⟩
  · exact SameCells.refl s

/-- An edit of a message that leaves its chain alone. -/
theorem sameCells_updMessage {s : State} (w : s.memoriesWf = true) (d : DescNo) {f : Message → Message}
    (hf : ∀ m, (f m).first = m.first ∧ (f m).last = m.last ∧ (f m).cells = m.cells) : SameCells s (s.updMessage d f) := by
  obtain ⟨ds, e⟩ := s.updMessage_footprint d f
  refine SameCells.of_eq (by rw [e]) (by rw [e]; exact ⟨rfl, rfl, rfl⟩) fun x => ?_
  by_cases hx : x = d
  · subst hx
    cases hd : s.desc x with
    | free =>
      rw [updMessage, hd]
      exact congrArg Descriptor.ends hd
    | live m =>
      obtain ⟨h1, h2, h3⟩ := hf m
      rw [desc_updMessage (wf_descriptors w) hd]
      simp only [Descriptor.ends, h1, h2, h3]
  · rw [desc_updMessage_ne _ hx]

/-! ### Nodes taken, returned and appended leave the cells alone -/

theorem sameCellList_takeHeadNode (s : State) (p : Port) (n : NodeNo) : SameCellList s (s.takeHeadNode p n) := by
  have e := (s.readNodeLink_footprint n)
  unfold takeHeadNode
  split <;> rename_i h <;> rw [h] at e <;> obtain ⟨m, i, rfl⟩ := e <;> exact ⟨rfl, rfl, rfl⟩

theorem sameCellList_takeNodes (s : State) (p : Port) (k : Nat) (acc : List NodeNo) :
    SameCellList s (takeNodes p k s acc).1 := by
  induction k generalizing s acc with
  | zero => exact ⟨rfl, rfl, rfl⟩
  | succ k ih =>
    rw [takeNodes]
    split
    · exact ⟨rfl, rfl, rfl⟩
    · rename_i n _
      obtain ⟨h1, h2, h3⟩ := s.sameCellList_takeHeadNode p n
      obtain ⟨k1, k2, k3⟩ := ih (s.takeHeadNode p n) (acc ++ [n])
      exact ⟨k1.trans h1, k2.trans h2, k3.trans h3⟩

theorem sameCellList_returnNode (s : State) (n : NodeNo) : SameCellList s (s.returnNode n) := by
  obtain ⟨m, x, y, e⟩ := s.writeNodeLink_footprint n none
  unfold returnNode
  dsimp only
  rw [e]
  split
  · rename_i t _
    obtain ⟨m', x', y', e'⟩ := State.writeNodeLink_footprint
      { s with nodeLinks := m, arm := x, lastInjection := y } t (some n)
    rw [e']
    exact ⟨rfl, rfl, rfl⟩
  · exact ⟨rfl, rfl, rfl⟩

theorem sameCellList_returnNodes (s : State) (ns : List NodeNo) : SameCellList s (s.returnNodes ns) := by
  induction ns generalizing s with
  | nil => exact ⟨rfl, rfl, rfl⟩
  | cons n ns ih =>
    obtain ⟨h1, h2, h3⟩ := s.sameCellList_returnNode n
    obtain ⟨k1, k2, k3⟩ := ih (s.returnNode n)
    exact ⟨k1.trans h1, k2.trans h2, k3.trans h3⟩

theorem sameCells_returnNode (s : State) (n : NodeNo) : SameCells s (s.returnNode n) := by
  have hp := s.sameCellList_returnNode n
  obtain ⟨m, x, y, pl, e⟩ := s.returnNode_footprint n
  rw [e] at hp ⊢
  exact SameCells.of_eq rfl hp fun _ => rfl

theorem sameCells_allocateNodes (s : State) (p : Port) (k : Nat) : SameCells s (s.allocateNodes p k).1 := by
  have hp : SameCellList s (s.allocateNodes p k).1 := by
    have ht := s.sameCellList_takeNodes p k []
    unfold allocateNodes
    split <;> rename_i h <;> rw [h] at ht
    · exact ht
    · rename_i s1 ns
      obtain ⟨h1, h2, h3⟩ := ht
      obtain ⟨k1, k2, k3⟩ := s1.sameCellList_returnNodes ns
      exact ⟨k1.trans h1, k2.trans h2, k3.trans h3⟩
  obtain ⟨m, i, pl, x, y, e⟩ := s.allocateNodes_footprint p k
  rw [e] at hp ⊢
  exact SameCells.of_eq rfl hp fun _ => rfl

theorem sameCells_appendNode {s : State} (w : s.memoriesWf = true) (n : NodeNo) (d : DescNo) (q : QueueNo)
    (lq : LiveQueue) : SameCells s (s.appendNode n d q lq) := by
  have words : SameCells s ((s.appendWords n d lq).setQueue q (.live (lq.append n).afterAppend)) := by
    obtain ⟨c, m, x, y, e⟩ := s.appendWords_footprint n d lq
    rw [e]
    exact SameCells.of_eq rfl ⟨rfl, rfl, rfl⟩ fun _ => rfl
  have w1 : ((s.appendWords n d lq).setQueue q (.live (lq.append n).afterAppend)).memoriesWf = true :=
    ((Quiet.refl.appendWords n d lq).queue q _).memoriesWf w
  have linked := words.trans (sameCells_updMessage w1 d (f := Message.link q) fun _ => ⟨rfl, rfl, rfl⟩)
  unfold appendNode
  dsimp only
  split_ifs
  · exact linked.trans ⟨fun _ => ⟨rfl, fun h => h⟩, fun o => by cases o <;> rfl⟩
  · exact linked

theorem sameCells_appendAll {s : State} (w : s.memoriesWf = true) (d : DescNo) (qs : List QueueNo) (ns : List NodeNo) :
    SameCells s (s.appendAll d qs ns) := by
  induction qs generalizing s ns with
  | nil => exact SameCells.refl s
  | cons q qs ih =>
    cases ns with
    | nil => exact SameCells.refl s
    | cons n ns =>
      rw [appendAll]
      split
      · exact (sameCells_appendNode w n d q _).trans (ih ((Quiet.refl.appendNode n d q _).memoriesWf w) ns)
      · exact ih w ns

theorem sameCells_disposeAll {s : State} (w : s.memoriesWf = true) (d : DescNo) (x : Disposition) (qs : List QueueNo) :
    SameCells s (s.disposeAll d x qs) := by
  induction qs generalizing s with
  | nil => exact SameCells.refl s
  | cons q qs ih =>
    exact (sameCells_updMessage w d (f := Message.dispose q x) fun _ => ⟨rfl, rfl, rfl⟩).trans
      (ih ((Quiet.refl.updMessage d _).memoriesWf w))

theorem sameCells_examine {s : State} (w : s.memoriesWf = true) (p : Port) (d : DescNo) (m : Message) :
    SameCells s (s.examine p d m).1 := by
  unfold examine
  dsimp only
  split
  · exact SameCells.refl s
  · split_ifs
    · exact SameCells.refl s
    · have ha := s.sameCells_allocateNodes p (roomDests (s.admittedDests p m.pendingDests)).length
      have wa := (Quiet.refl (s := s)).allocateNodes p (roomDests (s.admittedDests p m.pendingDests)).length
      split <;> rename_i e <;> rw [e] at ha wa
      · exact ha
      · rename_i s1 ns
        have w1 : s1.memoriesWf = true := wa.memoriesWf w
        have w2 := (Quiet.appendAll d (roomDests (s.admittedDests p m.pendingDests)) ns Quiet.refl).memoriesWf w1
        exact ((ha.trans (sameCells_appendAll w1 _ _ _)).trans (sameCells_disposeAll w2 _ _ _)).trans
          (sameCells_disposeAll ((Quiet.disposeAll _ _ _ Quiet.refl).memoriesWf w2) _ _ _)

end State
end Sys2Proof.Machine
end

section
/-!
SUPPORT. What a grant does (R25, R27, R37): the head cell taken, its link word and the one before it written, the message one cell longer, the share
charged and the low-water state evaluated.
-/
namespace Sys2Proof.Machine.State

variable {s : State}

theorem cellLinkWord_writeCellLink (w : s.memoriesWf = true) (c e : CellNo) (v : CellLink) :
    (s.writeCellLink c v).cellLinkWord e = if e = c then ⟨v, injected s .cellLink⟩ else s.cellLinkWord e := by
  obtain ⟨x, y, k⟩ := s.takeArm_footprint .cellLink .cellLink .link c.val
  rw [← armBits_eq_injected, writeCellLink, k]
  exact cellLinkWord_putCellLink _ (wf_cellLinks (s := s) w) c e _

/-- A head whose link word reads clean or corrected gives the new head (R25); a corrected word is stored clean and counted. -/
theorem takeHeadCell_reads (w : s.memoriesWf = true) (p : Port) (h : CellNo) (x : CellLink)
    (k : (s.cellLinkWord h).check = .clean x ∨ (s.cellLinkWord h).check = .corrected x) :
    let t := s.takeHeadCell p h
    t = { s with
      cellLinks := t.cellLinks, integrity := { s.integrity with tracking := t.integrity.tracking }
      pool := { s.pool with
        cellHead := x, cellTail := if x = none then none else s.pool.cellTail, freeCells := s.pool.freeCells - 1 } } ∧
    ∀ e, e ≠ h → t.cellLinkWord e = s.cellLinkWord e := by
  rcases k with k | k
  · have r : s.readCellLink h = (s, some x) := by rw [readCellLink, k]
    rw [takeHeadCell, r]
    exact ⟨rfl, fun _ _ => rfl⟩
  · have r : s.readCellLink h = ((s.putCellLink h ⟨x, []⟩).countCorrection .cellLink, some x) := by rw [readCellLink, k]
    rw [takeHeadCell, r]
    refine ⟨rfl, fun e he => ?_⟩
    exact (cellLinkWord_putCellLink s (wf_cellLinks w) h e ⟨x, []⟩).trans (if_neg he)

/-- A head whose link word is uncorrectable truncates the list, strands the cells after it and is reported (R27). -/
theorem takeHeadCell_truncates (p : Port) (h : CellNo) (k : (s.cellLinkWord h).check = .uncorrectable) :
    s.takeHeadCell p h = (s.setPool { s.pool with
      cellHead := none, cellTail := none, freeCells := 0
      strandedCells := s.pool.strandedCells + (s.pool.freeCells - 1) }).report
        ⟨.cellLink, .link, h.val, .headRead, p, none, none⟩ .truncate := by
  have r : s.readCellLink h = (s, none) := by rw [readCellLink, k]
  rw [takeHeadCell, r]

/-- A take changes no link word but the head's. -/
theorem takeHeadCell_words (w : s.memoriesWf = true) (p : Port) (h e : CellNo) (he : e ≠ h) :
    (s.takeHeadCell p h).cellLinkWord e = s.cellLinkWord e := by
  cases k : (s.cellLinkWord h).check with
  | clean x => exact (takeHeadCell_reads w p h x (.inl k)).2 e he
  | corrected x => exact (takeHeadCell_reads w p h x (.inr k)).2 e he
  | uncorrectable =>
    rw [takeHeadCell_truncates p h k]
    rfl

theorem lowWaterEvaluation_pool (s : State) : s.lowWaterEvaluation.pool = { s.pool with
    lowWater := if s.pool.lowWater = .armed ∧ s.pool.freeCells < s.pool.lowMark then .tripped else s.pool.lowWater } := by
  unfold lowWaterEvaluation
  split_ifs
  · rfl
  · rfl

/-- The state of a grant before its low-water evaluation. -/
def grantedOf (s : State) (p : Port) (d : DescNo) (h : CellNo) : State :=
  let s1 := (s.takeHeadCell p h).writeCellLink h none
  (s1.setShare p { s1.share p with charged := (s1.share p).charged + 1, starving := false }).updMessage d
    (Message.addCell h)

theorem grantCell_eq (s : State) (p : Port) (d : DescNo) (h : CellNo) :
    s.grantCell p d h = (s.grantedOf p d h).lowWaterEvaluation := rfl

/-- The records that a grant does not write after its take. -/
theorem grantedOf_footprint (s : State) (p : Port) (d : DescNo) (h : CellNo) :
    ∃ ds, s.grantedOf p d h = { ((s.takeHeadCell p h).writeCellLink h none) with
      descriptors := ds
      shares := s.shares.set p { s.share p with charged := (s.share p).charged + 1, starving := false } } := by
  obtain ⟨m, i, pl, k⟩ := s.takeHeadCell_footprint p h
  obtain ⟨m', x, y, k'⟩ := (s.takeHeadCell p h).writeCellLink_footprint h none
  obtain ⟨ds, e⟩ := (((s.takeHeadCell p h).writeCellLink h none).setShare p
    { ((s.takeHeadCell p h).writeCellLink h none).share p with
      charged := (((s.takeHeadCell p h).writeCellLink h none).share p).charged + 1
      starving := false }).updMessage_footprint d (Message.addCell h)
  refine ⟨ds, e.trans ?_⟩
  rw [k', k]
  rfl

theorem arm_takeHeadCell (s : State) (p : Port) (h : CellNo) : SameInjection s (s.takeHeadCell p h) := by
  obtain ⟨m, i, pl, k⟩ := s.takeHeadCell_footprint p h
  rw [k]
  exact ⟨rfl, rfl⟩

/-- The write of the granted cell's link word takes an arm set for cell links (R16). -/
theorem grantCell_taken (s : State) (p : Port) (d : DescNo) (h : CellNo) :
    InjectionTaken s (s.grantCell p d h) fun x => if x = .cellLink then some (.cellLink, .link, h.val) else none := by
  obtain ⟨ds, e⟩ := s.grantedOf_footprint p d h
  obtain ⟨pl, ev, k⟩ := (s.grantedOf p d h).lowWaterEvaluation_footprint
  rw [grantCell_eq, k, e]
  exact ((s.takeHeadCell p h).writeCellLink_taken h none).congr
    ⟨(s.arm_takeHeadCell p h).1.symm, (s.arm_takeHeadCell p h).2.symm⟩ ⟨rfl, rfl⟩

theorem injected_takeHeadCell (s : State) (p : Port) (h : CellNo) (x : InjectTarget) :
    injected (s.takeHeadCell p h) x = injected s x := by
  rw [injected, (s.arm_takeHeadCell p h).1]
  rfl

/-- The link words after a grant. -/
theorem grantCell_words (w : s.memoriesWf = true) (p : Port) (d : DescNo) (h e : CellNo) :
    (s.grantCell p d h).cellLinkWord e = if e = h then ⟨none, injected s .cellLink⟩ else s.cellLinkWord e := by
  obtain ⟨ds, k⟩ := s.grantedOf_footprint p d h
  obtain ⟨pl, ev, k'⟩ := (s.grantedOf p d h).lowWaterEvaluation_footprint
  have w1 : (s.takeHeadCell p h).memoriesWf = true := (Quiet.refl.takeHeadCell p h).memoriesWf w
  have word : (s.grantCell p d h).cellLinkWord e = ((s.takeHeadCell p h).writeCellLink h none).cellLinkWord e := by
    rw [grantCell_eq, k', k]
    rfl
  rw [word, cellLinkWord_writeCellLink w1, injected_takeHeadCell]
  split_ifs with he
  · rfl
  · exact takeHeadCell_words w p h e he

/-- The descriptors after a grant. -/
theorem grantCell_desc (w : s.memoriesWf = true) (p : Port) (d : DescNo) (h : CellNo) :
    (∀ m, s.desc d = .live m → (s.grantCell p d h).desc d = .live (m.addCell h)) ∧
      (s.desc d = .free → (s.grantCell p d h).desc d = .free) ∧
      ∀ e, e ≠ d → (s.grantCell p d h).desc e = s.desc e := by
  obtain ⟨m, i, pl, k⟩ := s.takeHeadCell_footprint p h
  obtain ⟨m', x, y, k'⟩ := (s.takeHeadCell p h).writeCellLink_footprint h none
  obtain ⟨pl', ev, k''⟩ := (s.grantedOf p d h).lowWaterEvaluation_footprint
  have same : ∀ e, (s.grantCell p d h).desc e = (s.grantedOf p d h).desc e := fun e => by
    rw [grantCell_eq, k'']
    rfl
  have before : ∀ (y : Share) e, (((s.takeHeadCell p h).writeCellLink h none).setShare p y).desc e = s.desc e :=
    fun y e => by
      rw [k', k]
      rfl
  have w2 : (((s.takeHeadCell p h).writeCellLink h none).setShare p
      { ((s.takeHeadCell p h).writeCellLink h none).share p with
        charged := (((s.takeHeadCell p h).writeCellLink h none).share p).charged + 1
        starving := false }).memoriesWf = true :=
    (((Quiet.refl.takeHeadCell p h).writeCellLink h none).share p _).memoriesWf w
  refine ⟨fun m hm => ?_, fun hf => ?_, fun e he => ?_⟩
  · rw [same]
    exact desc_updMessage (wf_descriptors w2) ((before _ d).trans hm) _
  · rw [same]
    unfold grantedOf
    dsimp only
    rw [updMessage, before, hf]
    exact (before _ d).trans hf
  · rw [same]
    exact (desc_updMessage_ne _ he _).trans (before _ e)

/-- The pool after a grant: that of the take, with the low-water state evaluated. -/
theorem grantCell_pool (s : State) (p : Port) (d : DescNo) (h : CellNo) :
    (s.grantCell p d h).pool = { (s.takeHeadCell p h).pool with
      lowWater := if (s.takeHeadCell p h).pool.lowWater = .armed ∧
        (s.takeHeadCell p h).pool.freeCells < (s.takeHeadCell p h).pool.lowMark then .tripped
        else (s.takeHeadCell p h).pool.lowWater } := by
  obtain ⟨ds, k⟩ := s.grantedOf_footprint p d h
  obtain ⟨m', x, y, k'⟩ := (s.takeHeadCell p h).writeCellLink_footprint h none
  have e : (s.grantedOf p d h).pool = (s.takeHeadCell p h).pool := by rw [k, k']
  rw [grantCell_eq, lowWaterEvaluation_pool, e]

/-- The state of a grant step before its slot is set. -/
def chainedOf (s : State) (p : Port) (k : Composing) (h : CellNo) : State :=
  match (s.messageOf k.desc).last with
  | some l => (s.grantCell p k.desc h).writeCellLink l (some h)
  | none => s.grantCell p k.desc h

theorem grantStep_eq (s : State) (p : Port) (c : ComposeNo) (k : Composing) (h : CellNo) :
    grantStep s p c k h = (s.chainedOf p k h).setComposeSlot p c
      { (s.chainedOf p k h).composeSlot p c with phase := .filling { k with cell := some h }, starved := false } := rfl

/-- The link write into the previous last cell changes nothing but that word: the arm has been taken. -/
theorem chainedOf_spec (w : s.memoriesWf = true) (p : Port) (k : Composing) (h : CellNo) :
    (∃ l, s.chainedOf p k h = { s.grantCell p k.desc h with cellLinks := l }) ∧
    ∀ e, (s.chainedOf p k h).cellLinkWord e =
      if (s.messageOf k.desc).last = some e then ⟨some h, []⟩
      else if e = h then ⟨none, injected s .cellLink⟩ else s.cellLinkWord e := by
  have wg : (s.grantCell p k.desc h).memoriesWf = true := (Quiet.refl.grantCell p k.desc h).memoriesWf w
  have taken : injected (s.grantCell p k.desc h) .cellLink = [] := (s.grantCell_taken p k.desc h).injected_of_taken rfl
  unfold chainedOf
  cases hl : (s.messageOf k.desc).last with
  | none =>
    refine ⟨⟨_, rfl⟩, fun e => ?_⟩
    rw [if_neg nofun]
    exact grantCell_words w p k.desc h e
  | some l =>
    refine ⟨?_, fun e => ?_⟩
    · have unarmed : (s.grantCell p k.desc h).takeArm .cellLink .cellLink .link l.val = s.grantCell p k.desc h := by
        refine takeArm_of_not (fun kind ha => ?_) _ _ _
        rw [injected, ha] at taken
        cases kind <;> simp at taken
      have put : (s.grantCell p k.desc h).writeCellLink l (some h) =
          (s.grantCell p k.desc h).putCellLink l ⟨some h, (s.grantCell p k.desc h).armBits .cellLink⟩ := by
        rw [writeCellLink, unarmed]
      exact ⟨_, put⟩
    · rw [cellLinkWord_writeCellLink wg, taken, grantCell_words w]
      simp only [Option.some.injEq, eq_comm]

end Sys2Proof.Machine.State
end

section
/-!
SUPPORT. The operations that move cells keep the cell lists (R22, R25, R27, R28), and so does every step (O58).
-/
namespace Sys2Proof.Machine.State

variable {s : State}

theorem length_injected (s : State) (x : InjectTarget) : (injected s x).length ≤ 2 := by
  unfold injected
  split_ifs <;> decide

/-! ### A grant -/

/-- The head of the free list leaves it; at a truncation the cells after it do too. -/
theorem order_takeHeadCell (w : s.memoriesWf = true) {lists : Option DescNo → List CellNo}
    (o : s.CellOrder (fun _ => 0) lists) (p : Port) {h : CellNo} (hh : s.pool.cellHead = some h) :
    ∃ lists', (s.takeHeadCell p h).CellOrder (fun a => if a = h then 1 else 0) lists' := by
  have k := (sameCells_readCellLink w o.1 h).order o
  have hp : ((s.readCellLink h).1).pool = s.pool := by
    obtain ⟨m, i, e⟩ := s.readCellLink_footprint h
    rw [e]
  have hx := fun x => readCellLink_written (o.1 h) (x := x)
  have hw : (s.readCellLink h).1.cellNext h = s.cellNext h := ((sameCells_readCellLink w o.1 h).links h).1
  have head : ((s.readCellLink h).1.cellEnds none).head = some h := (congrArg Pool.cellHead hp).trans hh
  obtain ⟨as, hl, _⟩ := k.2.head_cons head
  unfold takeHeadCell
  split <;> rename_i s1 _ e <;> rw [e] at k hp hw hx
  · rename_i x
    have hx := hx x rfl
    refine ⟨Function.update lists none as, k.1, k.2.pop hl ?_ ?_ fun b => ?_⟩
    · rw [hw, ← hx]
      rfl
    · rintro (_ | d) hd
      · exact absurd rfl hd
      · rfl
    · rw [Nat.zero_add]
  · refine ⟨Function.update lists none [], k.1, k.2.clear none rfl ?_ fun b => ?_⟩
    · rintro (_ | d) hd
      · exact absurd rfl hd
      · rfl
    · rw [hl, List.count_cons]
      simp only [beq_iff_eq, eq_comm (a := h) (b := b)]
      omega

theorem descriptors_takeHeadCell (s : State) (p : Port) (h : CellNo) : (s.takeHeadCell p h).descriptors = s.descriptors := by
  obtain ⟨m, i, pl, k⟩ := s.takeHeadCell_footprint p h
  rw [k]

/-- The free list after a grant is that of the take; the chain of the message has one cell more. -/
theorem cellEnds_grantStep (w : s.memoriesWf = true) (p : Port) (c : ComposeNo) (k : Composing) (h : CellNo) :
    (∀ o, o ≠ some k.desc → (grantStep s p c k h).cellEnds o = (s.takeHeadCell p h).cellEnds o) ∧
      (grantStep s p c k h).cellEnds (some k.desc) = ((s.grantCell p k.desc h).desc k.desc).ends := by
  obtain ⟨l, e⟩ := (chainedOf_spec w p k h).1
  have hd : ∀ d, (grantStep s p c k h).desc d = (s.grantCell p k.desc h).desc d := fun d => by
    rw [grantStep_eq, e]
    rfl
  have hp : (grantStep s p c k h).pool = (s.grantCell p k.desc h).pool := by
    rw [grantStep_eq, e]
    rfl
  refine ⟨?_, congrArg Descriptor.ends (hd k.desc)⟩
  rintro (_ | d) hne
  · simp only [cellEnds, hp, grantCell_pool]
  · have hne : d ≠ k.desc := fun x => hne (congrArg some x)
    have same : (s.takeHeadCell p h).desc d = s.desc d := desc_of_descriptors (s.descriptors_takeHeadCell p h) d
    show ((grantStep s p c k h).desc d).ends = ((s.takeHeadCell p h).desc d).ends
    rw [hd, (grantCell_desc w p k.desc h).2.2 d hne, same]

theorem cellsKept_grantStep {p : Port} {c : ComposeNo} {k : Composing} {h : CellNo} (hh : s.pool.cellHead = some h)
    (i : s.CellsKept) : (grantStep s p c k h).CellsKept := by
  obtain ⟨w, lists, o⟩ := i
  obtain ⟨free, u⟩ := order_takeHeadCell w o p hh
  obtain ⟨he, hd⟩ := cellEnds_grantStep w p c k h
  have words : ∀ e, (grantStep s p c k h).cellLinkWord e = if (s.messageOf k.desc).last = some e then ⟨some h, []⟩
      else if e = h then ⟨none, injected s .cellLink⟩ else s.cellLinkWord e := (chainedOf_spec w p k h).2
  have next : ∀ e, e ≠ h → (s.messageOf k.desc).last ≠ some e →
      (grantStep s p c k h).cellNext e = (s.takeHeadCell p h).cellNext e := fun e h1 h2 => by
    rw [cellNext, cellNext, words, if_neg h2, if_neg h1, takeHeadCell_words w p h e h1]
  have bits : ∀ e, ((grantStep s p c k h).cellLinkWord e).inverted.length ≤ 2 := fun e => by
    rw [words]
    split_ifs
    · exact Nat.zero_le _
    · exact s.length_injected _
    · exact o.1 e
  refine ⟨(Quiet.refl.grantStep p c k h).memoriesWf w, ?_⟩
  have same : (s.takeHeadCell p h).desc k.desc = s.desc k.desc := desc_of_descriptors (s.descriptors_takeHeadCell p h) _
  cases m : s.desc k.desc with
  | free =>
    have hl : (s.messageOf k.desc).last = none := by
      rw [messageOf, message, m]
      rfl
    have ends : (grantStep s p c k h).cellEnds = (s.takeHeadCell p h).cellEnds := by
      funext x
      by_cases hx : x = some k.desc
      · rw [hx, hd, (grantCell_desc w p k.desc h).2.1 m]
        exact congrArg Descriptor.ends (same.trans m).symm
      · exact he x hx
    refine ⟨free, bits, ?_⟩
    rw [ends]
    refine u.2.relink (fun a ha => next a ?_ ?_) fun _ => Nat.zero_le _
    · rintro rfl
      simp at ha
    · rw [hl]
      exact nofun
  | live msg =>
    have hm : s.messageOf k.desc = msg := messageOf_of_live m
    have ends : (s.takeHeadCell p h).cellEnds (some k.desc) = ⟨msg.first, msg.last, msg.cells⟩ :=
      congrArg Descriptor.ends (same.trans m)
    have ends' : (grantStep s p c k h).cellEnds (some k.desc) = ⟨if msg.cells = 0 then some h else msg.first, some h,
        msg.cells + 1⟩ := by
      rw [hd, (grantCell_desc w p k.desc h).1 msg m]
      rfl
    have empty : msg.cells = 0 ↔ msg.last = none := by
      have h1 := u.2.tail_eq_none (some k.desc)
      have h2 := u.2.count_eq_zero (some k.desc)
      rw [ends] at h1 h2
      exact h2.trans h1.symm
    rw [hm] at words next
    have apart : msg.last ≠ some h := fun e => by
      have := u.2.extra_of_mem (u.2.tail_mem (i := some k.desc) (t := h) (by rw [ends]; exact e))
      simp at this
    refine ⟨Function.update free (some k.desc) (free (some k.desc) ++ [h]), bits,
      u.2.push (extra' := fun _ => 0) (by simp) ?_ (fun t ht => ?_) (fun b h1 h2 => next b h1 ?_) (fun e => ?_)
        (fun e => ?_) ?_ ?_ he fun b => by split_ifs <;> omega⟩
    · rw [cellNext, words, if_neg apart, if_pos rfl]
    · rw [ends] at ht
      rw [cellNext, words, if_pos ht]
    · rwa [ends] at h2
    · rw [ends] at e
      rw [ends', if_pos (empty.mpr e)]
    · rw [ends] at e
      rw [ends', if_neg fun x => e (empty.mp x), ends]
    · rw [ends']
    · rw [ends', ends]

/-! ### The freeing of a descriptor, and other changes of the table -/

theorem cellsKept_freeDescriptor {d : DescNo} {m : Message} (hm : s.desc d = .live m) (i : s.CellsKept) :
    (s.freeDescriptor d m).CellsKept := by
  obtain ⟨w, lists, bits, L⟩ := i
  obtain ⟨⟨hf, _, _⟩, hd, _, _⟩ := freeDescriptor_effect s (wf_descriptors w) d m
  obtain ⟨⟨hs, hn, _⟩, _, _⟩ := freeDescriptor_recovered s (wf_cellLinks w) d m
  have ends : s.cellEnds (some d) = ⟨m.first, m.last, m.cells⟩ := congrArg Descriptor.ends hm
  have ends' : (s.freeDescriptor d m).cellEnds (some d) = .empty := congrArg Descriptor.ends hf
  have others : ∀ e, e ≠ d → (s.freeDescriptor d m).cellEnds (some e) = s.cellEnds (some e) := fun e he =>
    congrArg Descriptor.ends (hd e he)
  refine ⟨(Quiet.refl.freeDescriptor d m).memoriesWf w, ?_⟩
  cases hp : m.splices with
  | true =>
    obtain ⟨h1, h2, _, h4, h5, _⟩ := hs hp
    have hc : m.cells ≠ 0 := by
      simp only [Message.splices, Bool.and_eq_true, decide_eq_true_eq] at hp
      exact hp.1.1.1
    have words : ∀ e, s.pool.cellTail ≠ some e →
        (s.freeDescriptor d m).cellLinkWord e = s.cellLinkWord e := fun e he => by
      cases ht : s.pool.cellTail with
      | none => rw [cellLinkWord, (h4 ht).2]; rfl
      | some tl => exact (h5 tl ht).2.2 e fun x => he (by rw [ht, x])
    refine ⟨_, fun e => ?_, L.splice (i := none) (j := some d) nofun ?_ (fun t ht => ?_) (fun b hb => ?_) (fun e => ?_)
      (fun e => ?_) ?_ ?_ ends' ?_⟩
    · by_cases he : s.pool.cellTail = some e
      · rw [(h5 e he).2.1]
        exact s.length_injected _
      · rw [words e he]
        exact bits e
    · intro e
      rw [← L.count_eq_zero, ends] at e
      exact hc e
    · rw [cellNext, (h5 t ht).2.1, ends]
    · rw [cellNext, words b hb]
      rfl
    · rw [ends]
      exact (h4 e).1
    · obtain ⟨t, ht⟩ := Option.ne_none_iff_exists'.mp e
      exact (h5 t ht).1
    · rw [ends]
      exact h2
    · rw [ends]
      exact h1
    · rintro (_ | e) h1 h2
      · exact absurd rfl h1
      · exact others e fun x => h2 (congrArg some x)
  | false =>
    obtain ⟨h1, h2, h3, _, h5, _⟩ := hn hp
    have words : ∀ e, (s.freeDescriptor d m).cellLinkWord e = s.cellLinkWord e := fun e => by
      rw [cellLinkWord, h5]
      rfl
    have next : (s.freeDescriptor d m).cellNext = s.cellNext := funext fun e => congrArg Stored.written (words e)
    refine ⟨Function.update lists (some d) [], fun e => by rw [words]; exact bits e, ?_⟩
    rw [next]
    refine L.clear (some d) ends' ?_ fun _ => Nat.zero_le _
    rintro (_ | e) h
    · simp only [cellEnds, h1, h2, h3]
    · exact others e fun x => h (congrArg some x)

theorem SameCells.kept {s t : State} (h : SameCells s t) (q : s.memoriesWf = true → t.memoriesWf = true)
    (i : s.CellsKept) : t.CellsKept := by
  obtain ⟨w, lists, o⟩ := i
  exact ⟨q w, lists, h.order o⟩

/-- An edit of the data path that keeps the cell lists. -/
theorem cellsKept_quiet {s t : State} (q : Quiet s t) (h : SameCells s t) (i : s.CellsKept) : t.CellsKept :=
  h.kept q.memoriesWf i

/-- An edit of the data path that does not touch the cell link words, the descriptors and the cell free list. -/
theorem cellsKept_apart {s t : State} (q : Quiet s t) (hl : t.cellLinks = s.cellLinks) (hp : SameCellList s t)
    (hd : t.descriptors = s.descriptors) (i : s.CellsKept) : t.CellsKept :=
  cellsKept_quiet q (SameCells.of_eq hl hp fun d => congrArg Descriptor.ends (desc_of_descriptors hd d)) i

theorem cellsKept_dropHolder (d : DescNo) (i : s.CellsKept) : (s.dropHolder d).CellsKept := by
  have message : ∀ m, s.message d = some m → s.desc d = .live m := fun m hm => by
    unfold State.message at hm
    split at hm <;> cases hm
    assumption
  unfold dropHolder
  split
  · exact i
  · rename_i m hm
    split_ifs
    · exact i
    · exact cellsKept_freeDescriptor (message m hm) i
    · refine cellsKept_quiet (Quiet.refl.desc d _) (SameCells.of_eq rfl ⟨rfl, rfl, rfl⟩ fun e => ?_) i
      rw [desc_setDesc s (wf_descriptors i.1)]
      split_ifs with he
      · rw [he, message m hm]
        rfl
      · rfl

/-- A descriptor that takes a record without cells gives up its chain. -/
theorem cellsKept_setDesc {d : DescNo} {m : Message} (hm : (Descriptor.live m).ends = .empty) (i : s.CellsKept) :
    (s.setDesc d (.live m)).CellsKept := by
  obtain ⟨w, lists, bits, L⟩ := i
  have ends : ∀ e, (s.setDesc d (.live m)).desc e = if e = d then .live m else s.desc e := fun e =>
    desc_setDesc s (wf_descriptors w) d e _
  refine ⟨(Quiet.refl.desc d _).memoriesWf w, _, bits, L.clear (some d) ?_ ?_ fun _ => Nat.zero_le _⟩
  · show ((s.setDesc d (.live m)).desc d).ends = _
    rw [ends, if_pos rfl, hm]
  · rintro (_ | e) h
    · rfl
    · show ((s.setDesc d (.live m)).desc e).ends = _
      rw [ends, if_neg fun x => h (congrArg some x)]
      rfl

/-! ### Seals, abandons, releases, BEGIN, FETCH and drains -/

theorem cellsKept_updMessage (d : DescNo) {f : Message → Message}
    (hf : ∀ m, (f m).first = m.first ∧ (f m).last = m.last ∧ (f m).cells = m.cells) (i : s.CellsKept) :
    (s.updMessage d f).CellsKept :=
  cellsKept_quiet (Quiet.refl.updMessage d f) (sameCells_updMessage i.1 d hf) i

theorem cellsKept_abandonSlot (p : Port) (c : ComposeNo) (k : Composing) (i : s.CellsKept) :
    (s.abandonSlot p c k).CellsKept :=
  cellsKept_dropHolder _ (cellsKept_updMessage (s := s) k.desc (f := fun m => { m with state := .abandoned })
    (fun _ => ⟨rfl, rfl, rfl⟩) i)

theorem cellsKept_sealSlot (p : Port) (c : ComposeNo) (k : Composing) (m : Message) (n : Nat) (i : s.CellsKept) :
    (s.sealSlot p c k m n).state.CellsKept := by
  have x := cellsKept_quiet (Quiet.refl.examine p k.desc m) (sameCells_examine i.1 p k.desc m) i
  unfold sealSlot
  split <;> rename_i e <;> rw [e] at x
  · exact x
  · exact cellsKept_dropHolder _ (cellsKept_updMessage k.desc
      (f := fun x => { x with state := .isSealed, final := some n }) (fun _ => ⟨rfl, rfl, rfl⟩) x)

theorem cellsKept_returnNode (n : NodeNo) (i : s.CellsKept) : (s.returnNode n).CellsKept :=
  cellsKept_quiet (Quiet.refl.returnNode n) (s.sameCells_returnNode n) i

theorem cellsKept_releaseSlot (p : Port) (r : ReceiveNo) (h : Holding) (i : s.CellsKept) :
    (s.releaseSlot p r h).CellsKept :=
  cellsKept_dropHolder h.desc (cellsKept_returnNode h.node i)

theorem cellsKept_beginTaken (p : Port) (c : ComposeNo) (b : BeginParams) (qs : List QueueNo) (d : DescNo)
    (rest : List DescNo) (room full : List QueueNo) (ns : List NodeNo) (i : s.CellsKept) :
    (beginTaken s p c b qs d rest room full ns).CellsKept := by
  have allocated : ((s.setPool { s.pool with fifo := rest }).setDesc d (.live (newMessage p c b qs))).CellsKept :=
    cellsKept_setDesc (s := s.setPool { s.pool with fifo := rest }) rfl i
  have linked := cellsKept_quiet (Quiet.appendAll d room ns Quiet.refl) (sameCells_appendAll allocated.1 d room ns)
    allocated
  have dropped := cellsKept_quiet (Quiet.disposeAll d .droppedFull full Quiet.refl)
    (sameCells_disposeAll linked.1 d .droppedFull full) linked
  exact dropped

theorem cellsKept_beginLink (p : Port) (c : ComposeNo) (b : BeginParams) (qs : List QueueNo) (i : s.CellsKept) :
    (beginLink s p c b qs).state.CellsKept := by
  unfold beginLink
  dsimp only
  split
  · exact i
  · split
    · exact i
    · rename_i d rest _
      split_ifs
      · exact i
      · split
        · exact i
        · have a1 := cellsKept_quiet (Quiet.refl.allocateNodes p _) (s.sameCells_allocateNodes p
            (roomDests (cutDests (s.admittedDests p (qs.zipIdx.map fun t => (t.2, t.1))))).length) i
          split <;> rename_i e <;> rw [e] at a1
          · exact a1
          · exact cellsKept_beginTaken p c b qs d rest _ _ _ a1

/-- The reads of a head node. -/
theorem cellsKept_reads (lq : LiveQueue) (n : NodeNo) (i : s.CellsKept) : ((s.headNode lq).1.readNode n).1.CellsKept := by
  have h1 : (s.headNode lq).1.CellsKept := by
    unfold headNode
    split
    · exact i
    · exact i
  obtain ⟨c, m, x, e⟩ := (s.headNode lq).1.readNode_footprint n
  refine cellsKept_apart (Quiet.refl.readNode n) ?_ ?_ ?_ h1 <;> rw [e]
  exact ⟨rfl, rfl, rfl⟩

theorem cellsKept_setQueue (q : QueueNo) (x : Queue) (i : s.CellsKept) : (s.setQueue q x).CellsKept :=
  cellsKept_apart (Quiet.refl.queue q x) rfl ⟨rfl, rfl, rfl⟩ rfl i

theorem cellsKept_reportBroken (n : NodeNo) (c : Option DescNo) (a : ReadAccess) (p : Port) (q : QueueNo)
    (i : s.CellsKept) : (s.reportBroken n c a p q).CellsKept := by
  obtain ⟨x, e⟩ := s.reportBroken_footprint n c a p q
  refine cellsKept_apart (Quiet.refl.reportBroken n c a p q) ?_ ?_ ?_ i <;> rw [e]
  exact ⟨rfl, rfl, rfl⟩

theorem cellsKept_detach (p : Port) (r : ReceiveNo) (q : QueueNo) (lq : LiveQueue) (i : s.CellsKept) :
    (detach s p r q lq).state.CellsKept := by
  have k := fun n => cellsKept_reads lq n i
  unfold detach
  split
  rename_i s1 n e
  have k := k n
  rw [e] at k
  split <;> rename_i e2 <;> rw [e2] at k
  · exact cellsKept_setQueue q _ k
  · exact cellsKept_setQueue q _ k
  · exact cellsKept_setQueue q _ (cellsKept_reportBroken n _ _ p q k)

/-- The link words, the descriptors and the cell free list as a rebuild leaves them (R17, R41). -/
theorem cellsKept_rebuilt {t : State} (w : t.memoriesWf = true) (hl : t.cellLinks = []) (hd : t.descriptors = [])
    (hp : t.pool.cellHead = some 0 ∧ t.pool.cellTail = some 2047 ∧ t.pool.freeCells = 2048) : t.CellsKept := by
  have words : ∀ c, t.cellLinkWord c = cellLinkDefault c.val := fun c => by
    rw [cellLinkWord, hl]
    rfl
  have ends : ∀ d, t.cellEnds (some d) = .empty := fun d => by
    rw [cellEnds, desc, hd]
    rfl
  have next : t.cellNext = fun c : CellNo => if h : c.val + 1 < 2048 then some ⟨c.val + 1, h⟩ else none :=
    funext fun c => congrArg Stored.written (words c)
  obtain ⟨free, run, last, length, nodup⟩ := exists_rebuilt_list 2048
  rw [← next] at run
  have ends0 : t.cellEnds none = ⟨some 0, some 2047, 2048⟩ := by rw [cellEnds, hp.1, hp.2.1, hp.2.2]
  refine ⟨w, fun o => o.elim free fun _ => [], fun c => ?_, ?_, ?_, ?_, fun a => ?_⟩
  · rw [words]
    exact Nat.zero_le _
  · rintro (_ | d)
    · rw [ends0]
      exact run
    · rw [ends]
      rfl
  · rintro (_ | d)
    · rw [ends0]
      exact last.symm
    · rw [ends]
      rfl
  · rintro (_ | d)
    · rw [ends0]
      exact length.symm
    · rw [ends]
      rfl
  · rw [Fintype.sum_option]
    have := List.nodup_iff_count_le_one.mp nodup a
    simpa

end Sys2Proof.Machine.State
namespace Sys2Proof.Machine
open State

theorem edits_cells : Edits State.CellsKept where
  front _ _ h := h
  event _ _ _ h := h
  port _ _ _ h := h
  compose _ _ h := h
  receive _ _ _ _ h := h
  shares _ h := h
  integrity _ _ h := h
  mgmt _ _ h := h
  mint _ h := h
  timeouts _ h := h
  arm _ _ h := h
  fresh _ h := h
  pool x hx h := cellsKept_apart (Quiet.refl.pool x) rfl ⟨hx.1, hx.2.1, hx.2.2.1⟩ rfl h
  queue q x _ h := cellsKept_setQueue q x h
  message d f hf h := cellsKept_updMessage d (fun m => ⟨(hf m).1, (hf m).2.1, (hf m).2.2.1⟩) h
  payload c w x h := cellsKept_apart (Quiet.refl.payload c w x) rfl ⟨rfl, rfl, rfl⟩ rfl h
  readCellLink c h := by
    obtain ⟨w, lists, o⟩ := h
    exact cellsKept_quiet (Quiet.refl.readCellLink c) (sameCells_readCellLink w o.1 c) ⟨w, lists, o⟩

theorem cellsKept_drainHead {s : State} (q : QueueNo) (lq : LiveQueue) (c : CloseRecord) (r : s.exchange = .running)
    (i : s.CellsKept) : (s.drainHead q lq c).CellsKept := by
  have goesOn : ∀ {u : State} (l : LiveQueue) (e : CloseRecord), Quiet s u → u.CellsKept →
      (u.drainOn q l e).CellsKept := fun l e hu k => by
    unfold State.drainOn
    split_ifs
    · exact edits_cells.finishClose _ _ _ (hu.exchange.trans r) k
    · exact cellsKept_setQueue _ _ k
  have k := fun n => cellsKept_reads lq n i
  have hq := Quiet.refl.headNode (s := s) lq
  unfold State.drainHead
  split
  rename_i s1 n e
  have k := k n
  rw [e] at k hq
  have hq := hq.readNode n
  split <;> rename_i e2 <;> rw [e2] at k hq
  · exact goesOn _ _ ((hq.returnNode _).dropHolder _) (cellsKept_dropHolder _ (cellsKept_returnNode _ k))
  · exact goesOn _ _ ((hq.strandNodes 1).report _ _) (edits_cells.report _ _ (edits_cells.strandNodes 1 k))
  · exact edits_cells.finishClose _ _ _ ((((hq.reportBroken _ _ _ _ _).quarantine _ _).strandNodes _).exchange.trans r)
      (edits_cells.strandNodes _ (edits_cells.arrive _ _ (cellsKept_setQueue q _ (cellsKept_reportBroken n _ _ _ q k))))

theorem kept_cells : Kept State.CellsKept State.CellsKept where
  toEdits := edits_cells
  weaken h := h
  pending _ h := h
  grantStep _ hh h := cellsKept_grantStep hh h
  sealSlot m n _ h := cellsKept_sealSlot _ _ _ m n h
  abandonSlot _ h := cellsKept_abandonSlot _ _ _ h
  releaseSlot _ h := cellsKept_releaseSlot _ _ _ h
  detach _ _ _ h := cellsKept_detach _ _ _ _ h
  drainHead c r _ _ h := cellsKept_drainHead _ _ c r h
  beginLink b qs _ h := cellsKept_beginLink _ _ b qs h
  powerOn ma n l := cellsKept_rebuilt (kept_memoriesWf.powerOn ma n l) rfl rfl ⟨rfl, rfl, rfl⟩
  released hr h := cellsKept_rebuilt (kept_memoriesWf.released hr h.1) rfl rfl ⟨rfl, rfl, rfl⟩
  initialised _ _ h := h
  restarted b hr h := cellsKept_rebuilt (kept_memoriesWf.restarted b hr h.1) rfl rfl ⟨rfl, rfl, rfl⟩
  resumed _ _ h := h
  stopped _ h := h

/-- A cell free list with a head counts a free cell. -/
theorem one_le_freeCells {s : State} (h : s.CellsLaidOut) (hh : s.pool.cellHead ≠ none) : 1 ≤ s.pool.freeCells := by
  obtain ⟨lists, _, L⟩ := s.cellsLaidOut_iff.mp h
  obtain ⟨c, hc⟩ := Option.ne_none_iff_exists'.mp hh
  obtain ⟨cs, hl, _⟩ := L.head_cons (i := none) (a := c) hc
  have := L.count none
  rw [hl, List.length_cons] at this
  show 1 ≤ (s.cellEnds none).count
  omega

/-- Settles O58: a layout with a head has a first cell, and every step keeps the layout beside the canonical tables. -/
theorem everyStepKeepsTheCellListsLaidOut : Obligations.EveryStepKeepsTheCellListsLaidOut :=
  ⟨fun _ h hh => one_le_freeCells h hh, fun s t hd h e =>
    t.cellsLaidOut_iff.mpr (kept_cells.step ⟨hd.1, s.cellsLaidOut_iff.mp h⟩ e).2⟩

end Sys2Proof.Machine
end

section
/-!
SUPPORT. The reads of the word arrays by the outcome of the check (R7, R10, R11, R14), and O39.
-/
namespace Sys2Proof.Machine.State
variable {s : State}

/-! ### One read, by the outcome of its check -/

theorem readPayload_of_clean {c : CellNo} {w : Fin 16} {v : Word} (h : (s.payloadWord c w).check = .clean v) :
    s.readPayload c w = (s, some v) := by
  rw [readPayload, h]

theorem readPayload_of_corrected {c : CellNo} {w : Fin 16} {v : Word} (h : (s.payloadWord c w).check = .corrected v) :
    s.readPayload c w = ((s.putPayload c w ⟨v, []⟩).countCorrection (bankOf c), some v) := by
  rw [readPayload, h]

theorem readPayload_of_uncorrectable {c : CellNo} {w : Fin 16} (h : (s.payloadWord c w).check = .uncorrectable) :
    s.readPayload c w = (s, none) := by
  rw [readPayload, h]

theorem readCellLink_of_clean {c : CellNo} {v : CellLink} (h : (s.cellLinkWord c).check = .clean v) :
    s.readCellLink c = (s, some v) := by
  rw [readCellLink, h]

theorem readCellLink_of_corrected {c : CellNo} {v : CellLink} (h : (s.cellLinkWord c).check = .corrected v) :
    s.readCellLink c = ((s.putCellLink c ⟨v, []⟩).countCorrection .cellLink, some v) := by
  rw [readCellLink, h]

theorem readCellLink_of_uncorrectable {c : CellNo} (h : (s.cellLinkWord c).check = .uncorrectable) :
    s.readCellLink c = (s, none) := by
  rw [readCellLink, h]

theorem readContent_of_clean {n : NodeNo} {v : DescNo} (h : (s.contentWord n).check = .clean v) :
    s.readContent n = (s, some v) := by
  rw [readContent, h]

theorem readContent_of_corrected {n : NodeNo} {v : DescNo} (h : (s.contentWord n).check = .corrected v) :
    s.readContent n = ((s.putContent n ⟨v, []⟩).countCorrection .node, some v) := by
  rw [readContent, h]

theorem readContent_of_uncorrectable {n : NodeNo} (h : (s.contentWord n).check = .uncorrectable) :
    s.readContent n = (s, none) := by
  rw [readContent, h]

theorem readNodeLink_of_clean {n : NodeNo} {v : NodeLink} (h : (s.nodeLinkWord n).check = .clean v) :
    s.readNodeLink n = (s, some v) := by
  rw [readNodeLink, h]

theorem readNodeLink_of_corrected {n : NodeNo} {v : NodeLink} (h : (s.nodeLinkWord n).check = .corrected v) :
    s.readNodeLink n = ((s.putNodeLink n ⟨v, []⟩).countCorrection .node, some v) := by
  rw [readNodeLink, h]

theorem readNodeLink_of_uncorrectable {n : NodeNo} (h : (s.nodeLinkWord n).check = .uncorrectable) :
    s.readNodeLink n = (s, none) := by
  rw [readNodeLink, h]

theorem index_bankOf (c : CellNo) : (bankOf c).index = if c.val % 2 = 0 then 0 else 1 := by
  unfold bankOf
  split_ifs <;> rfl

/-- The Integrity Monitor after one correction reported for the memory of tracking record i (R14). -/
def correctedOnce (s : State) (i : Fin 4) : Integrity :=
  { s.integrity with tracking := s.integrity.tracking.set i (s.integrity.tracking.get i).count1 }

/-! ### One inverted bit -/

theorem readPayload_corrects (w : s.memoriesWf = true) {c : CellNo} {pos : Fin 16} {v : Word} {i : Nat}
    (h : s.payloadWord c pos = ⟨v, [i]⟩) :
    ∃ t, s.readPayload c pos = (t, some v) ∧ t.payloadWord c pos = ⟨v, []⟩ ∧
      (∀ e j, (e, j) ≠ (c, pos) → t.payloadWord e j = s.payloadWord e j) ∧
      t = { s with payload := t.payload, integrity := s.correctedOnce (if c.val % 2 = 0 then 0 else 1) } := by
  have words := s.payloadWord_putPayload (wf_payload w) c
  refine ⟨_, readPayload_of_corrected (by rw [h]; rfl), (words c pos pos _).trans (if_pos rfl),
    fun e j hj => (words e pos j _).trans (if_neg hj), ?_⟩
  rw [← index_bankOf]
  rfl

theorem readCellLink_corrects (w : s.memoriesWf = true) {c : CellNo} {v : CellLink} {i : Nat}
    (h : s.cellLinkWord c = ⟨v, [i]⟩) :
    ∃ t, s.readCellLink c = (t, some v) ∧ t.cellLinkWord c = ⟨v, []⟩ ∧
      (∀ e, e ≠ c → t.cellLinkWord e = s.cellLinkWord e) ∧
      t = { s with cellLinks := t.cellLinks, integrity := s.correctedOnce 2 } := by
  have words := s.cellLinkWord_putCellLink (wf_cellLinks w) c
  exact ⟨_, readCellLink_of_corrected (by rw [h]; rfl), (words c _).trans (if_pos rfl),
    fun e he => (words e _).trans (if_neg he), rfl⟩

theorem readContent_corrects (w : s.memoriesWf = true) {n : NodeNo} {v : DescNo} {i : Nat}
    (h : s.contentWord n = ⟨v, [i]⟩) :
    ∃ t, s.readContent n = (t, some v) ∧ t.contentWord n = ⟨v, []⟩ ∧
      (∀ e, e ≠ n → t.contentWord e = s.contentWord e) ∧
      t = { s with nodeContents := t.nodeContents, integrity := s.correctedOnce 3 } := by
  have words := s.contentWord_putContent (wf_nodeContents w) n
  exact ⟨_, readContent_of_corrected (by rw [h]; rfl), (words n _).trans (if_pos rfl),
    fun e he => (words e _).trans (if_neg he), rfl⟩

theorem readNodeLink_corrects (w : s.memoriesWf = true) {n : NodeNo} {v : NodeLink} {i : Nat}
    (h : s.nodeLinkWord n = ⟨v, [i]⟩) :
    ∃ t, s.readNodeLink n = (t, some v) ∧ t.nodeLinkWord n = ⟨v, []⟩ ∧
      (∀ e, e ≠ n → t.nodeLinkWord e = s.nodeLinkWord e) ∧
      t = { s with nodeLinks := t.nodeLinks, integrity := s.correctedOnce 3 } := by
  have words := s.nodeLinkWord_putNodeLink (wf_nodeLinks w) n
  exact ⟨_, readNodeLink_of_corrected (by rw [h]; rfl), (words n _).trans (if_pos rfl),
    fun e he => (words e _).trans (if_neg he), rfl⟩

/-! ### Both words of a node (R8) -/

/-- The read of a node's content leaves its link word alone. -/
theorem nodeLinks_readContent (s : State) (n : NodeNo) : (s.readContent n).1.nodeLinks = s.nodeLinks := by
  obtain ⟨m, i, e⟩ := s.readContent_footprint n
  rw [e]

/-- What a link read finds does not depend on the content read before it. -/
theorem readNodeLink_readContent (s : State) (n : NodeNo) :
    ((s.readContent n).1.readNodeLink n).2 = (s.readNodeLink n).2 := by
  have e : (s.readContent n).1.nodeLinkWord n = s.nodeLinkWord n := by
    rw [nodeLinkWord, nodeLinks_readContent, nodeLinkWord]
  unfold readNodeLink
  rw [e]
  split <;> rfl

theorem readNode_eq (s : State) (n : NodeNo) :
    s.readNode n = (((s.readContent n).1.readNodeLink n).1, (s.readContent n).2, (s.readNodeLink n).2) := by
  rw [← readNodeLink_readContent]
  rfl

theorem readNode_corrects (w : s.memoriesWf = true) {n : NodeNo} {d : DescNo} {x : NodeLink} {i j : Nat}
    (hd : s.contentWord n = ⟨d, [i]⟩) (hx : s.nodeLinkWord n = ⟨x, [j]⟩) :
    ∃ t, s.readNode n = (t, some d, some x) ∧ t.contentWord n = ⟨d, []⟩ ∧ t.nodeLinkWord n = ⟨x, []⟩ ∧
      t.integrity.tracking = s.integrity.tracking.set 3 (s.integrity.tracking.get 3).count1.count1 := by
  have content := readContent_of_corrected (s := s) (n := n) (v := d) (by rw [hd]; rfl)
  have link : (s.readContent n).1.nodeLinkWord n = ⟨x, [j]⟩ := by
    rw [nodeLinkWord, nodeLinks_readContent]
    exact hx
  have wf : Memory.wf nodeLinkDefault (s.readContent n).1.nodeLinks = true := by
    rw [nodeLinks_readContent]
    exact wf_nodeLinks w
  refine ⟨_, by rw [readNode_eq, readNodeLink_of_corrected (s := (s.readContent n).1) (by rw [link]; rfl), content,
    readNodeLink_of_corrected (v := x) (by rw [hx]; rfl)], ?_, ?_, ?_⟩
  · exact (s.contentWord_putContent (wf_nodeContents w) n n _).trans (if_pos rfl)
  · rw [content] at wf
    exact (nodeLinkWord_putNodeLink _ wf n n _).trans (if_pos rfl)
  · show (s.integrity.tracking.set 3 _).set 3 ((s.integrity.tracking.set 3 _).get 3).count1 = _
    rw [Quad.get_set_self, Quad.set_set]
    rfl

/-- Settles O39, one memory after the other. -/
theorem readsCorrectAndCount : Obligations.ReadsCorrectAndCount := by
  intro s w
  refine ⟨fun c pos v => ⟨fun h => ?_, fun i h => readPayload_corrects w h, fun i j h => ?_⟩,
    fun c v => ⟨fun h => ?_, fun i h => readCellLink_corrects w h, fun i j h => ?_⟩,
    fun n v => ⟨fun h => ?_, fun i h => readContent_corrects w h, fun i j h => ?_⟩,
    fun n v => ⟨fun h => ?_, fun i h => readNodeLink_corrects w h, fun i j h => ?_⟩,
    fun n => readNode_eq s n, fun n d x i j hd hx => readNode_corrects w hd hx, fun k => rfl⟩
  · exact readPayload_of_clean (by rw [h]; rfl)
  · exact readPayload_of_uncorrectable (by rw [h]; rfl)
  · exact readCellLink_of_clean (by rw [h]; rfl)
  · exact readCellLink_of_uncorrectable (by rw [h]; rfl)
  · exact readContent_of_clean (by rw [h]; rfl)
  · exact readContent_of_uncorrectable (by rw [h]; rfl)
  · exact readNodeLink_of_clean (by rw [h]; rfl)
  · exact readNodeLink_of_uncorrectable (by rw [h]; rfl)

end Sys2Proof.Machine.State
end

section
/-!
SUPPORT. The rebuilds and RESTART (R17, R41, R146 to R148, R176): the link words after a rebuild, the completion of open BEGINs before a
RESTART, and the records that show the escalations of the reports it settles; O4 and O5.
-/
namespace Sys2Proof.Machine.State
variable {s t : State}

/-! ### The rebuilt words (R17) -/

theorem cellLinkWord_rebuilt (h : t.cellLinks = []) :
    (∀ (c : CellNo) (hc : c.val < 2047), t.cellLinkWord c = ⟨some ⟨c.val + 1, by omega⟩, []⟩) ∧
      t.cellLinkWord 2047 = ⟨none, []⟩ := by
  have e : ∀ c, t.cellLinkWord c = cellLinkDefault c.val := fun c => by rw [cellLinkWord, h, Memory.get_nil]
  refine ⟨fun c hc => ?_, e 2047⟩
  rw [e, cellLinkDefault, dif_pos (by omega)]

theorem nodeLinkWord_rebuilt (h : t.nodeLinks = []) :
    (∀ (n : NodeNo) (hn : n.val < 1023), t.nodeLinkWord n = ⟨some ⟨n.val + 1, by omega⟩, []⟩) ∧
      t.nodeLinkWord 1023 = ⟨none, []⟩ := by
  have e : ∀ n, t.nodeLinkWord n = nodeLinkDefault n.val := fun n => by rw [nodeLinkWord, h, Memory.get_nil]
  refine ⟨fun n hn => ?_, e 1023⟩
  rw [e, nodeLinkDefault, dif_pos (by omega)]

theorem desc_rebuilt (h : t.descriptors = []) (d : DescNo) : t.desc d = .free := by
  rw [desc, h, Memory.get_nil]
  rfl

theorem queue_rebuilt (h : t.queues = []) (q : QueueNo) : t.queue q = .closed := by
  rw [queue, h, Memory.get_nil]
  rfl

/-- The Pool Manager's items of a port after a rebuild (R41). -/
theorem share_rebuildPool (s : State) (p : Port) :
    s.rebuildPool.share p = { s.share p with charged := 0, starving := false, refusedSlot := none } :=
  Quad.get_map _ _ _

/-- Settles O4: the power-on rebuild, whole at the release, and its end. -/
theorem initialRebuildLeadsToRunning : Obligations.InitialRebuildLeadsToRunning := by
  refine ⟨fun s h => ?_, fun s h hx => ?_⟩
  · let t : State := { s.rebuildLinks.rebuildPool with resetAsserted := false, mgmt := { s.mgmt with busy := true } }
    have cells := cellLinkWord_rebuilt (t := t) rfl
    have nodes := nodeLinkWord_rebuilt (t := t) rfl
    have share : ∀ p, t.share p = { s.share p with charged := 0, starving := false, refusedSlot := none } :=
      s.rebuildLinks.share_rebuildPool
    refine ⟨t, if_pos h, rfl, rfl, rfl, rfl, cells.1, cells.2, nodes.1, nodes.2, rfl, rfl, desc_rebuilt rfl, rfl,
      fun p => ?_, rfl, rfl, rfl⟩
    rw [share]
    exact ⟨rfl, rfl⟩
  · show execInitRebuildEnd s = _
    rw [execInitRebuildEnd, h, hx]
    rfl

/-! ### A BEGIN completed by itself, or by RESTART (R77, R147) -/

/-- The records that an examination writes (R85). -/
theorem examine_footprint (s : State) (p : Port) (d : DescNo) (m : Message) : ∃ c l pl a i g qs ds ev,
    (s.examine p d m).1 = { s with
      nodeContents := c, nodeLinks := l, pool := pl, arm := a, lastInjection := i, integrity := g, queues := qs
      descriptors := ds, events := ev } := by
  rw [examine]
  split
  · exact ⟨_, _, _, _, _, _, _, _, _, rfl⟩
  · dsimp only
    split_ifs
    · exact ⟨_, _, _, _, _, _, _, _, _, rfl⟩
    · obtain ⟨_, _, _, _, _, e1⟩ := s.allocateNodes_footprint p (roomDests (s.admittedDests p m.pendingDests)).length
      split
      · rename_i u e
        have e1 : u = _ := (congrArg (·.1) e).symm.trans e1
        exact ⟨_, _, _, _, _, _, _, _, _, e1⟩
      · rename_i u ns e
        have e1 : u = _ := (congrArg (·.1) e).symm.trans e1
        obtain ⟨_, _, _, _, _, _, _, e2⟩ := u.appendAll_footprint d (roomDests (s.admittedDests p m.pendingDests)) ns
        obtain ⟨_, e3⟩ := (u.appendAll d (roomDests (s.admittedDests p m.pendingDests)) ns).disposeAll_footprint d
          .droppedClosed (s.closedDests p m.pendingDests)
        obtain ⟨_, e4⟩ := ((u.appendAll d (roomDests (s.admittedDests p m.pendingDests)) ns).disposeAll d .droppedClosed
          (s.closedDests p m.pendingDests)).disposeAll_footprint d .droppedFull
            (fullDests (s.admittedDests p m.pendingDests))
        exact ⟨_, _, _, _, _, _, _, _, _, by rw [e4, e3, e2, e1]⟩

theorem fronts_examine (s : State) (p : Port) (d : DescNo) (m : Message) : (s.examine p d m).1.fronts = s.fronts := by
  obtain ⟨_, _, _, _, _, _, _, _, _, e⟩ := s.examine_footprint p d m
  rw [e]

theorem fronts_sealSlot (s : State) (p : Port) (c : ComposeNo) (k : Composing) (m : Message) (n : Nat) :
    (s.sealSlot p c k m n).state.fronts = s.fronts := by
  have h := s.fronts_examine p k.desc m
  rw [sealSlot]
  split
  · rename_i e
    exact (congrArg (·.1.fronts) e).symm.trans h
  · rename_i u e
    have hu : u.fronts = s.fronts := (congrArg (·.1.fronts) e).symm.trans h
    obtain ⟨_, e1⟩ := u.updMessage_footprint k.desc fun x => { x with state := .isSealed, final := some n }
    dsimp only
    obtain ⟨_, _, _, _, _, _, _, e2⟩ :=
      ((u.updMessage k.desc fun x => { x with state := .isSealed, final := some n }).idleSlot p c).dropHolder_footprint
        k.desc
    rw [e2, idleSlot, setComposeSlot_fronts, e1]
    exact hu

theorem front_completeRequest (s : State) (n : Nat) (p : Port) : (s.completeRequest n).front p = s.front p := rfl

/-- The completion of an open BEGIN ends its opening and leaves the other front ends alone. -/
theorem front_endOpening (s : State) (p : Port) :
    ((s.endOpening p).front p).opening = none ∧ ∀ q, q ≠ p → (s.endOpening p).front q = s.front q := by
  rw [endOpening]
  split
  · rename_i h
    exact ⟨h, fun _ _ => rfl⟩
  · rename_i o h
    dsimp only
    generalize hu : (s.setFront p { s.front p with opening := none }).setIntegrity (s.integrity.resume p) = u
    have self : (u.front p).opening = none := by
      rw [← hu, front_of_fronts (setIntegrity_fronts _ _), front_setFront_self]
    have other : ∀ q, q ≠ p → u.front q = s.front q := fun q hq => by
      rw [← hu, front_of_fronts (setIntegrity_fronts _ _), front_setFront_ne _ hq]
    split
    · rename_i k _
      have fr : ∀ q, ((beginSeal u p o.slot k).completing (s.integrity.others p).length).state.front q = u.front q :=
        front_of_fronts (u.fronts_sealSlot _ _ _ _ _)
      refine ⟨?_, fun q hq => ?_⟩
      · rw [writeResults, front_setFront_self, fr]
        exact self
      · rw [writeResults, front_setFront_ne _ hq, fr, other q hq]
    · exact ⟨self, other⟩
    · exact ⟨self, other⟩

theorem endOpening_endOpening (s : State) (p : Port) : (s.endOpening p).endOpening p = s.endOpening p :=
  endOpening_of_none _ (s.front_endOpening p).1

/-- The first open BEGIN completed by itself or by a RESTART: the BEGINs that are left complete alike. -/
theorem completeOpenings_endOpening {p : Port} (h : ∀ q, q < p → (s.front q).opening = none) :
    (s.endOpening p).completeOpenings = s.completeOpenings := by
  have id : ∀ q, q < p → s.endOpening q = s := fun q hq => endOpening_of_none _ (h q hq)
  have after : ∀ q, q < p → (s.endOpening p).endOpening q = s.endOpening p := fun q hq =>
    endOpening_of_none _ (by rw [(s.front_endOpening p).2 q hq.ne]; exact h q hq)
  rw [completeOpenings, completeOpenings]
  match p with
  | 0 => rw [endOpening_endOpening]
  | 1 => rw [id 0 (by decide), after 0 (by decide), endOpening_endOpening]
  | 2 => rw [id 0 (by decide), id 1 (by decide), after 0 (by decide), after 1 (by decide), endOpening_endOpening]
  | 3 => rw [id 0 (by decide), id 1 (by decide), id 2 (by decide), after 0 (by decide), after 1 (by decide),
      after 2 (by decide), endOpening_endOpening]

theorem completeOpenings_of_none (h : ∀ p, (s.front p).opening = none) : s.completeOpenings = s := by
  rw [completeOpenings, endOpening_of_none _ (h 0), endOpening_of_none _ (h 1), endOpening_of_none _ (h 2),
    endOpening_of_none _ (h 3)]

/-! ### The reports that RESTART settles (R130, R135, R147; log 12) -/

/-- Step 3 of the given reports, each under the policy table. -/
def settled (table : Policy) (ws : List Waiting) (fs : List FaultRecord) : List FaultRecord :=
  ws.foldl (fun fs w => w.settle (table.of w.cls) fs) fs

theorem settled_cons (table : Policy) (w : Waiting) (ws : List Waiting) (fs : List FaultRecord) :
    settled table (w :: ws) fs = settled table ws (shownIn fs [w] (table.of w.cls)) := by
  rw [← Waiting.settle_eq]
  rfl

theorem settleAll_eq (i : Integrity) :
    i.settleAll = { i with waiting := [], faults := settled i.policy (i.waiting.flatMap (·.reports)) i.faults } := rfl

/-- Only the escalations of the records change. -/
theorem settled_map (table : Policy) (ws : List Waiting) (fs : List FaultRecord) :
    (settled table ws fs).map (fun x => { x with escalation := .none }) =
      fs.map fun x => { x with escalation := .none } := by
  induction ws generalizing fs with
  | nil => rfl
  | cons w ws ih =>
    rw [settled_cons, ih]
    refine List.ext_getElem? fun i => ?_
    rw [List.getElem?_map, List.getElem?_map, getElem?_shownIn]
    cases fs[i]? with
    | none => rfl
    | some x =>
      simp only [Option.map_some]
      split_ifs <;> rfl

theorem settled_other (table : Policy) (ws : List Waiting) (fs : List FaultRecord) (i : Nat)
    (h : ∀ w ∈ ws, w.record ≠ some i) : (settled table ws fs)[i]? = fs[i]? := by
  induction ws generalizing fs with
  | nil => rfl
  | cons w ws ih =>
    rw [settled_cons, ih _ fun v hv => h v (List.mem_cons_of_mem _ hv), getElem?_shownIn]
    have hw : ([w].any fun v => decide (v.record = some i)) = false := by
      rw [List.any_cons, List.any_nil, decide_eq_false (h w List.mem_cons_self)]
      rfl
    simp only [hw, Bool.false_eq_true, if_false, Option.map_id']

/-- A record whose reports all give escalation `e`, and which shows `e` or has a report left, shows `e`. -/
theorem settled_shows (table : Policy) (ws : List Waiting) (fs : List FaultRecord) (i : Nat) (e : Escalation)
    (h : ∀ w ∈ ws, w.record = some i → table.of w.cls = e)
    (k : (∃ w ∈ ws, w.record = some i) ∨ ∀ x, fs[i]? = some x → x.escalation = e)
    (x : FaultRecord) (hx : (settled table ws fs)[i]? = some x) : x.escalation = e := by
  induction ws generalizing fs with
  | nil =>
    rcases k with ⟨w, hw, _⟩ | k
    · cases hw
    · exact k x hx
  | cons w ws ih =>
    rw [settled_cons] at hx
    refine ih _ (fun v hv => h v (List.mem_cons_of_mem _ hv)) ?_ hx
    by_cases hw : w.record = some i
    · refine .inr fun y hy => ?_
      rw [getElem?_shownIn] at hy
      have hb : ([w].any fun v => decide (v.record = some i)) = true := by simp [hw]
      obtain ⟨z, _, rfl⟩ := Option.map_eq_some_iff.mp hy
      rw [if_pos hb]
      exact h w List.mem_cons_self hw
    · rcases k with ⟨v, hv, hr⟩ | k
      · rcases List.mem_cons.mp hv with rfl | hv
        · exact absurd hr hw
        · exact .inl ⟨v, hv, hr⟩
      · refine .inr fun y hy => k y ?_
        rw [← hy, ← settled_other table [w] fs i fun v hv => by rw [List.mem_singleton.mp hv]; exact hw, settled_cons]
        rfl

/-! ### RESTART (R147, R148, R176) -/

/-- What a RESTART whose command word is `c` leaves where no BEGIN is open. -/
def restartShown (s : State) (c : MgmtWord) : State :=
  let u := s.restarted (decide (s.exchange = .stopped))
  u.setMgmt { s.mgmt with
    busy := true, acknowledged := some true, pointer := s.mgmt.pointer + 1, assembly := [], lastCommand := some c
    result := ⟨some c.code, .pending, none⟩ }

theorem restartOwner_taken (h : s.exchange = .running ∨ s.exchange = .stopped) :
    restartOwner s = { state := s.restart (decide (s.exchange = .stopped)), result := .pending } := by
  rw [restartOwner]
  rcases h with h | h <;> rw [h] <;> rfl

theorem exchange_completeOpenings (s : State) : s.completeOpenings.exchange = s.exchange :=
  (Quiet.refl.endOpening 0 |>.endOpening 1 |>.endOpening 2 |>.endOpening 3).exchange

theorem mgmt_completeOpenings (s : State) : s.completeOpenings.mgmt = s.mgmt :=
  (Quiet.refl.endOpening 0 |>.endOpening 1 |>.endOpening 2 |>.endOpening 3).mgmt

/-- The management command unit shows a RESTART taken (R176). -/
theorem mgmtOwned_restart (v : State) (x : Mgmt) (b : Bool) (c : MgmtWord) :
    (mgmtOwned { state := (v.setMgmt x).restarted b, result := .pending } c).mgmtAdvance =
      (v.restarted b).setMgmt { x with
        busy := true, pointer := x.pointer + 1, assembly := [], lastCommand := some c
        result := ⟨some c.code, .pending, none⟩ } := rfl

theorem exec_restartExchange (f : MgmtFields) (h : s.MgmtReady) (hx : s.exchange = .running ∨ s.exchange = .stopped) :
    exec (.restartExchange none f) s = .next (s.completeOpenings.restartShown ⟨0x01, f⟩) := by
  have code : decodeMgmtCommand (MgmtWord.mk 0x01 f).code = some .restartExchange := rfl
  show Host.Outcome.next (s.commandBytes none ⟨0x01, f⟩) = _
  rw [commandBytes_ready h, mgmtCommand, if_neg (by rw [threeBytes, setMgmt_mgmt, h.2.2]; decide), code]
  dsimp only
  rw [MgmtCommand.owner, restartOwner_taken (s := s.threeBytes _) hx, restart, threeBytes, setMgmt_completeOpenings,
    mgmtOwned_restart, restartShown, exchange_completeOpenings, mgmt_completeOpenings]
  rfl

/-- Settles O5: a RESTART completes the open BEGIN first, as its second part does; then what it resets and what it keeps. -/
theorem restartResetsAndRetains : Obligations.RestartResetsAndRetains := by
  refine ⟨fun f g p o s u hm hx ho hl hu => ?_, fun f s hm hx hno => ?_⟩
  · have e : u = s.endOpening p := (Host.Outcome.next.inj hu).symm
    have q : Quiet s u := e ▸ Quiet.refl.endOpening p
    have hm' : u.MgmtReady := by
      obtain ⟨⟨h1, h2⟩, h3⟩ := hm
      rw [← q.mgmt] at h2 h3
      exact ⟨⟨q.resetAsserted.trans h1, h2⟩, h3⟩
    rw [exec_restartExchange f hm hx, exec_restartExchange f hm' (by rw [q.exchange]; exact hx), e,
      completeOpenings_endOpening hl]
  · intro waiting
    have e := exec_restartExchange f hm hx
    rw [completeOpenings_of_none hno] at e
    have share : ∀ p, (s.restartShown ⟨0x01, f⟩).share p =
        { s.share p with charged := 0, starving := false, refusedSlot := none } := s.rebuildLinks.share_rebuildPool
    have front : ∀ p, (s.restartShown ⟨0x01, f⟩).front p = (s.front p).restarted := Quad.get_map _ _
    have cells := cellLinkWord_rebuilt (t := s.restartShown ⟨0x01, f⟩) rfl
    have nodes := nodeLinkWord_rebuilt (t := s.restartShown ⟨0x01, f⟩) rfl
    refine ⟨_, e, rfl, rfl, rfl, rfl, Quad.get_all _, fun p => ?_, Quad.get_all _, fun p c => ?_, fun p r => ?_,
      queue_rebuilt rfl, desc_rebuilt rfl, rfl, fun p => ?_, cells.1, cells.2, nodes.1, nodes.2, rfl, rfl, rfl, rfl, rfl,
      rfl, rfl, rfl, settled_map _ _ _, fun i hi => settled_other _ _ _ i hi, fun w i x hw hr hv hx => ?_, rfl, ⟨rfl, rfl⟩,
      rfl, rfl⟩
    · rw [front]
      exact ⟨rfl, rfl, rfl, rfl, rfl, rfl, rfl⟩
    · show ((Quad.all (Quad.all ComposeSlot.reset)).get p).get c = _
      rw [Quad.get_all, Quad.get_all]
      rfl
    · show ((Quad.all (Pair.all ReceiveSlot.reset)).get p).get r = _
      rw [Quad.get_all, Pair.get_all]
      rfl
    · rw [share]
      exact ⟨rfl, rfl, rfl, rfl, rfl⟩
    · exact settled_shows _ _ _ i _ (fun v hv' hr' => by rw [hv v hv' hr']) (.inl ⟨w, hw, hr⟩) x hx

end Sys2Proof.Machine.State
end

section
/-!
SUPPORT. A command taken by an IDLE unit, and a compose slot whose message is abandoned (R21, R22, R28, R91): what the holder that goes
leaves, once for ABANDON and for step 1 of a teardown; O24 and O25.
-/
namespace Sys2Proof.Machine

/-! ### A command taken (R163, R166) -/

namespace State
variable {s t : State}

theorem acting_serves {p : Port} (h : s.Serves p) (a : BitVec 16) (f : State → State) : s.acting p a f = f s := by
  obtain ⟨hx, hp, ho⟩ := h
  rw [acting, oneAccess, ho]
  dsimp only
  rw [hx, hp]

theorem commandAccess_ready {p : Port} (h : s.Ready p) (f : State → State) : s.commandAccess p f = f s := by
  rw [commandAccess, acting_serves h.1, h.2]

theorem takeCommand_ready {p : Port} (h : s.Ready p) (c : CommandWord) (owner : State → CommandOutcome) :
    s.takeCommand p c owner = writeResults (owner s) p c := by
  rw [takeCommand, commandAccess_ready h]

theorem reported_writeResults (o : CommandOutcome) (p : Port) (c : CommandWord) :
    (writeResults o p c).Reported p c o.code o.result1 o.unit := by
  have e : (writeResults o p c).front p = { o.state.front p with
      unit := o.unit, lastCommand := some c, result0 := o.code, result1 := o.result1, answer := some .okayWrite } :=
    front_setFront_self _ _ _
  rw [Reported, e]
  exact ⟨rfl, rfl, rfl, rfl, rfl⟩

theorem otherFronts_writeResults {o : CommandOutcome} (h : o.state.fronts = s.fronts) (p : Port) (c : CommandWord) :
    SameOtherFronts s (writeResults o p c) p := fun q hq => by
  rw [writeResults, front_setFront_ne _ hq, front_of_fronts h]

end State

/-! ### An injection that no write takes -/

theorem InjectionTaken.same {s t : State} {f : FirstWrites} (h : InjectionTaken s t f) (k : ∀ x, f x = none) :
    SameInjection s t := by
  cases e : s.arm with
  | none =>
    obtain ⟨h1, h2⟩ := h.arm_none e
    exact ⟨h1.trans e.symm, h2⟩
  | some a =>
    obtain ⟨h1, h2⟩ := h.kept e (k _)
    exact ⟨h1.trans e.symm, h2⟩

theorem events_of_eventsSent {s t : State} (h : EventsSent s t fun _ => []) : t.events = s.events :=
  Quad.ext_get h

namespace State
variable {s t : State}

theorem dropWrites_congr {v : State} {m m' : Message} (hp : v.pool = s.pool)
    (hm : m'.cells = m.cells ∧ m'.linkBroken = m.linkBroken ∧ m'.first = m.first ∧ m'.last = m.last) (n : Nat)
    (x : InjectTarget) : v.dropWrites m' n x = s.dropWrites m n x := by
  have e : m'.splices = m.splices := by rw [Message.splices, Message.splices, hm.1, hm.2.1, hm.2.2.1, hm.2.2.2]
  cases x with
  | payload | node => rfl
  | cellLink => rw [dropWrites, dropWrites, spliceTail, spliceTail, e, hp]

/-! ### A message abandoned (R91) -/

/-- Slot c of port p has let go of `m` by abandoning it. -/
structure Abandoned (s t : State) (p : Port) (c : ComposeNo) (k : Composing) (m : Message) : Prop where
  slot : t.composeSlot p c = { s.composeSlot p c with phase := .idle }
  otherSlots : SameOtherCompose s t p c
  kept : m.holders ≠ 1 → KeptAs t k.desc m .abandoned ∧ t.pool = s.pool ∧ t.shares = s.shares ∧ t.events = s.events ∧
    SameCellStore s t ∧ SameInjection s t
  freed : m.holders = 1 → Freed s t k.desc m ∧ Recovered s t m ∧ SameNodeList s t
  injection : InjectionTaken s t (s.dropWrites m m.holders)
  events : EventsSent s t (dropEntries s t m)
  descriptors : SameOtherDescriptors s t k.desc
  holders : t.holders k.desc = m.holders - 1
  frame : t = { s with
    cellLinks := t.cellLinks, arm := t.arm, lastInjection := t.lastInjection, pool := t.pool, shares := t.shares
    descriptors := t.descriptors, events := t.events, compose := t.compose, fronts := t.fronts }

/-- The front end that reports it changes nothing of it. -/
theorem Abandoned.setFront {p : Port} {c : ComposeNo} {k : Composing} {m : Message} (h : Abandoned s t p c k m) (q : Port)
    (x : FrontEnd) : Abandoned s (t.setFront q x) p c k m where
  slot := h.slot
  otherSlots := h.otherSlots
  kept := h.kept
  freed := h.freed
  injection := h.injection
  events := h.events
  descriptors := h.descriptors
  holders := h.holders
  frame := congrArg (·.setFront q x) h.frame

/-- The slot let go and the state ABANDONED, with the holder count still to fall. -/
def abandoning (s : State) (p : Port) (c : ComposeNo) (k : Composing) (m : Message) : State :=
  (s.setDesc k.desc (.live { m with state := .abandoned })).idleSlot p c

theorem abandonSlot_eq {p : Port} {c : ComposeNo} {k : Composing} {m : Message} (h : s.desc k.desc = .live m) :
    s.abandonSlot p c k = (s.abandoning p c k m).dropHolder k.desc := by
  rw [abandonSlot, updMessage_of_live h, abandoning]

theorem abandonSlot_abandoned {p : Port} {c : ComposeNo} {k : Composing} {m : Message} (h : s.desc k.desc = .live m)
    (w : s.memoriesWf = true) (hh : 1 ≤ m.holders) : Abandoned s (s.abandonSlot p c k) p c k m := by
  rw [abandonSlot_eq h]
  generalize hv : s.abandoning p c k m = v
  have q : Quiet s v := hv ▸ (Quiet.refl.desc _ _).idleSlot p c
  have live : v.desc k.desc = .live { m with state := .abandoned } := by
    rw [← hv]
    exact (s.desc_setDesc (wf_descriptors w) _ _ _).trans (if_pos rfl)
  have others : SameOtherDescriptors s v k.desc := fun e he => by
    rw [← hv]
    exact s.desc_setDesc_ne he _
  have slots : ∀ q e, v.composeSlot q e = if (q, e) = (p, c) then { s.composeSlot p c with phase := .idle }
      else s.composeSlot q e := fun q e => by
    rw [← hv]
    split_ifs with hq
    · obtain ⟨rfl, rfl⟩ := Prod.mk.inj hq
      exact composeSlot_setComposeSlot_self _ _ _ _
    · exact composeSlot_setComposeSlot_ne _ hq _
  obtain ⟨ds, cm, rfl⟩ : ∃ ds cm, v = { s with descriptors := ds, compose := cm } := ⟨_, _, hv.symm⟩
  obtain ⟨many, one, entries, otherDescs, count⟩ := dropHolder_spec (q.memoriesWf w) live hh
  have taken := dropHolder_taken (wf_descriptors (q.memoriesWf w)) live
  have frame := State.dropHolder_footprint { s with descriptors := ds, compose := cm } k.desc
  have entriesEq : ∀ t, dropEntries { s with descriptors := ds, compose := cm } t { m with state := .abandoned } =
      dropEntries s t m := fun t => by
    funext q
    rw [dropEntries, dropEntries, freeingEntries_congr (s := s) (m := m) rfl rfl ⟨rfl, rfl, rfl, rfl⟩]
    rfl
  rw [entriesEq] at entries
  generalize ht : State.dropHolder { s with descriptors := ds, compose := cm } k.desc = t at *
  refine ⟨?_, fun q r hq => ?_, fun hn => ?_, fun hn => ?_, ?_, entries, fun d hd => ?_, count, ?_⟩
  · obtain ⟨_, _, _, _, _, _, _, rfl⟩ := frame
    exact (slots p c).trans (if_pos rfl)
  · obtain ⟨_, _, _, _, _, _, _, rfl⟩ := frame
    exact (slots q r).trans (if_neg hq)
  · have e := many hn
    refine ⟨?_, ?_⟩
    · rw [e]
      exact (desc_setDesc _ (wf_descriptors (q.memoriesWf w)) _ _ _).trans (if_pos rfl)
    · rw [e]
      exact ⟨rfl, rfl, rfl, ⟨rfl, rfl⟩, rfl, rfl⟩
  · obtain ⟨freed, recovered, nodes⟩ := one hn
    exact ⟨freed, recovered_congr (s := s) rfl rfl rfl rfl ⟨rfl, rfl, rfl, rfl, rfl⟩ recovered, nodes⟩
  · exact (taken.congr_left ⟨rfl, rfl⟩).congr_writes fun x =>
      (dropWrites_congr (s := s) rfl ⟨rfl, rfl, rfl, rfl⟩ _ x).symm
  · rw [otherDescs d hd, others d hd]
  · obtain ⟨_, _, _, _, _, _, _, rfl⟩ := frame
    rfl

end State

/-! ### ABANDON (R91) -/

theorem exec_abandonMessage {s : State} {p : Port} (f : CommandFields) (h : s.Ready p) :
    exec (.abandonMessage p f) s = .next (State.writeResults (abandonMessage p f s) p ⟨0x12, f⟩) :=
  congrArg Host.Outcome.next (State.takeCommand_ready h _ _)

theorem composeNo_eq {f : CommandFields} {c : ComposeNo} (h : f.slot.toNat = c.val) : composeNo f = some c := by
  rw [composeNo, dif_pos (h ▸ c.isLt)]
  exact congrArg some (Fin.ext h)

theorem composing_of_composes {s : State} {p : Port} {c : ComposeNo} {k : Composing} {m : Message}
    (h : s.Composes p c k m) : (s.composeSlot p c).phase.composing = some k := by
  obtain ⟨_, h | ⟨n, h⟩⟩ := h <;> rw [h] <;> rfl

/-- ABANDON of a slot that composes `m`: the results, and the message abandoned. -/
theorem abandonMessage_abandons {s : State} {p : Port} {f : CommandFields} {c : ComposeNo} {k : Composing} {m : Message}
    (h : s.Ready p) (hf : f.slot.toNat = c.val) (hc : s.Composes p c k m) (w : s.memoriesWf = true)
    (hh : 1 ≤ m.holders) :
    ∃ t, exec (.abandonMessage p f) s = .next t ∧ s.Abandoned t p c k m ∧ SameOtherFronts s t p ∧
      t.Reported p ⟨0x12, f⟩ .ok (.message { desc := some k.desc, holders := some (m.holders - 1) }) .idle := by
  have A := State.abandonSlot_abandoned (p := p) (c := c) hc.1 w hh
  have e : abandonMessage p f s = { state := s.abandonSlot p c k, code := .ok
                                    result1 := .message { desc := some k.desc, holders := some (m.holders - 1) } } := by
    rw [abandonMessage, composeNo_eq hf]
    dsimp only
    rw [composing_of_composes hc]
    dsimp only
    rw [A.holders]
  refine ⟨_, exec_abandonMessage f h, ?_, ?_, ?_⟩
  · rw [e]
    exact A.setFront p _
  · obtain ⟨_, _, _, _, _, _, _, _, e1⟩ := s.abandonSlot_footprint p c k
    exact State.otherFronts_writeResults (by rw [e, e1]) _ _
  · rw [e]
    exact State.reported_writeResults _ _ _

/-- Settles O24: the checks of ABANDON, and the slot that abandons its message. -/
theorem abandonGivesUpTheMessage : Obligations.AbandonGivesUpTheMessage := by
  refine fun p f s h => ⟨fun hf => ?_, fun c hf => ⟨fun hi => ?_, fun k m hc w hh => ?_⟩⟩
  · have e : abandonMessage p f s = { state := s, code := .refusedParam } := by
      rw [abandonMessage, composeNo, dif_neg (by omega)]
    rw [exec_abandonMessage f h, e]
    rfl
  · have e : abandonMessage p f s = { state := s, code := .refusedState } := by
      rw [abandonMessage, composeNo_eq hf]
      dsimp only
      rw [hi]
      rfl
    rw [exec_abandonMessage f h, e]
    rfl
  · obtain ⟨t, e, A, fronts, reported⟩ := abandonMessage_abandons h hf hc w hh
    have F := A.frame
    exact ⟨t, e, reported, A.slot, A.kept, A.freed, A.injection, A.events, A.descriptors, A.otherSlots, fronts,
      congrArg (·.queues) F, ⟨congrArg (·.nodeContents) F, congrArg (·.nodeLinks) F⟩, congrArg (·.payload) F,
      congrArg (·.receive) F, congrArg (·.integrity) F, congrArg (·.resetAsserted) F, congrArg (·.ma) F,
      congrArg (·.exchange) F, congrArg (·.ports) F, congrArg (·.timeouts) F, congrArg (·.mint) F, congrArg (·.mgmt) F,
      congrArg (·.pending) F⟩

/-! ### What freeing a message recovers (R22, R28) -/

theorem Message.splices_iff {m : Message} :
    m.splices = true ↔ m.cells ≠ 0 ∧ m.linkBroken = false ∧ m.first.isSome = true ∧ m.last.isSome = true := by
  simp only [Message.splices, Bool.and_eq_true, Bool.not_eq_true', decide_eq_true_eq, and_assoc]

theorem Message.splices_eq_false {m : Message} (h : m.cells = 0 ∨ m.linkBroken = true) : m.splices = false := by
  rw [Bool.eq_false_iff]
  intro k
  obtain ⟨h1, h2, _⟩ := Message.splices_iff.mp k
  rcases h with h | h
  · exact h1 h
  · exact absurd (h2.symm.trans h) (by decide)

/-- Without a cell link word to write, a holder that goes takes no injection. -/
theorem State.dropWrites_none {s : State} {m : Message} (h : s.spliceTail m = none) (n : Nat) (x : InjectTarget) :
    s.dropWrites m n x = none := by
  cases x with
  | payload | node => rfl
  | cellLink =>
    rw [dropWrites, h]
    split_ifs <;> rfl

/-- Settles O25: the one holder abandons, and the freed chain is spliced or stranded. -/
theorem freeingSplicesOrStrandsTheChain : Obligations.FreeingSplicesOrStrandsTheChain := by
  intro p f c k m s h hf hc w hh
  obtain ⟨t, e, A, -, -⟩ := abandonMessage_abandons h hf hc w hh.ge
  obtain ⟨freed, recovered, nodes⟩ := A.freed hh
  have injection : InjectionTaken s t (s.dropWrites m 1) := hh ▸ A.injection
  have events : EventsSent s t (freeingEntries s t m) := fun q => by
    rw [A.events q, dropEntries, if_pos hh]
  obtain ⟨spliced, stranded, shares⟩ := recovered
  refine ⟨t, e, freed, ⟨spliced, stranded, shares⟩, injection, events, fun c1 cn h0 hb h1 hn => ?_, fun hs => ?_, nodes,
    fun q => ?_⟩
  · have hs : m.splices = true := Message.splices_iff.mpr ⟨h0, hb, by rw [h1]; rfl, by rw [hn]; rfl⟩
    obtain ⟨free, tail, strandedCells, empty, linked, -⟩ := spliced hs
    rw [h1] at empty linked
    rw [hn] at tail
    refine ⟨free, tail, strandedCells, fun ht => ?_, linked⟩
    obtain ⟨head, links⟩ := empty ht
    exact ⟨head, links, injection.same (State.dropWrites_none (by rw [State.spliceTail, ht, ite_self]) 1)⟩
  · have hs := Message.splices_eq_false hs
    obtain ⟨free, head, tail, strandedCells, links, -⟩ := stranded hs
    refine ⟨free, head, tail, strandedCells, links,
      injection.same (State.dropWrites_none (by rw [State.spliceTail, hs]; rfl) 1),
      events_of_eventsSent fun q => ?_⟩
    rw [events q, freeingEntries, hs]
    rfl
  · obtain ⟨h1, h2, h3, -, h4⟩ := shares q
    exact ⟨h1, h2, h3, h4⟩

end Sys2Proof.Machine
end

section
/-!
SUPPORT. A node that goes back to the free list and the holder that goes with it (R8, R21, R29, R112), once for RELEASE, for step 2 of a
teardown and for a drain step; O35.
-/
namespace Sys2Proof.Machine.State
variable {s t : State}

/-- Node n went back to the node free list, and with it one holder of descriptor d, which held `m`. -/
structure LetGo (s t : State) (n : NodeNo) (d : DescNo) (m : Message) : Prop where
  node : NodeReturned s t n
  injection : InjectionTaken s t (s.returnWrites m n)
  kept : m.holders ≠ 1 → KeptAs t d m m.state ∧ PoolWithNode s t n ∧ SameCellStore s t ∧ t.shares = s.shares ∧
    t.events = s.events
  freed : m.holders = 1 → Freed s t d m ∧ Recovered s t m ∧ SameStrandedAndMarks s t
  events : EventsSent s t (dropEntries s t m)
  descriptors : SameOtherDescriptors s t d
  holders : t.holders d = m.holders - 1
  frame : t = { s with
    nodeLinks := t.nodeLinks, cellLinks := t.cellLinks, arm := t.arm, lastInjection := t.lastInjection, pool := t.pool
    shares := t.shares, descriptors := t.descriptors, events := t.events }

/-- The return of a node leaves an arm set for cell links. -/
theorem injected_returnNode (s : State) (n : NodeNo) : injected (s.returnNode n) .cellLink = injected s .cellLink :=
  (s.returnNode_taken n).injected_of_kept (if_neg (by decide))

theorem returnWrites_eq (s : State) (m : Message) (n : NodeNo) (x : InjectTarget) :
    s.returnWrites m n x = (if x = .node then some (.node, .link, n.val) else none).or (s.dropWrites m m.holders x) := by
  cases x <;> rfl

theorem returnNode_frame (w : s.memoriesWf = true) (n : NodeNo) : ∃ l a i x y k, s.returnNode n = { s with
    nodeLinks := l, arm := a, lastInjection := i, pool := { s.pool with nodeHead := x, nodeTail := y, freeNodes := k } } := by
  have words := (returnNode_words w n).1
  obtain ⟨l, a, i, pl, e⟩ := s.returnNode_footprint n
  rw [e] at words ⊢
  exact ⟨l, a, i, _, _, _, congrArg (fun x => { s with nodeLinks := l, arm := a, lastInjection := i, pool := x }) words⟩

theorem letGo_returnNode {n : NodeNo} {d : DescNo} {m : Message} (h : s.desc d = .live m) (w : s.memoriesWf = true)
    (hh : 1 ≤ m.holders) : LetGo s ((s.returnNode n).dropHolder d) n d m := by
  obtain ⟨rfree, rtail, rhead, rwords⟩ := returnNode_returned w n
  have taken := s.returnNode_taken n
  have cellBits := s.injected_returnNode n
  have wf : (s.returnNode n).memoriesWf = true := (Quiet.refl.returnNode n).memoriesWf w
  obtain ⟨l, a, i, x, y, k, e⟩ := returnNode_frame w n
  generalize hv : s.returnNode n = v at *
  have live : v.desc d = .live m := by
    rw [e]
    exact h
  obtain ⟨many, one, entries, others, count⟩ := dropHolder_spec wf live hh
  have dropped := dropHolder_taken (wf_descriptors wf) live
  have frame := v.dropHolder_footprint d
  generalize ht : v.dropHolder d = t at *
  have nodes : SameNodeList v t ∧ ∀ x, t.nodeLinkWord x = v.nodeLinkWord x := by
    obtain ⟨_, _, _, _, _, _, _, e⟩ := frame
    refine ⟨?_, fun x => by rw [e]; rfl⟩
    by_cases hn : m.holders = 1
    · exact (one hn).2.2
    · rw [many hn]
      exact ⟨rfl, rfl, rfl, rfl, rfl, rfl⟩
  obtain ⟨⟨head, tail, free, stranded, low, recover⟩, links⟩ := nodes
  have node : NodeReturned s t n := by
    refine ⟨free.trans rfree, tail.trans rtail, head.trans rhead, ?_⟩
    simp only [links]
    exact rwords
  subst e
  refine ⟨node, ?_, fun hn => ?_, fun hn => ?_, entries, others, count, ?_⟩
  · exact (taken.trans dropped).congr_writes (s.returnWrites_eq m n)
  · have e := many hn
    refine ⟨?_, ?_⟩
    · rw [KeptAs, e]
      exact (desc_setDesc _ (wf_descriptors wf) _ _ _).trans (if_pos rfl)
    · obtain ⟨h1, h2, -⟩ := node
      refine ⟨?_, ?_⟩
      · rw [PoolWithNode, ← h1, ← h2, e]
        rfl
      · rw [e]
        exact ⟨⟨rfl, rfl⟩, rfl, rfl⟩
  · obtain ⟨freed, recovered, -⟩ := one hn
    refine ⟨freed, ?_, stranded, low, recover⟩
    rw [Recovered, cellBits] at recovered
    exact recovered
  · obtain ⟨_, _, _, _, _, _, _, rfl⟩ := frame
    rfl

/-- A receive slot releases its message (R112): its node and its holder go, and the slot becomes IDLE. -/
theorem releaseSlot_eq (s : State) (p : Port) (r : ReceiveNo) (h : Holding) :
    s.releaseSlot p r h = ((s.returnNode h.node).dropHolder h.desc).setReceiveSlot p r
      { s.receiveSlot p r with phase := .idle } := by
  have e : ((s.returnNode h.node).dropHolder h.desc).receiveSlot p r = s.receiveSlot p r := by
    obtain ⟨_, _, _, _, e1⟩ := s.returnNode_footprint h.node
    obtain ⟨_, _, _, _, _, _, _, e2⟩ := (s.returnNode h.node).dropHolder_footprint h.desc
    rw [receiveSlot, e2, e1]
    rfl
  rw [releaseSlot]
  dsimp only
  rw [e]

theorem otherReceive_setReceiveSlot (h : t.receive = s.receive) (p : Port) (r : ReceiveNo) (x : ReceiveSlot) :
    SameOtherReceive s (t.setReceiveSlot p r x) p r := fun q e he =>
  (receiveSlot_setReceiveSlot_ne t he x).trans (receiveSlot_of_receive h q e)

theorem exec_releaseMessage {p : Port} (f : CommandFields) (h : s.Ready p) :
    exec (.releaseMessage p f) s = .next (writeResults (releaseMessage p f s) p ⟨0x22, f⟩) :=
  congrArg Host.Outcome.next (takeCommand_ready h _ _)

theorem receiveNo_eq {f : CommandFields} {r : ReceiveNo} (h : f.slot.toNat = r.val) : receiveNo f = some r := by
  rw [receiveNo, dif_pos (h ▸ r.isLt)]
  exact congrArg some (Fin.ext h)

/-- Settles O35: the checks of RELEASE, and the slot that gives its node and its holder back. -/
theorem releaseGivesTheNodeBack : Obligations.ReleaseGivesTheNodeBack := by
  refine fun p f s h => ⟨fun hf => ?_, fun r hf => ⟨fun hi => ?_, fun x m hr w hh => ?_⟩⟩
  · have e : releaseMessage p f s = { state := s, code := .refusedParam } := by
      rw [releaseMessage, receiveNo, dif_neg (by omega)]
    rw [exec_releaseMessage f h, e]
    rfl
  · have e : releaseMessage p f s = { state := s, code := .refusedState } := by
      rw [releaseMessage, receiveNo_eq hf]
      dsimp only
      rw [hi]
    rw [exec_releaseMessage f h, e]
    rfl
  · obtain ⟨live, phase⟩ := hr
    have L := letGo_returnNode (n := x.node) live w hh
    have F := L.frame
    have e : releaseMessage p f s = { state := s.releaseSlot p r x, code := .ok
                                      result1 := .message { desc := some x.desc, holders := some (m.holders - 1) } } := by
      rw [releaseMessage, receiveNo_eq hf]
      dsimp only
      rw [phase]
      dsimp only
      rw [← L.holders, releaseSlot_eq]
      rfl
    refine ⟨_, exec_releaseMessage f h, ?_⟩
    rw [e, releaseSlot_eq]
    generalize State.dropHolder _ _ = t at L F
    refine ⟨reported_writeResults _ _ _, receiveSlot_setReceiveSlot_self _ _ _ _,
      otherReceive_setReceiveSlot (congrArg (·.receive) F) p r _, L.node, L.injection, L.kept, L.freed, L.events, L.descriptors,
      otherFronts_writeResults (s := s) (congrArg (·.fronts) F) _ _, congrArg (·.nodeContents) F, congrArg (·.queues) F,
      congrArg (·.payload) F, congrArg (·.compose) F, congrArg (·.integrity) F, congrArg (·.resetAsserted) F,
      congrArg (·.ma) F, congrArg (·.exchange) F, congrArg (·.ports) F, congrArg (·.timeouts) F, congrArg (·.mint) F,
      congrArg (·.mgmt) F, congrArg (·.pending) F⟩

end Sys2Proof.Machine.State
end

section
/-!
SUPPORT. Steps 1 and 2 of a teardown (R96, R113, R152): the step made, and the slot that it empties; O51.
-/
namespace Sys2Proof.Machine.State
variable {s t : State}

/-! ### Whether the step is made -/

theorem teardownAt_of_tearsDown {p : Port} {x : Teardown} {n : Nat} (h : s.TearsDown p x n) :
    s.teardownAt p n = some x := by
  obtain ⟨hx, hp, hn, hb, ho⟩ := h
  rw [teardownAt, hx, hp]
  exact if_pos ⟨hn, hb, ho⟩

theorem teardownAt_none {p : Port} (h : s.exchange ≠ .running ∨ ∀ x, s.port p ≠ .resetting x) (n : Nat) :
    s.teardownAt p n = none := by
  rw [teardownAt]
  split
  · rename_i x hx hp
    rcases h with h | h
    · exact absurd hx h
    · exact absurd hp (h x)
  · rfl

/-! ### The slots -/

theorem otherCompose_setComposeSlot {p : Port} {c : ComposeNo} (h : SameOtherCompose s t p c) (x : ComposeSlot) :
    SameOtherCompose s (t.setComposeSlot p c x) p c := fun q e he =>
  (composeSlot_setComposeSlot_ne t he x).trans (h q e he)

theorem otherPorts_setPort (h : t.ports = s.ports) (p : Port) (x : PortState) :
    ∀ e, e ≠ p → (t.setPort p x).port e = s.port e := fun e he =>
  (port_setPort_ne t he x).trans (port_of_ports h e)

theorem teardownAbandonSlot_idle {p : Port} {c : ComposeNo} (h : (s.composeSlot p c).phase = .idle) :
    s.teardownAbandonSlot p c = s.setComposeSlot p c ⟨.idle, false, false⟩ := by
  unfold teardownAbandonSlot
  rw [h]
  dsimp only [ComposePhase.composing]
  rw [h]

theorem teardownAbandonSlot_composes {p : Port} {c : ComposeNo} {k : Composing} {m : Message} (h : s.Composes p c k m)
    (A : s.Abandoned (s.abandonSlot p c k) p c k m) :
    s.teardownAbandonSlot p c = (s.abandonSlot p c k).setComposeSlot p c ⟨.idle, false, false⟩ := by
  unfold teardownAbandonSlot
  rw [composing_of_composes h]
  dsimp only
  rw [A.slot]

theorem teardownReleaseSlot_idle {p : Port} {r : ReceiveNo} (h : (s.receiveSlot p r).phase = .idle) :
    s.teardownReleaseSlot p r = s.setReceiveSlot p r ⟨.idle, false, false, false, false⟩ := by
  unfold teardownReleaseSlot
  rw [h]
  dsimp only
  rw [h]

theorem setReceiveSlot_setReceiveSlot (s : State) (p : Port) (r : ReceiveNo) (x y : ReceiveSlot) :
    (s.setReceiveSlot p r x).setReceiveSlot p r y = s.setReceiveSlot p r y := by
  have pair : ∀ v : Pair ReceiveSlot, (v.set r x).set r y = v.set r y := fun v => by
    match r with
    | 0 => rfl
    | 1 => rfl
  simp only [setReceiveSlot, Quad.get_set_self, Quad.set_set, pair]

theorem teardownReleaseSlot_holding {p : Port} {r : ReceiveNo} {x : Holding} (h : (s.receiveSlot p r).phase = .holding x) :
    s.teardownReleaseSlot p r = ((s.returnNode x.node).dropHolder x.desc).setReceiveSlot p r
      ⟨.idle, false, false, false, false⟩ := by
  unfold teardownReleaseSlot
  rw [h]
  dsimp only
  rw [releaseSlot_eq, setReceiveSlot_setReceiveSlot, receiveSlot_setReceiveSlot_self]

/-! ### The steps -/

theorem exec_teardownAbandon {p : Port} {x : Teardown} {c : ComposeNo} (h : s.TearsDown p x 1) (hc : x.cursor = c.val) :
    exec (.teardownAbandon p) s = .next ((s.teardownAbandonSlot p c).setPort p (.resetting
      (if c.val < 3 then { x with cursor := c.val + 1, queue := none, reported := false }
        else { x with step := 2, cursor := 0, queue := none, reported := false }))) := by
  have slot : Fin.ofNat 4 x.cursor = c := by rw [hc, Fin.ofNat_val_eq_self]
  show execTeardownAbandon p s = _
  rw [execTeardownAbandon, teardownAt_of_tearsDown h]
  dsimp only
  rw [slot, Teardown.advance, hc, h.2.2.1]
  rfl

theorem exec_teardownRelease {p : Port} {x : Teardown} {r : ReceiveNo} (h : s.TearsDown p x 2) (hr : x.cursor = r.val) :
    exec (.teardownRelease p) s = .next ((s.teardownReleaseSlot p r).setPort p (.resetting
      (if r.val < 1 then { x with cursor := r.val + 1, queue := none, reported := false }
        else { x with step := 3, cursor := 0, queue := none, reported := false }))) := by
  have slot : Fin.ofNat 2 x.cursor = r := by rw [hr, Fin.ofNat_val_eq_self]
  show execTeardownRelease p s = _
  rw [execTeardownRelease, teardownAt_of_tearsDown h]
  dsimp only
  rw [slot, Teardown.advance, hr, h.2.2.1]
  rfl

/-- Settles O51: a step not made, a compose slot abandoned, and a receive slot released. -/
theorem teardownEmptiesTheSlots : Obligations.TeardownEmptiesTheSlots := by
  refine fun p s => ⟨fun h => ⟨?_, ?_⟩, fun x c ht hc => ⟨fun hi => ?_, fun k m hk w hh => ?_⟩,
    fun x r ht hr => ⟨fun hi => ?_, fun y m hy w hh => ?_⟩⟩
  · show execTeardownAbandon p s = _
    rw [execTeardownAbandon, teardownAt_none h]
  · show execTeardownRelease p s = _
    rw [execTeardownRelease, teardownAt_none h]
  · rw [exec_teardownAbandon ht hc, teardownAbandonSlot_idle hi]
  · have A := abandonSlot_abandoned (p := p) (c := c) hk.1 w hh
    refine ⟨_, exec_teardownAbandon ht hc, port_setPort_self _ _ _, ?_⟩
    rw [teardownAbandonSlot_composes hk A]
    obtain ⟨_, _, _, _, _, _, _, _, e⟩ := s.abandonSlot_footprint p c k
    have ports : (s.abandonSlot p c k).ports = s.ports := congrArg (·.ports) e
    have fronts : (s.abandonSlot p c k).fronts = s.fronts := congrArg (·.fronts) e
    generalize s.abandonSlot p c k = u at A ports fronts
    have F := A.frame
    exact ⟨otherPorts_setPort (t := u.setComposeSlot p c _) ports p _, composeSlot_setComposeSlot_self _ _ _ _,
      otherCompose_setComposeSlot A.otherSlots _,
      fun hn => ⟨(A.kept hn).1, (A.kept hn).2.1, (A.kept hn).2.2.1, (A.kept hn).2.2.2.2.1⟩, A.freed, A.injection, A.events,
      A.descriptors, fronts, congrArg (·.queues) F, congrArg (·.receive) F, congrArg (·.integrity) F,
      ⟨congrArg (·.nodeContents) F, congrArg (·.nodeLinks) F⟩, congrArg (·.payload) F, congrArg (·.resetAsserted) F,
      congrArg (·.ma) F, congrArg (·.exchange) F, congrArg (·.timeouts) F, congrArg (·.mint) F, congrArg (·.mgmt) F,
      congrArg (·.pending) F⟩
  · rw [exec_teardownRelease ht hr, teardownReleaseSlot_idle hi]
  · obtain ⟨live, phase⟩ := hy
    have L := letGo_returnNode (n := y.node) live w hh
    refine ⟨_, exec_teardownRelease ht hr, port_setPort_self _ _ _, ?_⟩
    rw [teardownReleaseSlot_holding phase]
    generalize State.dropHolder _ _ = u at L
    have F := L.frame
    exact ⟨otherPorts_setPort (t := u.setReceiveSlot p r _) (congrArg (·.ports) F) p _,
      receiveSlot_setReceiveSlot_self _ _ _ _, otherReceive_setReceiveSlot (congrArg (·.receive) F) p r _, L.node,
      L.injection, fun hn => ⟨(L.kept hn).1, (L.kept hn).2.1, (L.kept hn).2.2.2.1, (L.kept hn).2.2.1⟩, L.freed, L.events,
      L.descriptors, congrArg (·.fronts) F, congrArg (·.queues) F, congrArg (·.compose) F, congrArg (·.integrity) F,
      congrArg (·.nodeContents) F, congrArg (·.payload) F, congrArg (·.resetAsserted) F, congrArg (·.ma) F,
      congrArg (·.exchange) F, congrArg (·.timeouts) F, congrArg (·.mint) F, congrArg (·.mgmt) F, congrArg (·.pending) F⟩

end Sys2Proof.Machine.State
end

section
/-!
SUPPORT. The reports of one request (R130, R135 to R137, R141): what each report leaves in the Integrity Monitor, and the completion of a
request that made several; the reads of a node, by the outcome of their checks (R8, R55, R61).
-/
namespace Sys2Proof.Machine

/-! ### The places of the reports' records -/

theorem reportsAt_append (n : Nat) (ws : List (FaultClass × Port)) (x : FaultClass × Port) :
    reportsAt n (ws ++ [x]) = reportsAt n ws ++
      [⟨x.1, x.2, if n + ws.length < 4 then some (n + ws.length) else none⟩] := by
  induction ws generalizing n with
  | nil => rfl
  | cons y ws ih =>
    have e : n + 1 + ws.length = n + (y :: ws).length := by rw [List.length_cons, Nat.add_right_comm, Nat.add_assoc]
    rw [List.cons_append, reportsAt, reportsAt, ih, e, List.cons_append]

theorem record_of_mem_reportsAt {n : Nat} {ws : List (FaultClass × Port)} {w : Waiting} (h : w ∈ reportsAt n ws) {k : Nat}
    (hk : w.record = some k) : k < 4 ∧ k < n + ws.length := by
  induction ws generalizing n with
  | nil => cases h
  | cons y ws ih =>
    rw [List.length_cons]
    rcases List.mem_cons.mp h with rfl | h
    · dsimp only at hk
      split_ifs at hk with hn
      cases hk
      exact ⟨hn, by omega⟩
    · have := ih h
      omega

/-! ### The reports that a request has made -/

/-- Since `s` the request has made the reports `ws`, in this order, and has not completed. -/
structure Reports (s u : State) (ws : List (FaultClass × Port)) : Prop where
  made : ReportsMade s u ws
  policy : u.integrity.policy = s.integrity.policy
  few : s.integrity.faults.length + ws.length < 4 →
    u.integrity.faults.length = s.integrity.faults.length + ws.length
  many : 4 ≤ s.integrity.faults.length + ws.length → 4 ≤ u.integrity.faults.length
  shown : ∀ w ∈ reportsAt s.integrity.faults.length ws, ∀ k x, w.record = some k → u.integrity.faults[k]? = some x →
    x.escalation = s.integrity.policy.of w.cls

namespace Reports
variable {s u v : State} {ws : List (FaultClass × Port)}

/-- Only the Integrity Monitor matters, and of it not the tracking. -/
theorem start (hw : u.integrity.waiting = s.integrity.waiting) (hp : u.integrity.policy = s.integrity.policy)
    (hf : u.integrity.faults = s.integrity.faults) : Reports s u [] where
  made := by rw [ReportsMade, hw, reportsAt, List.map_nil, List.append_nil]
  policy := hp
  few _ := by rw [hf]; rfl
  many h := by rw [hf]; exact h
  shown _ h := by cases h

theorem congr (h : Reports s u ws) (e : v.integrity = u.integrity) : Reports s v ws where
  made := by rw [ReportsMade, e]; exact h.made
  policy := by rw [e]; exact h.policy
  few := by rw [e]; exact h.few
  many := by rw [e]; exact h.many
  shown := by rw [e]; exact h.shown

theorem report (h : Reports s u ws) (x : ErrorReport) (b : BaseAction) :
    Reports s (u.report x b) (ws ++ [(x.cls, x.port)]) := by
  have faults : (u.report x b).integrity.faults =
      if u.integrity.faults.length < 4 then u.integrity.faults ++ [u.faultRecord x b] else u.integrity.faults := by
    by_cases hl : u.integrity.faults.length < 4
    · rw [if_pos hl]
      exact if_pos (decide_eq_true hl)
    · rw [if_neg hl]
      exact if_neg (by rw [decide_eq_true_eq]; exact hl)
  have place : (if u.integrity.faults.length < 4 then some u.integrity.faults.length else none) =
      if s.integrity.faults.length + ws.length < 4 then some (s.integrity.faults.length + ws.length) else none := by
    by_cases hl : s.integrity.faults.length + ws.length < 4
    · rw [h.few hl]
    · rw [if_neg hl, if_neg (by have := h.many (by omega); omega)]
  have waiting : (u.report x b).integrity.waiting = u.integrity.waiting ++ [⟨.completed, [⟨x.cls, x.port,
      if u.integrity.faults.length < 4 then some u.integrity.faults.length else none⟩]⟩] := by
    by_cases hl : u.integrity.faults.length < 4 <;> simp [State.report, Config.faultListSize, hl]
  refine ⟨?_, h.policy, fun hl => ?_, fun hl => ?_, fun w hw k y hk hy => ?_⟩
  · rw [ReportsMade, waiting, place, h.made, reportsAt_append, List.map_append, List.append_assoc]
    rfl
  · rw [List.length_append, List.length_singleton] at hl ⊢
    have := h.few (by omega)
    rw [faults, if_pos (by omega), List.length_append, List.length_singleton]
    omega
  · rw [List.length_append, List.length_singleton] at hl
    rw [faults]
    split_ifs with hu
    · rw [List.length_append, List.length_singleton]
      by_cases hn : s.integrity.faults.length + ws.length < 4
      · have := h.few hn
        omega
      · have := h.many (by omega)
        omega
    · omega
  · rw [faults] at hy
    rw [reportsAt_append] at hw
    rcases List.mem_append.mp hw with hw | hw
    · obtain ⟨h4, hn⟩ := record_of_mem_reportsAt hw hk
      refine h.shown w hw k y hk ?_
      have short : k < u.integrity.faults.length := by
        by_cases hl : s.integrity.faults.length + ws.length < 4
        · rw [h.few hl]
          exact hn
        · have := h.many (by omega)
          omega
      split_ifs at hy
      · rwa [List.getElem?_append_left short] at hy
      · exact hy
    · rw [List.mem_singleton.mp hw] at hk ⊢
      dsimp only at hk ⊢
      split_ifs at hk with hl
      cases hk
      rw [← h.few hl, if_pos (by rw [h.few hl]; exact hl), List.getElem?_append_right (Nat.le_refl _), Nat.sub_self] at hy
      cases hy
      exact congrArg (·.of x.cls) h.policy

/-- The request completes: the reports wait or pass, and the records stay, as they show the table's escalation already (R135). -/
theorem completed (h : Reports s u ws) : WaitsFor s (u.completeRequest s.requests) ws ∧
    (u.completeRequest s.requests).integrity.faults = u.integrity.faults :=
  waitsFor_of_reportsMade h.made h.policy fun w hw k x hk hx =>
    (h.shown w ((List.takeWhile_prefix _).subset hw) k x hk hx).trans (of_decide_eq_true
      (List.mem_takeWhile_imp (p := fun w : Waiting => decide (s.integrity.policy.of w.cls = .none)) hw))

end Reports

/-- What one report does to the sequence number and the fault list (R136, R137). -/
theorem reportedFault_report (u : State) (x : ErrorReport) (b : BaseAction) :
    ReportedFault u (u.report x b) (u.faultRecord x b) := by
  refine ⟨rfl, fun h => ?_, fun h => ?_⟩ <;> simp [State.report, Config.faultListSize, h, Nat.not_lt.mpr]

/-- The records that a report leaves, seen in another state. -/
theorem ReportedFault.congr {s t u v : State} {x : FaultRecord} (h : ReportedFault s t x)
    (hs : u.integrity.nextSequence = s.integrity.nextSequence ∧ u.integrity.faults = s.integrity.faults ∧
      u.integrity.full = s.integrity.full)
    (ht : v.integrity.nextSequence = t.integrity.nextSequence ∧ v.integrity.faults = t.integrity.faults ∧
      v.integrity.full = t.integrity.full) : ReportedFault u v x := by
  obtain ⟨h1, h2, h3⟩ := hs
  obtain ⟨k1, k2, k3⟩ := ht
  rw [ReportedFault, h1, h2, h3, k1, k2, k3]
  exact h

/-- A report reads and writes the Integrity Monitor alone. -/
theorem integrity_report_congr {u v : State} (h : u.integrity = v.integrity) (x : ErrorReport) (b : BaseAction) :
    (u.report x b).integrity = (v.report x b).integrity := by
  simp only [State.report, State.faultRecord, h, State.setIntegrity_integrity]

/-! ### The reports of a node (R57, R58, R62, R63) -/

/-- Since `s` at most corrections were counted in the Integrity Monitor. -/
def Tracked (s u : State) : Prop := ∃ k, u.integrity = { s.integrity with tracking := k }

theorem Tracked.reports {s u : State} (h : Tracked s u) : Reports s u [] := by
  obtain ⟨k, e⟩ := h
  exact Reports.start (by rw [e]) (by rw [e]) (by rw [e])

theorem Tracked.faultRecord {s u : State} (h : Tracked s u) (x : ErrorReport) (b : BaseAction) :
    u.faultRecord x b = s.faultRecord x b := by
  obtain ⟨k, e⟩ := h
  rw [State.faultRecord, e]
  rfl

theorem Tracked.reportedFault {s u : State} (h : Tracked s u) (x : ErrorReport) (b : BaseAction) :
    ReportedFault s (u.report x b) (s.faultRecord x b) := by
  rw [← h.faultRecord]
  obtain ⟨k, e⟩ := h
  exact (reportedFault_report u x b).congr (by rw [e]; exact ⟨rfl, rfl, rfl⟩) ⟨rfl, rfl, rfl⟩

/-- One report of a request that has completed. -/
theorem Tracked.completed {s u t : State} (h : Tracked s u) (x : ErrorReport) (b : BaseAction)
    (e : t.integrity = ((u.report x b).completeRequest s.requests).integrity) :
    ReportedFault s t (s.faultRecord x b) ∧ WaitsFor s t [(x.cls, x.port)] := by
  have done := (h.reports.report x b).completed
  refine ⟨(h.reportedFault x b).congr ⟨rfl, rfl, rfl⟩ (by rw [e]; exact ⟨rfl, done.2, rfl⟩), ?_⟩
  rw [WaitsFor, e]
  exact done.1

/-- Two reports of a request that has completed. -/
theorem Tracked.completed_two {s u t : State} (h : Tracked s u) (x y : ErrorReport) (b c : BaseAction)
    (e : t.integrity = (((u.report x b).report y c).completeRequest s.requests).integrity) :
    (∃ v, ReportedFault s v (s.faultRecord x b) ∧
      ReportedFault v t { s.faultRecord y c with sequence := s.integrity.nextSequence + 1 }) ∧
    WaitsFor s t [(x.cls, x.port), (y.cls, y.port)] := by
  have done := ((h.reports.report x b).report y c).completed
  have record : (u.report x b).faultRecord y c = { s.faultRecord y c with sequence := s.integrity.nextSequence + 1 } := by
    rw [← h.faultRecord]
    obtain ⟨k, e⟩ := h
    rw [State.faultRecord, show (u.report x b).integrity.nextSequence = u.integrity.nextSequence + 1 from rfl, e]
    rfl
  refine ⟨⟨_, h.reportedFault x b, ?_⟩, ?_⟩
  · rw [← record]
    exact (reportedFault_report (u.report x b) y c).congr ⟨rfl, rfl, rfl⟩ (by rw [e]; exact ⟨rfl, done.2, rfl⟩)
  · rw [WaitsFor, e]
    exact done.1

/-! ### The words of a node, by the outcome of their checks -/

namespace State
variable {s : State}

theorem readContent_value {n : NodeNo} {d : DescNo}
    (h : (s.contentWord n).check = .clean d ∨ (s.contentWord n).check = .corrected d) : (s.readContent n).2 = some d := by
  rcases h with h | h
  · rw [readContent_of_clean h]
  · rw [readContent_of_corrected h]

theorem readNodeLink_value {n : NodeNo} {x : NodeLink}
    (h : (s.nodeLinkWord n).check = .clean x ∨ (s.nodeLinkWord n).check = .corrected x) :
    (s.readNodeLink n).2 = some x := by
  rcases h with h | h
  · rw [readNodeLink_of_clean h]
  · rw [readNodeLink_of_corrected h]

theorem readContent_frame (s : State) (n : NodeNo) : ∃ c k, (s.readContent n).1 =
    { s with nodeContents := c, integrity := { s.integrity with tracking := k } } := by
  rw [readContent]
  split
  · exact ⟨_, _, rfl⟩
  · exact ⟨_, _, rfl⟩
  · exact ⟨_, _, rfl⟩

theorem readNodeLink_frame (s : State) (n : NodeNo) : ∃ l k, (s.readNodeLink n).1 =
    { s with nodeLinks := l, integrity := { s.integrity with tracking := k } } := by
  rw [readNodeLink]
  split
  · exact ⟨_, _, rfl⟩
  · exact ⟨_, _, rfl⟩
  · exact ⟨_, _, rfl⟩

/-- The reads of a node write its words and the tracking alone. -/
theorem readNode_frame (s : State) (n : NodeNo) : ∃ c l k, (s.readNode n).1 =
    { s with nodeContents := c, nodeLinks := l, integrity := { s.integrity with tracking := k } } := by
  obtain ⟨c, k1, e1⟩ := s.readContent_frame n
  obtain ⟨l, k2, e2⟩ := (s.readContent n).1.readNodeLink_frame n
  rw [readNode_eq]
  exact ⟨c, l, k2, by rw [e2, e1]⟩

theorem reportContent_footprint (s : State) (n : NodeNo) (a : ReadAccess) (p : Port) (q : QueueNo) (b : BaseAction) :
    ∃ i, s.reportContent n a p q b = { s with integrity := i } := ⟨_, rfl⟩

theorem tracked_readNode (s : State) (n : NodeNo) : Tracked s (s.readNode n).1 := by
  obtain ⟨c, l, k, e⟩ := s.readNode_frame n
  exact ⟨k, by rw [e]⟩

theorem readNode_uncorrectable {n : NodeNo} (hc : (s.contentWord n).check = .uncorrectable)
    (hl : (s.nodeLinkWord n).check = .uncorrectable) : s.readNode n = (s, none, none) := by
  rw [readNode_eq, readContent_of_uncorrectable hc, readNodeLink_of_uncorrectable hl]

end State

end Sys2Proof.Machine
end

section
/-!
SUPPORT. A FETCH that meets an uncorrectable node (R55 to R58, R69, R99, R130, R135): O33.
-/
namespace Sys2Proof.Machine
variable {s : State}

/-! ### The command as far as the head reads -/

theorem exec_fetchMessage {p : Port} (f : CommandFields) (h : s.Ready p) :
    exec (.fetchMessage p f) s = .next (State.writeResults (fetchMessage p f s) p ⟨0x20, f⟩) :=
  congrArg Host.Outcome.next (State.takeCommand_ready h _ _)

theorem queueNo_eq {f : CommandFields} {q : QueueNo} (h : f.queue.toNat = q.val) : queueNo f = some q := by
  rw [queueNo, dif_pos (h ▸ q.isLt)]
  exact congrArg some (Fin.ext h)

/-- Port p's FETCH into slot r passes its checks, and `h` is the head node of its queue q. -/
structure FetchReaches (s : State) (p : Port) (f : CommandFields) (r : ReceiveNo) (q : QueueNo) (lq : LiveQueue)
    (h : NodeNo) : Prop where
  ready : s.Ready p
  wf : s.memoriesWf = true
  slotNo : f.slot.toNat = r.val
  queueNo : f.queue.toNat = q.val
  idle : (s.receiveSlot p r).phase = .idle
  live : s.queue q = .live lq
  consumer : lq.consumer = p
  opened : lq.phase = .opened
  depth : lq.depth ≠ 0
  head : lq.head = some h

theorem FetchReaches.fetchMessage_eq {p : Port} {f : CommandFields} {r : ReceiveNo} {q : QueueNo} {lq : LiveQueue}
    {h : NodeNo} (k : FetchReaches s p f r q lq h) :
    fetchMessage p f s = (detach s p r q lq).completing s.requests := by
  rw [fetchMessage, State.receiveNo_eq k.slotNo]
  dsimp only
  rw [k.idle]
  dsimp only
  rw [fetchFrom, queueNo_eq k.queueNo]
  dsimp only
  rw [k.live]
  dsimp only
  rw [if_neg (not_not_intro k.consumer), k.opened]
  exact if_neg k.depth

theorem detach_strands {p : Port} {r : ReceiveNo} {q : QueueNo} {lq : LiveQueue} {h : NodeNo} {x : NodeLink}
    (hh : lq.head = some h) (hr : (s.readNode h).2 = (none, some x)) : detach s p r q lq =
      { state := ((((s.readNode h).1.setQueue q (.live (lq.behead x).rearm)).strandNodes 1).reportContent h .fetch p q
          .strand), code := .refusedFault } := by
  have e : s.readNode h = ((s.readNode h).1, none, some x) := Prod.ext rfl hr
  rw [detach, State.headNode, hh]
  dsimp only
  rw [e]

theorem detach_breaks {p : Port} {r : ReceiveNo} {q : QueueNo} {lq : LiveQueue} {h : NodeNo} {c : Option DescNo}
    (hh : lq.head = some h) (hr : (s.readNode h).2 = (c, none)) : detach s p r q lq =
      { state := ((s.readNode h).1.reportBroken h c .fetch p q).quarantine q lq, code := .refusedFault } := by
  have e : s.readNode h = ((s.readNode h).1, c, none) := Prod.ext rfl hr
  rw [detach, State.headNode, hh]
  dsimp only
  rw [e]
  cases c <;> rfl

theorem rearm_behead {lq : LiveQueue} (h : lq.phase = .opened) (x : NodeLink) : (lq.behead x).rearm =
    { lq with head := x, tail := if x = none then none else lq.tail, depth := lq.depth - 1
              armed := if lq.depth - 1 < lq.threshold then true else lq.armed } := by
  rw [LiveQueue.rearm]
  by_cases k : lq.depth - 1 < lq.threshold
  · rw [if_pos ⟨h, k⟩, if_pos k]
    rfl
  · rw [if_neg (fun y => k y.2), if_neg k]
    rfl

/-- The state of a completed FETCH that was refused for a fault: the results beside what its request left. -/
def fetchRefused (s u : State) (p : Port) (f : CommandFields) : State :=
  State.writeResults { state := u.completeRequest s.requests, code := .refusedFault } p ⟨0x20, f⟩

theorem reported_fetchRefused (u : State) (p : Port) (f : CommandFields) :
    (fetchRefused s u p f).Reported p ⟨0x20, f⟩ .refusedFault .absent .idle := State.reported_writeResults _ _ _

theorem otherFronts_fetchRefused {u : State} (h : u.fronts = s.fronts) (p : Port) (f : CommandFields) :
    SameOtherFronts s (fetchRefused s u p f) p := State.otherFronts_writeResults (o := ⟨_, _, _, _⟩) h _ _

/-! ### What quarantine leaves (R58, R69) -/

theorem event_quarantine (u : State) (q : QueueNo) (lq : LiveQueue) (p : Port) : (u.quarantine q lq).event p =
    if p = lq.consumer then (u.event p).arrive ⟨.queueQuarantined, some q.val, none, min lq.depth 255⟩ else u.event p := by
  rw [State.quarantine, State.sendEvent]
  split_ifs with hp
  · subst hp
    exact State.event_setEvent_self _ _ _
  · exact State.event_setEvent_ne _ hp _

namespace FetchReaches
variable {p : Port} {f : CommandFields} {r : ReceiveNo} {q : QueueNo} {lq : LiveQueue} {h : NodeNo}

theorem exec_eq (k : FetchReaches s p f r q lq h) {u : State} (e : detach s p r q lq = { state := u, code := .refusedFault }) :
    exec (.fetchMessage p f) s = .next (fetchRefused s u p f) := by
  rw [exec_fetchMessage f k.ready, k.fetchMessage_eq, e]
  rfl

theorem queue_set (k : FetchReaches s p f r q lq h) (x : Queue) :
    ((s.readNode h).1.setQueue q x).queue q = x ∧
      ∀ e, e ≠ q → ((s.readNode h).1.setQueue q x).queue e = s.queue e := by
  have queues := (s.readNode h).1.queue_setQueue (State.wf_queues ((Quiet.refl.readNode h).memoriesWf k.wf)) q
  obtain ⟨_, _, _, e1⟩ := s.readNode_frame h
  refine ⟨(queues q x).trans (if_pos rfl), fun e he => ((queues e x).trans (if_neg he)).trans ?_⟩
  exact State.queue_of_queues (by rw [e1]) e

/-- The content word alone is uncorrectable: the node is stranded (R57). -/
theorem strands (k : FetchReaches s p f r q lq h) {x : NodeLink} (hv : (s.readNode h).2 = (none, some x)) :
    ∃ t, exec (.fetchMessage p f) s = .next t ∧ t.Reported p ⟨0x20, f⟩ .refusedFault .absent .idle ∧
      t.receive = s.receive ∧ t.queue q = .live { lq with
        head := x, tail := if x = none then none else lq.tail, depth := lq.depth - 1
        armed := if lq.depth - 1 < lq.threshold then true else lq.armed } ∧ (∀ e, e ≠ q → t.queue e = s.queue e) ∧
      t.pool = { s.pool with strandedNodes := s.pool.strandedNodes + 1 } ∧
      SameNodeRam (s.readNode h).1 t ∧ t.descriptors = s.descriptors ∧ t.events = s.events ∧ SameOtherFronts s t p ∧
      SameControl s t ∧ t.integrity =
        (((s.readNode h).1.reportContent h .fetch p q .strand).completeRequest s.requests).integrity := by
  have e := detach_strands (p := p) (r := r) (q := q) k.head hv
  rw [rearm_behead k.opened] at e
  refine ⟨_, k.exec_eq e, ?_⟩
  have queues := fun x => k.queue_set x
  generalize hy : Queue.live _ = y at *
  have monitor : (((((s.readNode h).1.setQueue q y).strandNodes 1).reportContent h .fetch p q .strand).completeRequest
      s.requests).integrity =
      (((s.readNode h).1.reportContent h .fetch p q .strand).completeRequest s.requests).integrity :=
    congrArg (·.complete s.requests) (integrity_report_congr rfl _ _)
  obtain ⟨i, reported⟩ := State.reportContent_footprint (((s.readNode h).1.setQueue q y).strandNodes 1) h .fetch p q .strand
  obtain ⟨cs, ls, j, frame⟩ := s.readNode_frame h
  generalize State.reportContent (((s.readNode h).1.setQueue q y).strandNodes 1) h .fetch p q .strand = v at *
  generalize (s.readNode h).1.reportContent h .fetch p q .strand = v' at *
  generalize (s.readNode h).1 = u at *
  subst reported frame
  exact ⟨reported_fetchRefused _ _ _, rfl, (queues _).1, (queues _).2, rfl, ⟨rfl, rfl⟩, rfl, rfl,
    otherFronts_fetchRefused rfl _ _, ⟨rfl, rfl, rfl, rfl, rfl, rfl, rfl, rfl⟩, monitor⟩

/-- The link word is uncorrectable: the queue is quarantined (R58). -/
theorem breaks (k : FetchReaches s p f r q lq h) {c : Option DescNo} (hv : (s.readNode h).2 = (c, none)) :
    ∃ t, exec (.fetchMessage p f) s = .next t ∧ t.Reported p ⟨0x20, f⟩ .refusedFault .absent .idle ∧
      t.receive = s.receive ∧ t.queue q = .live { lq with phase := .quarantined } ∧
      (∀ e, e ≠ q → t.queue e = s.queue e) ∧ t.pool = s.pool ∧
      t.event p = (s.event p).arrive ⟨.queueQuarantined, some q.val, none, min lq.depth 255⟩ ∧
      SameOtherEvents s t p ∧ SameNodeRam (s.readNode h).1 t ∧ t.descriptors = s.descriptors ∧ SameOtherFronts s t p ∧
      SameControl s t ∧
      t.integrity = (((s.readNode h).1.reportBroken h c .fetch p q).completeRequest s.requests).integrity := by
  refine ⟨_, k.exec_eq (detach_breaks k.head hv), ?_⟩
  have events := event_quarantine ((s.readNode h).1.reportBroken h c .fetch p q) q lq
  have queues := fun x => k.queue_set x
  obtain ⟨cs, ls, j, frame⟩ := s.readNode_frame h
  obtain ⟨i, broken⟩ := (s.readNode h).1.reportBroken_footprint h c .fetch p q
  generalize (s.readNode h).1.reportBroken h c .fetch p q = v at *
  generalize (s.readNode h).1 = u at *
  subst broken frame
  have hp := k.consumer
  refine ⟨reported_fetchRefused _ _ _, rfl, (queues _).1, (queues _).2, rfl, ?_, fun e he => ?_, ⟨rfl, rfl⟩, rfl,
    otherFronts_fetchRefused rfl _ _, ⟨rfl, rfl, rfl, rfl, rfl, rfl, rfl, rfl⟩, rfl⟩
  · exact (events p).trans (if_pos hp.symm)
  · exact (events e).trans (if_neg (by rw [hp]; exact he))

end FetchReaches

/-- Settles O33: the node is stranded where its link word is read, and the queue is quarantined where it is not. -/
theorem fetchContainsNodeFaults : Obligations.FetchContainsNodeFaults := by
  intro p f r q lq h s hs w hr hq hi hl hp ho hd hh content link
  have k : FetchReaches s p f r q lq h := ⟨hs, w, hr, hq, hi, hl, hp, ho, hd, hh⟩
  refine ⟨fun x hc hx => ?_, fun d hc hx => ?_, fun hc hx => ?_⟩
  · have values : (s.readNode h).2 = (none, some x) := by
      rw [State.readNode_eq, State.readContent_of_uncorrectable hc, State.readNodeLink_value hx]
    obtain ⟨t, e, reported, receive, queue, others, pool, ram, descs, events, fronts, control, i⟩ := k.strands values
    obtain ⟨fault, waits⟩ :=
      (s.tracked_readNode h).completed ⟨.node, .content, h.val, .fetch, p, some q, none⟩ .strand i
    exact ⟨t, e, reported, receive, queue, others, pool, fault, waits, ram, descs, events, fronts, control⟩
  · have values : (s.readNode h).2 = (some d, none) := by
      rw [State.readNode_eq, State.readContent_value hc, State.readNodeLink_of_uncorrectable hx]
    obtain ⟨t, e, reported, receive, queue, others, pool, event, events, ram, descs, fronts, control, i⟩ := k.breaks values
    obtain ⟨fault, waits⟩ :=
      (s.tracked_readNode h).completed ⟨.node, .link, h.val, .fetch, p, some q, none⟩ .quarantine i
    exact ⟨t, e, reported, receive, queue, others, pool, event, events, fault, waits, ram, descs, fronts, control⟩
  · have values : (s.readNode h).2 = (none, none) := by rw [State.readNode_uncorrectable hc hx]
    obtain ⟨t, e, reported, receive, queue, others, pool, event, events, ram, descs, fronts, control, i⟩ := k.breaks values
    obtain ⟨faults, waits⟩ := (s.tracked_readNode h).completed_two ⟨.node, .content, h.val, .fetch, p, some q, none⟩
      ⟨.node, .link, h.val, .fetch, p, some q, none⟩ .quarantine .quarantine i
    rw [State.readNode_uncorrectable hc hx] at ram
    exact ⟨t, e, reported, receive, queue, others, pool, event, events, faults, waits, ram, descs, fronts, control⟩

end Sys2Proof.Machine
end

section
/-!
SUPPORT. Drain steps (R44, R61 to R64, R69): the close that a drain ends, the record that a step leaves, and the three outcomes of the reads
of the head node; O49.
-/
namespace Sys2Proof.Machine.State
variable {s : State}

/-! ### The close that a drain ends (R64, R153) -/

theorem completeCommand_eq (s : State) (p : Port) (q : QueueNo) (a b : Nat) :
    s.completeCommand p q a b = { s with fronts := (if (s.front p).unit = .closing q then
      s.fronts.set p { s.front p with unit := .idle, result0 := .ok, result1 := .close a b } else s.fronts) } := by
  rw [completeCommand]
  split_ifs <;> rfl

theorem completeTeardown_eq (s : State) (p : Port) (q : QueueNo) : ∃ po, s.completeTeardown p q = { s with ports := po } ∧
    (∀ e, e ≠ p → po.get e = s.port e) ∧
    (∀ x, s.port p = .resetting x → x.queue = some q → po.get p = .resetting { x with reported := true }) ∧
    ((∀ x, s.port p = .resetting x → x.queue ≠ some q) → po.get p = s.port p) := by
  rw [completeTeardown]
  split
  · rename_i y hy
    split_ifs with hq
    · refine ⟨_, rfl, fun e he => Quad.get_set_ne _ he _, fun x hx _ => ?_, fun h => absurd hq (h y hy)⟩
      cases hy.symm.trans hx
      exact Quad.get_set_self _ _ _
    · refine ⟨s.ports, rfl, fun _ _ => rfl, fun x hx k => ?_, fun _ => rfl⟩
      cases hy.symm.trans hx
      exact absurd k hq
  · rename_i h
    exact ⟨s.ports, rfl, fun _ _ => rfl, fun x hx => absurd (h.symm.trans hx) nofun, fun _ => rfl⟩
  · rename_i h
    exact ⟨s.ports, rfl, fun _ _ => rfl, fun x hx => absurd (h.symm.trans hx) nofun, fun _ => rfl⟩

/-- The QUEUE_CLOSED entry that a close with `n` stranded nodes sends to the consumer `p` (R64, R69). -/
def closedEntries (q : QueueNo) (p : Port) (n : Nat) (e : Port) : List EventEntry :=
  if e = p then [⟨.queueClosed, some q.val, none, min n 255⟩] else []

/-- The close that a drain ends, in the words of the statements. -/
theorem finishClose_closes {v : State} (w : v.memoriesWf = true) (q : QueueNo) (p : Port) (c : CloseRecord) :
    let t := v.finishClose q p c
    DrainClosed v t q p c ∧ EventsSent v t (closedEntries q p c.stranded) ∧ (∀ e, e ≠ q → t.queue e = v.queue e) ∧
      t = { v with queues := t.queues, events := t.events, fronts := t.fronts, ports := t.ports } := by
  have queues := v.queue_setQueue (wf_queues w) q
  have closed := (queues q .closed).trans (if_pos rfl)
  have others : ∀ e, e ≠ q → (v.setQueue q .closed).queue e = v.queue e := fun e he => (queues e .closed).trans (if_neg he)
  have events : EventsSent v (v.closeRecord q p c.stranded) (closedEntries q p c.stranded) := fun e => by
    rw [closeRecord, sendEvent, closedEntries]
    split_ifs with he
    · subst he
      exact event_setEvent_self _ _ _
    · exact event_setEvent_ne _ he _
  have command : (if c.agent = true then (v.closeRecord q p c.stranded).completeCommand p q c.drained c.stranded
      else v.closeRecord q p c.stranded) = { v.closeRecord q p c.stranded with
        fronts := (if c.agent = true ∧ (v.front p).unit = .closing q then
          v.fronts.set p { v.front p with unit := .idle, result0 := .ok, result1 := .close c.drained c.stranded }
          else v.fronts) } := by
    by_cases ha : c.agent = true
    · rw [if_pos ha, completeCommand_eq]
      simp only [ha, true_and]
      rfl
    · rw [if_neg ha, if_neg (fun k => ha k.1)]
      rfl
  rw [finishClose]
  dsimp only
  rw [command]
  by_cases ht : c.teardown = true
  · rw [if_pos ht]
    obtain ⟨po, e, h1, h2, h3⟩ := completeTeardown_eq { v.closeRecord q p c.stranded with
        fronts := (if c.agent = true ∧ (v.front p).unit = .closing q then
          v.fronts.set p { v.front p with unit := .idle, result0 := .ok, result1 := .close c.drained c.stranded }
          else v.fronts) } c.owner q
    rw [e]
    exact ⟨⟨closed, rfl, fun k => absurd (k.symm.trans ht) (by decide), fun _ => ⟨h1, h2, h3⟩⟩, events, others, rfl⟩
  · rw [if_neg ht]
    exact ⟨⟨closed, rfl, fun _ => rfl, fun k => absurd k ht⟩, events, others, rfl⟩

/-! ### The record that a step leaves (R61, R62) -/

/-- A drain goes on with the list `lq` without its head, or closes the queue where no node is left. -/
theorem drainOn_spec {v : State} (w : v.memoriesWf = true) (q : QueueNo) {lq : LiveQueue} (hd : lq.depth ≠ 0)
    (x : NodeLink) (c : CloseRecord) :
    let t := v.drainOn q (lq.behead x) c
    (lq.depth ≠ 1 → t.queue q = .live { lq with
        phase := .draining c, head := x, tail := if x = none then none else lq.tail, depth := lq.depth - 1 } ∧
      t.fronts = v.fronts ∧ t.ports = v.ports ∧ t.events = v.events) ∧
    (lq.depth = 1 → DrainClosed v t q lq.consumer c ∧ EventsSent v t (closedEntries q lq.consumer c.stranded)) ∧
    (∀ e, e ≠ q → t.queue e = v.queue e) ∧
    t = { v with queues := t.queues, events := t.events, fronts := t.fronts, ports := t.ports } := by
  have depth : (lq.behead x).depth = lq.depth - 1 := rfl
  rw [drainOn, depth]
  by_cases h1 : lq.depth = 1
  · obtain ⟨closes, events, others, frame⟩ := finishClose_closes w q lq.consumer c
    rw [if_pos (by omega)]
    exact ⟨fun h => absurd h1 h, fun _ => ⟨closes, events⟩, others, frame⟩
  · have queues := v.queue_setQueue (wf_queues w) q
    rw [if_neg (by omega)]
    exact ⟨fun _ => ⟨(queues q _).trans (if_pos rfl), rfl, rfl, rfl⟩, fun h => absurd h h1,
      fun e he => (queues e _).trans (if_neg he), rfl⟩

/-! ### The step, as far as the reads of the head node -/

/-- Queue q drains with close record `c`, and `h` is the head node of its list. -/
structure Drains (s : State) (q : QueueNo) (lq : LiveQueue) (c : CloseRecord) (h : NodeNo) : Prop where
  running : s.exchange = .running
  wf : s.memoriesWf = true
  live : s.queue q = .live lq
  draining : lq.phase = .draining c
  depth : lq.depth ≠ 0
  head : lq.head = some h

namespace Drains
variable {q : QueueNo} {lq : LiveQueue} {c : CloseRecord} {h : NodeNo}

theorem exec_eq (k : Drains s q lq c h) :
    exec (.drainStep q) s = .next ((s.drainHead q lq c).completeRequest s.requests) := by
  show execDrainStep q s = _
  rw [execDrainStep, k.running, k.live]
  dsimp only
  rw [k.draining]
  exact if_neg k.depth

theorem drainHead_node (k : Drains s q lq c h) {d : DescNo} {x : NodeLink} (hv : (s.readNode h).2 = (some d, some x)) :
    s.drainHead q lq c = (s.readNode h).1.drainNode q lq c h d x := by
  have e : s.readNode h = ((s.readNode h).1, some d, some x) := Prod.ext rfl hv
  rw [drainHead, headNode, k.head]
  dsimp only
  rw [e]

theorem drainHead_strand (k : Drains s q lq c h) {x : NodeLink} (hv : (s.readNode h).2 = (none, some x)) :
    s.drainHead q lq c = (s.readNode h).1.drainStrand q lq c h x := by
  have e : s.readNode h = ((s.readNode h).1, none, some x) := Prod.ext rfl hv
  rw [drainHead, headNode, k.head]
  dsimp only
  rw [e]

theorem drainHead_broken (k : Drains s q lq c h) {d : Option DescNo} (hv : (s.readNode h).2 = (d, none)) :
    s.drainHead q lq c = (s.readNode h).1.drainBroken q lq c h d := by
  have e : s.readNode h = ((s.readNode h).1, d, none) := Prod.ext rfl hv
  rw [drainHead, headNode, k.head]
  dsimp only
  rw [e]
  cases d <;> rfl

end Drains

/-! ### What the reads and the reports leave of the words -/

theorem nodeLinkWord_readNode_ne (s : State) {n e : NodeNo} (he : e ≠ n) :
    (s.readNode n).1.nodeLinkWord e = s.nodeLinkWord e := by
  have link : ∀ v : State, (v.readNodeLink n).1.nodeLinkWord e = v.nodeLinkWord e := fun v => by
    rw [readNodeLink]
    split
    · rfl
    · exact Memory.get_set_ne _ _ _ fun k => he (Fin.ext k)
    · rfl
  rw [readNode_eq, link, nodeLinkWord, nodeLinks_readContent]
  rfl

theorem drainClosed_congr {v t : State} (hf : v.fronts = s.fronts) (hp : v.ports = s.ports) {q : QueueNo} {p : Port}
    {c : CloseRecord} (h : DrainClosed v t q p c) : DrainClosed s t q p c := by
  have ports : ∀ e, v.port e = s.port e := port_of_ports hp
  simp only [DrainClosed, hf, hp, ports, front_of_fronts hf] at h
  exact h

namespace Drains
variable {q : QueueNo} {lq : LiveQueue} {c : CloseRecord} {h : NodeNo}

/-- What every drain step leaves as it was, and what the reads of the head node leave. -/
structure Rest (s t : State) (q : QueueNo) (h : NodeNo) : Prop where
  queues : ∀ e, e ≠ q → t.queue e = s.queue e
  compose : t.compose = s.compose
  receive : t.receive = s.receive
  payload : t.payload = s.payload
  settings : SameSettings s t
  tracking : t.integrity.tracking = (s.readNode h).1.integrity.tracking

/-- Both words are read: the node goes back, and the holder count falls (R61). -/
theorem returns (k : Drains s q lq c h) {d : DescNo} {x : NodeLink} {m : Message}
    (hv : (s.readNode h).2 = (some d, some x)) (hl : s.desc d = .live m) (hh : 1 ≤ m.holders) :
    ∃ t, exec (.drainStep q) s = .next t ∧
      (lq.depth ≠ 1 → t.queue q = .live { lq with
          phase := .draining { c with drained := c.drained + 1 }, head := x
          tail := if x = none then none else lq.tail, depth := lq.depth - 1 } ∧
        t.fronts = s.fronts ∧ t.ports = s.ports ∧ EventsSent s t (dropEntries s t m)) ∧
      (lq.depth = 1 → DrainClosed s t q lq.consumer { c with drained := c.drained + 1 } ∧
        EventsSent s t fun e => dropEntries s t m e ++ closedEntries q lq.consumer c.stranded e) ∧
      NodeReturned s t h ∧ InjectionTaken s t (s.returnWrites m h) ∧ t.nodeContents = (s.readNode h).1.nodeContents ∧
      (m.holders ≠ 1 → KeptAs t d m m.state ∧ PoolWithNode s t h ∧ t.shares = s.shares ∧ SameCellStore s t) ∧
      (m.holders = 1 → Freed s t d m ∧ Recovered s t m ∧ SameStrandedAndMarks s t) ∧ SameOtherDescriptors s t d ∧
      t.integrity.waiting = s.integrity.waiting ∧ t.integrity.faults = s.integrity.faults ∧ Rest s t q h := by
  have words := fun e (he : e ≠ h) => s.nodeLinkWord_readNode_ne he
  have wu : (s.readNode h).1.memoriesWf = true := (Quiet.refl.readNode h).memoriesWf k.wf
  have e := k.exec_eq
  rw [k.drainHead_node hv, drainNode] at e
  obtain ⟨cs, ls, i, frame⟩ := s.readNode_frame h
  have live : (s.readNode h).1.desc d = .live m := by
    rw [frame]
    exact hl
  have rest : ∀ t, (∀ e, e ≠ q → t.queue e = s.queue e) → t.compose = s.compose → t.receive = s.receive →
      t.payload = s.payload → SameSettings s t → t.integrity.tracking = (s.readNode h).1.integrity.tracking →
      Rest s t q h := fun t h1 h2 h3 h4 h5 h6 => ⟨h1, h2, h3, h4, h5, h6⟩
  generalize (s.readNode h).1 = u at *
  have L := letGo_returnNode (n := h) live wu hh
  have wv : ((u.returnNode h).dropHolder d).memoriesWf = true := ((Quiet.refl.returnNode h).dropHolder d).memoriesWf wu
  generalize (u.returnNode h).dropHolder d = v at *
  obtain ⟨goesOn, closes, others, same⟩ := drainOn_spec wv q k.depth x { c with drained := c.drained + 1 }
  generalize v.drainOn q (lq.behead x) { c with drained := c.drained + 1 } = t at *
  rw [completeRequest_of_integrity (s := s) (((congrArg (·.integrity.waiting) same).trans
    (congrArg (·.integrity.waiting) L.frame)).trans (congrArg (·.integrity.waiting) frame))] at e
  obtain ⟨qs, es, fr, po, rfl⟩ : ∃ qs es fr po, t = { v with queues := qs, events := es, fronts := fr, ports := po } :=
    ⟨_, _, _, _, same⟩
  subst frame
  have F := L.frame
  have fronts : v.fronts = s.fronts := congrArg (·.fronts) F
  have ports : v.ports = s.ports := congrArg (·.ports) F
  have waiting : v.integrity.waiting = s.integrity.waiting := congrArg (·.integrity.waiting) F
  obtain ⟨free, tail, head, self, old, words'⟩ := L.node
  refine ⟨_, e, fun h1 => ?_, fun h1 => ?_, ⟨free, tail, head, self, old, fun e he ht => ?_⟩, L.injection,
    congrArg (·.nodeContents) F, fun hn => ?_, L.freed, L.descriptors, waiting, congrArg (·.integrity.faults) F,
    rest _ (fun e he => (others e he).trans (queue_of_queues (congrArg (·.queues) F) e)) (congrArg (·.compose) F)
      (congrArg (·.receive) F) (congrArg (·.payload) F) ⟨congrArg (·.resetAsserted) F, congrArg (·.ma) F,
        congrArg (·.exchange) F, congrArg (·.timeouts) F, congrArg (·.mint) F, congrArg (·.mgmt) F,
        congrArg (·.pending) F⟩ (congrArg (·.integrity.tracking) F)⟩
  · obtain ⟨hq, hf, hp, he⟩ := goesOn h1
    exact ⟨hq, hf.trans fronts, hp.trans ports, fun r => (event_of_events he r).trans (L.events r)⟩
  · obtain ⟨hc, he⟩ := closes h1
    exact ⟨drainClosed_congr fronts ports hc, eventsSent_trans L.events he⟩
  · exact (words' e he ht).trans (words e he)
  · obtain ⟨kept, pool, cells, shares, -⟩ := L.kept hn
    exact ⟨kept, pool, shares, cells⟩

/-- The content word alone is uncorrectable: the node is stranded, and the drain goes on (R62). -/
theorem strands (k : Drains s q lq c h) {x : NodeLink} (hv : (s.readNode h).2 = (none, some x)) :
    ∃ t, exec (.drainStep q) s = .next t ∧
      (lq.depth ≠ 1 → t.queue q = .live { lq with
          phase := .draining { c with stranded := c.stranded + 1 }, head := x
          tail := if x = none then none else lq.tail, depth := lq.depth - 1 } ∧
        t.fronts = s.fronts ∧ t.ports = s.ports ∧ t.events = s.events) ∧
      (lq.depth = 1 → DrainClosed s t q lq.consumer { c with stranded := c.stranded + 1 } ∧
        EventsSent s t (closedEntries q lq.consumer (c.stranded + 1))) ∧
      t.pool = { s.pool with strandedNodes := s.pool.strandedNodes + 1 } ∧ t.descriptors = s.descriptors ∧
      t.shares = s.shares ∧ SameCellStore s t ∧ SameNodeRam (s.readNode h).1 t ∧ SameInjection s t ∧ Rest s t q h ∧
      t.integrity =
        (((s.readNode h).1.reportContent h .drain c.owner q .strand).completeRequest s.requests).integrity := by
  have wu : (s.readNode h).1.memoriesWf = true := (Quiet.refl.readNode h).memoriesWf k.wf
  have e := k.exec_eq
  rw [k.drainHead_strand hv, drainStrand] at e
  have monitor : (((s.readNode h).1.strandNodes 1).reportContent h .drain c.owner q .strand).integrity =
      ((s.readNode h).1.reportContent h .drain c.owner q .strand).integrity := integrity_report_congr rfl _ _
  have tracking : (((s.readNode h).1.strandNodes 1).reportContent h .drain c.owner q .strand).integrity.tracking =
      (s.readNode h).1.integrity.tracking := rfl
  have wv : (((s.readNode h).1.strandNodes 1).reportContent h .drain c.owner q .strand).memoriesWf = true :=
    ((Quiet.refl.strandNodes 1).report _ _).memoriesWf wu
  obtain ⟨j, reported⟩ := ((s.readNode h).1.strandNodes 1).reportContent_footprint h .drain c.owner q .strand
  generalize ((s.readNode h).1.strandNodes 1).reportContent h .drain c.owner q .strand = v at *
  generalize (s.readNode h).1.reportContent h .drain c.owner q .strand = v' at *
  obtain ⟨goesOn, closes, others, same⟩ := drainOn_spec wv q k.depth x { c with stranded := c.stranded + 1 }
  generalize v.drainOn q (lq.behead x) { c with stranded := c.stranded + 1 } = t at *
  obtain ⟨cs, ls, i, frame⟩ := s.readNode_frame h
  rw [frame] at reported
  rw [frame]
  obtain ⟨qs, es, fr, po, rfl⟩ : ∃ qs es fr po, t = { v with queues := qs, events := es, fronts := fr, ports := po } :=
    ⟨_, _, _, _, same⟩
  subst reported
  refine ⟨_, e, fun h1 => goesOn h1, fun h1 => closes h1, rfl, rfl, rfl, ⟨rfl, rfl⟩, ⟨rfl, rfl⟩, ⟨rfl, rfl⟩,
    ⟨others, rfl, rfl, rfl, ⟨rfl, rfl, rfl, rfl, rfl, rfl, rfl⟩, tracking⟩,
    congrArg (·.complete s.requests) monitor⟩

/-- The link word is uncorrectable: the queue is quarantined and closed with its depth stranded (R63). -/
theorem breaks (k : Drains s q lq c h) {d : Option DescNo} (hv : (s.readNode h).2 = (d, none)) :
    ∃ t, exec (.drainStep q) s = .next t ∧
      DrainClosed s t q lq.consumer { c with stranded := c.stranded + lq.depth } ∧
      EventsSent s t (fun e => if e = lq.consumer then
        [⟨.queueQuarantined, some q.val, none, min lq.depth 255⟩,
          ⟨.queueClosed, some q.val, none, min (c.stranded + lq.depth) 255⟩] else []) ∧
      t.pool = { s.pool with strandedNodes := s.pool.strandedNodes + lq.depth } ∧ t.descriptors = s.descriptors ∧
      t.shares = s.shares ∧ SameCellStore s t ∧ SameNodeRam (s.readNode h).1 t ∧ SameInjection s t ∧ Rest s t q h ∧
      t.integrity = (((s.readNode h).1.reportBroken h d .drain c.owner q).completeRequest s.requests).integrity := by
  have wu : (s.readNode h).1.memoriesWf = true := (Quiet.refl.readNode h).memoriesWf k.wf
  have e := k.exec_eq
  rw [k.drainHead_broken hv, drainBroken] at e
  have tracking : ((s.readNode h).1.reportBroken h d .drain c.owner q).integrity.tracking =
      (s.readNode h).1.integrity.tracking := by cases d <;> rfl
  obtain ⟨j, reported⟩ := (s.readNode h).1.reportBroken_footprint h d .drain c.owner q
  have wr : ((s.readNode h).1.reportBroken h d .drain c.owner q).memoriesWf = true :=
    (Quiet.refl.reportBroken h d .drain c.owner q).memoriesWf wu
  generalize (s.readNode h).1.reportBroken h d .drain c.owner q = v at *
  have wv : ((v.quarantine q lq).strandNodes lq.depth).memoriesWf = true :=
    ((Quiet.refl.quarantine q lq).strandNodes lq.depth).memoriesWf wr
  have entry := event_quarantine v q lq
  have queue : ∀ e, e ≠ q → (v.quarantine q lq).queue e = v.queue e := fun e he => queue_setQueue_ne v he _
  obtain ⟨closes, events, others, same⟩ :=
    finishClose_closes wv q lq.consumer { c with stranded := c.stranded + lq.depth }
  generalize ((v.quarantine q lq).strandNodes lq.depth).finishClose q lq.consumer
    { c with stranded := c.stranded + lq.depth } = t at *
  have sent : EventsSent v t fun e => if e = lq.consumer then
      [⟨.queueQuarantined, some q.val, none, min lq.depth 255⟩,
        ⟨.queueClosed, some q.val, none, min (c.stranded + lq.depth) 255⟩] else [] := fun r => by
    have first : ((v.quarantine q lq).strandNodes lq.depth).event r = _ := entry r
    rw [events r, first, closedEntries]
    dsimp only
    split_ifs <;> rfl
  obtain ⟨cs, ls, i, frame⟩ := s.readNode_frame h
  rw [frame] at reported
  rw [frame]
  obtain ⟨qs, es, fr, po, rfl⟩ : ∃ qs es fr po, t = { (v.quarantine q lq).strandNodes lq.depth with
      queues := qs, events := es, fronts := fr, ports := po } := ⟨_, _, _, _, same⟩
  subst reported
  exact ⟨_, e, closes, sent, rfl, rfl, rfl, ⟨rfl, rfl⟩, ⟨rfl, rfl⟩, ⟨rfl, rfl⟩,
    ⟨fun e he => (others e he).trans (queue e he), rfl, rfl, rfl, ⟨rfl, rfl, rfl, rfl, rfl, rfl, rfl⟩, tracking⟩, rfl⟩

end Drains

/-- Settles O49: a step that is not due, and the three outcomes of the reads of the head node. -/
theorem drainStepsRemoveNodes : Obligations.DrainStepsRemoveNodes := by
  refine fun q s => ⟨fun hs => ?_, ?_⟩
  · show execDrainStep q s = _
    rw [execDrainStep]
    split
    · rename_i lq hx hl
      rcases hs with hs | hs
      · exact absurd hx hs
      · split
        · rename_i c hc
          exact absurd hc (hs lq hl c)
        · rfl
        · rfl
    · rfl
  · intro lq c h hx w hl hp hd hh queueClosed content link others
    have k : Drains s q lq c h := ⟨hx, w, hl, hp, hd, hh⟩
    have restOthers : ∀ {t}, Drains.Rest s t q h → others t := fun r =>
      ⟨r.queues, r.compose, r.receive, r.payload, r.settings, r.tracking⟩
    refine ⟨fun d x m hc hx hm hn => ?_, fun x hc hx => ?_, fun hx => ?_⟩
    · have values : (s.readNode h).2 = (some d, some x) := by
        rw [readNode_eq, readContent_value hc, readNodeLink_value hx]
      obtain ⟨t, e, on, off, node, injection, contents, kept, freed, descs, waiting, faults, rest⟩ := k.returns values hm hn
      exact ⟨t, e, on, off, node, injection, contents, kept, freed, descs, waiting, faults, restOthers rest⟩
    · have values : (s.readNode h).2 = (none, some x) := by
        rw [readNode_eq, readContent_of_uncorrectable hc, readNodeLink_value hx]
      obtain ⟨t, e, on, off, pool, descs, shares, cells, ram, injection, rest, i⟩ := k.strands values
      obtain ⟨fault, waits⟩ :=
        (s.tracked_readNode h).completed ⟨.node, .content, h.val, .drain, c.owner, some q, none⟩ .strand i
      exact ⟨t, e, on, off, pool, descs, shares, cells, ram, fault, waits, injection, restOthers rest⟩
    · have values : (s.readNode h).2 = ((s.readContent h).2, none) := by
        rw [readNode_eq, readNodeLink_of_uncorrectable hx]
      obtain ⟨t, e, closed, events, pool, descs, shares, cells, ram, injection, rest, i⟩ := k.breaks values
      refine ⟨t, e, closed, events, pool, descs, shares, cells, ram, injection, restOthers rest, fun d hc => ?_, fun hc => ?_⟩
      · rw [readContent_value hc] at i
        exact (s.tracked_readNode h).completed ⟨.node, .link, h.val, .drain, c.owner, some q, none⟩ .quarantine i
      · rw [readContent_of_uncorrectable hc] at i
        exact (s.tracked_readNode h).completed_two ⟨.node, .content, h.val, .drain, c.owner, some q, none⟩
          ⟨.node, .link, h.val, .drain, c.owner, some q, none⟩ .quarantine .quarantine i

end Sys2Proof.Machine.State
end

section
/-!
SUPPORT. The management commands of the Integrity Monitor (R15, R132, R138, R140, R176 to R179): a command word taken or refused by its
owner, and the owners; O46.
-/
namespace Sys2Proof.Machine
variable {s : State}

/-! ### The command word (R172, R176) -/

theorem State.commandBytes_owned (h : s.MgmtReady) {k : MgmtCommand} {code : BitVec 8} (hk : decodeMgmtCommand code = some k)
    (f : MgmtFields) : s.commandBytes none ⟨code, f⟩ =
      (State.mgmtOwned (MgmtCommand.owner k f (s.threeBytes (MgmtWord.toWord ⟨code, f⟩))) ⟨code, f⟩).mgmtAdvance := by
  rw [commandBytes_ready h, State.mgmtCommand, if_neg (by rw [threeBytes, State.setMgmt_mgmt, h.2.2]; decide), hk]

/-- An owner has carried the command out: the registers of the management port (R176). -/
theorem State.mgmtOwned_taken {u : State} (h : u.mgmt.pointer = 0xF4) (w : Word) (c : MgmtWord) (d : Option (BitVec 16)) :
    (State.mgmtOwned { state := u.threeBytes w, result := .ok, detail := d } c).mgmtAdvance = u.mgmtTaken c .ok d := by
  have e : (0xF5 : BitVec 8) = u.mgmt.pointer + 1 := by
    rw [h]
    rfl
  rw [State.mgmtTaken, e]
  rfl

/-- An owner has refused the command (R177). -/
theorem State.mgmtOwned_refused {u : State} (h : u.mgmt.pointer = 0xF4) (w : Word) (c : MgmtWord) {r : ResultCode}
    (hr : r = .refusedParam ∨ r = .refusedState) :
    (State.mgmtOwned { state := u.threeBytes w, result := r } c).mgmtAdvance = u.mgmtRefused c r := by
  have e : (0xF5 : BitVec 8) = u.mgmt.pointer + 1 := by
    rw [h]
    rfl
  rw [State.mgmtRefused, e]
  rcases hr with rfl | rfl <;> rfl

/-! ### Operands (11.6) -/

theorem decodeClass_none {n : Nat} (h : 4 < n) : decodeClass n = none := by
  match n with
  | n + 5 => rfl

theorem decodeEscalation_none {n : Nat} (h : 2 < n) : decodeEscalation n = none := by
  match n with
  | n + 3 => rfl

theorem decodeTarget_none {n : Nat} (h : 2 < n) : decodeTarget n = none := by
  match n with
  | n + 3 => rfl

theorem decodeKind_none {n : Nat} (h : 1 < n) : decodeKind n = none := by
  match n with
  | n + 2 => rfl

/-! ### The policy table (R131, R132) -/

theorem Policy.of_put (t : Policy) (c o : FaultClass) (e : Escalation) :
    (t.put c e).of o = if o = c then e else t.of o := by
  cases c <;> cases o <;> rfl

theorem setPolicyOwner_refused (f : MgmtFields) (h : 4 < f.a.toNat ∨ 2 < f.b.toNat) :
    setPolicyOwner f s = { state := s, result := .refusedParam } := by
  rw [setPolicyOwner]
  rcases h with h | h
  · rw [decodeClass_none h]
  · rw [decodeEscalation_none h]
    cases decodeClass f.a.toNat <;> rfl

theorem setPolicyOwner_taken {f : MgmtFields} {c : FaultClass} {e : Escalation} (hc : decodeClass f.a.toNat = some c)
    (he : decodeEscalation f.b.toNat = some e) :
    setPolicyOwner f s = { state := s.setIntegrity (s.integrity.setPolicy c e), result := .ok } := by
  rw [setPolicyOwner, hc, he]

theorem Integrity.setPolicy_eq (i : Integrity) (c : FaultClass) (e : Escalation) : i.setPolicy c e = { i with
    policy := i.policy.put c e
    waiting := i.waiting.flatMap (requestUnder (i.policy.put c e))
    faults := shownIn i.faults (i.waiting.flatMap (passingUnder (i.policy.put c e))) .none } := by
  rw [Integrity.setPolicy, passRequests_eq]

/-! ### The fault list (R138) and the injection arm (R15) -/

/-- A waiting report after the oldest record has gone. -/
theorem Waiting.acknowledge_eq (w : Waiting) :
    w.acknowledge = { w with record := w.record.bind fun k => if k = 0 then none else some (k - 1) } := by
  obtain ⟨c, p, r⟩ := w
  match r with
  | none | some 0 | some (k + 1) => rfl

theorem injectOwner_refused (f : MgmtFields) (h : 2 < f.a.toNat ∨ 1 < f.b.toNat) :
    injectOwner f s = { state := s, result := .refusedParam } := by
  rw [injectOwner]
  rcases h with h | h
  · rw [decodeTarget_none h]
  · rw [decodeKind_none h]
    cases decodeTarget f.a.toNat <;> rfl

/-! ### The four commands -/

theorem exec_setPolicy (hs : s.MgmtReady) {f : MgmtFields} {c : FaultClass} {e : Escalation}
    (hc : decodeClass f.a.toNat = some c) (he : decodeEscalation f.b.toNat = some e) :
    exec (.setPolicy none f) s =
      .next ((s.setIntegrity (s.integrity.setPolicy c e)).mgmtTaken ⟨0x20, f⟩ .ok none) := by
  have owner : ∀ w, setPolicyOwner f (s.threeBytes w) =
      { state := (s.setIntegrity (s.integrity.setPolicy c e)).threeBytes w, result := .ok } := fun w => by
    rw [setPolicyOwner_taken hc he]
    rfl
  refine congrArg Host.Outcome.next ((s.commandBytes_owned hs (k := .setPolicy) rfl f).trans ?_)
  rw [MgmtCommand.owner, owner]
  exact State.mgmtOwned_taken (by exact hs.2.1) _ _ _

theorem exec_ackFault (hs : s.MgmtReady) (f : MgmtFields) {x : FaultRecord} {xs : List FaultRecord}
    (h : s.integrity.faults = x :: xs) :
    exec (.ackFault none f) s = .next ((s.setIntegrity { s.integrity with
      faults := xs, full := s.integrity.full && !xs.isEmpty
      waiting := s.integrity.waiting.map fun g => { g with reports := g.reports.map (·.acknowledge) } }).mgmtTaken
        ⟨0x21, f⟩ .ok (some (x.sequence.setWidth 16))) := by
  have owner : ∀ w, ackFaultOwner (s.threeBytes w) = { state := (s.setIntegrity { s.integrity with
      faults := xs, full := s.integrity.full && !xs.isEmpty
      waiting := s.integrity.waiting.map fun g => { g with reports := g.reports.map (·.acknowledge) } }).threeBytes w
                                                       result := .ok
                                                       detail := some (x.sequence.setWidth 16) } := fun w => by
    rw [ackFaultOwner, State.threeBytes, State.setMgmt_integrity, h]
    rfl
  refine congrArg Host.Outcome.next ((s.commandBytes_owned hs (k := .ackFault) rfl f).trans ?_)
  rw [MgmtCommand.owner, owner]
  exact State.mgmtOwned_taken (by exact hs.2.1) _ _ _

theorem exec_clearCounters (hs : s.MgmtReady) (f : MgmtFields) :
    exec (.clearCounters none f) s = .next (State.mgmtTaken { s with
      integrity := { s.integrity with tracking := .all ⟨0, false⟩ }
      shares := s.shares.map fun h => { h with refused := 0 } } ⟨0x22, f⟩ .ok none) := by
  have owner : ∀ w, clearCountersOwner (s.threeBytes w) = { state := State.threeBytes { s with
      integrity := { s.integrity with tracking := .all ⟨0, false⟩ }
      shares := s.shares.map fun h => { h with refused := 0 } } w, result := .ok } := fun _ => rfl
  refine congrArg Host.Outcome.next ((s.commandBytes_owned hs (k := .clearCounters) rfl f).trans ?_)
  rw [MgmtCommand.owner, owner]
  exact State.mgmtOwned_taken (by exact hs.2.1) _ _ _

theorem exec_inject (hs : s.MgmtReady) {f : MgmtFields} {t : InjectTarget} {k : InjectKind}
    (ht : decodeTarget f.a.toNat = some t) (hk : decodeKind f.b.toNat = some k) :
    exec (.inject none f) s = .next (State.mgmtTaken { s with arm := some ⟨t, k⟩ } ⟨0x23, f⟩ .ok none) := by
  have owner : ∀ w, injectOwner f (s.threeBytes w) =
      { state := State.threeBytes { s with arm := some ⟨t, k⟩ } w, result := .ok } := fun w => by
    rw [injectOwner, ht, hk]
    rfl
  refine congrArg Host.Outcome.next ((s.commandBytes_owned hs (k := .inject) rfl f).trans ?_)
  rw [MgmtCommand.owner, owner]
  exact State.mgmtOwned_taken (by exact hs.2.1) _ _ _

theorem exec_setPolicy_refused (hs : s.MgmtReady) (f : MgmtFields) (h : 4 < f.a.toNat ∨ 2 < f.b.toNat) :
    exec (.setPolicy none f) s = .next (s.mgmtRefused ⟨0x20, f⟩ .refusedParam) := by
  refine congrArg Host.Outcome.next ((s.commandBytes_owned hs (k := .setPolicy) rfl f).trans ?_)
  rw [MgmtCommand.owner, setPolicyOwner_refused f h]
  exact State.mgmtOwned_refused hs.2.1 _ _ (.inl rfl)

theorem exec_ackFault_refused (hs : s.MgmtReady) (f : MgmtFields) (h : s.integrity.faults = []) :
    exec (.ackFault none f) s = .next (s.mgmtRefused ⟨0x21, f⟩ .refusedState) := by
  have owner : ∀ w, ackFaultOwner (s.threeBytes w) = { state := s.threeBytes w, result := .refusedState } := fun w => by
    rw [ackFaultOwner, State.threeBytes, State.setMgmt_integrity, h]
  refine congrArg Host.Outcome.next ((s.commandBytes_owned hs (k := .ackFault) rfl f).trans ?_)
  rw [MgmtCommand.owner, owner]
  exact State.mgmtOwned_refused hs.2.1 _ _ (.inr rfl)

theorem exec_inject_refused (hs : s.MgmtReady) (f : MgmtFields) (h : 2 < f.a.toNat ∨ 1 < f.b.toNat) :
    exec (.inject none f) s = .next (s.mgmtRefused ⟨0x23, f⟩ .refusedParam) := by
  refine congrArg Host.Outcome.next ((s.commandBytes_owned hs (k := .inject) rfl f).trans ?_)
  rw [MgmtCommand.owner, injectOwner_refused f h]
  exact State.mgmtOwned_refused hs.2.1 _ _ (.inl rfl)

/-- Settles O46, one command after the other. -/
theorem integrityCommandsTakeEffect : Obligations.IntegrityCommandsTakeEffect := by
  intro f s hs
  refine ⟨exec_setPolicy_refused hs f, fun c e hc he => ?_, exec_ackFault_refused hs f, fun x xs h => ?_, ?_,
    exec_inject_refused hs f, fun t k ht hk => ?_⟩
  · have h1 : decodeClass f.a.toNat = some c := by rw [hc]; cases c <;> rfl
    have h2 : decodeEscalation f.b.toNat = some e := by rw [he]; cases e <;> rfl
    refine ⟨s.integrity.policy.put c e, ?_, ?_, fun o ho => ?_⟩
    · rw [exec_setPolicy hs h1 h2, Integrity.setPolicy_eq]
      rfl
    · rw [Policy.of_put, if_pos rfl]
    · rw [Policy.of_put, if_neg ho]
  · intro moved
    have full : (s.integrity.full && !xs.isEmpty) = if xs = [] then false else s.integrity.full := by
      cases xs
      · exact Bool.and_false _
      · exact Bool.and_true _
    have same : moved = Waiting.acknowledge := funext fun w => (Waiting.acknowledge_eq w).symm
    rw [exec_ackFault hs f h, full, BitVec.ofNat_toNat, same]
    rfl
  · exact ⟨_, exec_clearCounters hs f, fun p => Quad.get_map _ _ _⟩
  · have h1 : decodeTarget f.a.toNat = some t := by rw [ht]; cases t <;> rfl
    have h2 : decodeKind f.b.toNat = some k := by rw [hk]; cases k <;> rfl
    exact exec_inject hs h1 h2

end Sys2Proof.Machine
end

section
/-!
SUPPORT. A data write whose grant is made (R16, R25, R27, R37, R80, R81): the take, the grant, the link and the word, each with the records that
it leaves; O28.
-/
namespace Sys2Proof.Machine.State
variable {s : State}

/-! ### The take of the head cell (R25, R27) -/

/-- A take writes the cell free list and the stranded count of the pool. -/
theorem takeHeadCell_pool (s : State) (p : Port) (h : CellNo) : ∃ a b n k, (s.takeHeadCell p h).pool =
    { s.pool with cellHead := a, cellTail := b, freeCells := n, strandedCells := k } := by
  obtain ⟨_, _, e⟩ := s.readCellLink_footprint h
  have pool : (s.readCellLink h).1.pool = s.pool := by rw [e]
  rw [takeHeadCell]
  split
  · rename_i u v hu
    have : u.pool = s.pool := by rw [← pool, hu]
    exact ⟨_, _, _, s.pool.strandedCells, by rw [setPool_pool, this]⟩
  · rename_i u hu
    have : u.pool = s.pool := by rw [← pool, hu]
    exact ⟨none, none, 0, s.pool.strandedCells + (s.pool.freeCells - 1), by rw [← this]; rfl⟩

/-- The reports of a take (R27). -/
theorem reports_takeHeadCell (w : s.memoriesWf = true) (p : Port) (h : CellNo) :
    Reports s (s.takeHeadCell p h) (s.grantReports p h) := by
  have read : ∀ x, ((s.cellLinkWord h).check = .clean x ∨ (s.cellLinkWord h).check = .corrected x) →
      Reports s (s.takeHeadCell p h) [] := fun x k => by
    have e := (takeHeadCell_reads w p h x k).1
    exact Reports.start (congrArg (·.integrity.waiting) e) (congrArg (·.integrity.policy) e)
      (congrArg (·.integrity.faults) e)
  cases k : (s.cellLinkWord h).check with
  | clean x =>
    rw [grantReports, k]
    exact read x (.inl k)
  | corrected x =>
    rw [grantReports, k]
    exact read x (.inr k)
  | uncorrectable =>
    rw [grantReports, if_pos k, takeHeadCell_truncates p h k]
    exact Reports.report (u := s.setPool _) (Reports.start (by rfl) (by rfl) (by rfl)) _ _

/-! ### The grant (R25, R37) -/

/-- The records that a grant writes. -/
theorem grantCell_frame (s : State) (p : Port) (d : DescNo) (h : CellNo) : ∃ l pl a i ds ev, s.grantCell p d h = { s with
    cellLinks := l, integrity := (s.takeHeadCell p h).integrity, pool := pl, arm := a, lastInjection := i
    shares := s.shares.set p { s.share p with charged := (s.share p).charged + 1, starving := false }
    descriptors := ds, events := ev } := by
  obtain ⟨ds, e1⟩ := s.grantedOf_footprint p d h
  obtain ⟨l, a, i, e2⟩ := (s.takeHeadCell p h).writeCellLink_footprint h none
  obtain ⟨l', j, pl, e3⟩ := s.takeHeadCell_footprint p h
  obtain ⟨pl', ev, e4⟩ := (s.grantedOf p d h).lowWaterEvaluation_footprint
  refine ⟨l, pl', a, i, ds, ev, ?_⟩
  rw [grantCell_eq, e4, e1, e2, e3]

/-- The entries of the low-water evaluation (R37). -/
theorem event_lowWaterEvaluation (s : State) (q : Port) : s.lowWaterEvaluation.event q =
    (if s.pool.lowWater = .armed ∧ s.pool.freeCells < s.pool.lowMark then
      [s.poolEntry .poolLow none] else []).foldl EventPort.arrive (s.event q) := by
  rw [lowWaterEvaluation]
  split_ifs
  · exact event_sendAll _ _ _
  · rfl

theorem event_grantCell (s : State) (p : Port) (d : DescNo) (h : CellNo) (q : Port) : (s.grantCell p d h).event q =
    (if s.pool.lowWater = .armed ∧ (s.grantCell p d h).pool.freeCells < s.pool.lowMark then
      [⟨.poolLow, none, none, min (s.grantCell p d h).pool.freeCells 255⟩] else []).foldl EventPort.arrive (s.event q) := by
  obtain ⟨ds, e1⟩ := s.grantedOf_footprint p d h
  obtain ⟨l, a, i, e2⟩ := (s.takeHeadCell p h).writeCellLink_footprint h none
  obtain ⟨l', j, pl, e3⟩ := s.takeHeadCell_footprint p h
  obtain ⟨_, _, _, _, take⟩ := s.takeHeadCell_pool p h
  have pool : (s.grantedOf p d h).pool = (s.takeHeadCell p h).pool := by rw [e1, e2]
  have event : (s.grantedOf p d h).event q = s.event q := event_of_events (by rw [e1, e2, e3]) q
  have free : (s.grantCell p d h).pool.freeCells = (s.takeHeadCell p h).pool.freeCells := by rw [grantCell_pool]
  rw [free, grantCell_eq, event_lowWaterEvaluation, poolEntry, event, pool, take]
  rfl

/-! ### The link into the chain, and the slot (R81 step 1) -/

/-- The state of a grant step: the chain link is one more cell link word. -/
theorem grantStep_frame (w : s.memoriesWf = true) (p : Port) (c : ComposeNo) (k : Composing) (h : CellNo) :
    ∃ l, grantStep s p c k h = ({ s.grantCell p k.desc h with cellLinks := l }).setComposeSlot p c
      { s.composeSlot p c with phase := .filling { k with cell := some h }, starved := false } := by
  obtain ⟨⟨l, e⟩, -⟩ := chainedOf_spec w p k h
  obtain ⟨_, _, _, _, _, _, g⟩ := s.grantCell_frame p k.desc h
  have slot : (s.chainedOf p k h).composeSlot p c = s.composeSlot p c := by
    rw [e, g]
    rfl
  exact ⟨l, by rw [grantStep_eq, slot, e]⟩

/-! ### The word (R81 steps 2 to 5) -/

theorem payloadWord_writePayload (w : s.memoriesWf = true) (c e : CellNo) (pos i : Fin 16) (v : Word) :
    (s.writePayload c pos v).payloadWord e i =
      if (e, i) = (c, pos) then ⟨v, injected s .payload⟩ else s.payloadWord e i := by
  obtain ⟨x, y, k⟩ := s.takeArm_footprint .payload (bankOf c) (.payload pos) c.val
  rw [← armBits_eq_injected, writePayload, k]
  exact payloadWord_putPayload _ (wf_payload (s := s) w) c e pos i _

/-- A word that does not complete the declared length is stored, and no seal follows. -/
theorem storeWord_eq (w : s.memoriesWf = true) {p : Port} {c : ComposeNo} {k : Composing} {m : Message} {cell : CellNo}
    (hd : s.desc k.desc = .live m) (hk : k.cell = some cell) (hn : ∀ n, m.declared = some n → m.written + 4 < n)
    (data : Word) :
    storeWord s p c k data =
      ((((s.writePayload cell (Fin.ofNat 16 (m.written % 64 / 4)) data).setDesc k.desc
        (.live { m with written := m.written + 4 })).setComposeSlot p c
          { s.composeSlot p c with phase := .filling { k with timer := 0, due := false } }).answer p .okayWrite) := by
  obtain ⟨l, a, i, e⟩ := s.writePayload_footprint cell (Fin.ofNat 16 (m.written % 64 / 4)) data
  have live : (s.writePayload cell (Fin.ofNat 16 (m.written % 64 / 4)) data).desc k.desc = .live m := by
    rw [e]
    exact hd
  have wf := wf_descriptors ((Quiet.refl.writePayload cell (Fin.ofNat 16 (m.written % 64 / 4)) data).memoriesWf w)
  have slot : ((s.writePayload cell (Fin.ofNat 16 (m.written % 64 / 4)) data).setDesc k.desc
      (.live { m with written := m.written + 4 })).composeSlot p c = s.composeSlot p c := by
    rw [e]
    rfl
  rw [storeWord, messageOf_of_live hd, hk]
  dsimp only
  rw [updMessage_of_live live, slot]
  have after := (desc_setDesc _ wf k.desc k.desc (.live { m with written := m.written + 4 })).trans (if_pos rfl)
  generalize (s.writePayload cell (Fin.ofNat 16 (m.written % 64 / 4)) data).setDesc k.desc
    (.live { m with written := m.written + 4 }) = v at after ⊢
  rw [autoSeal, messageOf_of_live (s := v.setComposeSlot p c _) after]
  dsimp only
  cases hm : m.declared with
  | none => rfl
  | some n =>
    dsimp only
    rw [if_neg (by have := hn n hm; omega)]

/-! ### The granted write (R80, R81) -/

theorem exec_composeApertureWrite {p : Port} (hs : s.Serves p) (c : ComposeNo) (word : BitVec 8) (data : Word) :
    exec (.composeApertureWrite p c word data) s = .next (dataWrite p c (composeAddress c word) data s) :=
  congrArg Host.Outcome.next (acting_serves hs _ _)

theorem dataWrite_granted {p : Port} {c : ComposeNo} {k : Composing} {m : Message} {h : CellNo} (a : BitVec 16)
    (data : Word) (hf : (s.composeSlot p c).phase = .filling k) (hd : s.desc k.desc = .live m) (hw : m.written < 16384)
    (h64 : m.written % 64 = 0) (hh : s.pool.cellHead = some h) (hq : s.quotaGrants p = true) :
    dataWrite p c a data s = grantedWrite s p c k h data := by
  rw [dataWrite, hf]
  dsimp only
  rw [messageOf_of_live hd, if_neg (by rw [show Config.maxLength = 16384 from rfl]; omega), if_pos h64, hh, hq]

/-- What a granted write stores, before its request completes: the grant step and the word. -/
theorem grantedWrite_eq (w : s.memoriesWf = true) {p : Port} {c : ComposeNo} {k : Composing} {m : Message} {h : CellNo}
    (data : Word) (hd : s.desc k.desc = .live m) (h64 : m.written % 64 = 0)
    (hn : ∀ n, m.declared = some n → m.written + 4 < n) :
    grantedWrite s p c k h data =
      (((((grantStep s p c k h).writePayload h 0 data).setDesc k.desc
        (.live { m.addCell h with written := m.written + 4 })).setComposeSlot p c
          ⟨.filling ⟨k.desc, some h, 0, false⟩, false, (s.composeSlot p c).lengthError⟩).answer p .okayWrite).completeRequest
            s.requests := by
  have wf : (grantStep s p c k h).memoriesWf = true := (Quiet.refl.grantStep p c k h).memoriesWf w
  obtain ⟨l, e⟩ := grantStep_frame w p c k h
  have live : (grantStep s p c k h).desc k.desc = .live (m.addCell h) := by
    rw [e]
    exact (grantCell_desc w p k.desc h).1 m hd
  have slot : (grantStep s p c k h).composeSlot p c =
      { s.composeSlot p c with phase := .filling { k with cell := some h }, starved := false } := by
    rw [e]
    exact composeSlot_setComposeSlot_self _ _ _ _
  rw [grantedWrite, storeWord_eq (k := { k with cell := some h }) wf live rfl hn, slot]
  have position : (m.addCell h).written % 64 / 4 = 0 := by
    show m.written % 64 / 4 = 0
    rw [h64]
  rw [position]
  rfl

/-- The pool that a granted write leaves. -/
theorem pool_grantCell (w : s.memoriesWf = true) (p : Port) (d : DescNo) (h : CellNo) :
    let t := s.grantCell p d h
    (∀ x, ((s.cellLinkWord h).check = .clean x ∨ (s.cellLinkWord h).check = .corrected x) →
      t.pool.cellHead = x ∧ t.pool.cellTail = (if x = none then none else s.pool.cellTail) ∧
      t.pool.freeCells = s.pool.freeCells - 1 ∧ t.pool.strandedCells = s.pool.strandedCells) ∧
    ((s.cellLinkWord h).check = .uncorrectable →
      t.pool.cellHead = none ∧ t.pool.cellTail = none ∧ t.pool.freeCells = 0 ∧
      t.pool.strandedCells = s.pool.strandedCells + (s.pool.freeCells - 1)) ∧
    t.pool.lowWater =
      (if s.pool.lowWater = .armed ∧ t.pool.freeCells < s.pool.lowMark then .tripped else s.pool.lowWater) ∧
    t.pool.fifo = s.pool.fifo ∧ SameNodeList s t := by
  intro t
  have e : t.pool = _ := s.grantCell_pool p d h
  obtain ⟨_, _, _, _, take⟩ := s.takeHeadCell_pool p h
  refine ⟨fun x k => ?_, fun k => ?_, ?_, ?_, ?_⟩
  · have r := congrArg (·.pool) (takeHeadCell_reads w p h x k).1
    dsimp only at r
    rw [e, r]
    exact ⟨rfl, rfl, rfl, rfl⟩
  · rw [e, takeHeadCell_truncates p h k]
    exact ⟨rfl, rfl, rfl, rfl⟩
  · rw [e, take]
  · rw [e, take]
  · rw [SameNodeList, e, take]
    exact ⟨rfl, rfl, rfl, rfl, rfl, rfl⟩

/-- The fault list and the report of a grant (R27). -/
theorem faults_grantCell (w : s.memoriesWf = true) (p : Port) (d : DescNo) (h : CellNo) :
    Reports s (s.grantCell p d h) (s.grantReports p h) ∧
    (∀ x, ((s.cellLinkWord h).check = .clean x ∨ (s.cellLinkWord h).check = .corrected x) →
      (s.grantCell p d h).integrity.faults = s.integrity.faults) ∧
    ((s.cellLinkWord h).check = .uncorrectable →
      ReportedFault s (s.grantCell p d h) (s.recordOf .freeLink .cellLink h.val p none none none .truncate)) := by
  have same : (s.grantCell p d h).integrity = (s.takeHeadCell p h).integrity := by
    obtain ⟨_, _, _, _, _, _, g⟩ := s.grantCell_frame p d h
    rw [g]
  refine ⟨(reports_takeHeadCell w p h).congr same, fun x k => ?_, fun k => ?_⟩
  · rw [same]
    exact congrArg (·.integrity.faults) (takeHeadCell_reads w p h x k).1
  · refine (reportedFault_report (s.setPool _) ⟨.cellLink, .link, h.val, .headRead, p, none, none⟩ .truncate).congr
      ⟨rfl, rfl, rfl⟩ ?_
    rw [same, takeHeadCell_truncates p h k]
    exact ⟨rfl, rfl, rfl⟩

/-- The first writes of a granted write: the cell's link word and its payload word (R16). -/
theorem grantStep_writePayload_taken (w : s.memoriesWf = true) (p : Port) (c : ComposeNo) (k : Composing) (h : CellNo)
    (data : Word) : InjectionTaken s ((grantStep s p c k h).writePayload h 0 data) (fun
      | .payload => some (if h.val % 2 = 0 then .payloadBank0 else .payloadBank1, .payload 0, h.val)
      | .cellLink => some (.cellLink, .link, h.val)
      | .node => none) := by
  obtain ⟨l, e⟩ := grantStep_frame w p c k h
  have step : InjectionTaken s (grantStep s p c k h) fun x => if x = .cellLink then some (.cellLink, .link, h.val) else none := by
    rw [e]
    exact s.grantCell_taken p k.desc h
  refine (step.trans ((grantStep s p c k h).writePayload_taken h 0 data)).congr_writes fun x => ?_
  cases x <;> rfl

/-- Settles O28: the records of the grant and of the word, one after the other. -/
theorem firstWordOfACellTakesTheHeadCell : Obligations.FirstWordOfACellTakesTheHeadCell := by
  intro p c word data k m h s hs w hf hd hw h64 hn hh hq
  have step : exec (.composeApertureWrite p c word data) s = _ :=
    (exec_composeApertureWrite hs c word data).trans (congrArg Host.Outcome.next
      ((dataWrite_granted _ data hf hd hw h64 hh hq).trans (grantedWrite_eq w data hd h64 hn)))
  have taken := grantStep_writePayload_taken w p c k h data
  have wf : (grantStep s p c k h).memoriesWf = true := (Quiet.refl.grantStep p c k h).memoriesWf w
  have words := fun e i => payloadWord_writePayload wf h e 0 i data
  have chain := (chainedOf_spec w p k h).2
  rw [messageOf_of_live hd] at chain
  obtain ⟨reads, truncates, lowWater, fifo, nodes⟩ := pool_grantCell w p k.desc h
  have events := s.event_grantCell p k.desc h
  have descs := (grantCell_desc w p k.desc h).2.2
  obtain ⟨reports, noFault, fault⟩ := faults_grantCell w p k.desc h
  have bits : injected (grantStep s p c k h) .payload = injected s .payload := by
    obtain ⟨l, e⟩ := grantStep_frame w p c k h
    rw [e]
    exact (s.grantCell_taken p k.desc h).injected_of_kept (if_neg (by decide))
  have links : ∀ e, (grantStep s p c k h).cellLinkWord e = (s.chainedOf p k h).cellLinkWord e := fun _ => rfl
  simp only [bits, ← links] at words chain
  obtain ⟨l, hu⟩ := grantStep_frame w p c k h
  obtain ⟨pm, a, i, hy⟩ := (grantStep s p c k h).writePayload_footprint h 0 data
  have wd : Memory.wf descDefault (s.grantCell p k.desc h).descriptors = true :=
    wf_descriptors ((Quiet.refl.grantCell p k.desc h).memoriesWf w)
  obtain ⟨l', pl, a', i', ds, ev, hv⟩ := s.grantCell_frame p k.desc h
  generalize (grantStep s p c k h).writePayload h 0 data = y at *
  generalize grantStep s p c k h = u at *
  generalize s.grantCell p k.desc h = v at *
  subst hy hu
  have shares : v.shares = s.shares.set p { s.share p with charged := (s.share p).charged + 1, starving := false } :=
    congrArg (·.shares) hv
  have slots : SameOtherCompose s (State.setComposeSlot { v with cellLinks := l } p c _) p c :=
    otherCompose_setComposeSlot (fun q e _ => composeSlot_of_compose (congrArg (·.compose) hv) q e)
      { s.composeSlot p c with phase := .filling { k with cell := some h }, starved := false }
  have written := fun x e => State.desc_setDesc { v with payload := pm } wd k.desc e x
  refine ⟨_, step, ?_, ⟨(words h 0).trans (if_pos rfl), fun x i hx => ?_, (written _ _).trans (if_pos rfl), fun e he => ?_,
    composeSlot_setComposeSlot_self _ _ _ _, otherCompose_setComposeSlot slots _, fun l hl => ?_, fun hl => ?_,
    fun x hx hl => ?_, ?_, fun q hq => ?_, fun x hx => ?_, taken, fun hx => ?_, lowWater, fun q => ?_, fifo, nodes,
    ⟨congrArg (·.nodeContents) hv, congrArg (·.nodeLinks) hv⟩, congrArg (·.queues) hv, congrArg (·.receive) hv,
    congrArg (·.resetAsserted) hv, congrArg (·.ma) hv, congrArg (·.exchange) hv, congrArg (·.ports) hv,
    congrArg (·.timeouts) hv, congrArg (·.mint) hv, congrArg (·.mgmt) hv, congrArg (·.pending) hv⟩, reports.completed.1⟩
  · show v.fronts.set p { v.fronts.get p with answer := some .okayWrite } = _
    rw [show v.fronts = s.fronts from congrArg (·.fronts) hv]
    rfl
  · exact ((words x i).trans (if_neg hx)).trans
      (congrArg (fun pm => Memory.get payloadDefault pm (payloadAddress x i.val)) (congrArg (·.payload) hv))
  · exact ((written _ e).trans (if_neg he)).trans (descs e he)
  · exact (chain l).trans (if_pos hl)
  · exact ((chain h).trans (if_neg hl)).trans (if_pos rfl)
  · exact ((chain x).trans (if_neg hl)).trans (if_neg hx)
  · exact (congrArg (·.get p) shares).trans (Quad.get_set_self _ _ _)
  · exact (congrArg (·.get q) shares).trans (Quad.get_set_ne _ hq _)
  · obtain ⟨h1, h2, h3, h4⟩ := reads x hx
    exact ⟨h1, h2, h3, h4, reports.completed.2.trans (noFault x hx)⟩
  · obtain ⟨h1, h2, h3, h4⟩ := truncates hx
    exact ⟨h1, h2, h3, h4, (fault hx).congr ⟨rfl, rfl, rfl⟩ ⟨rfl, reports.completed.2, rfl⟩⟩
  · exact events q

end Sys2Proof.Machine.State
end

section
/-!
SUPPORT. SEAL as far as its examination, and the seal that succeeds (R84 to R87): O23.
-/
namespace Sys2Proof.Machine
variable {s : State}

theorem exec_sealMessage {p : Port} (f : CommandFields) (h : s.Ready p) :
    exec (.sealMessage p f) s = .next (State.writeResults (sealMessage p f s) p ⟨0x11, f⟩) :=
  congrArg Host.Outcome.next (State.takeCommand_ready h _ _)

/-- A length that R84 takes. -/
theorem validLength_of {n w : Nat} (h0 : w = 0 → n = 0) (h1 : w ≠ 0 → w < n + 4 ∧ n ≤ w) : validLength n w = true := by
  rw [validLength]
  split_ifs with hw
  · exact decide_eq_true (h0 hw)
  · obtain ⟨h1, h2⟩ := h1 hw
    rw [decide_eq_true h1, decide_eq_true h2]
    rfl

/-- A SEAL that passes its checks goes on to the examination with the length that R84 fixes. -/
theorem sealTaken_reaches {p : Port} {f : CommandFields} {c : ComposeNo} {k : Composing} {m : Message} {n : Nat}
    (h : s.SealReaches p f c k m n) : sealTaken p f s = sealResult (s.sealSlot p c k m n) k.desc := by
  obtain ⟨-, hc, hm, hp⟩ := h
  have m_eq := State.messageOf_of_live hm
  rw [sealTaken, composeNo_eq hc]
  dsimp only
  rcases hp with hp | ⟨hp, hd, rfl, h0, h1⟩
  · rw [hp]
    dsimp only
    rw [m_eq]
  · rw [hp]
    dsimp only
    rw [m_eq, hd, if_neg (by decide)]
    exact if_pos (validLength_of h0 h1)

/-- The results of a SEAL whose examination passed (R87). -/
theorem sealResult_passed {o : State.SealOutcome} (h : o.outcome = .passed) (d : DescNo) : sealResult o d =
    { state := o.state, code := .ok
      result1 := .message { linked := some o.message.linkedCount, dropped := some o.message.droppedCount
                            holders := some (o.state.holders d), poisoned := some o.message.poison.isSome } } := by
  rw [sealResult, h]

/-- Settles O23: the seal that succeeds, with its results. -/
theorem sealLinksDropsAndLetsGo : Obligations.SealLinksDropsAndLetsGo := by
  intro p f c k m n ns s s1 h w hn hh hs hf ha
  obtain ⟨done, entries, passed, linked, dropped, poison, -, holders, integrity, fronts, control⟩ :=
    State.sealSlot_sealed (c := c) (n := n) w h.2.2.1 hn hh hs hf ha
  have step := exec_sealMessage f h.1
  rw [sealMessage, sealTaken_reaches h, sealResult_passed passed, linked, dropped, poison, holders] at step
  have params : ((s.sealSlot p c k m n).state.front p).params = (s.front p).params := by
    rw [State.front_of_fronts fronts]
  generalize (s.sealSlot p c k m n).state = u at *
  refine ⟨_, step, done, entries, State.reported_writeResults _ _ _, ?_, State.otherFronts_writeResults (s := s) fronts _ _,
    congrArg (·.complete s.requests) integrity, control⟩
  rw [State.writeResults, State.front_setFront_self]
  exact params

end Sys2Proof.Machine
end

section
/-!
SUPPORT. BEGIN (R74 to R76, R78): its destination lists in the words of the statements, its checks, the records that a taken BEGIN leaves,
and the command that its first link request completes; O20.
-/
namespace Sys2Proof.Machine.State
variable {s : State}

/-! ### The destinations of a BEGIN (R74, R75) -/

/-- A destination that admits the port stands with its record among the admitted ones. -/
theorem admittedDests_cons {p : Port} {x : Nat × QueueNo} (h : s.admits p x.2 = true) (l : List (Nat × QueueNo)) :
    ∃ lq, s.queue x.2 = .live lq ∧ s.admittedDests p (x :: l) = (x.1, x.2, lq) :: s.admittedDests p l := by
  obtain ⟨lq, ha⟩ := Option.isSome_iff_exists.mp ((s.admitted_isSome p x.2).trans h)
  refine ⟨lq, admitted_some ha, ?_⟩
  rw [admittedDests, List.filterMap_cons, ha]
  rfl

/-- The CUT destinations with room, and those that are full. -/
theorem cutDests_admitted {p : Port} {l : List (Nat × QueueNo)} (h : ∀ x ∈ l, s.admits p x.2 = true) :
    roomDests (cutDests (s.admittedDests p l)) = s.cutRoom (l.map (·.2)) ∧
      fullDests (cutDests (s.admittedDests p l)) = s.cutFull (l.map (·.2)) := by
  induction l with
  | nil => exact ⟨rfl, rfl⟩
  | cons x l ih =>
    obtain ⟨lq, live, e⟩ := admittedDests_cons (h x List.mem_cons_self) l
    obtain ⟨room, full⟩ := ih fun y hy => h y (List.mem_cons_of_mem _ hy)
    have cut := cut_of_live live
    have limit := atLimit_of_live live
    rw [roomDests, cutRoom] at room
    rw [fullDests, cutFull] at full
    rw [e, roomDests, fullDests, cutRoom, cutFull, cutDests, List.filter_cons, List.map_cons, List.filter_cons,
      List.filter_cons]
    dsimp only
    rw [cut, ← limit]
    cases s.isCut x.2 <;> cases hl : lq.atLimit <;>
      simp only [Bool.false_and, Bool.true_and, Bool.not_true, Bool.not_false, Bool.false_eq_true, if_false, if_true,
        List.filter_cons, List.map_cons, hl] <;> exact ⟨by rw [← room]; rfl, by rw [← full]; rfl⟩

/-- No CUT destination refuses a BEGIN as full (R75). -/
theorem fullPosition_cutDests {p : Port} {l : List (Nat × QueueNo)}
    (h : ∀ q ∈ s.cutFull (l.map (·.2)), s.refusesFull q = false) :
    fullPosition (cutDests (s.admittedDests p l)) = none := by
  rw [fullPosition, Option.map_eq_none_iff, List.find?_eq_none]
  intro t ht hb
  obtain ⟨ht, cut⟩ := List.mem_filter.mp ht
  obtain ⟨x, hx, e⟩ := List.mem_filterMap.mp ht
  obtain ⟨lq, ha, rfl⟩ := Option.map_eq_some_iff.mp e
  have live := admitted_some ha
  rw [Bool.and_eq_true, refuses_of_live live, atLimit_of_live live] at hb
  rw [cut_of_live live] at cut
  have full : x.2 ∈ s.cutFull (l.map (·.2)) := List.mem_filter.mpr ⟨List.mem_map_of_mem hx, by rw [cut, hb.2]; rfl⟩
  exact absurd hb.1 (by rw [h x.2 full]; decide)

/-! ### The checks (R74, R78) -/

theorem firstBadQueue_none {seen : List Nat} {n : Nat} {qs : List QueueNo} (h : qs.Nodup) (k : ∀ q ∈ qs, q.val ∉ seen) :
    firstBadQueue seen n (qs.map (·.val)) = none := by
  induction qs generalizing seen n with
  | nil => rfl
  | cons q qs ih =>
    obtain ⟨hq, h⟩ := List.nodup_cons.mp h
    rw [List.map_cons, firstBadQueue, if_neg]
    · refine ih h fun e he hs => ?_
      rcases List.mem_cons.mp hs with hs | hs
      · exact hq (Fin.ext hs ▸ he)
      · exact k e (List.mem_cons_of_mem _ he) hs
    · rintro (hb | hb)
      · exact absurd q.isLt (by omega)
      · exact k q List.mem_cons_self hb

theorem map_ofNat_val (qs : List QueueNo) : (qs.map (·.val)).map (Fin.ofNat 32) = qs := by
  rw [List.map_map]
  exact (List.map_congr_left fun q _ => Fin.ofNat_val_eq_self q).trans (List.map_id qs)

theorem refusedDest_none {p : Port} {qs : List QueueNo} (h : ∀ q ∈ qs, s.admits p q = true) :
    s.refusedDest p qs = none := by
  rw [refusedDest, Option.map_eq_none_iff, List.find?_eq_none]
  intro t ht hn
  have e := (s.admitted_isSome p t.1).trans (h t.1 (List.fst_mem_of_mem_zipIdx ht))
  rw [Option.isNone_iff_eq_none.mp hn] at e
  cases e

/-- The parameters of a BEGIN that passes check 2. -/
theorem beginParamRefusal_none {x : Quad Word} {qs : List QueueNo} (h1 : 1 ≤ bits (x.get 0) 16 3)
    (h4 : bits (x.get 0) 16 3 ≤ 4) (hq : qs.map (·.val) = (beginParams x).queues) (hn : qs.Nodup)
    (hd : bits (x.get 1) 0 15 ≤ 16384 ∨ bits (x.get 1) 0 15 = 0x7FFF) : beginParamRefusal (beginParams x) = none := by
  have count : ¬((beginParams x).count = 0 ∨ 4 < (beginParams x).count) := by
    show ¬(bits (x.get 0) 16 3 = 0 ∨ 4 < bits (x.get 0) 16 3)
    omega
  have declared : (beginParams x).declared = if bits (x.get 1) 0 15 = 0x7FFF then none else some (bits (x.get 1) 0 15) := rfl
  rw [beginParamRefusal, if_neg count, ← hq, firstBadQueue_none hn fun _ _ => List.not_mem_nil]
  dsimp only
  rw [declared]
  by_cases e : bits (x.get 1) 0 15 = 0x7FFF
  · rw [if_pos e]
  · rw [if_neg e]
    exact if_neg (by rw [show Config.maxLength = 16384 from rfl]; omega)

/-- A BEGIN that passes its checks makes its one allocation request (R74 to R76). -/
theorem beginFirst_reaches {p : Port} {f : CommandFields} {c : ComposeNo} {qs : List QueueNo} {d : DescNo}
    {rest : List DescNo} (h : s.BeginReaches p f c qs d rest) :
    (∀ s1, s.allocateNodes p (s.cutRoom qs).length = (s1, none) →
      beginFirst p f s = beginRefused s1 .refusedNoNode none) ∧
    ∀ s1 ns, s.allocateNodes p (s.cutRoom qs).length = (s1, some ns) →
      beginFirst p f s = beginResult (beginTaken s1 p c (beginParams (s.front p).params) qs d rest (s.cutRoom qs)
        (s.cutFull qs) ns) c (beginParams (s.front p).params) d := by
  obtain ⟨-, hc, hi, h1, h4, hq, hn, hd, ha, hf, hr, hl⟩ := h
  have numbers : qs.map (·.val) = (beginParams (s.front p).params).queues := hq
  have queues : (qs.zipIdx.map fun t => (t.2, t.1)).map (·.2) = qs := by
    rw [List.map_map]
    exact List.zipIdx_map_fst 0 qs
  have admits : ∀ x ∈ qs.zipIdx.map fun t => (t.2, t.1), s.admits p x.2 = true := fun x hx =>
    ha x.2 (by rw [← queues]; exact List.mem_map_of_mem hx)
  obtain ⟨room, full⟩ := cutDests_admitted admits
  have position := fullPosition_cutDests (s := s) (p := p) (l := qs.zipIdx.map fun t => (t.2, t.1)) (by rw [queues]; exact hr)
  rw [queues] at room full
  rw [beginFirst, composeNo_eq hc]
  dsimp only
  rw [hi]
  dsimp only
  rw [beginParamRefusal_none h1 h4 numbers hn hd]
  dsimp only
  rw [← numbers, map_ofNat_val, beginLink, refusedDest_none ha, hf]
  dsimp only
  rw [room, if_neg (by omega), position, full]
  dsimp only
  exact ⟨fun s1 e => by rw [e], fun s1 ns e => by rw [e]⟩

/-- A BEGIN that its first link request completes, taken whole or as its first part (R77). -/
theorem exec_beginMessage {p : Port} {f : CommandFields} {part : BeginPart} (h : s.Ready p) (hp : part ≠ .second)
    (ho : (beginFirst p f s).sealing = none) : exec (.beginMessage p ⟨f, part⟩) s =
      .next (writeResults ((beginFirst p f s).toCommandOutcome.completing s.requests) p ⟨0x10, f⟩) := by
  cases part with
  | whole =>
    refine congrArg Host.Outcome.next ((takeCommand_ready h _ _).trans ?_)
    rw [beginMessage, BeginOutcome.finish, ho]
    rfl
  | first =>
    refine congrArg Host.Outcome.next ((commandAccess_ready h _).trans ?_)
    rw [beginOpen]
    dsimp only
    rw [ho]
    rfl
  | second => exact absurd rfl hp

/-! ### The records of a taken BEGIN (R19, R76) -/

theorem queue_of_admits {p : Port} {q : QueueNo} (h : s.admits p q = true) : s.queue q ≠ .closed := fun e => by
  rw [admits, e] at h
  cases h

/-- The message that a BEGIN gives its descriptor, from the one it fills: its appends, and its drops. -/
theorem begunMessage_eq (s : State) (p : Port) (c : ComposeNo) (qs : List QueueNo) :
    { newMessage p c (beginParams (s.front p).params) qs with
      holders := 1 + (s.cutRoom qs).length
      dests := ((newMessage p c (beginParams (s.front p).params) qs).dests.map fun t =>
        if t.queue ∈ s.cutRoom qs then { t with disposition := .linked } else t).map fun t =>
          if t.queue ∈ s.cutFull qs then { t with disposition := .droppedFull } else t } = s.begunMessage p c qs := by
  have dests : (((newMessage p c (beginParams (s.front p).params) qs).dests.map fun t =>
      if t.queue ∈ s.cutRoom qs then { t with disposition := .linked } else t).map fun t =>
        if t.queue ∈ s.cutFull qs then { t with disposition := .droppedFull } else t) =
      (s.begunMessage p c qs).dests := by
    rw [newMessage, begunMessage, List.map_map, List.map_map]
    refine List.map_congr_left fun q hq => ?_
    have room : q ∈ s.cutRoom qs ↔ s.isCut q = true ∧ s.limitReached q = false := by
      rw [cutRoom, List.mem_filter, Bool.and_eq_true, Bool.not_eq_true']
      exact and_iff_right hq
    have full : q ∈ s.cutFull qs ↔ s.isCut q = true ∧ s.limitReached q = true := by
      rw [cutFull, List.mem_filter, Bool.and_eq_true]
      exact and_iff_right hq
    simp only [Function.comp_apply, room]
    cases hc : s.isCut q <;> cases hl : s.limitReached q <;> simp [full, hc, hl]
  rw [dests]
  rfl

/-- Steps 2 to 6 of R76, in the words of the statements. -/
theorem beginTaken_begun {p : Port} {c : ComposeNo} {qs : List QueueNo} {d : DescNo} {rest : List DescNo}
    {ns : List NodeNo} {s1 : State} (w : s.memoriesWf = true) (hn : qs.Nodup) (ha : ∀ q ∈ qs, s.admits p q = true)
    (hs : s.allocateNodes p (s.cutRoom qs).length = (s1, some ns)) :
    let t := beginTaken s1 p c (beginParams (s.front p).params) qs d rest (s.cutRoom qs) (s.cutFull qs) ns
    Begun s s1 t p c qs d rest ns ∧ t.integrity = s1.integrity ∧ t.fronts = s.fronts := by
  have sub : ∀ q ∈ s.cutRoom qs, q ∈ qs := fun q hq => List.mem_of_mem_filter hq
  have length := allocateNodes_length hs
  have w1 : s1.memoriesWf = true := by
    have := (Quiet.refl.allocateNodes p (s.cutRoom qs).length).memoriesWf w
    rwa [hs] at this
  obtain ⟨ls, i, pl, alloc⟩ := s.allocateNodes_some_footprint p _ hs
  have wv : ((s1.setPool { s1.pool with fifo := rest }).setDesc d
      (.live (newMessage p c (beginParams (s.front p).params) qs))).memoriesWf = true :=
    ((Quiet.refl.pool _).desc d _).memoriesWf w1
  have live := (desc_setDesc (s1.setPool { s1.pool with fifo := rest }) (wf_descriptors w1) d d
    (.live (newMessage p c (beginParams (s.front p).params) qs))).trans (if_pos rfl)
  have other : ∀ e, e ≠ d → ((s1.setPool { s1.pool with fifo := rest }).setDesc d
      (.live (newMessage p c (beginParams (s.front p).params) qs))).desc e = s.desc e := fun e he => by
    rw [desc_setDesc_ne _ he, alloc]
    rfl
  have same : ∃ ds, (s1.setPool { s1.pool with fifo := rest }).setDesc d
      (.live (newMessage p c (beginParams (s.front p).params) qs)) =
      { s1 with pool := { s1.pool with fifo := rest }, descriptors := ds } := ⟨_, rfl⟩
  rw [beginTaken]
  dsimp only
  generalize (s1.setPool { s1.pool with fifo := rest }).setDesc d
    (.live (newMessage p c (beginParams (s.front p).params) qs)) = v at *
  have opened : ∀ q ∈ s.cutRoom qs, v.queue q ≠ .closed := fun q hq => by
    obtain ⟨ds, rfl⟩ := same
    rw [alloc]
    exact queue_of_admits (ha q (sub q hq))
  have nodup : (s.cutRoom qs).Nodup := hn.filter _
  obtain ⟨linked, events⟩ := appendAll_linked (s.cutRoom qs) ns wv live nodup length opened
  have taken := appendAll_taken d (s.cutRoom qs) ns length nodup opened wv
  obtain ⟨desc1, others1, -, -, -, -, w1⟩ := appendAll_effect (s.cutRoom qs) ns wv live nodup length opened
  have frame1 := v.appendAll_footprint d (s.cutRoom qs) ns
  generalize v.appendAll d (s.cutRoom qs) ns = u at *
  obtain ⟨desc2, others2, -⟩ := disposeAll_effect .droppedFull (s.cutFull qs) (wf_descriptors w1) desc1
  obtain ⟨ds2, frame2⟩ := u.disposeAll_footprint d .droppedFull (s.cutFull qs)
  generalize u.disposeAll d .droppedFull (s.cutFull qs) = x at *
  have message := desc2.trans (congrArg Descriptor.live (s.begunMessage_eq p c qs))
  have descs : ∀ e, e ≠ d → x.desc e = s.desc e := fun e he => ((others2 e he).trans (others1 e he)).trans (other e he)
  obtain ⟨ds, rfl⟩ := same
  obtain ⟨cs, ls', a, j, qt, ds1, ev, rfl⟩ := frame1
  subst frame2 alloc
  exact ⟨⟨message, descs, rfl, composeSlot_setComposeSlot_self _ _ _ _,
    otherCompose_setComposeSlot (fun _ _ _ => rfl) _, linked, taken, events, ⟨rfl, rfl⟩, rfl, rfl, rfl, rfl, rfl, rfl, rfl,
    rfl, rfl, rfl⟩, rfl, rfl⟩

/-- The counts of a taken BEGIN (R78). -/
theorem counts_begunMessage (s : State) (p : Port) (c : ComposeNo) (qs : List QueueNo) :
    (s.begunMessage p c qs).linkedCount = (s.cutRoom qs).length ∧
      (s.begunMessage p c qs).droppedCount = (s.cutFull qs).length := by
  have count : ∀ y, (s.begunMessage p c qs).countDests y = (qs.filter fun q => decide
      ((if !s.isCut q then Disposition.pending else if s.limitReached q then .droppedFull else .linked) = y)).length :=
    fun y => by
      rw [Message.countDests, begunMessage, List.filter_map, List.length_map]
      rfl
  refine ⟨?_, ?_⟩
  · rw [Message.linkedCount, count, cutRoom]
    congr 2
    funext q
    cases s.isCut q <;> cases s.limitReached q <;> rfl
  · have closed : (s.begunMessage p c qs).countDests .droppedClosed = 0 := by
      rw [count, List.length_eq_zero_iff, List.filter_eq_nil_iff]
      intro q _
      cases s.isCut q <;> cases s.limitReached q <;> decide
    rw [Message.droppedCount, closed, count, cutFull, Nat.add_zero]
    congr 2
    funext q
    cases s.isCut q <;> cases s.limitReached q <;> rfl

/-- Settles O20: the BEGIN that its first link request completes, with its results. -/
theorem beginAllocatesLinksAndFills : Obligations.BeginAllocatesLinksAndFills := by
  intro p f part c qs d rest ns s s1 hp h hz
  obtain ⟨reaches, w, alloc⟩ := h
  have first := (beginFirst_reaches reaches).2 s1 ns alloc
  obtain ⟨ready, -, -, -, -, -, nodup, -, admits, -⟩ := reaches
  obtain ⟨begun, integrity, fronts⟩ := beginTaken_begun (c := c) (d := d) (rest := rest) w nodup admits alloc
  have declared : (beginParams (s.front p).params).declared ≠ some 0 := by
    show (if bits ((s.front p).params.get 1) 0 15 = 0x7FFF then none else some (bits ((s.front p).params.get 1) 0 15)) ≠ _
    split_ifs
    · exact nofun
    · exact fun e => hz (Option.some.inj e)
  obtain ⟨linked, dropped⟩ := s.counts_begunMessage p c qs
  have result := congrArg BeginOutcome.toCommandOutcome first
  rw [beginResult, messageOf_of_live begun.1, linked, dropped] at result
  have step := exec_beginMessage (f := f) ready hp (by rw [first]; exact if_neg declared)
  rw [result] at step
  have params : ∀ {x : State}, x.fronts = s.fronts → (x.front p).params = (s.front p).params ∧
      (x.front p).errorRecord = (s.front p).errorRecord := fun e => by rw [front_of_fronts e]; exact ⟨rfl, rfl⟩
  generalize beginTaken s1 p c (beginParams (s.front p).params) qs d rest (s.cutRoom qs) (s.cutFull qs) ns = u at *
  refine ⟨_, step, begun, congrArg (·.complete s.requests) integrity, reported_writeResults _ _ _, ?_, ?_,
    otherFronts_writeResults (s := s) fronts _ _⟩
  · rw [writeResults, front_setFront_self]
    exact (params fronts).1
  · rw [writeResults, front_setFront_self]
    exact (params fronts).2

end Sys2Proof.Machine.State
end

section
/-!
SUPPORT. Requests for nodes (R29, R30): an allocation along readable link words, one that a truncation ends, and the BEGIN and the SEAL that it
refuses; O19.
-/
namespace Sys2Proof.Machine.State
variable {s : State}

/-! ### The return of several nodes (R8, R30) -/

/-- The pool after nodes were returned, whatever nodes they are. -/
theorem returnNodes_pool (w : s.memoriesWf = true) (ns : List NodeNo) : (s.returnNodes ns).pool = { s.pool with
    nodeHead := if s.pool.nodeTail = none ∧ ns ≠ [] then ns.head? else s.pool.nodeHead
    nodeTail := if ns = [] then s.pool.nodeTail else ns.getLast?, freeNodes := s.pool.freeNodes + ns.length } := by
  induction ns generalizing s with
  | nil => simp [returnNodes]
  | cons n ns ih =>
    have one := (returnNode_words w n).1
    rw [returnNodes, ih ((Quiet.refl.returnNode n).memoriesWf w), one]
    cases ns with
    | nil => simp
    | cons a ns =>
      simp
      omega

/-! ### The takes of a request (R29) -/

theorem takeNodes_none (h : s.pool.nodeHead = none) (p : Port) (k : Nat) (acc : List NodeNo) :
    takeNodes p (k + 1) s acc = (s, acc, false) := by
  rw [takeNodes, h]

theorem takeNodes_some {n : NodeNo} (h : s.pool.nodeHead = some n) (p : Port) (k : Nat) (acc : List NodeNo) :
    takeNodes p (k + 1) s acc = takeNodes p k (s.takeHeadNode p n) (acc ++ [n]) := by
  rw [takeNodes, h]

theorem allocateNodes_all {p : Port} {k : Nat} {t : State} {ns : List NodeNo} (h : takeNodes p k s [] = (t, ns, true)) :
    s.allocateNodes p k = (t, some ns) := by
  rw [allocateNodes, h]

theorem allocateNodes_few {p : Port} {k : Nat} {t : State} {ns : List NodeNo} (h : takeNodes p k s [] = (t, ns, false)) :
    s.allocateNodes p k = (t.returnNodes ns, none) := by
  rw [allocateNodes, h]

/-- The nodes of a run read clean or corrected. -/
theorem check_of_freeRun {head x : NodeLink} {ns : List NodeNo} (h : s.freeRun head ns x) {n : NodeNo} (hn : n ∈ ns) :
    (s.nodeLinkWord n).check ≠ .uncorrectable := by
  induction ns generalizing head with
  | nil => cases hn
  | cons a ns ih =>
    obtain ⟨-, y, hy, h⟩ := h
    rcases List.mem_cons.mp hn with rfl | hn
    · rcases hy with hy | hy <;> rw [hy] <;> exact nofun
    · exact ih h hn

/-- The report of a truncation (R30). -/
def truncation (n : NodeNo) (p : Port) : ErrorReport := ⟨.node, .link, n.val, .freeNodeTake, p, none, none⟩

/-- The takes up to an uncorrectable head: the readable nodes before it, the truncation, and its report. -/
theorem takeNodes_truncated (w : s.memoriesWf = true) (p : Port) {ns : List NodeNo} {n : NodeNo}
    (h : s.freeRun s.pool.nodeHead ns (some n)) (hu : (s.nodeLinkWord n).check = .uncorrectable) :
    ∃ u v, (∀ j, takeNodes p (ns.length + (j + 1)) s [] = takeNodes p j u (ns ++ [n])) ∧
      u = v.report (truncation n p) .truncate ∧ Tracked s v ∧
      (∃ ls i, u = { s with nodeLinks := ls, integrity := i, pool := { s.pool with
        nodeHead := none, nodeTail := none, freeNodes := 0
        strandedNodes := s.pool.strandedNodes + (s.pool.freeNodes - ns.length - 1) } }) ∧
      (∀ a ∈ ns, ∀ y, (s.nodeLinkWord a).check = .corrected y → u.nodeLinkWord a = ⟨y, []⟩) ∧
      ∀ a, (a ∉ ns ∨ ∃ y, (s.nodeLinkWord a).check = .clean y) → u.nodeLinkWord a = s.nodeLinkWord a := by
  obtain ⟨frame, corrected, same, -, takes⟩ := takeAll_spec w p ns (some n) h
  have notMem : n ∉ ns := fun hn => check_of_freeRun h hn hu
  have word := same n (.inl notMem)
  generalize takeAll p ns s = t at *
  have head : t.pool.nodeHead = some n := congrArg (·.pool.nodeHead) frame
  have take := takeHeadNode_truncates p n ((congrArg Stored.check word).trans hu)
  refine ⟨_, t.setPool { t.pool with
      nodeHead := none, nodeTail := none, freeNodes := 0
      strandedNodes := t.pool.strandedNodes + (t.pool.freeNodes - 1) }, fun j => ?_, rfl,
    ⟨_, congrArg (·.integrity) frame⟩, ?_, corrected, same⟩
  · rw [takes, takeNodes_some head, take]
    rfl
  · obtain ⟨ls, k, rfl⟩ : ∃ ls k, t = { s with
        nodeLinks := ls, integrity := { s.integrity with tracking := k }
        pool := { s.pool with
          nodeHead := some n, nodeTail := if ns ≠ [] ∧ some n = none then none else s.pool.nodeTail
          freeNodes := s.pool.freeNodes - ns.length } } := ⟨_, _, frame⟩
    exact ⟨ls, _, rfl⟩

/-- An allocation whose run ends in an uncorrectable head (R30): granted with that node the last, or refused and given back. -/
theorem allocateNodes_truncated (w : s.memoriesWf = true) (p : Port) {ns : List NodeNo} {n : NodeNo} {k : Nat}
    (h : s.freeRun s.pool.nodeHead ns (some n)) (hu : (s.nodeLinkWord n).check = .uncorrectable) (hk : ns.length < k) :
    let stranded := s.pool.strandedNodes + (s.pool.freeNodes - ns.length - 1)
    ∃ t r, s.allocateNodes p k = (t, r) ∧
      t = { s with nodeLinks := t.nodeLinks, integrity := t.integrity, pool := t.pool, arm := t.arm
                   lastInjection := t.lastInjection } ∧
      ReportedFault s t (s.recordOf .nodeLink .node n.val p none none none .truncate) ∧
      ReportsMade s t [(.nodeLink, p)] ∧
      (k = ns.length + 1 → r = some (ns ++ [n]) ∧ SameInjection s t ∧ t.pool = { s.pool with
          nodeHead := none, nodeTail := none, freeNodes := 0, strandedNodes := stranded } ∧
        (∀ a ∈ ns, ∀ y, (s.nodeLinkWord a).check = .corrected y → t.nodeLinkWord a = ⟨y, []⟩) ∧
        ∀ a, (a ∉ ns ∨ ∃ y, (s.nodeLinkWord a).check = .clean y) → t.nodeLinkWord a = s.nodeLinkWord a) ∧
      (ns.length + 1 < k → r = none ∧ t.pool = { s.pool with
          nodeHead := (ns ++ [n]).head?, nodeTail := some n, freeNodes := ns.length + 1, strandedNodes := stranded } ∧
        InjectionTaken s t (fun
          | .node => (ns ++ [n]).head?.map fun a => (.node, .link, a.val)
          | .payload | .cellLink => none) ∧
        ((ns ++ [n]).Nodup → (∀ a, a ∉ ns ++ [n] → t.nodeLinkWord a = s.nodeLinkWord a) ∧
          ∀ (i : Nat) (a : NodeNo), (ns ++ [n])[i]? = some a →
            t.nodeLinkWord a = ⟨(ns ++ [n])[i + 1]?, if ns = [] then injected s .node else []⟩)) := by
  intro stranded
  obtain ⟨u, v, takes, reported, tracked, ⟨ls, i, frame⟩, corrected, same⟩ := takeNodes_truncated w p h hu
  obtain ⟨j, rfl⟩ : ∃ j, k = ns.length + (j + 1) := ⟨k - ns.length - 1, by omega⟩
  have fault : ReportedFault s u (s.recordOf .nodeLink .node n.val p none none none .truncate) := by
    rw [reported]
    exact tracked.reportedFault (truncation n p) .truncate
  have made : ReportsMade s u [(.nodeLink, p)] := by
    rw [reported]
    exact (tracked.reports.report (truncation n p) .truncate).made
  cases j with
  | zero =>
    have alloc := allocateNodes_all (takes 0)
    subst frame
    exact ⟨_, _, alloc, rfl, fault, made, fun _ => ⟨rfl, ⟨rfl, rfl⟩, rfl, corrected, same⟩, fun hl => by omega⟩
  | succ j =>
    have wu : u.memoriesWf = true := by
      have q : Quiet s u := by
        have := (Quiet.refl (s := s)).takeNodes p (ns.length + (0 + 1)) []
        rwa [takes 0] at this
      exact q.memoriesWf w
    have alloc := allocateNodes_few ((takes (j + 1)).trans (takeNodes_none (congrArg (·.pool.nodeHead) frame) p j _))
    have pool := returnNodes_pool wu (ns ++ [n])
    have taken := u.returnNodes_taken (ns ++ [n])
    have words := returnNodes_words wu (ns ++ [n])
    obtain ⟨ls', a, l, pl, back⟩ := u.returnNodes_footprint (ns ++ [n])
    generalize u.returnNodes (ns ++ [n]) = t at *
    have notNil : ns ++ [n] ≠ [] := List.append_ne_nil_of_right_ne_nil _ (List.cons_ne_nil _ _)
    subst frame
    refine ⟨t, none, alloc, ?_, fault.congr ⟨rfl, rfl, rfl⟩ (by rw [back]; exact ⟨rfl, rfl, rfl⟩), ?_, fun hl => by omega,
      fun _ => ⟨rfl, ?_, ?_, fun hn => ?_⟩⟩
    · rw [back]
    · rw [ReportsMade, back]
      exact made
    · rw [pool, if_pos ⟨rfl, notNil⟩, if_neg notNil, List.getLast?_concat, List.length_append, List.length_singleton,
        Nat.zero_add]
    · refine (taken.congr_left (u := s) ⟨rfl, rfl⟩).congr_writes fun x => ?_
      cases x <;> rfl
    · obtain ⟨-, linked, -, others⟩ := words hn nofun
      refine ⟨fun a ha => (others a ha nofun).trans (same a (.inl fun k => ha (List.mem_append_left _ k))),
        fun i a hi => (linked i a hi).trans ?_⟩
      have one : (ns ++ [n]).length = 1 ↔ ns = [] := by
        rw [List.length_append, List.length_singleton, Nat.add_eq_right, List.length_eq_zero_iff]
      simp only [one]
      rfl

/-! ### The refusals (R74, R75, R85, R86) -/

/-- A BEGIN whose nodes a truncation took. -/
theorem beginMessage_truncated {p : Port} {f : CommandFields} {part : BeginPart} {c : ComposeNo} {qs : List QueueNo}
    {d : DescNo} {rest : List DescNo} {s1 : State} (hp : part ≠ .second) (h : s.BeginReaches p f c qs d rest)
    (ha : s.allocateNodes p (s.cutRoom qs).length = (s1, none)) :
    exec (.beginMessage p ⟨f, part⟩) s =
      .next ((s1.completeRequest s.requests).commandTaken p ⟨0x10, f⟩ .refusedNoNode (.message {}) .idle) := by
  have first := (beginFirst_reaches h).1 s1 ha
  rw [exec_beginMessage h.1 hp (by rw [first]; rfl), first]
  rfl

/-- A SEAL whose nodes a truncation took. -/
theorem sealMessage_truncated {p : Port} {f : CommandFields} {c : ComposeNo} {k : Composing} {m : Message} {n : Nat}
    {s1 : State} (h : s.SealReaches p f c k m n) (hs : ∀ x ∈ m.dests, s.sealStops p x = false)
    (hl : (s.sealRoom p m).length ≤ s.pool.freeNodes)
    (ha : s.allocateNodes p (s.sealRoom p m).length = (s1, none)) :
    exec (.sealMessage p f) s = .next (((s1.setComposeSlot p c { s.composeSlot p c with
        phase := .held { desc := k.desc, cell := k.cell, timer := 0, due := false } n }).completeRequest
          s.requests).commandTaken p ⟨0x11, f⟩
      .refusedNoNode (.message { holders := some m.holders, poisoned := some m.poison.isSome }) .idle) := by
  obtain ⟨ls, i, pl, a, j, frame⟩ := s.allocateNodes_footprint p (s.sealRoom p m).length
  rw [ha] at frame
  have live : s1.desc k.desc = .live m := (congrArg (State.desc · k.desc) frame).trans h.2.2.1
  have slot : s1.composeSlot p c = s.composeSlot p c := composeSlot_of_compose (congrArg (·.compose) frame) p c
  have message : s1.messageOf k.desc = m := messageOf_of_live live
  have held : s.sealSlot p c k m n = ⟨s1.setComposeSlot p c { s.composeSlot p c with
      phase := .held { k with timer := 0, due := false } n }, m, .refused .refusedNoNode none⟩ := by
    rw [sealSlot, examine_truncated k.desc hs hl ha]
    dsimp only
    rw [slot, message]
  have holders : (s1.setComposeSlot p c { s.composeSlot p c with
      phase := .held { k with timer := 0, due := false } n }).holders k.desc = m.holders := holders_of_live live
  rw [exec_sealMessage f h.1, sealMessage, sealTaken_reaches h, held, sealResult]
  dsimp only
  rw [holders]
  rfl

/-- Settles O19: a request along readable words, one that meets an uncorrectable head, and the commands refused. -/
theorem nodeRequestsTakeHeadsOrTruncate : Obligations.NodeRequestsTakeHeadsOrTruncate := by
  refine ⟨fun p ns x s w h => ?_, fun p ns n k s w h hu hk => allocateNodes_truncated w p h hu hk,
    fun p f part c qs d rest s s1 hp h ha => beginMessage_truncated hp h ha,
    fun p f c k m n s s1 h hs hl ha => sealMessage_truncated h hs hl ha⟩
  obtain ⟨frame, corrected, same, clean, takes⟩ := takeAll_spec w p ns x h
  exact ⟨_, allocateNodes_all (takes 0 []), frame, corrected, same, clean⟩

end Sys2Proof.Machine.State
end

section
/-!
SUPPORT. The node lists (R3, R21, R29, R42, R51, R56): `NodesLaidOut` as a layout of the node free list and the lists of the queues. Who holds nodes
and descriptors beside the lists stands in parameters (`held`, `owed`), and so do the ends of the queues' lists, so that each operation on
the link memory is one lemma, whatever slots and queue records are set before or after it.
-/
namespace Sys2Proof.Machine.State

/-! ### The view of the node lists -/

/-- The link value written in a node. -/
def nodeNext (s : State) (n : NodeNo) : NodeLink := (s.nodeLinkWord n).written

/-- The descriptor that a node names, as written. -/
def named (s : State) (n : NodeNo) : DescNo := (s.contentWord n).written

/-- The ends of the queues' lists, as their records have them. -/
def queueEnds (s : State) (q : QueueNo) : ListEnds NodeNo := (s.queue q).ends

/-- The owners of nodes: the free list, and each queue. -/
def nodeEnds (s : State) (queues : QueueNo → ListEnds NodeNo) : Option QueueNo → ListEnds NodeNo
  | none => ⟨s.pool.nodeHead, s.pool.nodeTail, s.pool.freeNodes⟩
  | some q => queues q

/-- How many nodes the queues list for descriptor d. -/
def listed (s : State) (lists : Option QueueNo → List NodeNo) (d : DescNo) : Nat :=
  ∑ q, (lists (some q)).countP fun n => decide (s.named n = d)

/-- The node lists, with the nodes `held` beside them, and with the holders that the queues' lists and the slots (`owed`) are. -/
structure NodeOrder (s : State) (queues : QueueNo → ListEnds NodeNo) (held : NodeNo → Nat) (owed : DescNo → Nat)
    (lists : Option QueueNo → List NodeNo) : Prop where
  bits : ∀ n, (s.nodeLinkWord n).inverted.length ≤ 2 ∧ (s.contentWord n).inverted.length ≤ 2
  layout : Layout s.nodeNext (s.nodeEnds queues) held lists
  holders : ∀ d, owed d + s.listed lists d ≤ s.holders d

/-- The receive slots that hold node n. -/
def heldCount (s : State) (n : NodeNo) : Nat :=
  ∑ x : Port × ReceiveNo, if (s.receiveSlot x.1 x.2).holder.map (·.1) = some n then 1 else 0

/-- The compose and receive slots that hold descriptor d. -/
def owedCount (s : State) (d : DescNo) : Nat :=
  (∑ x : Port × ComposeNo, if (s.composeSlot x.1 x.2).holder = some d then 1 else 0) +
    ∑ x : Port × ReceiveNo, if (s.receiveSlot x.1 x.2).holder.map (·.2) = some d then 1 else 0

theorem owedCount_eq (s : State) (d : DescNo) : s.owedCount d = s.composeHolds d + s.receiveHolds d := by
  have e : ∀ x : ReceiveSlot, x.holder.map (·.2) = x.phase.holds.map (·.desc) := fun x => by
    rw [ReceiveSlot.holder, Option.map_map]
    rfl
  unfold owedCount composeHolds receiveHolds
  simp only [Fintype.sum_prod_type, Fin.sum_univ_def, e]
  rfl

theorem heldCount_eq (s : State) (n : NodeNo) : s.heldCount n = s.heldNodes.count n := by
  have e : ∀ x : ReceiveSlot, x.holder.map (·.1) = x.phase.holds.map (·.node) := fun x => by
    rw [ReceiveSlot.holder, Option.map_map]
    rfl
  have one : ∀ p : Port, ((List.finRange 2).filterMap fun r => (s.receiveSlot p r).phase.holds.map (·.node)).count n =
      ∑ r, if (s.receiveSlot p r).phase.holds.map (·.node) = some n then 1 else 0 := by
    intro p
    rw [List.count_filterMap, List.countP_eq_length_filter, Fin.sum_univ_def]
    generalize List.finRange 2 = l
    induction l with
    | nil => rfl
    | cons r l ih =>
      rw [List.map_cons, List.sum_cons, ← ih, List.filter_cons]
      simp only [beq_iff_eq]
      split_ifs
      · rw [List.length_cons, Nat.add_comm]
      · rw [Nat.zero_add]
  unfold heldCount heldNodes
  simp only [count_flatMap_finRange, one, e, Fintype.sum_prod_type]

theorem listed_eq (s : State) (lists : Option QueueNo → List NodeNo) (d : DescNo) :
    (((List.finRange 32).flatMap fun q => lists (some q)).filter fun n =>
      decide ((s.contentWord n).written = d)).length = s.listed lists d := by
  rw [← List.countP_eq_length_filter, List.countP_flatMap, listed, Fin.sum_univ_def]
  rfl

/-- The list of a queue by its ends. -/
theorem list_of_ends {s : State} {q : QueueNo} {ns : List NodeNo} (h : Run s.nodeNext (s.queueEnds q).head ns)
    (ht : (s.queueEnds q).tail = ns.getLast?) (hc : (s.queueEnds q).count = ns.length) :
    (s.queue q = .closed → ns = []) ∧ ∀ lq, s.queue q = .live lq →
      Run s.nodeNext lq.head ns ∧ lq.tail = ns.getLast? ∧ lq.depth = ns.length := by
  refine ⟨fun e => ?_, fun m e => ?_⟩
  · rw [queueEnds, e] at hc
    exact List.length_eq_zero_iff.mp hc.symm
  · rw [queueEnds, e] at h ht hc
    exact ⟨h, ht, hc⟩

theorem nodeRun_iff (s : State) (head : NodeLink) (ns : List NodeNo) : s.nodeRun head ns ↔ Run s.nodeNext head ns := by
  induction ns generalizing head with
  | nil => exact Iff.rfl
  | cons n ns ih => exact and_congr_right fun _ => ih _

theorem nodesLaidOut_iff (s : State) :
    s.NodesLaidOut ↔ ∃ lists, s.NodeOrder s.queueEnds s.heldCount s.owedCount lists := by
  have total : ∀ (free : List NodeNo) (list : QueueNo → List NodeNo) (a : NodeNo),
      (free ++ (List.finRange 32).flatMap list ++ s.heldNodes).count a =
        s.heldCount a + (free.count a + ∑ q, (list q).count a) := fun free list a => by
    rw [List.count_append, List.count_append, count_flatMap_finRange, heldCount_eq]
    exact Nat.add_comm _ _
  constructor
  · rintro ⟨hi, free, list, hr, ht, hc, hf, hl, hn, ho⟩
    have ends : ∀ q, Run s.nodeNext (s.queueEnds q).head (list q) ∧ (s.queueEnds q).tail = (list q).getLast? ∧
        (s.queueEnds q).count = (list q).length := fun q => by
      rw [queueEnds]
      cases e : s.queue q with
      | closed =>
        rw [hf q e]
        exact ⟨rfl, rfl, rfl⟩
      | live lq =>
        obtain ⟨h1, h2, h3⟩ := hl q lq e
        exact ⟨(s.nodeRun_iff _ _).mp h1, h2, h3⟩
    refine ⟨fun o => o.elim free list, hi, ⟨?_, ?_, ?_, fun a => ?_⟩, fun d => ?_⟩
    · rintro (_ | q)
      · exact (s.nodeRun_iff _ _).mp hr
      · exact (ends q).1
    · rintro (_ | q)
      · exact ht
      · exact (ends q).2.1
    · rintro (_ | q)
      · exact hc
      · exact (ends q).2.2
    · rw [Fintype.sum_option]
      exact (total free list a).symm.trans_le (List.nodup_iff_count_le_one.mp hn a)
    · rw [owedCount_eq, ← listed_eq]
      exact ho d
  · rintro ⟨lists, hi, L, ho⟩
    refine ⟨hi, lists none, fun q => lists (some q), (s.nodeRun_iff _ _).mpr (L.run none), L.tail none, L.count none,
      fun q => (list_of_ends (L.run (some q)) (L.tail (some q)) (L.count (some q))).1, fun q lq e => ?_, ?_,
      fun d => ?_⟩
    · obtain ⟨h1, h2⟩ := (list_of_ends (L.run (some q)) (L.tail (some q)) (L.count (some q))).2 lq e
      exact ⟨(s.nodeRun_iff _ _).mpr h1, h2⟩
    · refine List.nodup_iff_count_le_one.mpr fun a => ?_
      have := L.distinct a
      rw [Fintype.sum_option] at this
      exact (total _ _ a).trans_le this
    · rw [listed_eq, ← owedCount_eq]
      exact ho d

/-- The canonical tables beside laid out nodes: what every step keeps. -/
def NodesKept (s : State) : Prop :=
  s.memoriesWf = true ∧ ∃ lists, s.NodeOrder s.queueEnds s.heldCount s.owedCount lists

/-! ### The counts after a change of one slot -/

/-- Compose slot c of port p changes its holder; `f` counts slots. -/
theorem composeSlots_set (s : State) (p : Port) (c : ComposeNo) (x : ComposeSlot) (f : ComposeSlot → Nat) :
    (∑ y : Port × ComposeNo, f ((s.setComposeSlot p c x).composeSlot y.1 y.2)) + f (s.composeSlot p c) =
      (∑ y : Port × ComposeNo, f (s.composeSlot y.1 y.2)) + f x := by
  have e : (fun y : Port × ComposeNo => (s.setComposeSlot p c x).composeSlot y.1 y.2) =
      Function.update (fun y : Port × ComposeNo => s.composeSlot y.1 y.2) (p, c) x := by
    funext y
    by_cases h : y = (p, c)
    · subst h
      rw [Function.update_self]
      exact composeSlot_setComposeSlot_self s p c x
    · rw [Function.update_of_ne h]
      exact composeSlot_setComposeSlot_ne s h x
  have k := sum_update f (fun y : Port × ComposeNo => s.composeSlot y.1 y.2) (p, c) x
  rwa [← e] at k

/-- Receive slot r of port p changes its holder; `f` counts slots. -/
theorem receiveSlots_set (s : State) (p : Port) (r : ReceiveNo) (x : ReceiveSlot) (f : ReceiveSlot → Nat) :
    (∑ y : Port × ReceiveNo, f ((s.setReceiveSlot p r x).receiveSlot y.1 y.2)) + f (s.receiveSlot p r) =
      (∑ y : Port × ReceiveNo, f (s.receiveSlot y.1 y.2)) + f x := by
  have e : (fun y : Port × ReceiveNo => (s.setReceiveSlot p r x).receiveSlot y.1 y.2) =
      Function.update (fun y : Port × ReceiveNo => s.receiveSlot y.1 y.2) (p, r) x := by
    funext y
    by_cases h : y = (p, r)
    · subst h
      rw [Function.update_self]
      exact receiveSlot_setReceiveSlot_self s p r x
    · rw [Function.update_of_ne h]
      exact receiveSlot_setReceiveSlot_ne s h x
  have k := sum_update f (fun y : Port × ReceiveNo => s.receiveSlot y.1 y.2) (p, r) x
  rwa [← e] at k

theorem owedCount_setComposeSlot (s : State) (p : Port) (c : ComposeNo) (x : ComposeSlot) (d : DescNo) :
    (s.setComposeSlot p c x).owedCount d + (if (s.composeSlot p c).holder = some d then 1 else 0) =
      s.owedCount d + if x.holder = some d then 1 else 0 := by
  have h := s.composeSlots_set p c x fun y => if y.holder = some d then 1 else 0
  have e : ∀ y : Port × ReceiveNo, (s.setComposeSlot p c x).receiveSlot y.1 y.2 = s.receiveSlot y.1 y.2 := fun _ => rfl
  simp only [owedCount, e]
  omega

theorem owedCount_setReceiveSlot (s : State) (p : Port) (r : ReceiveNo) (x : ReceiveSlot) (d : DescNo) :
    (s.setReceiveSlot p r x).owedCount d + (if (s.receiveSlot p r).holder.map (·.2) = some d then 1 else 0) =
      s.owedCount d + if x.holder.map (·.2) = some d then 1 else 0 := by
  have h := s.receiveSlots_set p r x fun y => if y.holder.map (·.2) = some d then 1 else 0
  have e : ∀ y : Port × ComposeNo, (s.setReceiveSlot p r x).composeSlot y.1 y.2 = s.composeSlot y.1 y.2 := fun _ => rfl
  simp only [owedCount, e]
  omega

theorem heldCount_setReceiveSlot (s : State) (p : Port) (r : ReceiveNo) (x : ReceiveSlot) (n : NodeNo) :
    (s.setReceiveSlot p r x).heldCount n + (if (s.receiveSlot p r).holder.map (·.1) = some n then 1 else 0) =
      s.heldCount n + if x.holder.map (·.1) = some n then 1 else 0 :=
  s.receiveSlots_set p r x fun y => if y.holder.map (·.1) = some n then 1 else 0

theorem owedCount_of_slots {s t : State} (hc : t.compose = s.compose) (hr : t.receive = s.receive) (d : DescNo) :
    t.owedCount d = s.owedCount d := by
  simp only [owedCount, composeSlot_of_compose hc, receiveSlot_of_receive hr]

theorem heldCount_of_receive {s t : State} (hr : t.receive = s.receive) (n : NodeNo) :
    t.heldCount n = s.heldCount n := by
  simp only [heldCount, receiveSlot_of_receive hr]

end Sys2Proof.Machine.State
end

section
/-!
SUPPORT. The operations on the node lists (R8, R21, R29, R30, R51): what leaves them alone, the takes and returns at the free list, an append to a
queue, the head of a queue taken, and a holder given up. Each is a lemma about `NodeOrder`, with who holds nodes and descriptors beside
the lists as parameters.
-/
namespace Sys2Proof.Machine.State

variable {s t : State} {queues queues' : QueueNo → ListEnds NodeNo} {held held' : NodeNo → Nat} {owed owed' : DescNo → Nat}
  {lists lists' : Option QueueNo → List NodeNo}

/-! ### Nodes listed for a descriptor -/

theorem listed_congr {d : DescNo} (hl : ∀ q, lists' (some q) = lists (some q))
    (h : ∀ q, ∀ n ∈ lists (some q), t.named n = s.named n) : t.listed lists' d = s.listed lists d :=
  Finset.sum_congr rfl fun q _ => by
    rw [hl]
    exact List.countP_congr fun n hn => by rw [h q n hn]

theorem listed_update_none (s : State) (lists : Option QueueNo → List NodeNo) (l : List NodeNo) (d : DescNo) :
    s.listed (Function.update lists none l) d = s.listed lists d :=
  listed_congr (fun q => Function.update_of_ne (Option.some_ne_none q) _ _) fun _ _ _ => rfl

theorem listed_update_some (s : State) (lists : Option QueueNo → List NodeNo) (q : QueueNo) (l : List NodeNo) (d : DescNo) :
    s.listed (Function.update lists (some q) l) d + (lists (some q)).countP (fun n => decide (s.named n = d)) =
      s.listed lists d + l.countP fun n => decide (s.named n = d) := by
  have e : ∀ r, Function.update lists (some q) l (some r) = Function.update (fun r => lists (some r)) q l r := fun r => by
    by_cases h : r = q
    · rw [h, Function.update_self, Function.update_self]
    · rw [Function.update_of_ne (fun k => h (Option.some.inj k)), Function.update_of_ne h]
  unfold listed
  simp only [e]
  exact sum_update (fun l : List NodeNo => l.countP fun n => decide (s.named n = d)) (fun r => lists (some r)) q l

/-- A descriptor with a holder is live. -/
theorem live_of_holders {d : DescNo} (h : 1 ≤ s.holders d) : ∃ m, s.desc d = .live m ∧ m.holders = s.holders d := by
  cases e : s.desc d with
  | free =>
    rw [holders_of_free e] at h
    cases h
  | live m => exact ⟨m, rfl, (holders_of_live e).symm⟩

theorem holders_of_descriptors (h : t.descriptors = s.descriptors) (d : DescNo) : t.holders d = s.holders d := by
  rw [holders, holders, message_of_descriptors h]

/-! ### What leaves the node lists alone -/

/-- `t` has the words of the nodes, the node free list and the holder counts of `s`. -/
structure SameNodes (s t : State) : Prop where
  links : ∀ n, t.nodeNext n = s.nodeNext n ∧ ((s.nodeLinkWord n).inverted.length ≤ 2 →
    (t.nodeLinkWord n).inverted.length ≤ 2)
  contents : ∀ n, t.named n = s.named n ∧ ((s.contentWord n).inverted.length ≤ 2 →
    (t.contentWord n).inverted.length ≤ 2)
  free : t.pool.nodeHead = s.pool.nodeHead ∧ t.pool.nodeTail = s.pool.nodeTail ∧ t.pool.freeNodes = s.pool.freeNodes
  holders : ∀ d, t.holders d = s.holders d

namespace SameNodes

variable {u : State}

theorem refl (s : State) : SameNodes s s := ⟨fun _ => ⟨rfl, fun h => h⟩, fun _ => ⟨rfl, fun h => h⟩, ⟨rfl, rfl, rfl⟩, fun _ => rfl⟩

theorem trans (h : SameNodes s t) (k : SameNodes t u) : SameNodes s u where
  links n := ⟨(k.links n).1.trans (h.links n).1, fun e => (k.links n).2 ((h.links n).2 e)⟩
  contents n := ⟨(k.contents n).1.trans (h.contents n).1, fun e => (k.contents n).2 ((h.contents n).2 e)⟩
  free := by
    obtain ⟨h1, h2, h3⟩ := h.free
    obtain ⟨k1, k2, k3⟩ := k.free
    exact ⟨k1.trans h1, k2.trans h2, k3.trans h3⟩
  holders d := (k.holders d).trans (h.holders d)

theorem of_eq (hl : t.nodeLinks = s.nodeLinks) (hc : t.nodeContents = s.nodeContents)
    (hf : t.pool.nodeHead = s.pool.nodeHead ∧ t.pool.nodeTail = s.pool.nodeTail ∧ t.pool.freeNodes = s.pool.freeNodes)
    (hd : ∀ d, t.holders d = s.holders d) : SameNodes s t := by
  have links : ∀ n, t.nodeLinkWord n = s.nodeLinkWord n := fun n => by rw [nodeLinkWord, nodeLinkWord, hl]
  have contents : ∀ n, t.contentWord n = s.contentWord n := fun n => by rw [contentWord, contentWord, hc]
  exact ⟨fun n => ⟨congrArg Stored.written (links n), fun h => by rwa [links n]⟩,
    fun n => ⟨congrArg Stored.written (contents n), fun h => by rwa [contents n]⟩, hf, hd⟩

theorem order (h : SameNodes s t) (o : s.NodeOrder queues held owed lists) : t.NodeOrder queues held owed lists where
  bits n := ⟨(h.links n).2 (o.bits n).1, (h.contents n).2 (o.bits n).2⟩
  layout := by
    have next : t.nodeNext = s.nodeNext := funext fun n => (h.links n).1
    have ends : t.nodeEnds queues = s.nodeEnds queues := by
      obtain ⟨h1, h2, h3⟩ := h.free
      funext x
      cases x with
      | none => simp only [nodeEnds, h1, h2, h3]
      | some q => rfl
    rw [next, ends]
    exact o.layout
  holders d := by
    rw [h.holders, listed_congr (s := s) (fun _ => rfl) fun _ n _ => (h.contents n).1]
    exact o.holders d

end SameNodes

/-- A change of a message that leaves its holder count alone. -/
theorem sameNodes_updMessage (w : s.memoriesWf = true) (d : DescNo) {f : Message → Message}
    (hf : ∀ m, (f m).holders = m.holders) : SameNodes s (s.updMessage d f) := by
  obtain ⟨ds, e⟩ := s.updMessage_footprint d f
  refine SameNodes.of_eq (by rw [e]) (by rw [e]) (by rw [e]; exact ⟨rfl, rfl, rfl⟩) fun x => ?_
  by_cases hx : x = d
  · subst hx
    cases hd : s.desc x with
    | free => rw [updMessage, hd]
    | live m => rw [holders_of_live hd, holders_of_live (desc_updMessage (wf_descriptors w) hd f), hf]
  · rw [holders, holders, message, message, desc_updMessage_ne _ hx]

theorem sameNodes_disposeAll (w : s.memoriesWf = true) (d : DescNo) (x : Disposition) (qs : List QueueNo) :
    SameNodes s (s.disposeAll d x qs) := by
  induction qs generalizing s with
  | nil => exact SameNodes.refl s
  | cons q qs ih =>
    exact (sameNodes_updMessage w d (f := Message.dispose q x) fun _ => rfl).trans
      (ih ((Quiet.refl.updMessage d _).memoriesWf w))

/-- A read of a link word stores the value written, where it stores one. -/
theorem sameNodes_readNodeLink (w : s.memoriesWf = true) (h : ∀ n, (s.nodeLinkWord n).inverted.length ≤ 2) (n : NodeNo) :
    SameNodes s (s.readNodeLink n).1 := by
  unfold readNodeLink
  split <;> rename_i v e
  · exact SameNodes.refl s
  · have words : ∀ x, ((s.putNodeLink n ⟨v, []⟩).countCorrection .node).nodeLinkWord x =
        if x = n then ⟨v, []⟩ else s.nodeLinkWord x := fun x =>
      nodeLinkWord_putNodeLink s (wf_nodeLinks w) n x ⟨v, []⟩
    refine ⟨fun x => ?_, fun _ => ⟨rfl, fun k => k⟩, ⟨rfl, rfl, rfl⟩, fun _ => rfl⟩
    rw [nodeNext, words]
    split_ifs with hx
    · subst hx
      exact ⟨written_of_check (h x) (.inr e), fun _ => Nat.zero_le _⟩
    · exact ⟨rfl, fun k => k⟩
  · exact SameNodes.refl s

theorem sameNodes_readContent (w : s.memoriesWf = true) (h : ∀ n, (s.contentWord n).inverted.length ≤ 2) (n : NodeNo) :
    SameNodes s (s.readContent n).1 := by
  unfold readContent
  split <;> rename_i v e
  · exact SameNodes.refl s
  · have words : ∀ x, ((s.putContent n ⟨v, []⟩).countCorrection .node).contentWord x =
        if x = n then ⟨v, []⟩ else s.contentWord x := fun x =>
      contentWord_putContent s (wf_nodeContents w) n x ⟨v, []⟩
    refine ⟨fun _ => ⟨rfl, fun k => k⟩, fun x => ?_, ⟨rfl, rfl, rfl⟩, fun _ => rfl⟩
    rw [named, words]
    split_ifs with hx
    · subst hx
      exact ⟨written_of_check (h x) (.inr e), fun _ => Nat.zero_le _⟩
    · exact ⟨rfl, fun k => k⟩
  · exact SameNodes.refl s

theorem sameNodes_readNode (w : s.memoriesWf = true)
    (h : ∀ n, (s.nodeLinkWord n).inverted.length ≤ 2 ∧ (s.contentWord n).inverted.length ≤ 2) (n : NodeNo) :
    SameNodes s (s.readNode n).1 := by
  have first := sameNodes_readContent w (fun n => (h n).2) n
  exact first.trans (sameNodes_readNodeLink ((Quiet.refl.readContent n).memoriesWf w) (fun x => (first.links x).2 (h x).1) n)

/-- The reads of a node give the values written, or nothing. -/
theorem readNodeLink_written {n : NodeNo} (h : (s.nodeLinkWord n).inverted.length ≤ 2) {x : NodeLink}
    (k : (s.readNodeLink n).2 = some x) : x = s.nodeNext n := by
  unfold readNodeLink at k
  split at k <;> rename_i v e
  · cases k
    exact written_of_check h (.inl e)
  · cases k
    exact written_of_check h (.inr e)
  · cases k

theorem readContent_written {n : NodeNo} (h : (s.contentWord n).inverted.length ≤ 2) {d : DescNo}
    (k : (s.readContent n).2 = some d) : d = s.named n := by
  unfold readContent at k
  split at k <;> rename_i v e
  · cases k
    exact written_of_check h (.inl e)
  · cases k
    exact written_of_check h (.inr e)
  · cases k

/-! ### The node free list (R29, R30) -/

namespace NodeOrder

/-- Fewer nodes and descriptors held beside the lists. -/
theorem mono (o : s.NodeOrder queues held owed lists) (hh : ∀ n, held' n ≤ held n) (ho : ∀ d, owed' d ≤ owed d) :
    s.NodeOrder queues held' owed' lists where
  bits := o.bits
  layout := o.layout.relink (fun _ _ => rfl) hh
  holders d := (Nat.add_le_add_right (ho d) _).trans (o.holders d)

/-- The free list changes, with the link words that it runs through. -/
theorem free (o : s.NodeOrder queues held owed lists) {l : List NodeNo}
    (hb : ∀ n, (t.nodeLinkWord n).inverted.length ≤ 2) (hc : t.nodeContents = s.nodeContents)
    (hd : t.descriptors = s.descriptors)
    (L : Layout t.nodeNext (t.nodeEnds queues) held' (Function.update lists none l)) :
    t.NodeOrder queues held' owed (Function.update lists none l) := by
  have contents : ∀ n, t.contentWord n = s.contentWord n := fun n => by rw [contentWord, contentWord, hc]
  refine ⟨fun n => ⟨hb n, by rw [contents]; exact (o.bits n).2⟩, L, fun d => ?_⟩
  rw [listed_update_none, holders_of_descriptors hd, listed_congr (s := s) (fun _ => rfl) fun _ n _ =>
    congrArg Stored.written (contents n)]
  exact o.holders d

theorem takeHeadNode (w : s.memoriesWf = true) (o : s.NodeOrder queues held owed lists) (p : Port) {n : NodeNo}
    (hn : s.pool.nodeHead = some n) (hh : ∀ a, held' a = held a + if a = n then 1 else 0) :
    ∃ lists', (s.takeHeadNode p n).NodeOrder queues held' owed lists' := by
  have k := (sameNodes_readNodeLink w (fun n => (o.bits n).1) n).order o
  have hp : ((s.readNodeLink n).1).pool = s.pool := by
    obtain ⟨m, i, e⟩ := s.readNodeLink_footprint n
    rw [e]
  have hx := fun x => readNodeLink_written (o.bits n).1 (x := x)
  have hw := ((sameNodes_readNodeLink w (fun n => (o.bits n).1) n).links n).1
  have head : ((s.readNodeLink n).1.nodeEnds queues none).head = some n := (congrArg Pool.nodeHead hp).trans hn
  obtain ⟨as, hl, _⟩ := k.layout.head_cons head
  unfold State.takeHeadNode
  split <;> rename_i s1 _ e <;> rw [e] at k hp hw hx
  · rename_i x
    have hx := hx x rfl
    refine ⟨_, k.free (fun n => (k.bits n).1) rfl rfl (k.layout.pop hl ?_ ?_ fun b => (hh b).le)⟩
    · rw [hw, ← hx]
      rfl
    · rintro (_ | q) hq
      · exact absurd rfl hq
      · rfl
  · refine ⟨_, k.free (fun n => (k.bits n).1) rfl rfl (k.layout.clear none rfl ?_ fun b => ?_)⟩
    · rintro (_ | q) hq
      · exact absurd rfl hq
      · rfl
    · rw [hl, hh, List.count_cons]
      simp only [beq_iff_eq, eq_comm (a := n) (b := b)]
      omega

theorem takeNodes (w : s.memoriesWf = true) (o : s.NodeOrder queues held owed lists) (p : Port) (k : Nat)
    (acc : List NodeNo) : ∃ ms lists', (takeNodes p k s acc).2.1 = acc ++ ms ∧
      (takeNodes p k s acc).1.NodeOrder queues (fun a => held a + ms.count a) owed lists' := by
  induction k generalizing s acc held lists with
  | zero => exact ⟨[], lists, (List.append_nil _).symm, o⟩
  | succ k ih =>
    cases hn : s.pool.nodeHead with
    | none =>
      rw [takeNodes_none hn]
      exact ⟨[], lists, (List.append_nil _).symm, o⟩
    | some n =>
      rw [takeNodes_some hn]
      obtain ⟨l1, o1⟩ := o.takeHeadNode w p hn fun _ => rfl
      obtain ⟨ms, l2, e, o2⟩ := ih ((Quiet.refl.takeHeadNode p n).memoriesWf w) o1 (acc ++ [n])
      refine ⟨n :: ms, l2, by rw [e, List.append_assoc]; rfl, o2.mono (fun a => ?_) fun _ => Nat.le_refl _⟩
      rw [List.count_cons]
      simp only [beq_iff_eq, eq_comm (a := n) (b := a)]
      omega

theorem returnNode (w : s.memoriesWf = true) (o : s.NodeOrder queues held owed lists) {n : NodeNo} (hn : 1 ≤ held n)
    (hh : ∀ a, (held' a + if a = n then 1 else 0) ≤ held a) :
    ∃ lists', (s.returnNode n).NodeOrder queues held' owed lists' := by
  obtain ⟨pool, own, old, others⟩ := returnNode_words w n
  obtain ⟨m, x, y, pl, frame⟩ := s.returnNode_footprint n
  have apart : s.pool.nodeTail ≠ some n := fun e => by
    have := o.layout.extra_of_mem (o.layout.tail_mem (i := none) e)
    omega
  have words : ∀ e, (s.returnNode n).nodeLinkWord e = if e = n then ⟨none, injected s .node⟩ else
      if s.pool.nodeTail = some e then ⟨some n, []⟩ else s.nodeLinkWord e := fun e => by
    split_ifs with h1 h2
    · rw [h1, own apart]
    · exact old e h2
    · exact others e h1 h2
  have free : (s.returnNode n).nodeEnds queues none = ⟨if s.pool.nodeTail = none then some n else s.pool.nodeHead,
      some n, s.pool.freeNodes + 1⟩ := by rw [nodeEnds, pool]
  refine ⟨_, o.free (fun e => ?_) (by rw [frame]) (by rw [frame]) (o.layout.push (i := none) hn ?_ (fun t ht => ?_)
    (fun b h1 h2 => ?_) (fun e => ?_) (fun e => ?_) ?_ ?_ ?_ hh)⟩
  · rw [words]
    split_ifs
    · exact s.length_injected _
    · exact Nat.zero_le _
    · exact (o.bits e).1
  · rw [nodeNext, words, if_pos rfl]
  · rw [nodeNext, old t ht]
  · rw [nodeNext, others b h1 h2]
    rfl
  · rw [free]
    exact if_pos e
  · rw [free]
    exact if_neg e
  · rw [free]
  · rw [free]
    rfl
  · rintro (_ | q) hq
    · exact absurd rfl hq
    · rfl

theorem returnNodes (w : s.memoriesWf = true) (ns : List NodeNo) (o : s.NodeOrder queues held owed lists)
    (hh : ∀ a, held' a + ns.count a ≤ held a) : ∃ lists', (s.returnNodes ns).NodeOrder queues held' owed lists' := by
  induction ns generalizing s held lists with
  | nil => exact ⟨lists, o.mono (fun a => hh a) fun _ => Nat.le_refl _⟩
  | cons n ns ih =>
    have count : ∀ a, (n :: ns).count a = ns.count a + if a = n then 1 else 0 := fun a => by
      rw [List.count_cons]
      simp only [beq_iff_eq, eq_comm (a := n) (b := a)]
    have one := hh n
    rw [count, if_pos rfl] at one
    obtain ⟨l1, o1⟩ := o.returnNode w (n := n) (held' := fun a => held' a + ns.count a) (by omega) fun a => by
      have := hh a
      rw [count] at this
      omega
    exact ih ((Quiet.refl.returnNode n).memoriesWf w) o1 fun _ => Nat.le_refl _

/-- An allocation takes the nodes that it gives, and none where it gives none. -/
theorem allocateNodes (w : s.memoriesWf = true) (o : s.NodeOrder queues held owed lists) (p : Port) (k : Nat) :
    ∃ lists', (s.allocateNodes p k).1.NodeOrder queues
      (fun a => held a + ((s.allocateNodes p k).2.getD []).count a) owed lists' := by
  obtain ⟨ms, l, hm, o1⟩ := o.takeNodes w p k []
  have w1 := ((Quiet.refl (s := s)).takeNodes p k []).memoriesWf w
  unfold State.allocateNodes
  split <;> rename_i s1 ns e <;> rw [e] at hm o1 w1 <;> obtain rfl : ns = ms := hm
  · exact ⟨l, o1⟩
  · exact o1.returnNodes w1 ns fun _ => Nat.le_refl _

end NodeOrder

end Sys2Proof.Machine.State
end

section
/-!
SUPPORT. The operations on the queues' lists (R21, R22, R51, R56, R61): the holders that a descriptor gains and loses, the head of a list taken, a list
given up, and the appends of one request.
-/
namespace Sys2Proof.Machine.State

variable {s t : State} {queues queues' : QueueNo → ListEnds NodeNo} {held held' : NodeNo → Nat} {owed owed' : DescNo → Nat}
  {lists : Option QueueNo → List NodeNo}

namespace NodeOrder

/-! ### Holders gained and lost -/

/-- The holder counts move with the holders beside the lists. -/
theorem counts (o : s.NodeOrder queues held owed lists) (hl : t.nodeLinks = s.nodeLinks)
    (hc : t.nodeContents = s.nodeContents)
    (hf : t.pool.nodeHead = s.pool.nodeHead ∧ t.pool.nodeTail = s.pool.nodeTail ∧ t.pool.freeNodes = s.pool.freeNodes)
    (hh : ∀ d, owed' d + s.holders d ≤ owed d + t.holders d) : t.NodeOrder queues held owed' lists := by
  have links : ∀ n, t.nodeLinkWord n = s.nodeLinkWord n := fun n => by rw [nodeLinkWord, nodeLinkWord, hl]
  have contents : ∀ n, t.contentWord n = s.contentWord n := fun n => by rw [contentWord, contentWord, hc]
  have next : t.nodeNext = s.nodeNext := funext fun n => congrArg Stored.written (links n)
  have ends : t.nodeEnds queues = s.nodeEnds queues := by
    obtain ⟨h1, h2, h3⟩ := hf
    funext x
    cases x with
    | none => simp only [nodeEnds, h1, h2, h3]
    | some q => rfl
  refine ⟨fun n => ?_, ?_, fun d => ?_⟩
  · rw [links, contents]
    exact o.bits n
  · rw [next, ends]
    exact o.layout
  · rw [listed_congr (s := s) (lists := lists) (fun _ => rfl) fun _ n _ => congrArg Stored.written (contents n)]
    have := o.holders d
    have := hh d
    omega

/-- A descriptor that something beside the lists holds is live. -/
theorem live (o : s.NodeOrder queues held owed lists) {d : DescNo} (hd : 1 ≤ owed d) :
    ∃ m, s.desc d = .live m ∧ 1 ≤ m.holders := by
  have h : 1 ≤ s.holders d := hd.trans ((Nat.le_add_right _ _).trans (o.holders d))
  obtain ⟨m, hm, e⟩ := live_of_holders h
  exact ⟨m, hm, h.trans_eq e.symm⟩

/-- A holder beside the lists gives up its descriptor. -/
theorem dropHolder (w : s.memoriesWf = true) (o : s.NodeOrder queues held owed lists) {d : DescNo} (hd : 1 ≤ owed d)
    (hh : ∀ e, (owed' e + if e = d then 1 else 0) ≤ owed e) : (s.dropHolder d).NodeOrder queues held owed' lists := by
  obtain ⟨m, hm, h1⟩ := o.live hd
  obtain ⟨many, one, -, others, count⟩ := dropHolder_spec w hm h1
  obtain ⟨l, x, y, pl, sh, ds, ev, frame⟩ := s.dropHolder_footprint d
  refine o.counts (by rw [frame]) (by rw [frame]) ?_ fun e => ?_
  · by_cases k : m.holders = 1
    · obtain ⟨-, -, h1, h2, h3, -⟩ := one k
      exact ⟨h1, h2, h3⟩
    · rw [many k]
      exact ⟨rfl, rfl, rfl⟩
  · have he := hh e
    by_cases k : e = d
    · rw [k, if_pos rfl] at he
      rw [k, count, holders_of_live hm]
      omega
    · have same : (s.dropHolder d).holders e = s.holders e := by
        rw [State.holders, State.holders, message, message, others e k]
      rw [if_neg k] at he
      rw [same]
      omega

/-- A FREE descriptor takes a record with one holder. -/
theorem allocate (w : s.memoriesWf = true) (o : s.NodeOrder queues held owed lists) {d : DescNo} {m : Message}
    (hd : s.desc d = .free) (hm : m.holders = 1) (hh : ∀ e, owed' e = owed e + if e = d then 1 else 0) :
    (s.setDesc d (.live m)).NodeOrder queues held owed' lists := by
  refine o.counts rfl rfl ⟨rfl, rfl, rfl⟩ fun e => ?_
  have he := hh e
  have desc := desc_setDesc s (wf_descriptors w) d e (.live m)
  by_cases k : e = d
  · rw [if_pos k] at he desc
    rw [holders_of_live desc, k, holders_of_free hd, ← k]
    omega
  · rw [if_neg k] at he desc
    rw [State.holders, State.holders, message, message, desc]
    omega

/-! ### The head of a list taken, and a list given up (R56, R58, R64) -/

theorem behead (o : s.NodeOrder queues held owed lists) {q : QueueNo} {n : NodeNo} (hq : (queues q).head = some n)
    (he : queues' q = ⟨s.nodeNext n, if s.nodeNext n = none then none else (queues q).tail, (queues q).count - 1⟩)
    (hr : ∀ r, r ≠ q → queues' r = queues r) (hh : ∀ a, held' a = held a + if a = n then 1 else 0)
    (ho : ∀ d, owed' d = owed d + if d = s.named n then 1 else 0) :
    ∃ lists', s.NodeOrder queues' held' owed' lists' := by
  obtain ⟨as, hl, -⟩ := o.layout.head_cons (i := some q) hq
  refine ⟨_, o.bits, o.layout.pop hl he ?_ fun a => (hh a).le, fun d => ?_⟩
  · rintro (_ | r) hne
    · rfl
    · exact hr r fun k => hne (congrArg some k)
  · have count := s.listed_update_some lists q as d
    have total := o.holders d
    rw [hl, List.countP_cons] at count
    rw [ho]
    simp only [decide_eq_true_eq, eq_comm (a := s.named n) (b := d)] at count
    omega

theorem close (o : s.NodeOrder queues held owed lists) (q : QueueNo) (he : queues' q = .empty)
    (hr : ∀ r, r ≠ q → queues' r = queues r) : ∃ lists', s.NodeOrder queues' held owed lists' := by
  refine ⟨_, o.bits, o.layout.clear (some q) he ?_ fun a => Nat.le_add_right _ _, fun d => ?_⟩
  · rintro (_ | r) hne
    · rfl
    · exact hr r fun k => hne (congrArg some k)
  · have count := s.listed_update_some lists q [] d
    have total := o.holders d
    rw [List.countP_nil] at count
    omega

/-- A queue that lists nodes has a head. -/
theorem exists_head (o : s.NodeOrder queues held owed lists) {q : QueueNo} (hq : (queues q).count ≠ 0) :
    ∃ n, (queues q).head = some n := by
  have run := o.layout.run (some q)
  cases e : lists (some q) with
  | nil => exact absurd ((o.layout.count_eq_zero (some q)).mpr e) hq
  | cons n as =>
    rw [e] at run
    exact ⟨n, run.1⟩

/-- A list without nodes has no ends. -/
theorem empty (o : s.NodeOrder queues held owed lists) {q : QueueNo} (hq : (queues q).count = 0) : queues q = .empty := by
  have e := (o.layout.count_eq_zero (some q)).mp hq
  have head := o.layout.run (some q)
  have tail := (o.layout.tail_eq_none (some q)).mpr e
  rw [e] at head
  change (queues q).head = none at head
  change (queues q).tail = none at tail
  cases h : queues q
  rw [h] at hq head tail
  cases hq
  cases head
  cases tail
  rfl

/-! ### Appends (R51) -/

theorem appendNode (w : s.memoriesWf = true) (o : s.NodeOrder s.queueEnds held owed lists) {n : NodeNo} {d : DescNo}
    {q : QueueNo} {lq : LiveQueue} (hq : s.queue q = .live lq) (hn : 1 ≤ held n) (hd : 1 ≤ owed d)
    (hh : ∀ a, (held' a + if a = n then 1 else 0) ≤ held a) :
    ∃ lists', (s.appendNode n d q lq).NodeOrder (s.appendNode n d q lq).queueEnds held' owed lists' := by
  obtain ⟨m, hm, -⟩ := o.live hd
  obtain ⟨desc, others, -, -, content, contents, -⟩ := appendNode_effect w hm n q lq
  have queue := appendNode_queue w n d q lq
  obtain ⟨c, ml, x, y, qs, ds, ev, frame⟩ := s.appendNode_footprint n d q lq
  have ends : s.queueEnds q = ⟨lq.head, lq.tail, lq.depth⟩ := congrArg Queue.ends hq
  have none_iff : lq.depth = 0 ↔ lq.tail = none := by
    have h1 := o.layout.tail_eq_none (some q)
    have h2 := o.layout.count_eq_zero (some q)
    rw [nodeEnds, ends] at h1 h2
    exact h2.trans h1.symm
  have absent : ∀ r, n ∉ lists (some r) := fun r hr => by
    have := o.layout.extra_of_mem hr
    omega
  have apart : lq.tail ≠ some n := fun e => absent q (o.layout.tail_mem (i := some q) (by rw [nodeEnds, ends]; exact e))
  have link : ∀ e, (s.appendNode n d q lq).nodeLinkWord e = if e = n then ⟨none, []⟩ else
      if lq.tail = some e then ⟨some n, []⟩ else s.nodeLinkWord e := fun e => by
    obtain ⟨own, old, rest⟩ := appendWords_links w n d lq
    have tl : (if lq.depth = 0 then none else lq.tail) = lq.tail := by
      split_ifs with h
      · exact (none_iff.mp h).symm
      · rfl
    rw [tl] at own old rest
    rw [(appendNode_words s n d q lq).1]
    split_ifs with h1 h2
    · rw [h1, own apart]
    · exact old e h2
    · exact rest e h1 h2
  have ends' : (s.appendNode n d q lq).queueEnds q = ⟨if lq.depth = 0 then some n else lq.head, some n, lq.depth + 1⟩ := by
    rw [queueEnds, queue, if_pos rfl]
    rfl
  have bits : ∀ e, ((s.appendNode n d q lq).nodeLinkWord e).inverted.length ≤ 2 ∧
      ((s.appendNode n d q lq).contentWord e).inverted.length ≤ 2 := fun e => by
    refine ⟨?_, ?_⟩
    · rw [link]
      split_ifs
      · exact Nat.zero_le _
      · exact Nat.zero_le _
      · exact (o.bits e).1
    · by_cases he : e = n
      · rw [he, content, armBits_eq_injected]
        exact s.length_injected _
      · rw [contents e he]
        exact (o.bits e).2
  refine ⟨_, bits, o.layout.push (i := some q) (a := n) hn ?_ (fun t ht => ?_) (fun b h1 h2 => ?_) (fun e => ?_)
    (fun e => ?_) ?_ ?_ ?_ hh, fun e => ?_⟩
  · rw [nodeNext, link, if_pos rfl]
  · rw [nodeEnds, ends] at ht
    have : t ≠ n := fun k => apart (k ▸ ht)
    rw [nodeNext, link, if_neg this, if_pos ht]
  · rw [nodeEnds, ends] at h2
    rw [nodeNext, link, if_neg h1, if_neg h2]
    rfl
  · rw [nodeEnds, ends] at e
    rw [nodeEnds, ends']
    exact if_pos (none_iff.mpr e)
  · rw [nodeEnds, ends] at e
    rw [nodeEnds, ends', nodeEnds, ends]
    exact if_neg fun k => e (none_iff.mp k)
  · rw [nodeEnds, ends']
  · rw [nodeEnds, ends', nodeEnds, ends]
  · rintro (_ | r) hne
    · rw [nodeEnds, nodeEnds, frame]
    · rw [nodeEnds, queueEnds, queue, if_neg fun k => hne (congrArg some k)]
      rfl
  · have count := (s.appendNode n d q lq).listed_update_some lists q (lists (some q) ++ [n]) e
    have same : (s.appendNode n d q lq).listed lists e = s.listed lists e :=
      listed_congr (fun _ => rfl) fun r a ha => congrArg Stored.written (contents a fun k => absent r (k ▸ ha))
    have name : (s.appendNode n d q lq).named n = d := congrArg Stored.written content
    have total := o.holders e
    rw [same, List.countP_append, List.countP_singleton, name] at count
    simp only [decide_eq_true_eq, eq_comm (a := d) (b := e)] at count
    by_cases he : e = d
    · rw [he, holders_of_live hm] at total
      rw [he, if_pos rfl] at count
      rw [he, holders_of_live desc]
      change _ ≤ m.holders + 1
      omega
    · have keep : (s.appendNode n d q lq).holders e = s.holders e := by
        rw [State.holders, State.holders, message, message, others e he]
      rw [if_neg he] at count
      rw [keep]
      omega

theorem appendAll (w : s.memoriesWf = true) {d : DescNo} (hd : 1 ≤ owed d) (qs : List QueueNo) (ns : List NodeNo)
    (o : s.NodeOrder s.queueEnds held owed lists) (hh : ∀ a, held' a + ns.count a ≤ held a) :
    ∃ lists', (s.appendAll d qs ns).NodeOrder (s.appendAll d qs ns).queueEnds held' owed lists' := by
  have rest : ∀ {u : State}, u.NodeOrder u.queueEnds held owed lists → u.NodeOrder u.queueEnds held' owed lists := fun k =>
    k.mono (fun a => (Nat.le_add_right _ _).trans (hh a)) fun _ => Nat.le_refl _
  induction qs generalizing s ns held lists with
  | nil => exact ⟨lists, rest o⟩
  | cons q qs ih =>
    cases ns with
    | nil => exact ⟨lists, rest o⟩
    | cons n ns =>
      have count : ∀ a, (n :: ns).count a = ns.count a + if a = n then 1 else 0 := fun a => by
        rw [List.count_cons]
        simp only [beq_iff_eq, eq_comm (a := n) (b := a)]
      simp only [count] at hh
      rw [State.appendAll]
      split
      · rename_i lq hq
        have one := hh n
        rw [if_pos rfl] at one
        obtain ⟨l1, o1⟩ := o.appendNode w (held' := fun a => held' a + ns.count a) hq (n := n) (by omega) hd fun a => by
          have := hh a
          omega
        exact ih ((Quiet.refl.appendNode n d q lq).memoriesWf w) ns o1 (fun _ => Nat.le_refl _)
          fun k => k.mono (fun a => Nat.le_add_right _ _) fun _ => Nat.le_refl _
      · exact ih w ns o (fun a => by have := hh a; omega) rest

end NodeOrder
end Sys2Proof.Machine.State
end

section
/-!
SUPPORT. Every step keeps the node lists (R3, R21, R29, R42, R51, R56, R97): the edits that leave them alone, the operations that take, link and return
nodes, and the rebuilds; O59.
-/
namespace Sys2Proof.Machine.State

variable {s t : State} {queues : QueueNo → ListEnds NodeNo} {held : NodeNo → Nat} {owed : DescNo → Nat}
  {lists : Option QueueNo → List NodeNo}

/-! ### The owners of nodes and descriptors -/

/-- The records that the node lists depend on. -/
def nodeTables (s : State) :=
  (s.nodeLinks, s.nodeContents, s.pool, s.descriptors, s.queues, s.compose, s.receive)

/-- Who lists nodes, and who holds nodes and descriptors beside the lists. -/
structure SameOwners (s t : State) : Prop where
  queues : ∀ q, t.queueEnds q = s.queueEnds q
  compose : ∀ p c, (t.composeSlot p c).holder = (s.composeSlot p c).holder
  receive : ∀ p r, (t.receiveSlot p r).holder = (s.receiveSlot p r).holder

theorem SameOwners.of_eq (hq : t.queues = s.queues) (hc : t.compose = s.compose) (hr : t.receive = s.receive) :
    SameOwners s t where
  queues q := congrArg Queue.ends (queue_of_queues hq q)
  compose p c := congrArg ComposeSlot.holder (composeSlot_of_compose hc p c)
  receive p r := congrArg ReceiveSlot.holder (receiveSlot_of_receive hr p r)

theorem SameOwners.trans {u : State} (h : SameOwners s t) (k : SameOwners t u) : SameOwners s u where
  queues q := (k.queues q).trans (h.queues q)
  compose p c := (k.compose p c).trans (h.compose p c)
  receive p r := (k.receive p r).trans (h.receive p r)

theorem SameOwners.heldCount (h : SameOwners s t) (n : NodeNo) : t.heldCount n = s.heldCount n := by
  simp only [State.heldCount, h.receive]

theorem SameOwners.owedCount (h : SameOwners s t) (d : DescNo) : t.owedCount d = s.owedCount d := by
  simp only [State.owedCount, h.compose, h.receive]

theorem queueEnds_setQueue (w : s.memoriesWf = true) (q : QueueNo) (x : Queue) :
    (s.setQueue q x).queueEnds = Function.update s.queueEnds q x.ends := by
  funext r
  rw [queueEnds, queue_setQueue s (wf_queues w)]
  by_cases h : r = q
  · rw [if_pos h, h, Function.update_self]
  · rw [if_neg h, Function.update_of_ne h]
    rfl

namespace NodesKept

/-- A layout with the queues' own ends that accounts for the slots' nodes and descriptors. -/
theorem of_order (w : t.memoriesWf = true) (o : t.NodeOrder queues held owed lists) (hq : ∀ q, t.queueEnds q = queues q)
    (hh : ∀ n, t.heldCount n ≤ held n) (ho : ∀ d, t.owedCount d ≤ owed d) : t.NodesKept := by
  obtain rfl : t.queueEnds = queues := funext hq
  exact ⟨w, lists, o.mono hh ho⟩

/-- The owners as they are in a state whose counts the layout has. -/
theorem of_owners (w : t.memoriesWf = true) (k : SameOwners s t) (o : t.NodeOrder s.queueEnds held owed lists)
    (hh : ∀ n, s.heldCount n ≤ held n) (ho : ∀ d, s.owedCount d ≤ owed d) : t.NodesKept :=
  of_order w o k.queues (fun n => (k.heldCount n).trans_le (hh n)) fun d => (k.owedCount d).trans_le (ho d)

theorem same (i : s.NodesKept) (w : s.memoriesWf = true → t.memoriesWf = true) (h : SameNodes s t)
    (k : SameOwners s t) : t.NodesKept := by
  obtain ⟨ws, lists, o⟩ := i
  exact of_owners (w ws) k (h.order o) (fun _ => Nat.le_refl _) fun _ => Nat.le_refl _

/-- A change beside the tables that the node lists depend on. -/
theorem beside (i : s.NodesKept) (w : s.memoriesWf = true → t.memoriesWf = true) (e : t.nodeTables = s.nodeTables) :
    t.NodesKept := by
  simp only [nodeTables, Prod.mk.injEq] at e
  obtain ⟨hl, hc, hp, hd, hq, hcs, hr⟩ := e
  refine i.same w (SameNodes.of_eq hl hc ?_ fun d => holders_of_descriptors hd d) (SameOwners.of_eq hq hcs hr)
  rw [hp]
  exact ⟨rfl, rfl, rfl⟩

/-- A queue record is set to the ends that the layout has for it. -/
theorem setQueue (w : s.memoriesWf = true) {q : QueueNo} {x : Queue}
    (o : s.NodeOrder (Function.update s.queueEnds q x.ends) held owed lists)
    (hh : ∀ n, s.heldCount n ≤ held n) (ho : ∀ d, s.owedCount d ≤ owed d) : (s.setQueue q x).NodesKept := by
  have frame : SameNodes s (s.setQueue q x) := SameNodes.of_eq rfl rfl ⟨rfl, rfl, rfl⟩ fun _ => rfl
  exact of_order ((Quiet.refl.queue q x).memoriesWf w) (frame.order o) (congrFun (queueEnds_setQueue w q x)) hh ho

end NodesKept

/-! ### Operations that change no owner -/

theorem sameOwners_updMessage (s : State) (d : DescNo) (f : Message → Message) : SameOwners s (s.updMessage d f) := by
  obtain ⟨ds, e⟩ := s.updMessage_footprint d f
  rw [e]
  exact SameOwners.of_eq rfl rfl rfl

theorem sameOwners_dropHolder (s : State) (d : DescNo) : SameOwners s (s.dropHolder d) := by
  obtain ⟨_, _, _, _, _, _, _, e⟩ := s.dropHolder_footprint d
  rw [e]
  exact SameOwners.of_eq rfl rfl rfl

theorem sameOwners_returnNode (s : State) (n : NodeNo) : SameOwners s (s.returnNode n) := by
  obtain ⟨_, _, _, _, e⟩ := s.returnNode_footprint n
  rw [e]
  exact SameOwners.of_eq rfl rfl rfl

theorem sameOwners_allocateNodes (s : State) (p : Port) (k : Nat) : SameOwners s (s.allocateNodes p k).1 := by
  obtain ⟨_, _, _, _, _, e⟩ := s.allocateNodes_footprint p k
  rw [e]
  exact SameOwners.of_eq rfl rfl rfl

theorem sameOwners_disposeAll (s : State) (d : DescNo) (x : Disposition) (qs : List QueueNo) :
    SameOwners s (s.disposeAll d x qs) := by
  obtain ⟨_, e⟩ := s.disposeAll_footprint d x qs
  rw [e]
  exact SameOwners.of_eq rfl rfl rfl

theorem sameOwners_readNode (s : State) (n : NodeNo) : SameOwners s (s.readNode n).1 := by
  obtain ⟨_, _, _, e⟩ := s.readNode_footprint n
  rw [e]
  exact SameOwners.of_eq rfl rfl rfl

theorem edits_nodes : Edits NodesKept where
  front p x h := h.beside (kept_memoriesWf.front p x) rfl
  event p x hx h := h.beside (kept_memoriesWf.event p x hx) rfl
  port p x r h := h.beside (kept_memoriesWf.port p x r) rfl
  compose x hx h := h.same (kept_memoriesWf.compose x hx) (SameNodes.of_eq rfl rfl ⟨rfl, rfl, rfl⟩ fun _ => rfl)
    ⟨fun _ => rfl, hx, fun _ _ => rfl⟩
  receive {s} p r x hx h := by
    refine h.same (kept_memoriesWf.receive p r x hx) (SameNodes.of_eq rfl rfl ⟨rfl, rfl, rfl⟩ fun _ => rfl)
      ⟨fun _ => rfl, fun _ _ => rfl, fun q y => ?_⟩
    by_cases k : (q, y) = (p, r)
    · cases k
      rw [receiveSlot_setReceiveSlot_self, hx]
    · rw [receiveSlot_setReceiveSlot_ne s k]
  shares x h := h.beside (kept_memoriesWf.shares x) rfl
  integrity x hx h := h.beside (kept_memoriesWf.integrity x hx) rfl
  mgmt x hx h := h.beside (kept_memoriesWf.mgmt x hx) rfl
  mint x h := h.beside (kept_memoriesWf.mint x) rfl
  timeouts x h := h.beside (kept_memoriesWf.timeouts x) rfl
  arm a l h := h.beside (kept_memoriesWf.arm a l) rfl
  fresh n h := h.beside (kept_memoriesWf.fresh n) rfl
  pool x hx h := by
    obtain ⟨-, -, -, h1, h2, h3⟩ := id hx
    exact h.same (kept_memoriesWf.pool x hx) (SameNodes.of_eq rfl rfl ⟨h1, h2, h3⟩ fun _ => rfl)
      (SameOwners.of_eq rfl rfl rfl)
  queue {s} q x hx h := by
    obtain ⟨w, lists, o⟩ := h
    have others : ∀ r, r ≠ q → Function.update s.queueEnds q x.ends r = s.queueEnds r := fun r hr =>
      Function.update_of_ne hr _ _
    rcases hx with hx | hx
    · have e : Function.update s.queueEnds q x.ends = s.queueEnds := by
        rw [hx]
        exact Function.update_eq_self q s.queueEnds
      rw [← e] at o
      exact NodesKept.setQueue w o (fun _ => Nat.le_refl _) fun _ => Nat.le_refl _
    · obtain ⟨l, o⟩ := o.close q ((Function.update_self q x.ends s.queueEnds).trans hx) others
      exact NodesKept.setQueue w o (fun _ => Nat.le_refl _) fun _ => Nat.le_refl _
  message {s} d f hf h := by
    obtain ⟨w, lists, o⟩ := id h
    refine h.same (kept_memoriesWf.message d f hf) (sameNodes_updMessage w d fun m => ?_) (s.sameOwners_updMessage d f)
    obtain ⟨-, -, -, holders⟩ := hf m
    exact holders
  payload c w x h := h.beside (kept_memoriesWf.payload c w x) rfl
  readCellLink {s} c h := by
    obtain ⟨m, i, e⟩ := s.readCellLink_footprint c
    exact h.beside (kept_memoriesWf.readCellLink c) (by rw [e]; rfl)

/-! ### Compose slots (R86, R87, R91) -/

/-- A compose slot gives up the descriptor that it holds. -/
theorem owedCount_vacated {p : Port} {c : ComposeNo} {d : DescNo} (h : (s.composeSlot p c).holder = some d)
    {x : ComposeSlot} (hx : x.holder = none) (e : DescNo) :
    ((s.setComposeSlot p c x).owedCount e + if e = d then 1 else 0) = s.owedCount e := by
  have k := s.owedCount_setComposeSlot p c x e
  rw [h, hx, if_neg (nofun : ¬(none : Option DescNo) = some e)] at k
  rw [Nat.add_zero] at k
  simp only [Option.some.injEq, eq_comm (a := d)] at k
  exact k

theorem holder_composing {p : Port} {c : ComposeNo} {k : Composing} (hk : (s.composeSlot p c).phase.composing = some k) :
    (s.composeSlot p c).holder = some k.desc := by
  rw [ComposeSlot.holder, hk]
  rfl

theorem one_le_owedCount {p : Port} {c : ComposeNo} {k : Composing} (hk : (s.composeSlot p c).phase.composing = some k) :
    1 ≤ s.owedCount k.desc := by
  have h := owedCount_vacated (holder_composing hk) (x := ⟨.idle, false, false⟩) rfl k.desc
  rw [if_pos rfl] at h
  omega

/-- A compose slot lets go of its message. -/
theorem nodesKept_letGo {p : Port} {c : ComposeNo} {k : Composing} (hk : (s.composeSlot p c).phase.composing = some k)
    (i : s.NodesKept) : ((s.idleSlot p c).dropHolder k.desc).NodesKept := by
  obtain ⟨w, lists, o⟩ := i
  have wi : (s.idleSlot p c).memoriesWf = true := w
  have frame : SameNodes s (s.idleSlot p c) := SameNodes.of_eq rfl rfl ⟨rfl, rfl, rfl⟩ fun _ => rfl
  have dropped := (frame.order o).dropHolder wi (one_le_owedCount hk) fun e =>
    (owedCount_vacated (holder_composing hk) (x := { s.composeSlot p c with phase := .idle }) rfl e).le
  exact NodesKept.of_owners ((Quiet.refl.dropHolder k.desc).memoriesWf wi) ((s.idleSlot p c).sameOwners_dropHolder k.desc)
    dropped (fun _ => Nat.le_refl _) fun _ => Nat.le_refl _

theorem nodesKept_abandonSlot {p : Port} {c : ComposeNo} {k : Composing}
    (hk : (s.composeSlot p c).phase.composing = some k) (i : s.NodesKept) : (s.abandonSlot p c k).NodesKept := by
  obtain ⟨ds, e⟩ := s.updMessage_footprint k.desc fun m => { m with state := .abandoned }
  refine nodesKept_letGo (s := s.updMessage k.desc fun m => { m with state := .abandoned }) ?_
    (edits_nodes.message _ _ (fun _ => ⟨rfl, rfl, rfl, rfl⟩) i)
  rw [e]
  exact hk

/-! ### Link requests (R50, R51, R85) -/

theorem nodesKept_appendAll {d : DescNo} (w : s.memoriesWf = true) (o : s.NodeOrder s.queueEnds held owed lists)
    (hd : 1 ≤ owed d) (qs : List QueueNo) (ns : List NodeNo) (hh : ∀ a, s.heldCount a + ns.count a ≤ held a)
    (ho : ∀ e, s.owedCount e ≤ owed e) : (s.appendAll d qs ns).NodesKept := by
  obtain ⟨l, o⟩ := o.appendAll w hd qs ns hh
  obtain ⟨_, _, _, _, _, _, _, e⟩ := s.appendAll_footprint d qs ns
  have hc : (s.appendAll d qs ns).compose = s.compose := by rw [e]
  have hr : (s.appendAll d qs ns).receive = s.receive := by rw [e]
  exact NodesKept.of_order ((Quiet.appendAll d qs ns Quiet.refl).memoriesWf w) o (fun _ => rfl)
    (fun n => (heldCount_of_receive hr n).le) fun e => (owedCount_of_slots hc hr e).trans_le (ho e)

theorem nodesKept_disposeAll (d : DescNo) (x : Disposition) (qs : List QueueNo) (i : s.NodesKept) :
    (s.disposeAll d x qs).NodesKept :=
  i.same (Quiet.disposeAll d x qs Quiet.refl).memoriesWf (sameNodes_disposeAll i.1 d x qs) (s.sameOwners_disposeAll d x qs)

/-- The link request of a seal appends the nodes that it takes, for a descriptor that its slot holds (R85). -/
theorem nodesKept_examine (p : Port) {d : DescNo} (m : Message) (hd : 1 ≤ s.owedCount d) (i : s.NodesKept) :
    (s.examine p d m).1.NodesKept := by
  obtain ⟨w, lists, o⟩ := id i
  unfold examine
  dsimp only
  split
  · exact i
  · split_ifs
    · exact i
    · obtain ⟨l1, o1⟩ := o.allocateNodes w p (roomDests (s.admittedDests p m.pendingDests)).length
      have w1 := ((Quiet.refl (s := s)).allocateNodes p (roomDests (s.admittedDests p m.pendingDests)).length).memoriesWf w
      have own := s.sameOwners_allocateNodes p (roomDests (s.admittedDests p m.pendingDests)).length
      split <;> rename_i s1 _ e <;> rw [e] at o1 w1 own
      · exact NodesKept.of_owners w1 own o1 (fun _ => Nat.le_add_right _ _) fun _ => Nat.le_refl _
      · rename_i ns
        rw [← funext own.queues] at o1
        exact nodesKept_disposeAll d _ _ (nodesKept_disposeAll d _ _ (nodesKept_appendAll w1 o1 hd _ ns
          (fun a => Nat.add_le_add_right (own.heldCount a).le _) fun e => (own.owedCount e).le))

end Sys2Proof.Machine.State
end

section
/-!
SUPPORT. Every step keeps the node lists (R3, R21, R29, R42, R51, R56, R97): seals, releases, the reads of a head node, drains, BEGIN and the rebuilds;
O59.
-/
namespace Sys2Proof.Machine.State

variable {s t : State} {queues : QueueNo → ListEnds NodeNo} {held : NodeNo → Nat} {owed : DescNo → Nat}
  {lists : Option QueueNo → List NodeNo}

/-! ### Seals (R84 to R87) -/

theorem nodesKept_sealSlot {p : Port} {c : ComposeNo} {k : Composing} (m : Message) (n : Nat)
    (hk : (s.composeSlot p c).phase.composing = some k) (i : s.NodesKept) : (s.sealSlot p c k m n).state.NodesKept := by
  have x := nodesKept_examine p m (one_le_owedCount hk) i
  have slot : (s.examine p k.desc m).1.composeSlot p c = s.composeSlot p c := by
    obtain ⟨_, _, _, _, _, _, _, _, _, e⟩ := s.examine_footprint p k.desc m
    exact composeSlot_of_compose (by rw [e]) p c
  rw [← slot] at hk
  unfold sealSlot
  split <;> rename_i e <;> rw [e] at x hk
  · exact edits_nodes.composeSlot _ (holder_composing hk).symm x
  · rename_i u
    obtain ⟨ds, f⟩ := u.updMessage_footprint k.desc fun x => { x with state := .isSealed, final := some n }
    refine nodesKept_letGo (s := u.updMessage k.desc fun x => { x with state := .isSealed, final := some n }) ?_
      (edits_nodes.message _ _ (fun _ => ⟨rfl, rfl, rfl, rfl⟩) x)
    rw [f]
    exact hk

/-! ### Receive slots (R97, R99, R112) -/

/-- A receive slot lets go of the node and the descriptor that it holds. -/
theorem counts_released {p : Port} {r : ReceiveNo} {h : NodeNo × DescNo} (hs : (s.receiveSlot p r).holder = some h)
    {x : ReceiveSlot} (hx : x.holder = none) :
    (∀ n, ((s.setReceiveSlot p r x).heldCount n + if n = h.1 then 1 else 0) = s.heldCount n) ∧
      ∀ d, ((s.setReceiveSlot p r x).owedCount d + if d = h.2 then 1 else 0) = s.owedCount d := by
  refine ⟨fun n => ?_, fun d => ?_⟩
  · have k := s.heldCount_setReceiveSlot p r x n
    rw [hs, hx, Option.map_none, if_neg (nofun : ¬(none : Option NodeNo) = some n), Nat.add_zero] at k
    simp only [Option.map_some, Option.some.injEq, eq_comm (a := h.1)] at k
    exact k
  · have k := s.owedCount_setReceiveSlot p r x d
    rw [hs, hx, Option.map_none, if_neg (nofun : ¬(none : Option DescNo) = some d), Nat.add_zero] at k
    simp only [Option.map_some, Option.some.injEq, eq_comm (a := h.2)] at k
    exact k

/-- An idle receive slot takes a node and a descriptor. -/
theorem counts_filled {p : Port} {r : ReceiveNo} {h : NodeNo × DescNo} (hs : (s.receiveSlot p r).holder = none)
    {x : ReceiveSlot} (hx : x.holder = some h) :
    (∀ n, (s.setReceiveSlot p r x).heldCount n = s.heldCount n + if n = h.1 then 1 else 0) ∧
      ∀ d, (s.setReceiveSlot p r x).owedCount d = s.owedCount d + if d = h.2 then 1 else 0 := by
  refine ⟨fun n => ?_, fun d => ?_⟩
  · have k := s.heldCount_setReceiveSlot p r x n
    rw [hs, hx, Option.map_none, if_neg (nofun : ¬(none : Option NodeNo) = some n), Nat.add_zero] at k
    simp only [Option.map_some, Option.some.injEq, eq_comm (a := h.1)] at k
    exact k
  · have k := s.owedCount_setReceiveSlot p r x d
    rw [hs, hx, Option.map_none, if_neg (nofun : ¬(none : Option DescNo) = some d), Nat.add_zero] at k
    simp only [Option.map_some, Option.some.injEq, eq_comm (a := h.2)] at k
    exact k

theorem nodesKept_releaseSlot {p : Port} {r : ReceiveNo} {h : Holding} (hs : (s.receiveSlot p r).phase = .holding h)
    (i : s.NodesKept) : (s.releaseSlot p r h).NodesKept := by
  obtain ⟨w, lists, o⟩ := i
  have own := (s.sameOwners_returnNode h.node).trans ((s.returnNode h.node).sameOwners_dropHolder h.desc)
  have holder : (s.receiveSlot p r).holder = some (h.node, h.desc) := by rw [ReceiveSlot.holder, hs]; rfl
  obtain ⟨nodes, descs⟩ := counts_released ((own.receive p r).trans holder)
    (x := { ((s.returnNode h.node).dropHolder h.desc).receiveSlot p r with phase := .idle }) rfl
  change ∀ n, ((s.releaseSlot p r h).heldCount n + if n = h.node then 1 else 0) = _ at nodes
  change ∀ d, ((s.releaseSlot p r h).owedCount d + if d = h.desc then 1 else 0) = _ at descs
  have hn : 1 ≤ s.heldCount h.node := by
    have := nodes h.node
    rw [if_pos rfl, own.heldCount] at this
    omega
  have hd : 1 ≤ s.owedCount h.desc := by
    have := descs h.desc
    rw [if_pos rfl, own.owedCount] at this
    omega
  have w1 : (s.returnNode h.node).memoriesWf = true := (Quiet.refl.returnNode h.node).memoriesWf w
  have w2 := (Quiet.refl.dropHolder h.desc).memoriesWf w1
  obtain ⟨l1, o1⟩ := o.returnNode w hn fun a => ((nodes a).trans (own.heldCount a)).le
  have o2 := o1.dropHolder w1 hd fun d => ((descs d).trans (own.owedCount d)).le
  have frame : SameNodes ((s.returnNode h.node).dropHolder h.desc) (s.releaseSlot p r h) :=
    SameNodes.of_eq rfl rfl ⟨rfl, rfl, rfl⟩ fun _ => rfl
  exact NodesKept.of_order w2 (frame.order o2) own.queues (fun _ => Nat.le_refl _) fun _ => Nat.le_refl _

/-! ### The head of a queue read (R8, R55, R61) -/

theorem readNode_written {n : NodeNo} (hl : (s.nodeLinkWord n).inverted.length ≤ 2)
    (hc : (s.contentWord n).inverted.length ≤ 2) {c : Option DescNo} {l : Option NodeLink} (e : (s.readNode n).2 = (c, l)) :
    (∀ d, c = some d → d = s.named n) ∧ ∀ x, l = some x → x = s.nodeNext n := by
  rw [readNode_eq] at e
  cases e
  exact ⟨fun _ => readContent_written hc, fun _ => readNodeLink_written hl⟩

/-- A queue that lists nodes, after the reads of its head: the head is taken, with the holder that it is, where its link word reads. -/
theorem head_taken {q : QueueNo} {lq : LiveQueue} (hq : s.queue q = .live lq) (hd : lq.depth ≠ 0) (i : s.NodesKept) :
    ∃ h, s.headNode lq = (s, h) ∧ (s.readNode h).1.NodesKept ∧ ∀ c x, (s.readNode h).2 = (c, some x) →
      ∃ d lists, (∀ e, c = some e → e = d) ∧ (s.readNode h).1.NodeOrder
        (Function.update (s.readNode h).1.queueEnds q (Queue.live (lq.behead x)).ends)
        (fun a => s.heldCount a + if a = h then 1 else 0) (fun e => s.owedCount e + if e = d then 1 else 0) lists := by
  obtain ⟨w, lists, o⟩ := id i
  have ends : s.queueEnds q = ⟨lq.head, lq.tail, lq.depth⟩ := congrArg Queue.ends hq
  obtain ⟨h, hh⟩ := o.exists_head (q := q) (by rw [ends]; exact hd)
  have head : lq.head = some h := by rwa [ends] at hh
  have frame := sameNodes_readNode w o.bits h
  have own := s.sameOwners_readNode h
  refine ⟨h, by rw [headNode, head], i.same (Quiet.refl.readNode h).memoriesWf frame own, fun c x e => ?_⟩
  obtain ⟨hc, hx⟩ := readNode_written (o.bits h).1 (o.bits h).2 e
  obtain rfl := hx x rfl
  obtain ⟨l, o1⟩ := o.behead hh (queues' := Function.update s.queueEnds q (Queue.live (lq.behead (s.nodeNext h))).ends)
    (by rw [Function.update_self, ends]; rfl) (fun r hr => Function.update_of_ne hr _ _) (fun _ => rfl) fun _ => rfl
  have queues : (s.readNode h).1.queueEnds = s.queueEnds := funext own.queues
  rw [queues]
  exact ⟨s.named h, l, hc, frame.order o1⟩

end Sys2Proof.Machine.State
end

section
/-!
SUPPORT. Every step keeps the node lists (R3, R21, R29, R42, R51, R56, R97): FETCH, drains, BEGIN, grants and the rebuilds; O59.
-/
namespace Sys2Proof.Machine.State

variable {s t : State} {queues : QueueNo → ListEnds NodeNo} {held : NodeNo → Nat} {owed : DescNo → Nat}
  {lists : Option QueueNo → List NodeNo}

/-! ### FETCH and drain steps (R56, R61 to R64) -/

/-- An empty receive slot takes the head of a queue. -/
theorem nodesKept_filled {p : Port} {r : ReceiveNo} {q : QueueNo} {y : Queue} {x : ReceiveSlot} {n : NodeNo} {d : DescNo}
    (w : s.memoriesWf = true) (o : s.NodeOrder (Function.update s.queueEnds q y.ends) held owed lists)
    (empty : (s.receiveSlot p r).holder = none) (hx : x.holder = some (n, d))
    (hh : ∀ a, (s.heldCount a + if a = n then 1 else 0) ≤ held a)
    (ho : ∀ e, (s.owedCount e + if e = d then 1 else 0) ≤ owed e) :
    ((s.setQueue q y).setReceiveSlot p r x).NodesKept := by
  obtain ⟨nodes, descs⟩ := counts_filled (s := s.setQueue q y) empty hx
  have frame : SameNodes s ((s.setQueue q y).setReceiveSlot p r x) :=
    SameNodes.of_eq rfl rfl ⟨rfl, rfl, rfl⟩ fun _ => rfl
  exact NodesKept.of_order ((Quiet.refl.queue q y).memoriesWf w) (frame.order o) (congrFun (queueEnds_setQueue w q y))
    (fun a => (nodes a).trans_le (hh a)) fun e => (descs e).trans_le (ho e)

theorem ends_rearm (lq : LiveQueue) : (Queue.live lq.rearm).ends = (Queue.live lq).ends := by
  unfold LiveQueue.rearm
  split_ifs <;> rfl

theorem nodesKept_detach {p : Port} {r : ReceiveNo} {q : QueueNo} {lq : LiveQueue} (hr : (s.receiveSlot p r).phase = .idle)
    (hq : s.queue q = .live lq) (hd : lq.depth ≠ 0) (i : s.NodesKept) : (detach s p r q lq).state.NodesKept := by
  obtain ⟨h, head, k, taken⟩ := head_taken hq hd i
  have own := s.sameOwners_readNode h
  have live : (s.readNode h).1.queue q = .live lq := by
    obtain ⟨_, _, _, e⟩ := s.readNode_footprint h
    rw [e]
    exact hq
  have w := k.1
  unfold detach
  rw [head]
  dsimp only
  split <;> rename_i e <;> rw [e] at k own live w taken
  · rename_i d x
    obtain ⟨d', l, hd', o⟩ := taken (some d) x rfl
    obtain rfl := hd' d rfl
    rw [← ends_rearm] at o
    exact nodesKept_filled w o ((own.receive p r).trans (by rw [ReceiveSlot.holder, hr]; rfl)) rfl
      (fun a => Nat.add_le_add_right (own.heldCount a).le _) fun e => Nat.add_le_add_right (own.owedCount e).le _
  · rename_i x
    obtain ⟨d, l, -, o⟩ := taken none x rfl
    rw [← ends_rearm] at o
    exact edits_nodes.report _ _ (edits_nodes.strandNodes 1 (NodesKept.setQueue w o
      (fun n => (own.heldCount n).le.trans (Nat.le_add_right _ _)) fun d => (own.owedCount d).le.trans (Nat.le_add_right _ _)))
  · rename_i u content
    obtain ⟨_, f⟩ := u.reportBroken_footprint h content .fetch p q
    refine edits_nodes.quarantine ?_ (edits_nodes.reportBroken h content .fetch p q k)
    rw [f]
    exact live

/-- A drain goes on, or closes the queue where its list is empty. -/
theorem nodesKept_drainOn {q : QueueNo} {lq : LiveQueue} (c : CloseRecord) (r : s.exchange = .running)
    (w : s.memoriesWf = true) (o : s.NodeOrder (Function.update s.queueEnds q (Queue.live lq).ends) held owed lists)
    (hh : ∀ n, s.heldCount n ≤ held n) (ho : ∀ d, s.owedCount d ≤ owed d) : (s.drainOn q lq c).NodesKept := by
  unfold drainOn
  split_ifs with h0
  · have empty : (Queue.live lq).ends = .empty := by
      have := o.empty (q := q)
      rw [Function.update_self] at this
      exact this h0
    obtain ⟨⟨closed, -⟩, -, others, frame⟩ := finishClose_closes w q lq.consumer c
    have wc := kept_memoriesWf.finishClose q lq.consumer c r w
    generalize s.finishClose q lq.consumer c = t at *
    have hd : t.descriptors = s.descriptors := congrArg (·.descriptors) frame
    have hp : t.pool = s.pool := congrArg (·.pool) frame
    have hc : t.compose = s.compose := congrArg (·.compose) frame
    have hr : t.receive = s.receive := congrArg (·.receive) frame
    have nodes : SameNodes s t := SameNodes.of_eq (congrArg (·.nodeLinks) frame) (congrArg (·.nodeContents) frame)
      (by rw [hp]; exact ⟨rfl, rfl, rfl⟩) fun d => holders_of_descriptors hd d
    refine NodesKept.of_order wc (nodes.order o) (fun e => ?_) (fun n => (heldCount_of_receive hr n).trans_le (hh n))
      fun d => (owedCount_of_slots hc hr d).trans_le (ho d)
    by_cases he : e = q
    · rw [he, Function.update_self, queueEnds, closed, empty]
      rfl
    · rw [Function.update_of_ne he, queueEnds, others e he]
      rfl
  · exact NodesKept.setQueue w o hh ho

/-- R61 at the node lists: the node taken from the queue goes to the free list, and its holder is given up. -/
theorem nodesKept_drainNode {q : QueueNo} {lq : LiveQueue} (c : CloseRecord) {h : NodeNo} {d : DescNo} (x : NodeLink)
    (r : s.exchange = .running) (w : s.memoriesWf = true)
    (o : s.NodeOrder (Function.update s.queueEnds q (Queue.live (lq.behead x)).ends)
      (fun a => s.heldCount a + if a = h then 1 else 0) (fun e => s.owedCount e + if e = d then 1 else 0) lists) :
    (s.drainNode q lq c h d x).NodesKept := by
  have own := (s.sameOwners_returnNode h).trans ((s.returnNode h).sameOwners_dropHolder d)
  have quiet : Quiet s ((s.returnNode h).dropHolder d) := (Quiet.refl.returnNode h).dropHolder d
  have w1 : (s.returnNode h).memoriesWf = true := (Quiet.refl.returnNode h).memoriesWf w
  obtain ⟨l1, o1⟩ := o.returnNode w (n := h) (by rw [if_pos rfl]; exact Nat.le_add_left _ _) fun _ => Nat.le_refl _
  have o2 := o1.dropHolder w1 (d := d) (by rw [if_pos rfl]; exact Nat.le_add_left _ _) fun _ => Nat.le_refl _
  rw [← funext own.queues] at o2
  exact nodesKept_drainOn _ (quiet.exchange.trans r) (quiet.memoriesWf w) o2 (fun n => (own.heldCount n).le)
    fun e => (own.owedCount e).le

theorem nodesKept_drainHead {q : QueueNo} {lq : LiveQueue} (c : CloseRecord) (r : s.exchange = .running)
    (hq : s.queue q = .live lq) (hd : lq.depth ≠ 0) (i : s.NodesKept) : (s.drainHead q lq c).NodesKept := by
  obtain ⟨h, head, k, taken⟩ := head_taken hq hd i
  have own := s.sameOwners_readNode h
  have r1 : (s.readNode h).1.exchange = .running := (Quiet.refl.readNode h).exchange.trans r
  have live : (s.readNode h).1.queue q = .live lq := by
    obtain ⟨_, _, _, e⟩ := s.readNode_footprint h
    rw [e]
    exact hq
  have w := k.1
  unfold drainHead
  rw [head]
  dsimp only
  split <;> rename_i e <;> rw [e] at k own live w taken r1
  · rename_i d x
    obtain ⟨d', l, hd', o⟩ := taken (some d) x rfl
    obtain rfl := hd' d rfl
    exact nodesKept_drainNode c x r1 w (o.mono (fun a => Nat.add_le_add_right (own.heldCount a).le _)
      fun e => Nat.add_le_add_right (own.owedCount e).le _)
  · rename_i u x
    obtain ⟨d, l, -, o⟩ := taken none x rfl
    have frame : SameNodes u ((u.strandNodes 1).reportContent h .drain c.owner q .strand) :=
      SameNodes.of_eq rfl rfl ⟨rfl, rfl, rfl⟩ fun _ => rfl
    exact nodesKept_drainOn _ r1 w (frame.order o) (fun n => (own.heldCount n).le.trans (Nat.le_add_right _ _))
      fun e => (own.owedCount e).le.trans (Nat.le_add_right _ _)
  · rename_i u content
    obtain ⟨_, f⟩ := u.reportBroken_footprint h content .drain c.owner q
    have broken := edits_nodes.reportBroken h content .drain c.owner q k
    refine edits_nodes.finishClose q lq.consumer _ ?_ (edits_nodes.strandNodes _ (edits_nodes.quarantine ?_ broken))
    · rw [f]
      exact r1
    · rw [f]
      exact live

end Sys2Proof.Machine.State
end

section
/-!
SUPPORT. Every step keeps the node lists (R3, R21, R29, R42, R51, R56, R97): BEGIN, grants and the rebuilds; O59.
-/
namespace Sys2Proof.Machine.State

variable {s t : State} {held : NodeNo → Nat} {owed : DescNo → Nat} {lists : Option QueueNo → List NodeNo}

/-! ### BEGIN (R76) -/

theorem owedCount_filled {p : Port} {c : ComposeNo} {d : DescNo} (h : (s.composeSlot p c).holder = none) {x : ComposeSlot}
    (hx : x.holder = some d) (e : DescNo) :
    (s.setComposeSlot p c x).owedCount e = s.owedCount e + if e = d then 1 else 0 := by
  have k := s.owedCount_setComposeSlot p c x e
  rw [h, hx, if_neg (nofun : ¬(none : Option DescNo) = some e), Nat.add_zero] at k
  simp only [Option.some.injEq, eq_comm (a := d)] at k
  exact k

/-- The slots as the appends and the dispositions of a link request leave them. -/
theorem slots_linked (s : State) (d : DescNo) (room full : List QueueNo) (ns : List NodeNo) :
    ((s.appendAll d room ns).disposeAll d .droppedFull full).compose = s.compose ∧
      ((s.appendAll d room ns).disposeAll d .droppedFull full).receive = s.receive := by
  obtain ⟨_, _, _, _, _, _, _, e1⟩ := s.appendAll_footprint d room ns
  obtain ⟨_, e2⟩ := (s.appendAll d room ns).disposeAll_footprint d .droppedFull full
  rw [e2, e1]
  exact ⟨rfl, rfl⟩

/-- Steps 2 to 6 of R76 for a FREE descriptor, beside the nodes taken for them. -/
theorem nodesKept_beginTaken {p : Port} {c : ComposeNo} (b : BeginParams) (qs : List QueueNo) {d : DescNo}
    (rest : List DescNo) (room full : List QueueNo) (ns : List NodeNo) (hc : (s.composeSlot p c).phase = .idle)
    (hd : s.desc d = .free) (w : s.memoriesWf = true)
    (o : s.NodeOrder s.queueEnds (fun a => s.heldCount a + ns.count a) s.owedCount lists) :
    (beginTaken s p c b qs d rest room full ns).NodesKept := by
  have frame : SameNodes s (s.setPool { s.pool with fifo := rest }) :=
    SameNodes.of_eq rfl rfl ⟨rfl, rfl, rfl⟩ fun _ => rfl
  have wp : (s.setPool { s.pool with fifo := rest }).memoriesWf = true := w
  have o1 := (frame.order o).allocate (d := d) (m := newMessage p c b qs) wp hd rfl fun _ => rfl
  have w1 := (Quiet.refl.desc d (.live (newMessage p c b qs))).memoriesWf wp
  obtain ⟨hcs, hrs⟩ := slots_linked ((s.setPool { s.pool with fifo := rest }).setDesc d (.live (newMessage p c b qs))) d room
    full ns
  obtain ⟨l2, o2⟩ := NodeOrder.appendAll w1 (d := d) (by rw [if_pos rfl]; exact Nat.le_add_left _ _) room ns o1
    fun _ => Nat.le_refl _
  have w2 := (Quiet.appendAll d room ns Quiet.refl).memoriesWf w1
  have o3 := (sameNodes_disposeAll w2 d .droppedFull full).order o2
  have w3 := (Quiet.disposeAll d .droppedFull full Quiet.refl).memoriesWf w2
  have own := sameOwners_disposeAll ((((s.setPool { s.pool with fifo := rest }).setDesc d
    (.live (newMessage p c b qs)))).appendAll d room ns) d .droppedFull full
  unfold beginTaken
  dsimp only
  generalize (((s.setPool { s.pool with fifo := rest }).setDesc d (.live (newMessage p c b qs))).appendAll d room
    ns).disposeAll d .droppedFull full = u at *
  rw [← funext own.queues] at o3
  have slot : (u.composeSlot p c).holder = none := by
    rw [composeSlot_of_compose hcs, ComposeSlot.holder]
    show (s.composeSlot p c).phase.composing.map (·.desc) = none
    rw [hc]
    rfl
  have filled := owedCount_filled slot (x := ⟨.filling ⟨d, none, 0, false⟩, false, false⟩) (d := d) rfl
  have last : SameNodes u (u.setComposeSlot p c ⟨.filling ⟨d, none, 0, false⟩, false, false⟩) :=
    SameNodes.of_eq rfl rfl ⟨rfl, rfl, rfl⟩ fun _ => rfl
  have hh : ∀ n, u.heldCount n = s.heldCount n := fun n => heldCount_of_receive hrs n
  have ho : ∀ e, u.owedCount e = s.owedCount e := fun e => owedCount_of_slots hcs hrs e
  exact NodesKept.of_order w3 (last.order o3) (fun _ => rfl) (fun n => (hh n).le)
    fun e => ((filled e).trans (by rw [ho])).le

theorem nodesKept_beginLink {p : Port} {c : ComposeNo} (b : BeginParams) (qs : List QueueNo)
    (hc : (s.composeSlot p c).phase = .idle) (hf : ∀ d ∈ s.pool.fifo, s.desc d = .free) (i : s.NodesKept) :
    (beginLink s p c b qs).state.NodesKept := by
  obtain ⟨w, lists, o⟩ := id i
  unfold beginLink
  dsimp only
  split
  · exact i
  · split
    · exact i
    · rename_i d rest fifo
      have free : s.desc d = .free := hf d (by rw [fifo]; exact List.mem_cons_self)
      split_ifs
      · exact i
      · split
        · exact i
        · generalize (roomDests (cutDests (s.admittedDests p (qs.zipIdx.map fun t => (t.2, t.1))))).length = k
          obtain ⟨l1, o1⟩ := o.allocateNodes w p k
          have w1 := ((Quiet.refl (s := s)).allocateNodes p k).memoriesWf w
          have own := s.sameOwners_allocateNodes p k
          obtain ⟨_, _, _, _, _, frame⟩ := s.allocateNodes_footprint p k
          have hd : (s.allocateNodes p k).1.desc d = .free := by
            rw [frame]
            exact free
          have hs : ((s.allocateNodes p k).1.composeSlot p c).phase = .idle := by
            rw [frame]
            exact hc
          clear frame
          split <;> rename_i e <;> rw [e] at o1 w1 own hd hs
          · exact NodesKept.of_owners w1 own o1 (fun _ => Nat.le_add_right _ _) fun _ => Nat.le_refl _
          · rw [← funext own.queues] at o1
            exact nodesKept_beginTaken b qs rest _ _ _ hs hd w1 (o1.mono
              (fun a => Nat.add_le_add_right (own.heldCount a).le _) fun e => (own.owedCount e).le)

/-! ### Grants (R25) -/

theorem nodesKept_grantStep {p : Port} {c : ComposeNo} {k : Composing} {h : CellNo}
    (hk : (s.composeSlot p c).phase = .filling k) (i : s.NodesKept) : (grantStep s p c k h).NodesKept := by
  have w := i.1
  obtain ⟨l, e⟩ := grantStep_frame w p c k h
  obtain ⟨live, free, others⟩ := grantCell_desc w p k.desc h
  obtain ⟨_, _, _, _, take⟩ := s.takeHeadCell_pool p h
  have pool := s.grantCell_pool p k.desc h
  rw [take] at pool
  obtain ⟨_, _, _, _, _, _, frame⟩ := s.grantCell_frame p k.desc h
  have holders : ∀ d, (s.grantCell p k.desc h).holders d = s.holders d := fun d => by
    by_cases hd : d = k.desc
    · subst hd
      cases m : s.desc k.desc with
      | free => rw [holders_of_free m, holders_of_free (free m)]
      | live x => rw [holders_of_live m, holders_of_live (live x m)]; rfl
    · rw [State.holders, State.holders, message, message, others d hd]
  have granted : (s.grantCell p k.desc h).NodesKept := by
    refine i.same (Quiet.refl.grantCell p k.desc h).memoriesWf (SameNodes.of_eq (by rw [frame]) (by rw [frame]) ?_ holders)
      (SameOwners.of_eq (by rw [frame]) (by rw [frame]) (by rw [frame]))
    rw [pool]
    exact ⟨rfl, rfl, rfl⟩
  have slot : (s.grantCell p k.desc h).composeSlot p c = s.composeSlot p c := by
    rw [frame]
    rfl
  generalize s.grantCell p k.desc h = g at *
  have wt := (Quiet.refl (s := s)).grantStep p c k h |>.memoriesWf w
  rw [e] at wt ⊢
  have linked : ({ g with cellLinks := l } : State).NodesKept := granted.beside (fun _ => wt) rfl
  refine edits_nodes.composeSlot _ ?_ linked
  show _ = (g.composeSlot p c).holder
  rw [slot, ComposeSlot.holder, ComposeSlot.holder, hk]
  rfl

/-! ### Rebuilds (R17, R41) -/

/-- The link words, the descriptors and the node free list as a rebuild leaves them, with no slot and no queue in use. -/
theorem nodesKept_rebuilt (w : t.memoriesWf = true) (hl : t.nodeLinks = [])
    (hc : ∀ n, (t.contentWord n).inverted.length ≤ 2)
    (hp : t.pool.nodeHead = some 0 ∧ t.pool.nodeTail = some 1023 ∧ t.pool.freeNodes = 1024)
    (hq : ∀ q, t.queue q = .closed) (hr : ∀ p r, (t.receiveSlot p r).phase = .idle)
    (hs : ∀ p c, (t.composeSlot p c).phase = .idle) : t.NodesKept := by
  have words : ∀ n, t.nodeLinkWord n = nodeLinkDefault n.val := fun n => by
    rw [nodeLinkWord, hl]
    rfl
  have next : t.nodeNext = fun n : NodeNo => if h : n.val + 1 < 1024 then some ⟨n.val + 1, h⟩ else none :=
    funext fun n => congrArg Stored.written (words n)
  obtain ⟨free, run, last, length, nodup⟩ := exists_rebuilt_list 1024
  rw [← next] at run
  have ends0 : t.nodeEnds t.queueEnds none = ⟨some 0, some 1023, 1024⟩ := by rw [nodeEnds, hp.1, hp.2.1, hp.2.2]
  have ends : ∀ q, t.nodeEnds t.queueEnds (some q) = .empty := fun q => by rw [nodeEnds, queueEnds, hq]; rfl
  have receiver : ∀ p r, (t.receiveSlot p r).holder = none := fun p r => by rw [ReceiveSlot.holder, hr]; rfl
  have composer : ∀ p c, (t.composeSlot p c).holder = none := fun p c => by rw [ComposeSlot.holder, hs]; rfl
  have held : ∀ n, t.heldCount n = 0 := fun n => by simp [heldCount, receiver]
  have owed : ∀ d, t.owedCount d = 0 := fun d => by simp [owedCount, receiver, composer]
  refine ⟨w, fun o => o.elim free fun _ => [], fun n => ⟨?_, hc n⟩, ⟨?_, ?_, ?_, fun a => ?_⟩, fun d => ?_⟩
  · rw [words]
    exact Nat.zero_le _
  · rintro (_ | q)
    · rw [ends0]
      exact run
    · rw [ends]
      rfl
  · rintro (_ | q)
    · rw [ends0]
      exact last.symm
    · rw [ends]
      rfl
  · rintro (_ | q)
    · rw [ends0]
      exact length.symm
    · rw [ends]
      rfl
  · rw [Fintype.sum_option, held]
    have := List.nodup_iff_count_le_one.mp nodup a
    simpa
  · rw [owed]
    simp [listed]

end Sys2Proof.Machine.State
namespace Sys2Proof.Machine
open State

/-- What a step starts from: the node lists, a FIFO of FREE descriptors, and no slot and no queue in use under RESET_N. -/
structure NodesReady (s : State) : Prop where
  kept : s.NodesKept
  fifo : ∀ d ∈ s.pool.fifo, s.desc d = .free
  queues : s.resetAsserted = true → ∀ q, s.queue q = .closed
  receive : s.resetAsserted = true → ∀ p r, (s.receiveSlot p r).phase = .idle
  compose : s.resetAsserted = true → ∀ p c, (s.composeSlot p c).phase = .idle

theorem nodesReady {s : State} (h : s.DescriptorsAccounted) (i : s.NodesLaidOut) : NodesReady s := by
  obtain ⟨w, -, fifo, -, -, -, reset, unused⟩ := h
  have closed : s.resetAsserted = true → (∀ q, s.queue q = .closed) ∧ (∀ p r, (s.receiveSlot p r).phase = .idle) ∧
      ∀ p c, (s.composeSlot p c).phase = .idle := fun hr =>
    unused ⟨by rw [reset hr]; exact nofun, by rw [reset hr]; exact nofun⟩
  exact ⟨⟨w, s.nodesLaidOut_iff.mp i⟩, fun d hd => (fifo d).mp hd, fun hr => (closed hr).1, fun hr => (closed hr).2.1,
    fun hr => (closed hr).2.2⟩

theorem receive_rebuilt {t : State} (h : t.receive = .all (.all .reset)) (p : Port) (r : ReceiveNo) :
    (t.receiveSlot p r).phase = .idle := by
  rw [receiveSlot, h, Quad.get_all, Pair.get_all]
  rfl

theorem compose_rebuilt {t : State} (h : t.compose = .all (.all .reset)) (p : Port) (c : ComposeNo) :
    (t.composeSlot p c).phase = .idle := by
  rw [composeSlot, h, Quad.get_all, Quad.get_all]
  rfl

theorem kept_nodes : Kept NodesReady State.NodesKept where
  toEdits := edits_nodes
  weaken h := h.kept
  pending _ h := ⟨h.kept.beside (fun w => w) rfl, h.fifo, h.queues, h.receive, h.compose⟩
  grantStep hk _ h := nodesKept_grantStep hk h
  sealSlot m n hk h := nodesKept_sealSlot m n hk h
  abandonSlot hk h := nodesKept_abandonSlot hk h
  releaseSlot hs h := nodesKept_releaseSlot hs h
  detach hr hq hd h := nodesKept_detach hr hq hd h
  drainHead c r hq hd h := nodesKept_drainHead c r hq hd h
  beginLink b qs hc h := nodesKept_beginLink b qs hc h.fifo h.kept
  powerOn ma n l := nodesKept_rebuilt (kept_memoriesWf.powerOn ma n l) rfl (fun _ => Nat.zero_le _) ⟨rfl, rfl, rfl⟩
    (queue_rebuilt rfl) (receive_rebuilt rfl) (compose_rebuilt rfl)
  released hr h := by
    obtain ⟨lists, o⟩ := h.kept.2
    exact nodesKept_rebuilt (kept_memoriesWf.released hr h.kept.1) rfl (fun n => (o.bits n).2) ⟨rfl, rfl, rfl⟩
      (h.queues hr) (h.receive hr) (h.compose hr)
  initialised _ _ h := h.beside (fun w => w) rfl
  restarted b hr h := by
    obtain ⟨lists, o⟩ := h.2
    exact nodesKept_rebuilt (kept_memoriesWf.restarted b hr h.1) rfl (fun n => (o.bits n).2) ⟨rfl, rfl, rfl⟩
      (queue_rebuilt rfl) (receive_rebuilt rfl) (compose_rebuilt rfl)
  resumed _ _ h := h.beside (fun w => w) rfl
  stopped _ h := h.beside (fun w => w) rfl

/-- The node at the head of a queue is listed for the descriptor that it names, so its holder is beside those of the slots. -/
theorem headsCounted {s : State} (h : s.NodesLaidOut) : s.HeadsCounted := by
  obtain ⟨lists, o⟩ := s.nodesLaidOut_iff.mp h
  intro q lq hq hd
  have ends : s.queueEnds q = ⟨lq.head, lq.tail, lq.depth⟩ := congrArg Queue.ends hq
  obtain ⟨n, hn⟩ := o.exists_head (q := q) (by rw [ends]; exact hd)
  obtain ⟨as, hl, -⟩ := o.layout.head_cons (i := some q) hn
  rw [ends] at hn
  refine ⟨n, hn, fun d hc => ?_⟩
  have name : s.named n = d := (written_of_check (o.bits n).2 hc).symm
  have one : 1 ≤ s.listed lists d := by
    refine le_trans ?_ (Finset.single_le_sum (f := fun q => (lists (some q)).countP fun n => decide (s.named n = d))
      (fun _ _ => Nat.zero_le _) (Finset.mem_univ q))
    exact List.countP_pos_iff.mpr ⟨n, by rw [hl]; exact List.mem_cons_self, decide_eq_true name⟩
  have total := o.holders d
  rw [owedCount_eq] at total
  omega

/-- Settles O59: the head of a queue is among the listed nodes, and every step keeps the layout beside the canonical tables. -/
theorem everyStepKeepsTheNodeListsLaidOut : Obligations.EveryStepKeepsTheNodeListsLaidOut :=
  ⟨fun _ => headsCounted, fun _ t hd h e => t.nodesLaidOut_iff.mpr (kept_nodes.step (nodesReady hd h) e).2⟩

end Sys2Proof.Machine
end

section
/-!
SUPPORT. A FETCH that is not spelt as its own row: the holder counts of O57 do not follow it.
-/
namespace Sys2Proof.Machine

/-! ### A queue that lists one node (R21, R42, R56) -/

/-- A SEALED message of port 0, linked to queue 0 by its one holder. -/
def linkedMessage : Message where
  state := .isSealed
  port := 0
  slot := 0
  tag := 0
  declared := none
  written := 0
  final := some 0
  first := none
  last := none
  cells := 0
  holders := 1
  dests := [⟨0, .linked⟩]
  poison := none
  linkBroken := false

/-- An OPEN queue of port 0 that lists node 0. -/
def listingQueue : LiveQueue where
  phase := .opened
  consumer := 0
  mask := 0b0001
  mode := .store
  policy := .refuse
  limit := 8
  threshold := 1
  armed := false
  depth := 1
  head := some 0
  tail := some 0

/-- RUNNING with one message: queue 0 lists node 0, which names descriptor 0. -/
def listingState : State := { State.reset with
  resetAsserted := false
  exchange := .running
  descriptors := [(0, .live linkedMessage)]
  queues := [(0, .live listingQueue)]
  pool := { Pool.reset with fifo := (List.finRange 512).tail } }

theorem listingState_desc {d : DescNo} (h : d ≠ 0) : listingState.desc d = .free := by
  have : ¬(d.val = 0) := fun k => h (Fin.ext k)
  simp [listingState, State.desc, Memory.get, this, descDefault]

theorem listingState_queue {q : QueueNo} (h : q ≠ 0) : listingState.queue q = .closed := by
  have : ¬(q.val = 0) := fun k => h (Fin.ext k)
  simp [listingState, State.queue, Memory.get, this, queueDefault]

/-- No slot holds a descriptor. -/
theorem listingState_holds (d : DescNo) : listingState.composeHolds d + listingState.receiveHolds d = 0 := rfl

theorem listingState_accounted : listingState.DescriptorsAccounted := by
  have fifo : listingState.pool.fifo = (List.finRange 512).tail := by simp only [listingState]
  have all : List.finRange 512 = 0 :: (List.finRange 512).tail := by decide +kernel
  have distinct := List.nodup_finRange 512
  rw [all, List.nodup_cons] at distinct
  refine ⟨rfl, fifo ▸ distinct.2, fun d => ?_, fun d m h => ?_, fun p c k h => ?_, fun d => ?_,
    fun h => absurd h (by decide), fun h => absurd rfl h.1⟩
  · rw [fifo]
    by_cases h : d = 0
    · subst h
      exact ⟨fun k => absurd k distinct.1, nofun⟩
    · refine ⟨fun _ => listingState_desc h, fun _ => ?_⟩
      have k := List.mem_finRange d
      rw [all] at k
      exact (List.mem_cons.mp k).resolve_left h
  · by_cases k : d = 0
    · subst k
      cases h
      decide
    · rw [listingState_desc k] at h
      cases h
  · fin_cases p <;> fin_cases c <;> cases h
  · rw [listingState_holds]
    exact Nat.zero_le _

theorem listingState_headsCounted : listingState.HeadsCounted := fun q lq h _ => by
  by_cases k : q = 0
  · subst k
    cases h
    refine ⟨0, rfl, fun d hc => ?_⟩
    have word : listingState.contentWord 0 = ⟨0, []⟩ := rfl
    rw [word] at hc
    rcases hc with hc | hc <;> cases hc
    exact Nat.zero_lt_one
  · rw [listingState_queue k] at h
    cases h

/-- Refutes O57: the row COMMAND_CODE_INVALID with the code of FETCH, 0x20, is taken as a FETCH (log 18). It moves node 0 from queue 0 to a
receive slot and leaves the holder count of descriptor 0 at 1, which asks for g = 1; but only FETCH_MESSAGE and DRAIN_STEP may have it. -/
theorem not_everyStepKeepsTheHolderCounts : ¬ Obligations.EveryStepKeepsTheHolderCounts := by
  intro h
  let t : State := listingState.takeCommand 0 ⟨0x20, ⟨0, 0⟩⟩ (commandOwner 0 ⟨0x20, ⟨0, 0⟩⟩)
  have fetched : t.desc 0 = .live linkedMessage ∧ t.composeHolds 0 = 0 ∧ t.receiveHolds 0 = 1 := by decide +kernel
  obtain ⟨message, composed, received⟩ := fetched
  obtain ⟨_, moved, _⟩ := h (.commandCodeInvalid 0 0x20 ⟨0, 0⟩) [] listingState t listingState_accounted
    listingState_headsCounted rfl
  obtain ⟨g, _, row, count⟩ := moved 0 linkedMessage linkedMessage rfl message
  have slots : listingState.composeHolds 0 = 0 ∧ listingState.receiveHolds 0 = 0 := ⟨rfl, rfl⟩
  rw [composed, received, slots.1, slots.2] at count
  rcases row (by omega) with ⟨p, f, e⟩ | ⟨q, e⟩ <;> cases e

end Sys2Proof.Machine
end

section
/-!
SUPPORT. The state after power-on reset (R146): the base case of every invariant; O60.
-/
namespace Sys2Proof.Machine

/-- The reset state is the one that RESET_N leads to. -/
theorem kept_reset {P Q : State → Prop} (K : Kept P Q) : Q State.reset := K.powerOn 0 0 []

theorem reset_desc (d : DescNo) : State.reset.desc d = .free := rfl

theorem reset_queue (q : QueueNo) : State.reset.queue q = .closed := rfl

theorem reset_receive (p : Port) (r : ReceiveNo) : (State.reset.receiveSlot p r).phase = .idle :=
  receive_rebuilt rfl p r

theorem reset_compose (p : Port) (c : ComposeNo) : (State.reset.composeSlot p c).phase = .idle :=
  compose_rebuilt rfl p c

theorem reset_nodesConserved : State.reset.NodesConserved := by
  unfold State.NodesConserved
  decide +kernel

theorem reset_cellsConserved : State.reset.CellsConserved := by
  unfold State.CellsConserved
  decide +kernel

theorem reset_chargesCounted : State.reset.ChargesCounted := by
  unfold State.ChargesCounted
  decide +kernel

theorem reset_fifo : State.reset.pool.fifo = List.finRange 512 := by simp only [State.reset, Pool.reset]

theorem reset_descriptorsAccounted : State.reset.DescriptorsAccounted := by
  refine ⟨rfl, ?_, fun d => ⟨fun _ => reset_desc d, fun _ => ?_⟩, nofun, fun p c k h => ?_, fun d => Nat.zero_le _,
    fun _ => rfl, fun _ => ⟨reset_queue, reset_receive, reset_compose⟩⟩
  · rw [reset_fifo]
    exact List.nodup_finRange 512
  · rw [reset_fifo]
    exact List.mem_finRange d
  rw [reset_compose p c] at h
  cases h

/-- Settles O60: what a step keeps holds where RESET_N leads; the counts are those of an empty block. -/
theorem resetSatisfiesTheInvariants : Obligations.ResetSatisfiesTheInvariants :=
  ⟨kept_reset kept_memoriesWf, (kept_reset kept_bounds).1, (kept_reset kept_bounds).2, kept_reset kept_controlLegal,
    ⟨rfl, reset_nodesConserved, fun _ => rfl, fun _ => ⟨reset_queue, reset_receive⟩⟩, reset_cellsConserved,
    reset_descriptorsAccounted, nofun, reset_chargesCounted, (State.cellsLaidOut_iff _).mpr (kept_reset kept_cells).2,
    (State.nodesLaidOut_iff _).mpr (kept_reset kept_nodes).2⟩

end Sys2Proof.Machine
end

section
/-!
SUPPORT. The quota rule and the low-water evaluations (R32, R37); O29.
-/
namespace Sys2Proof.Machine.State

/-- The outstanding reserves of the other ports, added (R32). -/
theorem othersOutstanding_eq (s : State) (p : Port) : othersOutstanding s.shares p =
    (((List.finRange 4).filter fun q => q ≠ p).map fun q => (s.share q).reserve - (s.share q).charged).sum := by
  fin_cases p <;> simp [othersOutstanding, Share.outstanding, share, Quad.get, List.finRange_succ, Nat.add_assoc]

theorem quotaGrants_iff (s : State) (p : Port) : s.quotaGrants p = true ↔
    s.pool.cellHead ≠ none ∧ (s.share p).charged < (s.share p).limit ∧
      ((s.share p).charged < (s.share p).reserve ∨ othersOutstanding s.shares p < s.pool.freeCells) := by
  unfold quotaGrants share
  rw [Bool.and_eq_true, Bool.and_eq_true, Bool.or_eq_true, decide_eq_true_iff, decide_eq_true_iff, decide_eq_true_iff,
    and_assoc, Option.isSome_iff_ne_none]

theorem lowWaterEvaluation_trips {s : State} (ha : s.pool.lowWater = .armed) (hf : s.pool.freeCells < s.pool.lowMark) :
    s.lowWaterEvaluation = (s.setPool { s.pool with lowWater := .tripped }).sendAll (s.poolEntry .poolLow none) :=
  if_pos ⟨ha, hf⟩

theorem lowWaterEvaluation_stays {s : State} (h : s.pool.lowWater = .tripped ∨ s.pool.lowMark ≤ s.pool.freeCells) :
    s.lowWaterEvaluation = s := by
  refine if_neg fun ⟨ha, hf⟩ => ?_
  rcases h with h | h
  · exact nomatch ha.symm.trans h
  · exact Nat.not_lt_of_le h hf

theorem recoveryEvaluation_rearms {s : State} (ht : s.pool.lowWater = .tripped)
    (hf : s.pool.recoverMark ≤ s.pool.freeCells) :
    s.recoveryEvaluation = (s.setPool { s.pool with lowWater := .armed }).sendAll (s.poolEntry .poolRecovered none) :=
  if_pos ⟨ht, hf⟩

theorem recoveryEvaluation_stays {s : State} (h : s.pool.lowWater = .armed ∨ s.pool.freeCells < s.pool.recoverMark) :
    s.recoveryEvaluation = s := by
  refine if_neg fun ⟨ht, hf⟩ => ?_
  rcases h with h | h
  · exact nomatch ht.symm.trans h
  · exact Nat.not_le_of_lt h hf

/-- Settles O29: the quota rule by its conditions, and each evaluation by its two cases. -/
theorem quotaAndLowWaterRules : Obligations.QuotaAndLowWaterRules := by
  refine fun p s => ⟨?_, fun ha hf => ?_, lowWaterEvaluation_stays, fun ht hf => ?_, recoveryEvaluation_stays⟩
  · rw [quotaGrants_iff, othersOutstanding_eq]
  · rw [lowWaterEvaluation_trips ha hf]
    exact ⟨rfl, event_sendAll _ _ p⟩
  · rw [recoveryEvaluation_rearms ht hf]
    exact ⟨rfl, event_sendAll _ _ p⟩

end Sys2Proof.Machine.State
end

section
/-!
SUPPORT. The partition, the marks and the timeouts (R35, R38, R178): what each owner refuses and what it sets; O45.
-/
namespace Sys2Proof.Machine
variable {s : State}

/-- What SET_PARTITION refuses of one port's parameter (R35). -/
def badShare (w : Word) : Prop :=
  2048 < bits w 0 16 ∨ bits w 16 16 = 0 ∨ 2048 < bits w 16 16 ∨ bits w 16 16 < bits w 0 16

/-- Some port's parameter is refused, or the four reserves together (R35). -/
theorem partitionRefused_iff (x : Quad Word) : partitionRefused x = true ↔
    (∃ p, badShare (x.get p)) ∨
      2048 < bits (x.get 0) 0 16 + bits (x.get 1) 0 16 + bits (x.get 2) 0 16 + bits (x.get 3) 0 16 := by
  have ports : (∃ p, badShare (x.get p)) ↔ badShare x.q0 ∨ badShare x.q1 ∨ badShare x.q2 ∨ badShare x.q3 := by
    simp [Fin.exists_fin_succ, Quad.get]
  rw [ports]
  simp only [partitionRefused, badShare, Bool.or_eq_true, decide_eq_true_iff, or_assoc]
  exact Iff.rfl

theorem setPartitionOwner_refused (h : partitionRefused s.mgmt.params = true) :
    setPartitionOwner s = { state := s, result := .refusedParam } := if_pos h

/-- The shares with the partition that the parameters carry. -/
def partitionedShares (s : State) : Quad Share :=
  ⟨s.shares.q0.partitioned s.mgmt.params.q0, s.shares.q1.partitioned s.mgmt.params.q1,
    s.shares.q2.partitioned s.mgmt.params.q2, s.shares.q3.partitioned s.mgmt.params.q3⟩

theorem get_partitionedShares (s : State) (p : Port) :
    (partitionedShares s).get p = (s.share p).partitioned (s.mgmt.params.get p) := by
  fin_cases p <;> rfl

theorem setPartitionOwner_taken (h : partitionRefused s.mgmt.params = false) :
    setPartitionOwner s = { state := { s with shares := partitionedShares s }, result := .ok } :=
  if_neg (by rw [h]; decide)

/-- What SET_POOL_MARKS refuses (R38). -/
def badMarks (w : Word) : Prop := 2047 < bits w 0 16 ∨ bits w 16 16 = 0 ∨ 2048 < bits w 16 16 ∨ bits w 16 16 ≤ bits w 0 16

theorem setPoolMarksOwner_refused (h : badMarks (s.mgmt.params.get 0)) :
    setPoolMarksOwner s = { state := s, result := .refusedParam } := if_pos h

theorem setPoolMarksOwner_taken (h : ¬badMarks (s.mgmt.params.get 0)) : setPoolMarksOwner s =
    { state := s.setPool { s.pool with
        lowMark := bits (s.mgmt.params.get 0) 0 16, recoverMark := bits (s.mgmt.params.get 0) 16 16 }
      result := .ok } := if_neg h

theorem mgmtPort_none {f : MgmtFields} (h : 3 < f.port.toNat) : mgmtPort f = none := dif_neg (by omega)

theorem mgmtPort_some {f : MgmtFields} {p : Port} (h : f.port.toNat = p.val) : mgmtPort f = some p := by
  rw [mgmtPort, dif_pos (h ▸ p.isLt)]
  exact congrArg some (Fin.ext h)

theorem setTimeoutOwner_refused {f : MgmtFields} (h : 3 < f.port.toNat ∨ 255 < bits (s.mgmt.params.get 0) 0 16) :
    setTimeoutOwner f s = { state := s, result := .refusedParam } := by
  unfold setTimeoutOwner
  split <;> rename_i e
  · rfl
  · refine if_pos (h.resolve_left fun k => ?_)
    rw [mgmtPort_none k] at e
    cases e

theorem setTimeoutOwner_taken {f : MgmtFields} {p : Port} (hp : f.port.toNat = p.val)
    (h : bits (s.mgmt.params.get 0) 0 16 ≤ 255) : setTimeoutOwner f s =
      { state := { s with timeouts := s.timeouts.set p (bits (s.mgmt.params.get 0) 0 16) }, result := .ok } := by
  rw [setTimeoutOwner, mgmtPort_some hp]
  exact if_neg (Nat.not_lt_of_le h)


/-- A management command whose owner refuses its parameters changes no state outside the result register (R177). -/
theorem exec_owner_refused (hs : s.MgmtReady) {k : MgmtCommand} {code : BitVec 8} (hk : decodeMgmtCommand code = some k)
    {f : MgmtFields}
    (owner : ∀ w, MgmtCommand.owner k f (s.threeBytes w) = { state := s.threeBytes w, result := .refusedParam }) :
    s.commandBytes none ⟨code, f⟩ = s.mgmtRefused ⟨code, f⟩ .refusedParam := by
  rw [s.commandBytes_owned hs hk, owner]
  exact State.mgmtOwned_refused hs.2.1 _ _ (.inl rfl)

/-- One whose owner carries it out leaves the state `u` that the owner makes (R176). -/
theorem exec_owner_taken (hs : s.MgmtReady) {k : MgmtCommand} {code : BitVec 8} (hk : decodeMgmtCommand code = some k)
    {f : MgmtFields} {u : State} (hu : u.mgmt = s.mgmt)
    (owner : ∀ w, MgmtCommand.owner k f (s.threeBytes w) = { state := u.threeBytes w, result := .ok }) :
    s.commandBytes none ⟨code, f⟩ = u.mgmtTaken ⟨code, f⟩ .ok none := by
  rw [s.commandBytes_owned hs hk, owner]
  exact State.mgmtOwned_taken (by rw [hu]; exact hs.2.1) _ _ _

/-- Settles O45: each of the three commands, refused and taken. -/
theorem partitionMarksAndTimeoutsAreSet : Obligations.PartitionMarksAndTimeoutsAreSet := by
  intro f s hs lower upper
  refine ⟨fun h => ?_, fun h total => ⟨partitionedShares s, ?_, get_partitionedShares s⟩, fun h => ?_,
    fun h1 h2 h3 h4 => ?_, fun h => ?_, fun p hp h => ?_⟩
  · exact congrArg Host.Outcome.next (exec_owner_refused hs (k := .setPartition) rfl fun w =>
      setPartitionOwner_refused ((partitionRefused_iff _).mpr h))
  · have passes : partitionRefused s.mgmt.params = false := by
      rw [Bool.eq_false_iff, Ne, partitionRefused_iff]
      rintro (⟨p, bad⟩ | k)
      · have bad : 2048 < lower p ∨ upper p = 0 ∨ 2048 < upper p ∨ upper p < lower p := bad
        have good := h p
        omega
      · exact Nat.not_lt_of_le total k
    exact congrArg Host.Outcome.next (exec_owner_taken hs (k := .setPartition) rfl rfl fun w =>
      setPartitionOwner_taken (s := s.threeBytes w) passes)
  · exact congrArg Host.Outcome.next (exec_owner_refused hs (k := .setPoolMarks) rfl fun w => setPoolMarksOwner_refused h)
  · have passes : ¬badMarks (s.mgmt.params.get 0) := fun bad => by
      have bad : 2047 < lower 0 ∨ upper 0 = 0 ∨ 2048 < upper 0 ∨ upper 0 ≤ lower 0 := bad
      omega
    exact congrArg Host.Outcome.next (exec_owner_taken hs (k := .setPoolMarks) rfl rfl fun w =>
      setPoolMarksOwner_taken (s := s.threeBytes w) passes)
  · exact congrArg Host.Outcome.next (exec_owner_refused hs (k := .setTimeout) rfl fun w => setTimeoutOwner_refused h)
  · exact congrArg Host.Outcome.next (exec_owner_taken hs (k := .setTimeout) rfl rfl fun w =>
      setTimeoutOwner_taken (s := s.threeBytes w) hp h)

end Sys2Proof.Machine
end

section
/-!
SUPPORT. The compose aperture where no word is stored (R26, R34, R79, R80, R82): the answers of a data write by slot state, length and grant; O26.
-/
namespace Sys2Proof.Machine.State
variable {s : State} {p : Port} {c : ComposeNo}

theorem dataWrite_notFilling (a : BitVec 16) (data : Word) (h : ∀ k, (s.composeSlot p c).phase ≠ .filling k) :
    dataWrite p c a data s = s.refusedAccess p a .notFilling := by
  unfold dataWrite
  split
  · rfl
  · rfl
  · rename_i k e
    exact absurd e (h k)

variable {k : Composing} {m : Message}

theorem dataWrite_tooLong (a : BitVec 16) (data : Word) (hk : (s.composeSlot p c).phase = .filling k)
    (hd : s.desc k.desc = .live m) (hw : 16384 ≤ m.written) : dataWrite p c a data s =
      (s.setComposeSlot p c { s.composeSlot p c with lengthError := true }).refusedAccess p a .length := by
  rw [dataWrite, hk]
  dsimp only
  rw [messageOf_of_live hd]
  exact if_pos hw

/-- A cell is asked for and the quota rule refuses it (R26, R82). -/
theorem dataWrite_starved (a : BitVec 16) (data : Word) (hk : (s.composeSlot p c).phase = .filling k)
    (hd : s.desc k.desc = .live m) (hw : m.written < 16384) (h64 : m.written % 64 = 0) (hq : s.quotaGrants p = false) :
    dataWrite p c a data s = starvedWrite s p c := by
  rw [dataWrite, hk]
  dsimp only
  rw [messageOf_of_live hd, if_neg (Nat.not_le_of_lt (by exact hw)), if_pos h64, hq]
  split
  · contradiction
  · rfl

/-- The refused counter rises up to 65,535 (R26). -/
theorem refused_capped (n : Nat) : min 65535 (n + 1) = if n < 65535 then n + 1 else 65535 := by
  split <;> omega

/-- Settles O26: an aperture address names its slot, and the cases of the access are those of the statement. -/
theorem composeApertureErrorsAndRetries : Obligations.ComposeApertureErrorsAndRetries := by
  refine ⟨fun p c word data s hs => ⟨?_, fun h => ?_, fun k m hk hd hw => ?_⟩, fun p c word data k m s hs hk hd hw h64 hq => ?_⟩
  · exact congrArg Host.Outcome.next (acting_serves hs _ _)
  · rw [exec_composeApertureWrite hs, dataWrite_notFilling _ _ h]
    rfl
  · rw [exec_composeApertureWrite hs, dataWrite_tooLong _ _ hk hd hw]
    rfl
  · rw [exec_composeApertureWrite hs, dataWrite_starved _ _ hk hd hw h64 hq, ← refused_capped]
    rfl

end Sys2Proof.Machine.State
end

section
/-!
SUPPORT. What the two conservation laws read of a state (R24, R31, R36), and the edits that leave it as it is.
-/
namespace Sys2Proof.Machine

/-! ### The books -/

/-- The nodes that a queue lists; none where it is CLOSED (R42). -/
def Queue.listed : Queue → Option Nat
  | .closed => none
  | .live q => some q.depth

/-- The source port of a message and its cells; none for a FREE descriptor (R18). -/
def Descriptor.charge : Descriptor → Option (Port × Nat)
  | .free => none
  | .live m => some (m.port, m.cells)

/-- What node conservation reads (R36). -/
structure NodeBooks where
  free : Nat
  stranded : Nat
  listed : QueueNo → Option Nat
  held : Port → ReceiveNo → Bool

/-- What cell conservation and the charges read (R24, R31). -/
structure CellBooks where
  free : Nat
  stranded : Nat
  charged : Port → Nat
  charges : DescNo → Option (Port × Nat)

/-- A change of a message that leaves its source port and its cells alone. -/
def Message.KeepsCharge (f : Message → Message) : Prop := ∀ m, (f m).port = m.port ∧ (f m).cells = m.cells

namespace State

def nodeBooks (s : State) : NodeBooks where
  free := s.pool.freeNodes
  stranded := s.pool.strandedNodes
  listed q := (s.queue q).listed
  held p r := (s.receiveSlot p r).phase.holds.isSome

def cellBooks (s : State) : CellBooks where
  free := s.pool.freeCells
  stranded := s.pool.strandedCells
  charged p := (s.share p).charged
  charges d := (s.desc d).charge

variable {s t : State}

theorem nodeBooks_congr (hf : t.pool.freeNodes = s.pool.freeNodes) (hs : t.pool.strandedNodes = s.pool.strandedNodes)
    (hq : ∀ q, (t.queue q).listed = (s.queue q).listed)
    (hr : ∀ p r, (t.receiveSlot p r).phase.holds.isSome = (s.receiveSlot p r).phase.holds.isSome) :
    t.nodeBooks = s.nodeBooks := by
  simp only [nodeBooks, hf, hs, hq, hr]

theorem cellBooks_congr (hf : t.pool.freeCells = s.pool.freeCells) (hs : t.pool.strandedCells = s.pool.strandedCells)
    (hc : ∀ p, (t.share p).charged = (s.share p).charged) (hd : ∀ d, (t.desc d).charge = (s.desc d).charge) :
    t.cellBooks = s.cellBooks := by
  simp only [cellBooks, hf, hs, hc, hd]

/-! ### Edits of one record -/

theorem charged_setShare (p q : Port) (x : Share) (hx : x.charged = (s.share p).charged) :
    ((s.setShare p x).share q).charged = (s.share q).charged := by
  by_cases h : q = p
  · rw [h, share_setShare_self, hx]
  · rw [share_setShare_ne _ h]

theorem cellBooks_setShare (p : Port) (x : Share) (hx : x.charged = (s.share p).charged) :
    (s.setShare p x).cellBooks = s.cellBooks :=
  cellBooks_congr rfl rfl (fun q => charged_setShare p q x hx) fun _ => rfl

theorem cellBooks_setDesc (w : s.memoriesWf = true) (d : DescNo) (x : Descriptor) (hx : x.charge = (s.desc d).charge) :
    (s.setDesc d x).cellBooks = s.cellBooks := by
  refine cellBooks_congr rfl rfl (fun _ => rfl) fun e => ?_
  rw [desc_setDesc s (wf_descriptors w)]
  split_ifs with h
  · rw [h, hx]
  · rfl

theorem cellBooks_updMessage (w : s.memoriesWf = true) (d : DescNo) {f : Message → Message}
    (hf : Message.KeepsCharge f) : (s.updMessage d f).cellBooks = s.cellBooks := by
  cases h : s.desc d with
  | free => rw [updMessage, h]
  | live m =>
    rw [updMessage_of_live h]
    exact cellBooks_setDesc w d _ (by rw [h, Descriptor.charge, Descriptor.charge, (hf m).1, (hf m).2])

theorem nodeBooks_updMessage (d : DescNo) (f : Message → Message) : (s.updMessage d f).nodeBooks = s.nodeBooks := by
  obtain ⟨ds, e⟩ := s.updMessage_footprint d f
  rw [e]
  rfl

theorem nodeBooks_setQueue (w : s.memoriesWf = true) (q : QueueNo) (x : Queue) (hx : x.listed = (s.queue q).listed) :
    (s.setQueue q x).nodeBooks = s.nodeBooks := by
  refine nodeBooks_congr rfl rfl (fun r => ?_) fun _ _ => rfl
  rw [queue_setQueue s (wf_queues w)]
  split_ifs with h
  · rw [h, hx]
  · rfl

theorem nodeBooks_setReceiveSlot (p : Port) (r : ReceiveNo) (x : ReceiveSlot)
    (hx : x.phase.holds.isSome = (s.receiveSlot p r).phase.holds.isSome) :
    (s.setReceiveSlot p r x).nodeBooks = s.nodeBooks := by
  refine nodeBooks_congr rfl rfl (fun _ => rfl) fun q e => ?_
  by_cases h : (q, e) = (p, r)
  · cases h
    rw [receiveSlot_setReceiveSlot_self, hx]
  · rw [receiveSlot_setReceiveSlot_ne _ h]

/-! ### Both books -/

/-- The books of both laws. -/
def books (s : State) : NodeBooks × CellBooks := (s.nodeBooks, s.cellBooks)

theorem books_setShare (p : Port) (x : Share) (hx : x.charged = (s.share p).charged) :
    (s.setShare p x).books = s.books := Prod.ext rfl (cellBooks_setShare p x hx)

theorem books_updMessage (w : s.memoriesWf = true) (d : DescNo) {f : Message → Message} (hf : Message.KeepsCharge f) :
    (s.updMessage d f).books = s.books := Prod.ext (nodeBooks_updMessage d f) (cellBooks_updMessage w d hf)

theorem books_setQueue (w : s.memoriesWf = true) (q : QueueNo) (x : Queue) (hx : x.listed = (s.queue q).listed) :
    (s.setQueue q x).books = s.books := Prod.ext (nodeBooks_setQueue w q x hx) rfl

theorem books_setReceiveSlot (p : Port) (r : ReceiveNo) (x : ReceiveSlot)
    (hx : x.phase.holds.isSome = (s.receiveSlot p r).phase.holds.isSome) :
    (s.setReceiveSlot p r x).books = s.books := Prod.ext (nodeBooks_setReceiveSlot p r x hx) rfl

@[simp] theorem books_answer (p : Port) (a : Answer) : (s.answer p a).books = s.books := rfl

@[simp] theorem books_answerError (p : Port) (a : BitVec 16) (r : ErrorReason) : (s.answerError p a r).books = s.books := rfl

theorem books_readCellLink (c : CellNo) : (s.readCellLink c).1.books = s.books := by
  obtain ⟨m, i, e⟩ := s.readCellLink_footprint c
  rw [e]
  rfl

theorem books_readPayload (c : CellNo) (w : Fin 16) : (s.readPayload c w).1.books = s.books := by
  obtain ⟨m, i, e⟩ := s.readPayload_footprint c w
  rw [e]
  rfl

theorem books_writePayload (c : CellNo) (w : Fin 16) (v : Word) : (s.writePayload c w v).books = s.books := by
  obtain ⟨m, x, y, e⟩ := s.writePayload_footprint c w v
  rw [e]
  rfl

end State

/-! ### Commands that leave both books as they are -/

section
variable {s : State}
open State

theorem books_modifyQueue (w : s.memoriesWf = true) (p : Port) (f : CommandFields) :
    (modifyQueue p f s).state.books = s.books := by
  unfold modifyQueue
  split
  · rfl
  · split
    · rfl
    · rename_i lq hq
      split_ifs
      · rfl
      · split
        · rfl
        · rfl
        · dsimp only
          split
          · rfl
          · split_ifs
            · rfl
            · have k := books_setQueue w _ (.live (lq.modified (queueParams (s.front p).params) ‹_›).afterModify)
                (by rw [hq]; rfl)
              unfold modifyTaken
              dsimp only
              split_ifs
              · exact k
              · exact k

theorem books_rewindMessage (p : Port) (f : CommandFields) : (rewindMessage p f s).state.books = s.books := by
  unfold rewindMessage
  split
  · rfl
  · split <;> rename_i k
    · rfl
    · exact books_setReceiveSlot _ _ _ (by rw [k]; rfl)

theorem keepsCharge_poisonAt (o : Nat) : Message.KeepsCharge (Message.poisonAt o) := fun _ => ⟨rfl, rfl⟩

theorem keepsCharge_breakAt (o : Nat) : Message.KeepsCharge (Message.breakAt o) := fun _ => ⟨rfl, rfl⟩

theorem books_foundPoison (w : s.memoriesWf = true) (p : Port) (r : ReceiveNo) (a : BitVec 16) (x : Holding) (m : Message)
    (c : CellNo) (i : Fin 16) : (foundPoison s p r a x m c i).books = s.books :=
  (books_updMessage (s := setReceiveSlot _ _ _ _) (by exact w) x.desc (keepsCharge_poisonAt x.offset)).trans
    (books_setReceiveSlot (s := s.report _ _) p r _ (by rfl))

theorem books_foundBreak (w : s.memoriesWf = true) (p : Port) (r : ReceiveNo) (a : BitVec 16) (x : Holding) (m : Message)
    (c : CellNo) : (foundBreak s p r a x m c).books = s.books :=
  (books_updMessage (s := setReceiveSlot _ _ _ _) (by exact w) x.desc (keepsCharge_breakAt x.offset)).trans
    (books_setReceiveSlot (s := s.report _ _) p r _ (by rfl))

theorem books_currentCell (x : Holding) (m : Message) : (currentCell s x m).1.books = s.books := by
  unfold currentCell
  split <;> rfl

theorem books_findCell (x : Holding) (c : CellNo) : (findCell s x c).1.books = s.books := by
  have k := books_readCellLink (s := s) c
  unfold findCell
  split_ifs
  · split <;> rename_i e <;> rw [e] at k <;> exact k
  · rfl

theorem books_deliver (w : s.memoriesWf = true) (p : Port) (r : ReceiveNo) (a : BitVec 16) {x : Holding} (m : Message)
    (hx : (s.receiveSlot p r).phase = .holding x) : (deliver s p r a x m).books = s.books := by
  have k := books_currentCell (s := s) x m
  have w0 := (Quiet.refl.currentCell x m).memoriesWf w
  unfold deliver
  split
  rename_i s0 c0 e0
  rw [e0] at k w0
  have k1 := (books_findCell (s := s0) x c0).trans k
  have w1 := (Quiet.refl.findCell x c0).memoriesWf w0
  split <;> rename_i e1 <;> rw [e1] at k1 w1
  · exact (books_foundBreak w1 p r a x m c0).trans k1
  · rename_i s1 c
    dsimp only
    have k2 := (books_readPayload (s := s1) c (Fin.ofNat 16 (x.offset % 64 / 4))).trans k1
    have w2 := (Quiet.refl.readPayload c (Fin.ofNat 16 (x.offset % 64 / 4))).memoriesWf w1
    have slots := Edits.receive_of_deliver_reads x m c0 s0 s1 c (Fin.ofNat 16 (x.offset % 64 / 4)) _ e0 e1
    split <;> rename_i e2 <;> rw [e2] at k2 w2 slots
    · exact (books_foundPoison w2 p r a x m c _).trans k2
    · refine (books_answer _ _).trans ((books_setReceiveSlot p r _ ?_).trans k2)
      rw [receiveSlot_of_receive slots, hx]
      rfl

theorem books_dataRead (w : s.memoriesWf = true) (p : Port) (r : ReceiveNo) (a : BitVec 16) :
    (dataRead p r a s).books = s.books := by
  unfold dataRead
  split
  · rfl
  · rename_i x hx
    dsimp only
    split_ifs
    · unfold poisonedRead
      split_ifs <;> exact (books_answerError _ _ _).trans (books_setReceiveSlot p r _ (by rfl))
    · unfold readAtEnd
      split
      · exact (books_answer _ _).trans (books_setReceiveSlot p r _ (by rfl))
      · rfl
      · exact (books_answerError _ _ _).trans (books_setReceiveSlot p r _ (by rfl))
    · exact books_deliver w p r a _ hx

end

end Sys2Proof.Machine
end

section
/-!
SUPPORT. Every step, for a law about the books. `Kept` (above) lets an edit change the shares, the stranded counts and the queues that list nothing, which
a conservation law does not survive. `Conserves P Q` asks instead that `Q` reads the books alone, and for each operation that changes them; from it
follows that a step from a state with `P` ends in a state with `Q`.
-/
namespace Sys2Proof.Machine

/-! ### The destinations that receive a node -/

theorem live_of_admittedDests {s : State} {p : Port} {ds : List (Nat × QueueNo)} {x : Nat × QueueNo × LiveQueue}
    (h : x ∈ s.admittedDests p ds) : s.queue x.2.1 ≠ .closed := by
  obtain ⟨y, _, hy⟩ := List.mem_filterMap.mp h
  obtain ⟨lq, hq, rfl⟩ := Option.map_eq_some_iff.mp hy
  unfold State.admitted at hq
  intro e
  dsimp only at e
  rw [e] at hq
  cases hq

/-- A destination with room is live. -/
theorem live_of_roomDests {s : State} {p : Port} {ds : List (Nat × QueueNo)} {xs : List (Nat × QueueNo × LiveQueue)}
    (h : xs ⊆ s.admittedDests p ds) : ∀ q ∈ State.roomDests xs, s.queue q ≠ .closed := fun q hq => by
  obtain ⟨x, hx, rfl⟩ := List.mem_map.mp hq
  exact live_of_admittedDests (h (List.mem_of_mem_filter hx))

/-! ### The law -/

/-- A law `Q` about the books that survives each operation that changes them: queues opened and closed, grants, seals, abandons, releases, FETCH,
drains, BEGIN, and the resets. A grant and a BEGIN ask for `P` of the state before. -/
structure Conserves (P Q : State → Prop) : Prop where
  wf : ∀ {s : State}, Q s → s.memoriesWf = true
  weaken : ∀ {s : State}, P s → Q s
  pending : ∀ {s : State} (l : List Instr), P s → P { s with pending := l }
  same : ∀ {s t : State}, (s.memoriesWf = true → t.memoriesWf = true) → t.exchange = s.exchange →
    t.resetAsserted = s.resetAsserted → t.books = s.books → Q s → Q t
  opened : ∀ {s : State} {q : QueueNo} {lq : LiveQueue}, s.exchange = .running → s.queue q = .closed → lq.depth = 0 →
    Q s → Q (s.setQueue q (.live lq))
  closed : ∀ {s : State} {q : QueueNo} {lq : LiveQueue}, s.queue q = .live lq → Q s →
    Q ((s.strandNodes lq.depth).setQueue q .closed)
  grantStep : ∀ {s : State} {p : Port} {c : ComposeNo} {k : Composing} {h : CellNo},
    (s.composeSlot p c).phase = .filling k → s.pool.cellHead = some h → P s → Q (grantStep s p c k h)
  dropHolder : ∀ {s : State} (d : DescNo), Q s → Q (s.dropHolder d)
  releaseSlot : ∀ {s : State} {p : Port} {r : ReceiveNo} {h : Holding},
    (s.receiveSlot p r).phase = .holding h → Q s → Q (s.releaseSlot p r h)
  held : ∀ {s : State} {p : Port} {r : ReceiveNo} {x : ReceiveSlot} {q : QueueNo} {lq : LiveQueue} {y : Queue},
    (s.receiveSlot p r).phase = .idle → x.phase.holds.isSome = true → s.queue q = .live lq → y.depth + 1 = lq.depth →
    Q s → Q ((s.setQueue q y).setReceiveSlot p r x)
  strandedHead : ∀ {s : State} {q : QueueNo} {lq : LiveQueue} {y : Queue},
    s.queue q = .live lq → y.depth + 1 = lq.depth → Q s → Q ((s.strandNodes 1).setQueue q y)
  drained : ∀ {s : State} {q : QueueNo} {lq : LiveQueue} {y : Queue} (n : NodeNo) (d : DescNo),
    s.queue q = .live lq → y.depth + 1 = lq.depth → Q s → Q (((s.returnNode n).dropHolder d).setQueue q y)
  unallocated : ∀ {s u : State} {p : Port} {n : Nat}, s.allocateNodes p n = (u, none) → n ≤ s.pool.freeNodes → Q s → Q u
  linked : ∀ {s u : State} {p : Port} {d : DescNo} {room : List QueueNo} {ns : List NodeNo},
    s.allocateNodes p room.length = (u, some ns) → room.length ≤ s.pool.freeNodes →
    (∀ q ∈ room, s.queue q ≠ .closed) → Q s → Q (u.appendAll d room ns)
  begun : ∀ {s u : State} {p : Port} {c : ComposeNo} {b : BeginParams} {qs : List QueueNo} {d : DescNo}
    {rest : List DescNo} {room : List QueueNo} {ns : List NodeNo}, s.pool.fifo = d :: rest →
    s.allocateNodes p room.length = (u, some ns) → room.length ≤ s.pool.freeNodes →
    (∀ q ∈ room, s.queue q ≠ .closed) → P s →
    Q (((u.setPool { u.pool with fifo := rest }).setDesc d (.live (newMessage p c b qs))).appendAll d room ns)
  powerOn : ∀ (ma : BitVec 2) (n : Nat) (l : List Instr), Q { State.reset with ma := ma, fresh := n, pending := l }
  released : ∀ {s : State}, s.resetAsserted = true → P s →
    Q { s.rebuildLinks.rebuildPool with resetAsserted := false, mgmt := { s.mgmt with busy := true } }
  initialised : ∀ {s : State}, s.resetAsserted = false → s.exchange = .init → Q s →
    Q { s with exchange := .running, mgmt := { s.mgmt with busy := false } }
  restarted : ∀ {s : State} (b : Bool), (s.exchange = .running ∨ s.exchange = .stopped) → Q s → Q (s.restarted b)
  resumed : ∀ {s : State} {o : RestartOrigin} (r : MgmtResult), s.exchange = .restarting o → Q s →
    Q { s with exchange := .running, mgmt := { s.mgmt with busy := false, result := r } }
  stopped : ∀ {s : State}, s.exchange = .running → Q s → Q { s with exchange := .stopped, ports := .all .fenced }

/-- The records that a law about the books may read. -/
def State.bookTables (s : State) :=
  (s.exchange, s.resetAsserted, s.payload, s.cellLinks, s.nodeContents, s.nodeLinks, s.descriptors, s.pool, s.shares,
    s.queues, s.receive)

theorem State.same_of_bookTables {s t : State} (e : t.bookTables = s.bookTables) :
    (s.memoriesWf = true → t.memoriesWf = true) ∧ t.exchange = s.exchange ∧ t.resetAsserted = s.resetAsserted ∧
      t.books = s.books := by
  simp only [State.bookTables, Prod.mk.injEq] at e
  obtain ⟨hx, hr, h1, h2, h3, h4, h5, hp, hs, h6, hv⟩ := e
  refine ⟨fun w => ?_, hx, hr, ?_⟩
  · rw [State.memoriesWf_iff] at w ⊢
    rwa [h1, h2, h3, h4, h5, h6]
  · exact Prod.ext
      (State.nodeBooks_congr (by rw [hp]) (by rw [hp]) (fun q => by rw [State.queue_of_queues h6])
        fun p r => by rw [State.receiveSlot_of_receive hv])
      (State.cellBooks_congr (by rw [hp]) (by rw [hp]) (fun p => by rw [State.share_of_shares hs])
        fun d => by rw [State.desc_of_descriptors h5])

namespace Conserves

variable {P Q : State → Prop} (K : Conserves P Q) {s t : State}

include K

/-! ### Edits -/

/-- An edit beside the tables. -/
theorem beside (h : Q s) (e : t.bookTables = s.bookTables) : Q t := by
  obtain ⟨w, hx, hr, hb⟩ := State.same_of_bookTables e
  exact K.same w hx hr hb h

theorem front (p : Port) (x : FrontEnd) (h : Q s) : Q (s.setFront p x) := K.beside h rfl

theorem port (p : Port) (x : PortState) (h : Q s) : Q (s.setPort p x) := K.beside h rfl

theorem composeSlot (p : Port) (c : ComposeNo) (x : ComposeSlot) (h : Q s) : Q (s.setComposeSlot p c x) := K.beside h rfl

theorem completeRequest (n : Nat) (h : Q s) : Q (s.completeRequest n) := K.beside h rfl

/-- An edit of the data path that leaves the books as they are. -/
theorem quiet (q : Quiet s t) (e : t.books = s.books) (h : Q s) : Q t :=
  K.same q.memoriesWf q.exchange q.resetAsserted e h

theorem setShare (p : Port) (x : Share) (h : Q s) (hx : x.charged = (s.share p).charged) : Q (s.setShare p x) :=
  K.quiet (Quiet.refl.share p x) (State.books_setShare p x hx) h

theorem updMessage (d : DescNo) {f : Message → Message} (hf : Message.KeepsCharge f) (h : Q s) : Q (s.updMessage d f) :=
  K.quiet (Quiet.refl.updMessage d f) (State.books_updMessage (K.wf h) d hf) h

theorem setReceiveSlot (p : Port) (r : ReceiveNo) (x : ReceiveSlot) (h : Q s)
    (hx : x.phase.holds.isSome = (s.receiveSlot p r).phase.holds.isSome) : Q (s.setReceiveSlot p r x) :=
  K.quiet (Quiet.refl.receive p r x) (State.books_setReceiveSlot p r x hx) h

/-- A queue that stays live with its depth. -/
theorem setQueue {q : QueueNo} {lq : LiveQueue} (hq : s.queue q = .live lq) {x : LiveQueue} (h : Q s)
    (hx : x.depth = lq.depth) : Q (s.setQueue q (.live x)) :=
  K.quiet (Quiet.refl.queue q _) (State.books_setQueue (K.wf h) q _ (by rw [hq, Queue.listed, Queue.listed, hx])) h

/-! ### Closing a queue (R60, R64, R68) -/

/-- A queue that lists nothing closes with nothing stranded. -/
theorem closedEmpty {q : QueueNo} {lq : LiveQueue} (hq : s.queue q = .live lq) (hd : lq.depth = 0) (h : Q s) :
    Q (s.setQueue q .closed) := by
  have k := K.closed hq h
  rw [hd] at k
  exact K.beside k rfl

theorem closeAtOnce {q : QueueNo} {lq : LiveQueue} (hq : s.queue q = .live lq) (hd : lq.phase = .quarantined ∨ lq.depth = 0)
    (h : Q s) : Q (s.closeAtOnce q lq) := by
  unfold State.closeAtOnce
  split <;> rename_i e
  · exact K.beside (K.closed hq h) rfl
  · exact K.beside (K.closedEmpty hq (hd.resolve_left (by rw [e]; exact nofun)) h) rfl
  · exact K.beside (K.closedEmpty hq (hd.resolve_left (by rw [e]; exact nofun)) h) rfl

omit K in
/-- The reports of a completed close go to a front end and a teardown record. -/
theorem bookTables_finishClose (s : State) (q : QueueNo) (p : Port) (c : CloseRecord) :
    (s.finishClose q p c).bookTables = (s.setQueue q .closed).bookTables := by
  have command : ∀ (u : State) a b, (u.completeCommand p q a b).bookTables = u.bookTables := fun u a b => by
    unfold State.completeCommand
    split_ifs <;> rfl
  have teardown : ∀ u : State, (u.completeTeardown c.owner q).bookTables = u.bookTables := fun u => by
    unfold State.completeTeardown
    split
    · split_ifs <;> rfl
    · rfl
    · rfl
  unfold State.finishClose
  dsimp only
  split_ifs
  · rw [teardown, command]
    rfl
  · rw [teardown]
    rfl
  · rw [command]
    rfl
  · rfl

/-! ### Ports -/

theorem startTeardown (p : Port) (o : TeardownOrigin) (e : TeardownEnd) (h : Q s) : Q (s.startTeardown p o e) :=
  K.beside (K.setShare p { s.share p with starving := false } h rfl) rfl

theorem fenceBy (p : Port) (o : TeardownOrigin) (h : Q s) : Q (s.fenceBy p o) := by
  unfold State.fenceBy
  split
  · exact K.startTeardown _ _ _ h
  · exact K.beside h rfl
  · exact h

/-! ### Accesses of an agent port -/

theorem acting (p : Port) (a : BitVec 16) {f : State → State} (h : Q s) (hf : s.exchange = .running → Q (f s)) :
    Q (s.acting p a f) := by
  unfold State.acting State.oneAccess
  split
  · exact h
  · dsimp only
    split <;> rename_i r
    · exact K.beside h rfl
    · exact K.beside h rfl
    · exact K.beside h rfl
    · split
      · exact K.beside h rfl
      · exact K.beside h rfl
      · exact hf r

theorem commandAccess (p : Port) {f : State → State} (h : Q s) (hf : s.exchange = .running → Q (f s)) :
    Q (s.commandAccess p f) := by
  refine K.acting p _ h fun r => ?_
  split
  · exact hf r
  all_goals exact K.beside h rfl

theorem takeCommand (p : Port) (c : CommandWord) {f : State → CommandOutcome} (h : Q s)
    (hf : s.exchange = .running → Q (f s).state) : Q (s.takeCommand p c f) :=
  K.commandAccess p h fun r => K.beside (hf r) rfl

/-! ### Queue commands -/

theorem openQueue (p : Port) (f : CommandFields) (r : s.exchange = .running) (h : Q s) : Q (openQueue p f s).state := by
  unfold Machine.openQueue
  split
  · exact h
  · split <;> rename_i hq
    · exact h
    · dsimp only
      split
      · split_ifs
        · exact h
        · exact K.opened r hq rfl h
      · exact h

theorem modifyQueue (p : Port) (f : CommandFields) (h : Q s) : Q (modifyQueue p f s).state :=
  K.quiet (Quiet.modifyQueue p f .refl) (books_modifyQueue (K.wf h) p f) h

theorem closeQueue (p : Port) (f : CommandFields) (h : Q s) : Q (closeQueue p f s).state := by
  unfold Machine.closeQueue
  split
  · exact h
  · split <;> rename_i hq
    · exact h
    · split
      · exact h
      · split <;> rename_i hp
        · exact h
        · exact K.closeAtOnce hq (.inl hp) h
        · split_ifs with hd
          · exact K.closeAtOnce hq (.inr hd) h
          · exact K.setQueue hq h rfl

/-! ### Link requests (R50, R85) and BEGIN (R76) -/

theorem disposeAll (d : DescNo) (x : Disposition) (qs : List QueueNo) (h : Q s) : Q (s.disposeAll d x qs) := by
  induction qs generalizing s with
  | nil => exact h
  | cons q qs ih => exact ih (K.updMessage d (fun _ => ⟨rfl, rfl⟩) h)

theorem examine (p : Port) (d : DescNo) (m : Message) (h : Q s) : Q (s.examine p d m).1 := by
  unfold State.examine
  dsimp only
  split
  · exact h
  · split_ifs with hf
    · exact h
    · split <;> rename_i e
      · exact K.unallocated e (Nat.le_of_not_lt hf) h
      · exact K.disposeAll _ _ _ (K.disposeAll _ _ _ (K.linked e (Nat.le_of_not_lt hf) (live_of_roomDests fun _ k => k) h))

theorem sealSlot (p : Port) (c : ComposeNo) (k : Composing) (m : Message) (n : Nat) (h : Q s) :
    Q (s.sealSlot p c k m n).state := by
  have x := K.examine p k.desc m h
  unfold State.sealSlot
  split <;> rename_i e <;> rw [e] at x
  · exact K.composeSlot p c _ x
  · exact K.dropHolder _ (K.composeSlot p c _ (K.updMessage k.desc (fun _ => ⟨rfl, rfl⟩) x))

theorem abandonSlot (p : Port) (c : ComposeNo) (k : Composing) (h : Q s) : Q (s.abandonSlot p c k) :=
  K.dropHolder _ (K.composeSlot p c _ (K.updMessage k.desc (fun _ => ⟨rfl, rfl⟩) h))

theorem beginLink (p : Port) (c : ComposeNo) (b : BeginParams) (qs : List QueueNo) (h : P s) :
    Q (beginLink s p c b qs).state := by
  unfold Machine.beginLink
  dsimp only
  split
  · exact K.weaken h
  · split <;> rename_i hf
    · exact K.weaken h
    · split_ifs with hn
      · exact K.weaken h
      · split
        · exact K.weaken h
        · split <;> rename_i e
          · exact K.unallocated e (Nat.le_of_not_lt hn) (K.weaken h)
          · exact K.composeSlot p c _ (K.disposeAll _ _ _ (K.begun hf e (Nat.le_of_not_lt hn)
              (live_of_roomDests fun _ k => List.mem_of_mem_filter k) h))

/-! ### Compose commands -/

theorem beginFirst (p : Port) (f : CommandFields) (h : P s) : Q (beginFirst p f s).state := by
  unfold Machine.beginFirst
  split
  · exact K.weaken h
  · split
    · exact K.weaken h
    · exact K.weaken h
    · dsimp only
      split
      · exact K.weaken h
      · exact K.beginLink p _ _ _ h

theorem beginMessage (p : Port) (f : CommandFields) (h : P s) : Q (beginMessage p f s).state := by
  refine K.beside (?_ : Q ((Machine.beginFirst p f s).finish p).state) rfl
  unfold BeginOutcome.finish
  split
  · exact K.beginFirst p f h
  · exact K.sealSlot _ _ _ _ _ (K.beginFirst p f h)

theorem beginOpen (p : Port) (f : CommandFields) (h : P s) : Q (beginOpen p f s) := by
  unfold Machine.beginOpen
  dsimp only
  split <;> exact K.beside (K.beginFirst p f h) rfl

theorem endOpening (p : Port) (h : Q s) : Q (s.endOpening p) := by
  unfold State.endOpening
  split
  · exact h
  · rename_i o _
    have k : Q ((s.setFront p { s.front p with opening := none }).setIntegrity (s.integrity.resume p)) := K.beside h rfl
    dsimp only
    split
    · exact K.front _ _ (K.completeRequest _ (K.sealSlot p o.slot _ _ 0 k))
    · exact K.beside k rfl
    · exact K.beside k rfl

theorem sealMessage (p : Port) (f : CommandFields) (h : Q s) : Q (sealMessage p f s).state := by
  refine K.beside (?_ : Q (sealTaken p f s).state) rfl
  unfold sealTaken
  split
  · exact h
  · split
    · exact h
    · rw [Kept.sealResult_state]
      exact K.sealSlot _ _ _ _ _ h
    · dsimp only
      split_ifs
      · exact h
      · rw [Kept.sealResult_state]
        exact K.sealSlot _ _ _ _ _ h
      · exact h

theorem abandonMessage (p : Port) (f : CommandFields) (h : Q s) : Q (abandonMessage p f s).state := by
  unfold Machine.abandonMessage
  split
  · exact h
  · split
    · exact h
    · exact K.abandonSlot _ _ _ h

theorem autoSeal (p : Port) (c : ComposeNo) (k : Composing) (h : Q s) : Q (autoSeal s p c k) := by
  unfold Machine.autoSeal
  dsimp only
  split
  · exact h
  · split_ifs
    · exact K.beside (K.sealSlot _ _ _ _ _ h) rfl
    · exact h

theorem storeWord (p : Port) (c : ComposeNo) (k : Composing) (w : Word) (h : Q s) : Q (storeWord s p c k w) := by
  have stored : ∀ u : State, Q u → Q ((Machine.autoSeal ((u.updMessage k.desc fun m => { m with written := m.written + 4 }).setComposeSlot p c
      { (u.updMessage k.desc fun m => { m with written := m.written + 4 }).composeSlot p c with
        phase := .filling { k with timer := 0, due := false } }) p c { k with timer := 0, due := false }).answer p
          .okayWrite) := fun u hu =>
    K.front _ _ (K.autoSeal p c _ (K.composeSlot _ _ _ (K.updMessage k.desc (fun _ => ⟨rfl, rfl⟩) hu)))
  unfold Machine.storeWord
  dsimp only
  split
  · exact stored _ (K.quiet (Quiet.refl.writePayload _ _ _) (State.books_writePayload _ _ _) h)
  · exact stored s h

theorem dataWrite (p : Port) (c : ComposeNo) (a : BitVec 16) (w : Word) (h : P s) : Q (dataWrite p c a w s) := by
  have q := K.weaken h
  unfold Machine.dataWrite
  split <;> rename_i e
  · exact K.beside q rfl
  · exact K.beside q rfl
  · split_ifs
    · exact K.beside q rfl
    · split <;> rename_i g _
      · exact K.completeRequest _ (K.storeWord p c _ w (K.grantStep e g h))
      · exact K.front _ _ (K.composeSlot _ _ _ (K.setShare p { s.share p with
          refused := min 65535 ((s.share p).refused + 1), starving := true, refusedSlot := some c } q rfl))
    · exact K.completeRequest _ (K.storeWord p c _ w q)

/-! ### The head of a queue taken (R56 to R58, R61 to R63) -/

omit K in
/-- The reads of a head node leave the tables of the queues, the slots, the pool and the descriptors alone. -/
theorem readHead_tables (s : State) (lq : LiveQueue) (n : NodeNo) : ∃ c m i f, ((s.headNode lq).1.readNode n).1 =
    { s with nodeContents := c, nodeLinks := m, integrity := i, fresh := f } := by
  obtain ⟨c, m, i, e⟩ := (s.headNode lq).1.readNode_footprint n
  rw [e]
  unfold State.headNode
  split
  · exact ⟨c, m, i, s.fresh, rfl⟩
  · exact ⟨c, m, i, s.fresh + 1, rfl⟩

theorem readHead (lq : LiveQueue) (n : NodeNo) (h : Q s) : Q ((s.headNode lq).1.readNode n).1 := by
  refine K.quiet ((Quiet.refl.headNode lq).readNode n) ?_ h
  obtain ⟨c, m, i, f, e⟩ := readHead_tables s lq n
  rw [e]
  rfl

omit K in
theorem readHead_reads (s : State) (lq : LiveQueue) (n : NodeNo) :
    (∀ q, ((s.headNode lq).1.readNode n).1.queue q = s.queue q) ∧
      ∀ p r, ((s.headNode lq).1.readNode n).1.receiveSlot p r = s.receiveSlot p r := by
  obtain ⟨c, m, i, f, e⟩ := readHead_tables s lq n
  rw [e]
  exact ⟨fun _ => rfl, fun _ _ => rfl⟩

omit K in
theorem bookTables_reportBroken (s : State) (n : NodeNo) (c : Option DescNo) (a : ReadAccess) (p : Port) (q : QueueNo) :
    (s.reportBroken n c a p q).bookTables = s.bookTables := by
  obtain ⟨i, e⟩ := s.reportBroken_footprint n c a p q
  rw [e]
  rfl

omit K in
theorem queue_reportBroken (s : State) (n : NodeNo) (c : Option DescNo) (a : ReadAccess) (p : Port) (q r : QueueNo) :
    (s.reportBroken n c a p q).queue r = s.queue r := by
  obtain ⟨i, e⟩ := s.reportBroken_footprint n c a p q
  rw [e]
  rfl

omit K in
theorem bookTables_reportContent (s : State) (n : NodeNo) (a : ReadAccess) (p : Port) (q : QueueNo) (b : BaseAction) :
    (s.reportContent n a p q b).bookTables = s.bookTables := rfl

omit K in
theorem queue_quarantine {q : QueueNo} {lq : LiveQueue} (w : s.memoriesWf = true) :
    (s.quarantine q lq).queue q = .live { lq with phase := .quarantined } :=
  (State.queue_setQueue s (State.wf_queues w) q q _).trans (if_pos rfl)

omit K in
theorem depth_rearm (lq : LiveQueue) : (Queue.live lq.rearm).depth = lq.depth := by
  unfold LiveQueue.rearm
  split_ifs <;> rfl

omit K in
theorem depth_behead {lq : LiveQueue} (h : lq.depth ≠ 0) (x : NodeLink) : (lq.behead x).depth + 1 = lq.depth :=
  Nat.succ_pred_eq_of_ne_zero h

theorem quarantine {q : QueueNo} {lq : LiveQueue} (hq : s.queue q = .live lq) (h : Q s) : Q (s.quarantine q lq) :=
  K.beside (K.setQueue hq (x := { lq with phase := .quarantined }) h rfl) rfl

theorem detach {p : Port} {r : ReceiveNo} {q : QueueNo} {lq : LiveQueue} (hr : (s.receiveSlot p r).phase = .idle)
    (hq : s.queue q = .live lq) (hd : lq.depth ≠ 0) (h : Q s) : Q (detach s p r q lq).state := by
  have behead : ∀ x, (Queue.live (lq.behead x).rearm).depth + 1 = lq.depth := fun x => by
    rw [depth_rearm, depth_behead hd]
  unfold Machine.detach
  split
  rename_i s1 n e1
  have k := K.readHead lq n h
  obtain ⟨sameQueue, sameSlot⟩ := readHead_reads s lq n
  rw [e1] at k sameQueue sameSlot
  split <;> rename_i e2 <;> rw [e2] at k sameQueue sameSlot
  · exact K.held ((congrArg ReceiveSlot.phase (sameSlot p r)).trans hr) rfl ((sameQueue q).trans hq) (behead _) k
  · exact K.beside (K.beside (K.strandedHead ((sameQueue q).trans hq) (behead _) k) rfl) (bookTables_reportContent ..)
  · exact K.quarantine ((queue_reportBroken ..).trans ((sameQueue q).trans hq)) (K.beside k (bookTables_reportBroken ..))

/-- A drain goes on with the record, or ends. -/
theorem drainOn {q : QueueNo} {lq : LiveQueue} (c : CloseRecord)
    (h : ∀ y : Queue, y.depth = lq.depth → Q (s.setQueue q y)) : Q (s.drainOn q lq c) := by
  unfold State.drainOn
  split_ifs with hd
  · exact K.beside (h .closed hd.symm) (bookTables_finishClose _ _ _ _)
  · exact h _ rfl

theorem drainHead {q : QueueNo} {lq : LiveQueue} (c : CloseRecord) (hq : s.queue q = .live lq) (hd : lq.depth ≠ 0)
    (h : Q s) : Q (s.drainHead q lq c) := by
  have behead : ∀ (x : NodeLink) (y : Queue), y.depth = (lq.behead x).depth → y.depth + 1 = lq.depth := fun x y e => by
    rw [e, depth_behead hd]
  unfold State.drainHead
  split
  rename_i s1 n e1
  have k := K.readHead lq n h
  obtain ⟨sameQueue, _⟩ := readHead_reads s lq n
  rw [e1] at k sameQueue
  split <;> rename_i e2 <;> rw [e2] at k sameQueue
  · exact K.drainOn _ fun y hy => K.drained n _ ((sameQueue q).trans hq) (behead _ y hy) k
  · exact K.drainOn _ fun y hy =>
      K.beside (K.strandedHead ((sameQueue q).trans hq) (behead _ y hy) k) rfl
  · rename_i s2 d
    have isLive := (queue_reportBroken s2 n d .drain c.owner q q).trans ((sameQueue q).trans hq)
    have found : Q (s2.reportBroken n d .drain c.owner q) := K.beside k (bookTables_reportBroken ..)
    have closed := K.closed (queue_quarantine (K.wf found)) (K.quarantine isLive found)
    exact K.beside closed (bookTables_finishClose ..)

/-! ### Receive commands -/

theorem fetchMessage (p : Port) (f : CommandFields) (h : Q s) : Q (fetchMessage p f s).state := by
  unfold Machine.fetchMessage
  split
  · exact h
  · split <;> rename_i hi
    · exact h
    · unfold Machine.fetchFrom
      split
      · exact h
      · split <;> rename_i hq
        · exact h
        · split
          · exact h
          · split
            · exact h
            · exact h
            · split_ifs with hd
              · exact h
              · exact K.beside (K.detach hi hq hd h) rfl

theorem releaseMessage (p : Port) (f : CommandFields) (h : Q s) : Q (releaseMessage p f s).state := by
  unfold Machine.releaseMessage
  split
  · exact h
  · split <;> rename_i e
    · exact h
    · exact K.releaseSlot e h

theorem dataRead (p : Port) (r : ReceiveNo) (a : BitVec 16) (h : Q s) : Q (dataRead p r a s) :=
  K.quiet (Quiet.dataRead p r a .refl) (books_dataRead (K.wf h) p r a) h

theorem popEvent (p : Port) (h : Q s) : Q (popEvent p s) := by
  unfold Machine.popEvent
  dsimp only
  split <;> exact K.beside h rfl

/-! ### Register accesses -/

theorem agentOwner (k : AgentCommand) (p : Port) (f : CommandFields) (r : s.exchange = .running) (h : P s) :
    Q (AgentCommand.owner k p f s).state := by
  have q := K.weaken h
  cases k with
  | openQueue => exact K.openQueue p f r q
  | modifyQueue => exact K.modifyQueue p f q
  | closeQueue => exact K.closeQueue p f q
  | queryQueue => exact (Edits.queryQueue_state f).symm ▸ q
  | beginMessage => exact K.beginMessage p f h
  | sealMessage => exact K.sealMessage p f q
  | abandonMessage => exact K.abandonMessage p f q
  | fetchMessage => exact K.fetchMessage p f q
  | rewindMessage => exact K.quiet (Quiet.rewindMessage p f .refl) (books_rewindMessage p f) q
  | releaseMessage => exact K.releaseMessage p f q
  | portReset => exact K.startTeardown _ _ _ q

theorem commandOwner (p : Port) (c : CommandWord) (r : s.exchange = .running) (h : P s) :
    Q (commandOwner p c s).state := by
  unfold Machine.commandOwner
  split
  · exact K.agentOwner _ _ _ r h
  · exact K.weaken h

theorem writeRegister (p : Port) (a : BitVec 16) (reg : PortRegister) (w : Word) (h : P s) :
    Q (writeRegister p a reg w s) := by
  have q := K.weaken h
  unfold Machine.writeRegister
  split
  · exact K.acting p a q fun _ => K.beside q rfl
  · exact K.takeCommand p _ q fun r => K.commandOwner _ _ r h
  all_goals exact K.acting p a q fun _ => K.beside q rfl

theorem agentAccess (p : Port) (a : BitVec 16) (x : Access) (h : P s) : Q (agentAccess p a x s) := by
  have q := K.weaken h
  unfold Machine.agentAccess State.oneAccess
  split
  · exact q
  · unfold Machine.decodedAccess
    split
    · exact K.beside q rfl
    · exact K.beside q rfl
    · split
      · unfold Machine.readRegister
        split
        · exact K.acting p a q fun _ => K.popEvent p q
        · exact K.beside q rfl
      · exact K.writeRegister _ _ _ _ h
    · split
      · exact K.acting p a q fun _ => K.beside q rfl
      · exact K.acting p a q fun _ => K.dataWrite _ _ _ _ h
    · split
      · exact K.acting p a q fun _ => K.dataRead _ _ _ q
      · exact K.acting p a q fun _ => K.beside q rfl

/-! ### The management commands -/

theorem restart (b : Bool) (r : s.exchange = .running ∨ s.exchange = .stopped) (h : Q s) : Q (s.restart b) := by
  have q : Quiet s s.completeOpenings := (((Quiet.refl.endOpening 0).endOpening 1).endOpening 2).endOpening 3
  exact K.restarted b (by rwa [q.exchange]) (K.endOpening 3 (K.endOpening 2 (K.endOpening 1 (K.endOpening 0 h))))

/-- The shares of all ports replaced, each with its charge. -/
theorem shares (x : Quad Share) (hx : ∀ p, (x.get p).charged = (s.share p).charged) (h : Q s) :
    Q { s with shares := x } :=
  K.same (s := s) (fun w => w) rfl rfl
    (Prod.ext rfl (State.cellBooks_congr (s := s) (t := { s with shares := x }) rfl rfl hx fun _ => rfl)) h

theorem setPartitionOwner (h : Q s) : Q (setPartitionOwner s).state := by
  unfold Machine.setPartitionOwner
  dsimp only
  split_ifs
  · exact h
  · exact K.shares _ (fun p => by fin_cases p <;> rfl) h

theorem setPoolMarksOwner (h : Q s) : Q (setPoolMarksOwner s).state := by
  unfold Machine.setPoolMarksOwner
  dsimp only
  split_ifs
  · exact h
  · exact K.quiet (Quiet.refl.pool _) rfl h

theorem setTimeoutOwner (f : MgmtFields) (h : Q s) : Q (setTimeoutOwner f s).state := by
  unfold Machine.setTimeoutOwner
  split
  · exact h
  · dsimp only
    split_ifs
    · exact h
    · exact K.beside h rfl

theorem clearCountersOwner (h : Q s) : Q (clearCountersOwner s).state :=
  K.shares (s := s.setIntegrity _) _ (fun p => by rw [Quad.get_map]; rfl) (K.beside h rfl)

theorem mgmtOwner (k : MgmtCommand) (f : MgmtFields) (h : Q s) : Q (MgmtCommand.owner k f s).state := by
  cases k with
  | restartExchange =>
    show Q (restartOwner s).state
    unfold restartOwner
    split <;> rename_i e
    · exact K.restart _ (.inl e) h
    · exact K.restart _ (.inr e) h
    · exact h
    · exact h
  | resetPort =>
    refine Edits.portCommand f h fun _ p => ?_
    split
    · exact K.startTeardown _ _ _ h
    all_goals exact h
  | fencePort =>
    refine Edits.portCommand f h fun _ p => ?_
    split
    · exact K.fenceBy _ _ h
    · exact K.fenceBy _ _ h
    · exact h
  | unfencePort =>
    refine Edits.portCommand f h fun _ p => ?_
    split
    · exact K.beside h rfl
    all_goals exact h
  | setPartition => exact K.setPartitionOwner h
  | setPoolMarks => exact K.setPoolMarksOwner h
  | setTimeout => exact K.setTimeoutOwner f h
  | setPolicy =>
    show Q (setPolicyOwner f s).state
    unfold setPolicyOwner
    split
    · exact K.beside h rfl
    · exact h
  | ackFault =>
    show Q (ackFaultOwner s).state
    unfold ackFaultOwner
    split
    · exact h
    · exact K.beside h rfl
  | clearCounters => exact K.clearCountersOwner h
  | inject =>
    show Q (injectOwner f s).state
    unfold injectOwner
    split
    · exact K.beside h rfl
    · exact h

theorem mgmtCommand (c : MgmtWord) (h : Q s) : Q (s.mgmtCommand c) := by
  unfold State.mgmtCommand
  split_ifs
  · exact K.beside h rfl
  · split
    · exact K.beside h rfl
    · have k := K.mgmtOwner ‹_› c.fields h
      unfold State.mgmtOwned
      split <;> exact K.beside k rfl

/-! ### Management transactions (R171 to R174) -/

theorem writeMgmtRegister (w : Word) (h : Q s) : Q (s.writeMgmtRegister w) := by
  unfold State.writeMgmtRegister
  split
  · exact K.beside h rfl
  · exact K.mgmtCommand _ h
  all_goals exact K.beside h rfl

theorem receiveBytes (bs : List Byte) (h : Q s) : Q (s.receiveBytes bs) := by
  induction bs generalizing s with
  | nil => exact h
  | cons b bs ih =>
    refine ih ?_
    unfold State.receiveByte
    split
    · exact K.beside (K.writeMgmtRegister _ h) rfl
    · exact K.beside h rfl

theorem startTransaction (a : BitVec 7) (x : Transaction) (h : Q s) : Q (s.startTransaction a x) := by
  unfold State.startTransaction
  split_ifs <;> exact K.beside h rfl

theorem dataBytes (bs : List Byte) {finish : State → State} (hf : ∀ u, (finish u).bookTables = u.bookTables) (h : Q s) :
    Q (s.dataBytes bs finish) := by
  unfold State.dataBytes
  split_ifs
  · refine K.beside (K.receiveBytes bs ?_) (hf _)
    exact K.beside h rfl
  · exact K.beside h rfl

theorem indexByte (a : BitVec 7) (i : Byte) (h : Q s) : Q (s.indexByte a i) := by
  have k := K.startTransaction a .write h
  unfold State.indexByte
  dsimp only
  split_ifs
  · exact K.beside k rfl
  · exact k

theorem mgmtData (start : Option WriteStart) (bs : List Byte) {finish : State → State}
    (hf : ∀ u, (finish u).bookTables = u.bookTables) (h : Q s) : Q (s.mgmtData start bs finish) := by
  unfold State.mgmtData
  split
  · exact K.dataBytes _ hf (K.indexByte _ _ h)
  · exact K.dataBytes _ hf h

theorem sendRegister (last : Fin 4) (h : Q s) : Q (s.sendRegister last) := by
  unfold State.sendRegister
  dsimp only
  split <;> exact K.beside h rfl

theorem mgmtRead (start : Option (BitVec 7)) (last : Fin 4) (h : Q s) : Q (s.mgmtRead start last) := by
  have sent : ∀ u, Q u → Q (if u.readOpen then u.sendRegister last else u) := fun u hu => by
    split_ifs
    · exact K.sendRegister _ hu
    · exact hu
  unfold State.mgmtRead
  split
  · exact sent _ (K.startTransaction _ _ h)
  · exact sent _ h

/-! ### Timers, drains and escalations -/

theorem timerExpiry (p : Port) (c : ComposeNo) (h : Q s) (e : execTimerExpiry p c s = .next t) : Q t := by
  have expired : ∀ k b, Q (expireSlot s p c k b) := fun k b => K.beside (K.abandonSlot p c k h) rfl
  unfold execTimerExpiry at e
  split at e
  · split at e
    · cases e
      exact h
    · split at e <;> cases e
      · exact expired _ _
      · exact h
    · split at e <;> cases e
      · exact expired _ _
      · exact h
  · cases e
    exact h

theorem drainStep (q : QueueNo) (h : Q s) (e : execDrainStep q s = .next t) : Q t := by
  unfold execDrainStep at e
  split at e
  · rename_i r hq
    split at e
    · split at e <;> rename_i hd <;> cases e
      · exact K.beside (K.closedEmpty hq hd h) (bookTables_finishClose _ _ _ _)
      · exact K.beside (K.drainHead _ hq hd h) rfl
    all_goals
      cases e
      exact h
  · cases e
    exact h

theorem escalation {e : Escalation} {p : Port} (k : s.escalation e = some (p, t)) (h : Q s) : Q t := by
  obtain ⟨x, _, hp⟩ := Option.map_eq_some_iff.mp k
  cases hp
  exact K.beside h rfl

theorem fenceRequest (h : Q s) (e : execFenceRequest s = .next t) : Q t := by
  unfold execFenceRequest at e
  split at e <;> rename_i x <;> cases e
  · have k := K.escalation x h
    unfold State.fenceRequested
    split
    · exact K.fenceBy _ _ k
    all_goals exact k
  · exact h

theorem stopRequest (h : Q s) (e : execStopRequest s = .next t) : Q t := by
  unfold execStopRequest at e
  split at e <;> rename_i x <;> cases e
  · have k := K.escalation x h
    unfold State.stopRequested
    split <;> rename_i r
    · exact K.stopped r k
    all_goals exact k
  · exact h

/-! ### Teardowns -/

theorem teardownAbandon (p : Port) (h : Q s) (e : execTeardownAbandon p s = .next t) : Q t := by
  unfold execTeardownAbandon at e
  split at e <;> cases e
  · unfold State.teardownAbandonSlot
    dsimp only
    split
    · exact K.beside (K.abandonSlot _ _ _ h) rfl
    · exact K.beside h rfl
  · exact h

theorem teardownRelease (p : Port) (h : Q s) (e : execTeardownRelease p s = .next t) : Q t := by
  unfold execTeardownRelease at e
  split at e <;> cases e
  · unfold State.teardownReleaseSlot
    dsimp only
    split <;> rename_i hk
    · exact K.port _ _ (K.setReceiveSlot _ _ _ (K.releaseSlot hk h) rfl)
    · exact K.port _ _ (K.setReceiveSlot _ _ _ h rfl)
  · exact h

theorem teardownCloseQueue (p : Port) (x : Teardown) (q : QueueNo) (h : Q s) : Q (s.teardownCloseQueue p x q) := by
  unfold State.teardownCloseQueue
  split <;> rename_i hq
  · exact K.beside h rfl
  · split
    · exact K.beside h rfl
    · split <;> rename_i hp
      · exact K.beside (K.closeAtOnce hq (.inl hp) h) rfl
      · split_ifs with hd
        · exact K.beside (K.closeAtOnce hq (.inr hd) h) rfl
        · exact K.port _ _ (K.setQueue hq h rfl)
      · exact K.port _ _ (K.setQueue hq h rfl)

theorem teardownClose (p : Port) (h : Q s) (e : execTeardownClose p s = .next t) : Q t := by
  unfold execTeardownClose at e
  split at e
  · split at e <;> cases e
    · exact K.teardownCloseQueue _ _ _ h
    · exact h
  · cases e
    exact h

theorem teardownCloseComplete (p : Port) (h : Q s) (e : execTeardownCloseComplete p s = .next t) : Q t := by
  unfold execTeardownCloseComplete at e
  split at e
  · split at e <;> cases e
    · exact K.beside h rfl
    · exact h
  · cases e
    exact h

theorem teardownEventReset (p : Port) (h : Q s) (e : execTeardownEventReset p s = .next t) : Q t := by
  unfold execTeardownEventReset at e
  split at e <;> cases e
  · exact K.beside h rfl
  · exact h

theorem teardownEnd (p : Port) (h : Q s) (e : execTeardownEnd p s = .next t) : Q t := by
  unfold execTeardownEnd at e
  split at e
  · split at e <;> cases e <;> exact K.beside h rfl
  · cases e
    exact h

/-! ### The resets, and every command -/

theorem resetNRelease (h : P s) (e : execResetNRelease s = .next t) : Q t := by
  unfold execResetNRelease at e
  split at e <;> rename_i r <;> cases e
  · exact K.released r h
  · exact K.weaken h

theorem initRebuildEnd (h : Q s) (e : execInitRebuildEnd s = .next t) : Q t := by
  unfold execInitRebuildEnd at e
  split at e <;> rename_i r
  · cases e
    exact h
  · split at e <;> rename_i i <;> cases e
    · exact K.initialised (by simpa using r) i h
    all_goals exact h

theorem restartRebuildEnd (h : Q s) (e : execRestartRebuildEnd s = .next t) : Q t := by
  unfold execRestartRebuildEnd at e
  split at e <;> rename_i o <;> cases e
  · exact K.beside (K.resumed ⟨some MgmtCommand.restartExchange.code, .ok, none⟩ o h) rfl
  all_goals exact h

/-- What a command ends in, by its row of the table. -/
theorem exec (i : Instr) (h : P s) (e : exec i s = .next t) : Q t := by
  have q := K.weaken h
  have reaches : ∀ {u : State}, Q u → Host.Outcome.next u = (.next t : Host.Outcome State Fault Refusal) → Q t :=
    fun hu he => by
      cases he
      exact hu
  cases i with
  | resetNAssert ma => exact reaches (K.powerOn ma s.fresh s.pending) e
  | resetNRelease => exact K.resetNRelease h e
  | initRebuildEnd => exact K.initRebuildEnd q e
  | restartRebuildEnd => exact K.restartRebuildEnd q e
  | accessDecodeError p a x => exact reaches (K.agentAccess p a x h) e
  | registerWrite p a w => exact reaches (K.agentAccess p a _ h) e
  | commandCodeInvalid p c f => exact reaches (K.takeCommand p _ q fun r => K.commandOwner _ _ r h) e
  | openQueue p f => exact reaches (K.takeCommand p _ q fun r => K.agentOwner .openQueue p f r h) e
  | modifyQueue p f => exact reaches (K.takeCommand p _ q fun r => K.agentOwner .modifyQueue p f r h) e
  | closeQueue p f => exact reaches (K.takeCommand p _ q fun r => K.agentOwner .closeQueue p f r h) e
  | queryQueue p f => exact reaches (K.takeCommand p _ q fun r => K.agentOwner .queryQueue p f r h) e
  | beginMessage p f =>
    change execBeginMessage p f s = _ at e
    unfold execBeginMessage at e
    split at e
    · exact reaches (K.takeCommand p _ q fun _ => K.beginMessage _ _ h) e
    · exact reaches (K.commandAccess p q fun _ => K.beginOpen _ _ h) e
    · exact reaches (K.endOpening p q) e
  | sealMessage p f => exact reaches (K.takeCommand p _ q fun r => K.agentOwner .sealMessage p f r h) e
  | abandonMessage p f => exact reaches (K.takeCommand p _ q fun r => K.agentOwner .abandonMessage p f r h) e
  | fetchMessage p f => exact reaches (K.takeCommand p _ q fun r => K.agentOwner .fetchMessage p f r h) e
  | rewindMessage p f => exact reaches (K.takeCommand p _ q fun r => K.agentOwner .rewindMessage p f r h) e
  | releaseMessage p f => exact reaches (K.takeCommand p _ q fun r => K.agentOwner .releaseMessage p f r h) e
  | portReset p f => exact reaches (K.takeCommand p _ q fun r => K.agentOwner .portReset p f r h) e
  | composeApertureWrite p c w d => exact reaches (K.acting p _ q fun _ => K.dataWrite _ _ _ _ h) e
  | receiveApertureRead p r w => exact reaches (K.acting p _ q fun _ => K.dataRead _ _ _ q) e
  | eventHeadRead p => exact reaches (K.acting p _ q fun _ => K.popEvent _ q) e
  | composeApertureRead p c w => exact reaches (K.acting p _ q fun _ => K.beside q rfl) e
  | receiveApertureWrite p r w d => exact reaches (K.acting p _ q fun _ => K.beside q rfl) e
  | eventEnableWrite p d => exact reaches (K.acting p _ q fun _ => K.beside q rfl) e
  | interruptEnableWrite p d => exact reaches (K.acting p _ q fun _ => K.beside q rfl) e
  | i2cIndexByte a x => exact reaches (K.indexByte a x q) e
  | partialWord w b => exact reaches (K.mgmtData w _ (finish := (·.endPartial)) (fun _ => rfl) q) e
  | managementUnmappedRead w l => exact reaches (K.mgmtRead w l q) e
  | managementRegisterRead w l => exact reaches (K.mgmtRead w l q) e
  | managementRegisterWrite w b | mintNEnableWrite w b => exact reaches (K.mgmtData w _ (fun _ => rfl) q) e
  | managementCodeInvalid w c f | refusedBusy w c f => exact reaches (K.mgmtData w _ (fun _ => rfl) q) e
  | restartExchange w f | resetPort w f | fencePort w f | unfencePort w f | setPartition w f | setPoolMarks w f
  | setTimeout w f | setPolicy w f | ackFault w f | clearCounters w f | inject w f =>
    exact reaches (K.mgmtData w _ (fun _ => rfl) q) e
  | unitBoundary =>
    refine reaches ?_ e
    exact K.beside q rfl
  | timerExpiry p c => exact K.timerExpiry p c q e
  | drainStep x => exact K.drainStep x q e
  | fenceRequest => exact K.fenceRequest q e
  | stopRequest => exact K.stopRequest q e
  | teardownAbandon p => exact K.teardownAbandon p q e
  | teardownRelease p => exact K.teardownRelease p q e
  | teardownClose p => exact K.teardownClose p q e
  | teardownCloseComplete p => exact K.teardownCloseComplete p q e
  | teardownEventReset p => exact K.teardownEventReset p q e
  | teardownEnd p => exact K.teardownEnd p q e

/-- The front command of the queue, or none. -/
theorem step (h : P s) (e : step s = .next t) : Q t := by
  unfold Machine.step at e
  split at e
  · cases e
    exact K.weaken h
  · exact K.exec _ (K.pending _ h) e

end Conserves
end Sys2Proof.Machine
end

section
/-!
SUPPORT. Where the nodes of an operation go (R29, R30, R50, R63): the total of free, listed, held and stranded nodes before and after it; O55.
-/
namespace Sys2Proof.Machine

/-! ### The total -/

/-- Free, listed, held and stranded nodes together (R36). -/
@[irreducible] def NodeBooks.total (b : NodeBooks) : Nat :=
  b.free + ∑ q, (b.listed q).getD 0 + ∑ x : Port × ReceiveNo, (b.held x.1 x.2).toNat + b.stranded

/-- No queue is open and no receive slot holds a node (R42, R97). -/
def NodeBooks.Idle (b : NodeBooks) : Prop := (∀ q, b.listed q = none) ∧ ∀ p r, b.held p r = false

theorem NodeBooks.total_of_idle {b : NodeBooks} (h : b.Idle) : b.total = b.free + b.stranded := by
  obtain ⟨closed, idle⟩ := h
  unfold total
  simp [closed, idle]

@[simp] theorem Queue.listed_getD (x : Queue) : x.listed.getD 0 = x.depth := by cases x <;> rfl

namespace State

variable {s t u : State}

theorem total_nodeBooks (s : State) :
    s.nodeBooks.total = s.pool.freeNodes + s.totalDepth + s.holdingSlots + s.pool.strandedNodes := by
  unfold NodeBooks.total nodeBooks totalDepth holdingSlots
  simp only [Queue.listed_getD, Fintype.sum_prod_type, Fin.sum_univ_def, Bool.toNat, Bool.cond_eq_ite]

theorem idle_nodeBooks (s : State) :
    s.nodeBooks.Idle ↔ (∀ q, s.queue q = .closed) ∧ ∀ p r, (s.receiveSlot p r).phase = .idle := by
  have listed : ∀ x : Queue, x.listed = none ↔ x = .closed := fun x => by cases x <;> simp [Queue.listed]
  have held : ∀ x : ReceivePhase, x.holds.isSome = false ↔ x = .idle := fun x => by
    cases x <;> simp [ReceivePhase.holds]
  simp only [NodeBooks.Idle, nodeBooks, listed, held]

theorem nodesAccounted_iff (s : State) : s.NodesAccounted ↔ s.memoriesWf = true ∧ s.nodeBooks.total = 1024 ∧
    (s.resetAsserted = true → s.exchange = .init) ∧
    ((s.exchange ≠ .running ∧ s.exchange ≠ .stopped) → s.nodeBooks.Idle) := by
  rw [NodesAccounted, NodesConserved, total_nodeBooks, idle_nodeBooks]

/-- An operation that conserves the total keeps the law, if it leaves closed queues and idle slots so outside RUNNING. -/
theorem NodesAccounted.of_total (h : s.NodesAccounted) (w : s.memoriesWf = true → t.memoriesWf = true)
    (hx : t.exchange = s.exchange) (hr : t.resetAsserted = s.resetAsserted) (total : t.nodeBooks.total = s.nodeBooks.total)
    (idle : s.exchange ≠ .running → s.nodeBooks.Idle → t.nodeBooks.Idle) : t.NodesAccounted := by
  rw [nodesAccounted_iff] at h ⊢
  obtain ⟨wf, conserved, init, unused⟩ := h
  rw [hx, hr, total]
  exact ⟨w wf, conserved, init, fun k => idle k.1 (unused k)⟩

theorem NodesAccounted.quiet (h : s.NodesAccounted) (q : Quiet s t) (total : t.nodeBooks.total = s.nodeBooks.total)
    (idle : s.nodeBooks.Idle → t.nodeBooks.Idle) : t.NodesAccounted :=
  h.of_total q.memoriesWf q.exchange q.resetAsserted total fun _ => idle

theorem NodesAccounted.same (h : s.NodesAccounted) (q : Quiet s t) (e : t.nodeBooks = s.nodeBooks) : t.NodesAccounted :=
  h.quiet q (by rw [e]) fun k => e ▸ k

theorem not_idle_of_queue {q : QueueNo} (hq : s.queue q ≠ .closed) : ¬ s.nodeBooks.Idle := fun k =>
  hq ((s.idle_nodeBooks.mp k).1 q)

theorem not_idle_of_holding {p : Port} {r : ReceiveNo} {h : Holding} (hr : (s.receiveSlot p r).phase = .holding h) :
    ¬ s.nodeBooks.Idle := fun k => by
  have := (s.idle_nodeBooks.mp k).2 p r
  rw [hr] at this
  cases this

/-! ### Edits of one record -/

theorem total_setQueue (w : s.memoriesWf = true) (q : QueueNo) (x : Queue) :
    (s.setQueue q x).nodeBooks.total + (s.queue q).depth = s.nodeBooks.total + x.depth := by
  have queues : (s.setQueue q x).queue = Function.update s.queue q x := by
    funext r
    rw [queue_setQueue s (wf_queues w), Function.update_apply]
  have depths := sum_update Queue.depth s.queue q x
  rw [← queues] at depths
  have slots : ∀ y : Port × ReceiveNo, (s.setQueue q x).receiveSlot y.1 y.2 = s.receiveSlot y.1 y.2 := fun _ => rfl
  simp only [NodeBooks.total, nodeBooks, Queue.listed_getD, setQueue_pool, slots]
  omega

theorem total_setReceiveSlot (p : Port) (r : ReceiveNo) (x : ReceiveSlot) :
    (s.setReceiveSlot p r x).nodeBooks.total + ((s.receiveSlot p r).phase.holds.isSome).toNat =
      s.nodeBooks.total + (x.phase.holds.isSome).toNat := by
  have slots := s.receiveSlots_set p r x fun y => (y.phase.holds.isSome).toNat
  have queues : ∀ q, (s.setReceiveSlot p r x).queue q = s.queue q := fun _ => rfl
  simp only [NodeBooks.total, nodeBooks, queues, setReceiveSlot_pool]
  omega

/-! ### The node free list (R29, R30) -/

/-- The counts of the pool changed. -/
theorem total_setCounts {f k : Nat} (e : t.nodeBooks = { s.nodeBooks with free := f, stranded := k }) :
    t.nodeBooks.total + s.pool.freeNodes + s.pool.strandedNodes = s.nodeBooks.total + f + k := by
  rw [e]
  simp only [NodeBooks.total, nodeBooks]
  omega

theorem total_strandNodes (k : Nat) : (s.strandNodes k).nodeBooks.total = s.nodeBooks.total + k := by
  have := total_setCounts (s := s) (t := s.strandNodes k) (f := s.pool.freeNodes) (k := s.pool.strandedNodes + k) rfl
  omega

theorem total_returnNode (n : NodeNo) : (s.returnNode n).nodeBooks.total = s.nodeBooks.total + 1 := by
  have counts : (s.returnNode n).nodeBooks =
      { s.nodeBooks with free := s.pool.freeNodes + 1, stranded := s.pool.strandedNodes } := by
    obtain ⟨m, x, y, e⟩ := s.writeNodeLink_footprint n none
    unfold returnNode
    rw [e]
    dsimp only
    split
    · obtain ⟨m', x', y', e'⟩ := writeNodeLink_footprint { s with nodeLinks := m, arm := x, lastInjection := y } ‹_› (some n)
      rw [e']
      rfl
    · rfl
  have := total_setCounts counts
  omega

theorem total_returnNodes (ns : List NodeNo) : (s.returnNodes ns).nodeBooks.total = s.nodeBooks.total + ns.length := by
  induction ns generalizing s with
  | nil => rfl
  | cons n ns ih =>
    rw [returnNodes, ih, total_returnNode, List.length_cons]
    omega

/-- A take removes one free node; a truncation strands the others and leaves no head. -/
theorem total_takeHeadNode (p : Port) (n : NodeNo) (h : 1 ≤ s.pool.freeNodes) :
    (s.takeHeadNode p n).nodeBooks.total + 1 = s.nodeBooks.total ∧
      ((s.takeHeadNode p n).pool.freeNodes + 1 = s.pool.freeNodes ∨ (s.takeHeadNode p n).pool.nodeHead = none) := by
  obtain ⟨m, i, e⟩ := s.readNodeLink_footprint n
  have counts : ∃ f k, (s.takeHeadNode p n).nodeBooks = { s.nodeBooks with free := f, stranded := k } ∧
      f + k + 1 = s.pool.freeNodes + s.pool.strandedNodes ∧
      ((s.takeHeadNode p n).pool.freeNodes + 1 = s.pool.freeNodes ∨ (s.takeHeadNode p n).pool.nodeHead = none) := by
    unfold takeHeadNode
    split <;> rename_i s1 _ k <;> rw [k] at e <;> subst e
    · exact ⟨s.pool.freeNodes - 1, s.pool.strandedNodes, rfl, by omega, .inl (Nat.sub_add_cancel h)⟩
    · exact ⟨0, s.pool.strandedNodes + (s.pool.freeNodes - 1), rfl, by omega, .inr rfl⟩
  obtain ⟨f, k, books, sum, left⟩ := counts
  have := total_setCounts books
  exact ⟨by omega, left⟩

theorem total_takeNodes (p : Port) (k : Nat) (acc : List NodeNo) (h : k ≤ s.pool.freeNodes ∨ s.pool.nodeHead = none) :
    (takeNodes p k s acc).1.nodeBooks.total + (takeNodes p k s acc).2.1.length = s.nodeBooks.total + acc.length := by
  induction k generalizing s acc with
  | zero => rfl
  | succ k ih =>
    unfold takeNodes
    split
    · rfl
    · rename_i n hn
      have enough := h.resolve_right (by rw [hn]; exact nofun)
      obtain ⟨taken, left⟩ := total_takeHeadNode (s := s) p n (by omega)
      have rest := ih (s := s.takeHeadNode p n) (acc ++ [n]) (left.imp_left (by omega))
      rw [List.length_append, List.length_singleton] at rest
      omega

/-- An allocation removes its nodes from the counts, or returns what it took. -/
theorem total_allocateNodes {p : Port} {k : Nat} {r : Option (List NodeNo)} (h : k ≤ s.pool.freeNodes)
    (e : s.allocateNodes p k = (u, r)) : u.nodeBooks.total + (r.elim 0 List.length) = s.nodeBooks.total := by
  have taken := total_takeNodes (s := s) p k [] (.inl h)
  unfold allocateNodes at e
  split at e <;> rename_i k <;> rw [k] at taken <;> cases e
  · exact taken
  · rw [total_returnNodes]
    exact taken

/-- An allocation leaves the queues and the slots as they are. -/
theorem idle_allocateNodes {p : Port} {k : Nat} {r : Option (List NodeNo)} (e : s.allocateNodes p k = (u, r))
    (h : s.nodeBooks.Idle) : u.nodeBooks.Idle := by
  obtain ⟨m, i, pl, x, y, f⟩ := s.allocateNodes_footprint p k
  rw [e] at f
  rw [show u = _ from f]
  exact h

/-! ### Appends (R50, R51) -/

theorem nodeBooks_appendNode (w : s.memoriesWf = true) (n : NodeNo) (d : DescNo) (q : QueueNo) (lq : LiveQueue) :
    (s.appendNode n d q lq).nodeBooks = (s.setQueue q (.live (lq.append n).afterAppend)).nodeBooks := by
  have queues : ∀ r, (s.appendNode n d q lq).queue r = (s.setQueue q (.live (lq.append n).afterAppend)).queue r := fun r => by
    rw [appendNode_queue w, queue_setQueue s (wf_queues w)]
  obtain ⟨c, m, x, y, qs, ds, e, k⟩ := s.appendNode_footprint n d q lq
  have same : (s.appendNode n d q lq).pool = s.pool ∧ (s.appendNode n d q lq).receive = s.receive := by
    rw [k]
    exact ⟨rfl, rfl⟩
  obtain ⟨pool, slots⟩ := same
  exact nodeBooks_congr (by rw [pool]; rfl) (by rw [pool]; rfl) (fun r => by rw [queues])
    fun p r => by rw [receiveSlot_of_receive slots p r]; rfl

theorem total_appendAll (w : s.memoriesWf = true) (d : DescNo) (qs : List QueueNo) (ns : List NodeNo)
    (hn : ns.length = qs.length) (hq : ∀ q ∈ qs, s.queue q ≠ .closed) :
    (s.appendAll d qs ns).nodeBooks.total = s.nodeBooks.total + ns.length := by
  induction qs generalizing s ns with
  | nil => rw [List.eq_nil_of_length_eq_zero hn]; rfl
  | cons q qs ih =>
    cases ns with
    | nil => cases hn
    | cons n ns =>
      unfold appendAll
      split
      · rename_i lq hl
        have live : ∀ r ∈ qs, (s.appendNode n d q lq).queue r ≠ .closed := fun r hr => by
          rw [appendNode_queue w]
          split_ifs
          · exact nofun
          · exact hq r (List.mem_cons_of_mem _ hr)
        have rest := ih ((Quiet.refl.appendNode n d q lq).memoriesWf w) ns (Nat.succ.inj hn) live
        have one := total_setQueue w q (.live (lq.append n).afterAppend)
        rw [← nodeBooks_appendNode w n d q lq, hl] at one
        have deeper : (Queue.live (lq.append n).afterAppend).depth = (Queue.live lq).depth + 1 := rfl
        rw [List.length_cons]
        omega
      · exact absurd ‹_› (hq q List.mem_cons_self)

/-- With every queue closed nothing is appended. -/
theorem idle_appendAll {d : DescNo} {qs : List QueueNo} {ns : List NodeNo} (hq : ∀ q ∈ qs, s.queue q ≠ .closed)
    (h : s.nodeBooks.Idle) : (s.appendAll d qs ns).nodeBooks.Idle := by
  rw [List.eq_nil_iff_forall_not_mem.mpr fun q k => not_idle_of_queue (hq q k) h]
  exact h

/-! ### Holders -/

theorem nodeBooks_dropHolder (w : s.memoriesWf = true) (d : DescNo) : (s.dropHolder d).nodeBooks = s.nodeBooks := by
  have counts : (s.dropHolder d).pool.freeNodes = s.pool.freeNodes ∧
      (s.dropHolder d).pool.strandedNodes = s.pool.strandedNodes := by
    unfold dropHolder
    split
    · exact ⟨rfl, rfl⟩
    · split_ifs
      · exact ⟨rfl, rfl⟩
      · obtain ⟨-, -, -, -, free, stranded, -⟩ := s.freeDescriptor_recovered (wf_cellLinks w) d ‹_›
        exact ⟨free, stranded⟩
      · exact ⟨rfl, rfl⟩
  obtain ⟨l, x, y, pl, sh, ds, ev, e⟩ := s.dropHolder_footprint d
  have queues : (s.dropHolder d).queues = s.queues := by rw [e]
  have slots : (s.dropHolder d).receive = s.receive := by rw [e]
  exact nodeBooks_congr counts.1 counts.2 (fun q => by rw [queue_of_queues queues])
    fun p r => by rw [receiveSlot_of_receive slots]

/-- A slot that is released gives its node back (R105). -/
theorem total_releaseSlot (w : s.memoriesWf = true) {p : Port} {r : ReceiveNo} {h : Holding}
    (hr : (s.receiveSlot p r).phase = .holding h) : (s.releaseSlot p r h).nodeBooks.total = s.nodeBooks.total := by
  have w1 : (s.returnNode h.node).memoriesWf = true := (Quiet.refl.returnNode _).memoriesWf w
  have slot : ((s.returnNode h.node).dropHolder h.desc).receiveSlot p r = s.receiveSlot p r := by
    obtain ⟨m, x, y, pl, e1⟩ := s.returnNode_footprint h.node
    obtain ⟨l, x', y', pl', sh, ds, ev, e2⟩ := (s.returnNode h.node).dropHolder_footprint h.desc
    exact receiveSlot_of_receive (by rw [e2, e1]) p r
  have idle := total_setReceiveSlot (s := (s.returnNode h.node).dropHolder h.desc) p r
    { ((s.returnNode h.node).dropHolder h.desc).receiveSlot p r with phase := .idle }
  rw [slot, hr, nodeBooks_dropHolder w1, total_returnNode] at idle
  unfold releaseSlot
  dsimp only
  rw [slot]
  exact Nat.add_right_cancel idle

/-! ### Rebuilds (R41) -/

/-- A rebuild frees every node. -/
theorem nodesAccounted_rebuilt (w : s.memoriesWf = true) (free : s.pool.freeNodes = 1024) (stranded : s.pool.strandedNodes = 0)
    (init : s.resetAsserted = true → s.exchange = .init) (closed : ∀ q, s.queue q = .closed)
    (idle : ∀ p r, (s.receiveSlot p r).phase = .idle) : s.NodesAccounted := by
  have unused : s.nodeBooks.Idle := s.idle_nodeBooks.mpr ⟨closed, idle⟩
  refine s.nodesAccounted_iff.mpr ⟨w, ?_, init, fun _ => unused⟩
  rw [NodeBooks.total_of_idle unused]
  exact (congrArg₂ (· + ·) free stranded).trans (Nat.add_zero 1024)

end State

/-! ### Every step -/

open State

theorem State.NodesAccounted.wf {s : State} (h : s.NodesAccounted) : s.memoriesWf = true := by
  obtain ⟨w, -⟩ := h
  exact w

/-- The appends of a link request or of a BEGIN list the nodes that were allocated for them (R50, R76). -/
theorem State.NodesAccounted.linked {s u v : State} (h : s.NodesAccounted) {p : Port} {d : DescNo} {room : List QueueNo}
    {ns : List NodeNo} (e : s.allocateNodes p room.length = (u, some ns)) (hn : room.length ≤ s.pool.freeNodes)
    (hq : ∀ q ∈ room, s.queue q ≠ .closed) (q : Quiet s v) (books : v.nodeBooks = u.nodeBooks) (queues : v.queues = u.queues) :
    (v.appendAll d room ns).NodesAccounted := by
  have live : ∀ q ∈ room, v.queue q ≠ .closed := fun r hr => by
    obtain ⟨m, i, pl, rfl⟩ := s.allocateNodes_some_footprint p room.length e
    rw [queue_of_queues queues]
    exact hq r hr
  have listed := total_appendAll (q.memoriesWf h.wf) d room ns (allocateNodes_length e) live
  have taken := total_allocateNodes hn e
  rw [books] at listed
  refine h.quiet (q.appendAll d room ns) (listed.trans taken) fun k => idle_appendAll live ?_
  rw [books]
  exact idle_allocateNodes e k

/-- The exchange comes to run, or stops, with the tables as they are. -/
theorem State.NodesAccounted.runs {s t : State} (h : s.NodesAccounted) (w : s.memoriesWf = true → t.memoriesWf = true)
    (books : t.nodeBooks = s.nodeBooks) (reset : t.resetAsserted = false) (used : t.exchange = .running ∨ t.exchange = .stopped) :
    t.NodesAccounted := by
  rw [nodesAccounted_iff] at h ⊢
  obtain ⟨wf, conserved, -, -⟩ := h
  rw [books, reset]
  refine ⟨w wf, conserved, nofun, fun k => ?_⟩
  rcases used with used | used
  · exact absurd used k.1
  · exact absurd used k.2

/-- RESET_N is asserted only in INIT. -/
theorem State.NodesAccounted.not_reset {s : State} (h : s.NodesAccounted) (hx : s.exchange ≠ .init) : s.resetAsserted = false := by
  obtain ⟨-, -, init, -⟩ := h
  exact Bool.eq_false_of_not_eq_true fun k => hx (init k)

/-- A grant takes no node. -/
theorem nodeBooks_grantStep {s : State} (w : s.memoriesWf = true) (p : Port) (c : ComposeNo) (k : Composing) (h : CellNo) :
    (grantStep s p c k h).nodeBooks = s.nodeBooks := by
  obtain ⟨l, e⟩ := grantStep_frame w p c k h
  obtain ⟨_, pl, _, _, _, _, g⟩ := s.grantCell_frame p k.desc h
  obtain ⟨_, _, _, _, taken⟩ := s.takeHeadCell_pool p h
  have granted := s.grantCell_pool p k.desc h
  have pool : (grantStep s p c k h).pool = (s.grantCell p k.desc h).pool := by rw [e]; rfl
  have queues : (grantStep s p c k h).queues = s.queues := by rw [e, g]; rfl
  have slots : (grantStep s p c k h).receive = s.receive := by rw [e, g]; rfl
  rw [taken] at granted
  exact nodeBooks_congr (by rw [pool, granted]) (by rw [pool, granted]) (fun q => by rw [queue_of_queues queues])
    fun p r => by rw [receiveSlot_of_receive slots]

theorem conserves_nodes : Conserves State.NodesAccounted State.NodesAccounted where
  wf h := h.wf
  weaken h := h
  pending _ h := h
  same {s t} w hx hr b h := by
    have e : t.nodeBooks = s.nodeBooks := congrArg Prod.fst b
    exact h.of_total w hx hr (by rw [e]) fun _ k => by rwa [e]
  opened {s q lq} running hq hd h := by
    have total := total_setQueue h.wf q (.live lq)
    rw [hq] at total
    exact h.of_total (Quiet.refl.queue q _).memoriesWf rfl rfl (total.trans (congrArg _ hd)) fun k => absurd running k
  closed {s q lq} hq h := by
    have total := total_setQueue (s := s.strandNodes lq.depth) h.wf q .closed
    rw [total_strandNodes, show (s.strandNodes lq.depth).queue q = _ from hq] at total
    exact h.quiet ((Quiet.refl.strandNodes _).queue q _) (Nat.add_right_cancel total) fun k =>
      absurd k (not_idle_of_queue (by rw [hq]; exact nofun))
  grantStep _ _ h := h.same (Quiet.refl.grantStep _ _ _ _) (nodeBooks_grantStep h.wf _ _ _ _)
  dropHolder d h := h.same (Quiet.refl.dropHolder d) (nodeBooks_dropHolder h.wf d)
  releaseSlot hr h := h.quiet (Quiet.refl.releaseSlot _ _ _) (total_releaseSlot h.wf hr) fun k =>
    absurd k (not_idle_of_holding hr)
  held {s p r x q lq y} hr hx hq hy h := by
    have shorter := total_setQueue h.wf q y
    have taken := total_setReceiveSlot (s := s.setQueue q y) p r x
    have idle : ((s.setQueue q y).receiveSlot p r).phase.holds.isSome = false := congrArg (·.holds.isSome) hr
    rw [idle, hx, Bool.toNat_false, Bool.toNat_true] at taken
    have depth : (s.queue q).depth = lq.depth := congrArg Queue.depth hq
    exact h.quiet ((Quiet.refl.queue q y).receive p r x) (by omega) fun k => absurd k (not_idle_of_queue (by rw [hq]; exact nofun))
  strandedHead {s q lq y} hq hy h := by
    have total := total_setQueue (s := s.strandNodes 1) h.wf q y
    have depth : ((s.strandNodes 1).queue q).depth = lq.depth := congrArg Queue.depth hq
    rw [total_strandNodes] at total
    exact h.quiet ((Quiet.refl.strandNodes _).queue q y) (by omega) fun k =>
      absurd k (not_idle_of_queue (by rw [hq]; exact nofun))
  drained {s q lq y} n d hq hy h := by
    have quiet := (Quiet.refl (s := s)).returnNode n
    have total := total_setQueue ((quiet.dropHolder d).memoriesWf h.wf) q y
    have queues : ((s.returnNode n).dropHolder d).queues = s.queues := by
      obtain ⟨_, _, _, _, e1⟩ := s.returnNode_footprint n
      obtain ⟨_, _, _, _, _, _, _, e2⟩ := (s.returnNode n).dropHolder_footprint d
      rw [e2, e1]
    have depth : (((s.returnNode n).dropHolder d).queue q).depth = lq.depth := by
      rw [queue_of_queues queues, hq]
      rfl
    rw [nodeBooks_dropHolder (quiet.memoriesWf h.wf), total_returnNode] at total
    exact h.quiet ((quiet.dropHolder d).queue q y) (by omega) fun k => absurd k (not_idle_of_queue (by rw [hq]; exact nofun))
  unallocated {s u p n} e hn h := by
    have quiet := (Quiet.refl (s := s)).allocateNodes p n
    rw [e] at quiet
    exact h.quiet quiet (total_allocateNodes hn e) (idle_allocateNodes e)
  linked {s u p d room ns} e hn hq h := by
    have quiet := (Quiet.refl (s := s)).allocateNodes p room.length
    rw [e] at quiet
    exact h.linked e hn hq quiet rfl rfl
  begun {s u p c b qs d rest room ns} _ e hn hq h := by
    have quiet := (Quiet.refl (s := s)).allocateNodes p room.length
    rw [e] at quiet
    exact h.linked e hn hq ((quiet.pool _).desc d _) rfl rfl
  powerOn ma n l := nodesAccounted_rebuilt (kept_memoriesWf.powerOn ma n l) rfl rfl (fun _ => rfl)
    (queue_rebuilt rfl) (receive_rebuilt rfl)
  released {s} hr h := by
    obtain ⟨w, -, init, unused⟩ := h
    obtain ⟨closed, idle⟩ := unused ⟨by rw [init hr]; exact nofun, by rw [init hr]; exact nofun⟩
    exact nodesAccounted_rebuilt (kept_memoriesWf.released hr w) rfl rfl nofun closed idle
  initialised reset _ h := h.runs (fun w => w) rfl reset (.inl rfl)
  restarted b hr h := by
    have reset := h.not_reset (by rcases hr with hr | hr <;> rw [hr] <;> exact nofun)
    exact nodesAccounted_rebuilt (kept_memoriesWf.restarted b hr h.wf) rfl rfl (fun k => absurd (reset.symm.trans k) nofun)
      (queue_rebuilt rfl) (receive_rebuilt rfl)
  resumed _ o h := h.runs (fun w => w) rfl (h.not_reset (by rw [o]; exact nofun)) (.inl rfl)
  stopped r h := h.runs (fun w => w) rfl (h.not_reset (by rw [r]; exact nofun)) (.inr rfl)

/-- Settles O55: each operation that moves nodes keeps their total, and none uses a queue or a receive slot outside RUNNING. -/
theorem everyStepConservesTheNodes : Obligations.EveryStepConservesTheNodes := fun _ _ h e => conserves_nodes.step h e

end Sys2Proof.Machine
end

section
/-!
SUPPORT. Where the cells of an operation go, and what each port is charged (R22, R25, R28, R31); O56.
-/
namespace Sys2Proof.Machine

/-! ### The total and the charges -/

/-- The cells of a charge. -/
def chargeCells : Option (Port × Nat) → Nat
  | none => 0
  | some (_, n) => n

/-- The cells of a charge that port p bears. -/
def chargeTo (p : Port) : Option (Port × Nat) → Nat
  | none => 0
  | some (q, n) => if q = p then n else 0

/-- Free, held and stranded cells together (R24). -/
@[irreducible] def CellBooks.total (b : CellBooks) : Nat := b.free + ∑ d, chargeCells (b.charges d) + b.stranded

/-- Each port is charged the cells of its messages (R31). -/
@[irreducible] def CellBooks.Counted (b : CellBooks) : Prop := ∀ p, b.charged p = ∑ d, chargeTo p (b.charges d)

namespace State

variable {s t u : State}

theorem cellsConserved_iff (s : State) : s.CellsConserved ↔ s.cellBooks.total = 2048 := by
  have cells : ∀ x : Descriptor, chargeCells x.charge = x.cells := fun x => by cases x <;> rfl
  unfold CellsConserved totalCells CellBooks.total cellBooks
  simp only [cells, Fin.sum_univ_def]

theorem chargesCounted_iff (s : State) : s.ChargesCounted ↔ s.cellBooks.Counted := by
  have owed : ∀ p, s.cellsOf p = ∑ d, chargeTo p (s.desc d).charge := fun p => by
    rw [cellsOf, Fin.sum_univ_def]
    refine congrArg List.sum (List.map_congr_left fun d _ => ?_)
    cases s.desc d <;> rfl
  unfold ChargesCounted CellBooks.Counted
  simp only [owed]
  rfl

/-- `t` has the cells of `s` and charges them as `s` does. -/
def Balanced (s t : State) : Prop :=
  t.cellBooks.total = s.cellBooks.total ∧ (s.cellBooks.Counted → t.cellBooks.Counted)

theorem Balanced.of_books (e : t.cellBooks = s.cellBooks) : Balanced s t := ⟨by rw [e], fun h => by rwa [e]⟩

theorem Balanced.trans (h : Balanced s t) (k : Balanced t u) : Balanced s u := by
  obtain ⟨h1, h2⟩ := h
  obtain ⟨k1, k2⟩ := k
  exact ⟨k1.trans h1, fun c => k2 (h2 c)⟩

/-- One descriptor changes: its cells come from the counts of the pool or go to them, and its port is charged accordingly. A port is charged
at least the cells of each of its messages. -/
theorem Balanced.of_desc {d : DescNo} {x : Descriptor} (desc : t.desc = Function.update s.desc d x)
    (counts : t.pool.freeCells + t.pool.strandedCells + chargeCells x.charge =
      s.pool.freeCells + s.pool.strandedCells + chargeCells (s.desc d).charge)
    (charged : ∀ p, chargeTo p (s.desc d).charge ≤ (s.share p).charged →
      (t.share p).charged + chargeTo p (s.desc d).charge = (s.share p).charged + chargeTo p x.charge) : Balanced s t := by
  have sums : ∀ f : Option (Port × Nat) → Nat,
      ∑ e, f (t.desc e).charge + f (s.desc d).charge = ∑ e, f (s.desc e).charge + f x.charge := fun f => by
    have k := sum_update (fun y : Descriptor => f y.charge) s.desc d x
    rwa [← desc] at k
  refine ⟨?_, fun counted => ?_⟩
  · have cells := sums chargeCells
    simp only [CellBooks.total, cellBooks]
    omega
  · simp only [CellBooks.Counted, cellBooks] at counted ⊢
    intro p
    have owed := counted p
    have least : chargeTo p (s.desc d).charge ≤ ∑ e, chargeTo p (s.desc e).charge :=
      Finset.single_le_sum (f := fun e => chargeTo p (s.desc e).charge) (fun _ _ => Nat.zero_le _) (Finset.mem_univ d)
    have cells := sums (chargeTo p)
    have change := charged p (by omega)
    omega

theorem chargeTo_ne {p q : Port} (h : q ≠ p) (n : Nat) : chargeTo p (some (q, n)) = 0 := if_neg h

@[simp] theorem chargeTo_self (p : Port) (n : Nat) : chargeTo p (some (p, n)) = n := if_pos rfl

theorem desc_update {d : DescNo} {x : Descriptor} (hd : t.desc d = x) (others : ∀ e, e ≠ d → t.desc e = s.desc e) :
    t.desc = Function.update s.desc d x := by
  funext e
  by_cases h : e = d
  · rw [h, Function.update_self, hd]
  · rw [Function.update_of_ne h, others e h]

/-! ### The freeing of descriptors (R21, R22) -/

theorem balanced_freeDescriptor (w : s.memoriesWf = true) {d : DescNo} {m : Message} (hd : s.desc d = .live m) :
    Balanced s (s.freeDescriptor d m) := by
  obtain ⟨⟨free, -, credited⟩, others, -⟩ := s.freeDescriptor_effect (wf_descriptors w) d m
  obtain ⟨⟨spliced, stranded, shares⟩, -⟩ := s.freeDescriptor_recovered (wf_cellLinks w) d m
  refine Balanced.of_desc (desc_update free others) ?_ fun p => ?_
  · rw [hd]
    show _ + _ + 0 = _ + _ + m.cells
    cases h : m.splices
    · obtain ⟨hf, -, -, hs, -⟩ := stranded h
      omega
    · obtain ⟨hf, -, hs, -⟩ := spliced h
      omega
  · rw [hd]
    show chargeTo p (some (m.port, m.cells)) ≤ _ → _ + chargeTo p (some (m.port, m.cells)) = _ + 0
    by_cases hp : p = m.port
    · subst hp
      rw [chargeTo_self, credited]
      omega
    · obtain ⟨-, -, -, -, same⟩ := shares p
      rw [chargeTo_ne (Ne.symm hp), same hp]
      omega

theorem balanced_dropHolder (w : s.memoriesWf = true) (d : DescNo) : Balanced s (s.dropHolder d) := by
  cases hd : s.desc d with
  | free =>
    rw [dropHolder, message, hd]
    exact .of_books rfl
  | live m =>
    have kept : (s.setDesc d (.live { m with holders := m.holders - 1 })).cellBooks = s.cellBooks :=
      cellBooks_setDesc w d _ (by rw [hd]; rfl)
    rw [dropHolder, message_of_live hd]
    dsimp only
    split_ifs
    · exact .of_books rfl
    · exact balanced_freeDescriptor w hd
    · exact .of_books kept

/-! ### Grants (R25, R27) -/

/-- A take removes one cell from the counts. -/
theorem cells_takeHeadCell (w : s.memoriesWf = true) (p : Port) (h : CellNo) (one : 1 ≤ s.pool.freeCells) :
    (s.takeHeadCell p h).pool.freeCells + (s.takeHeadCell p h).pool.strandedCells + 1 =
      s.pool.freeCells + s.pool.strandedCells := by
  have read : ∀ x, ((s.cellLinkWord h).check = .clean x ∨ (s.cellLinkWord h).check = .corrected x) →
      (s.takeHeadCell p h).pool.freeCells = s.pool.freeCells - 1 ∧
        (s.takeHeadCell p h).pool.strandedCells = s.pool.strandedCells := fun x k => by
    obtain ⟨e, -⟩ := takeHeadCell_reads w p h x k
    rw [e]
    exact ⟨rfl, rfl⟩
  cases k : (s.cellLinkWord h).check with
  | clean x =>
    have := read x (.inl k)
    omega
  | corrected x =>
    have := read x (.inr k)
    omega
  | uncorrectable =>
    have truncated := takeHeadCell_truncates p h k
    have free : (s.takeHeadCell p h).pool.freeCells = 0 := by rw [truncated]; rfl
    have stranded : (s.takeHeadCell p h).pool.strandedCells = s.pool.strandedCells + (s.pool.freeCells - 1) := by
      rw [truncated]
      rfl
    omega

theorem balanced_grantStep (w : s.memoriesWf = true) (p : Port) (c : ComposeNo) {k : Composing} {h : CellNo} {m : Message}
    (one : 1 ≤ s.pool.freeCells) (hm : s.desc k.desc = .live m) (hp : m.port = p) : Balanced s (grantStep s p c k h) := by
  obtain ⟨l, e⟩ := grantStep_frame w p c k h
  obtain ⟨_, _, _, _, _, _, g⟩ := s.grantCell_frame p k.desc h
  obtain ⟨live, -, others⟩ := grantCell_desc w p k.desc h
  have desc : (grantStep s p c k h).desc = (s.grantCell p k.desc h).desc := by rw [e]; rfl
  have pool : (grantStep s p c k h).pool = (s.grantCell p k.desc h).pool := by rw [e]; rfl
  have shares : (grantStep s p c k h).shares =
      s.shares.set p { s.share p with charged := (s.share p).charged + 1, starving := false } := by rw [e, g]; rfl
  have share : ∀ q, (grantStep s p c k h).share q =
      (s.setShare p { s.share p with charged := (s.share p).charged + 1, starving := false }).share q :=
    share_of_shares shares
  have taken := cells_takeHeadCell w p h one
  rw [grantCell_pool] at pool
  refine Balanced.of_desc (desc.trans (desc_update (live m hm) others)) ?_ fun q _ => ?_
  · rw [hm, pool]
    show _ + _ + (m.cells + 1) = _ + _ + m.cells
    dsimp only
    omega
  · rw [hm, share]
    show _ + chargeTo q (some (m.port, m.cells)) = _ + chargeTo q (some (m.port, m.cells + 1))
    rw [hp]
    by_cases hq : q = p
    · subst hq
      rw [share_setShare_self, chargeTo_self, chargeTo_self]
      dsimp only
      omega
    · rw [share_setShare_ne _ hq, chargeTo_ne (Ne.symm hq), chargeTo_ne (Ne.symm hq)]

/-! ### BEGIN (R76) -/

/-- A message begins with no cells. -/
theorem balanced_newMessage (w : s.memoriesWf = true) {d : DescNo} (free : s.desc d = .free) (p : Port) (c : ComposeNo)
    (b : BeginParams) (qs : List QueueNo) : Balanced s (s.setDesc d (.live (newMessage p c b qs))) := by
  have desc : (s.setDesc d (.live (newMessage p c b qs))).desc = Function.update s.desc d (.live (newMessage p c b qs)) := by
    funext e
    rw [desc_setDesc s (wf_descriptors w), Function.update_apply]
  have none : ∀ q, chargeTo q (Descriptor.live (newMessage p c b qs)).charge = 0 := fun q => ite_self 0
  refine Balanced.of_desc desc ?_ fun q _ => ?_
  · rw [free]
    rfl
  · rw [free, none]
    rfl

/-! ### Nodes taken, returned and appended leave the cells alone -/

theorem cellBooks_takeHeadNode (p : Port) (n : NodeNo) : (s.takeHeadNode p n).cellBooks = s.cellBooks := by
  obtain ⟨m, i, e⟩ := s.readNodeLink_footprint n
  unfold takeHeadNode
  split <;> rename_i k <;> rw [k] at e <;> subst e <;> rfl

theorem cellBooks_takeNodes (p : Port) (k : Nat) (acc : List NodeNo) : (takeNodes p k s acc).1.cellBooks = s.cellBooks := by
  induction k generalizing s acc with
  | zero => rfl
  | succ k ih =>
    unfold takeNodes
    split
    · rfl
    · exact (ih _).trans (cellBooks_takeHeadNode p _)

theorem cellBooks_returnNode (n : NodeNo) : (s.returnNode n).cellBooks = s.cellBooks := by
  obtain ⟨m, x, y, e⟩ := s.writeNodeLink_footprint n none
  unfold returnNode
  rw [e]
  dsimp only
  split
  · obtain ⟨m', x', y', e'⟩ := writeNodeLink_footprint { s with nodeLinks := m, arm := x, lastInjection := y } ‹_› (some n)
    rw [e']
    rfl
  · rfl

theorem cellBooks_returnNodes (ns : List NodeNo) : (s.returnNodes ns).cellBooks = s.cellBooks := by
  induction ns generalizing s with
  | nil => rfl
  | cons n ns ih => exact ih.trans (cellBooks_returnNode n)

theorem cellBooks_allocateNodes {p : Port} {k : Nat} {r : Option (List NodeNo)} (e : s.allocateNodes p k = (u, r)) :
    u.cellBooks = s.cellBooks := by
  have taken := cellBooks_takeNodes (s := s) p k []
  unfold allocateNodes at e
  split at e <;> rename_i h <;> rw [h] at taken <;> cases e
  · exact taken
  · exact (cellBooks_returnNodes _).trans taken

theorem cellBooks_appendNode (w : s.memoriesWf = true) (n : NodeNo) (d : DescNo) (q : QueueNo) (lq : LiveQueue) :
    (s.appendNode n d q lq).cellBooks = s.cellBooks := by
  obtain ⟨c, m, x, y, e⟩ := s.appendWords_footprint n d lq
  have w1 : ((s.appendWords n d lq).setQueue q (.live (lq.append n).afterAppend)).memoriesWf = true :=
    ((Quiet.refl.appendWords n d lq).queue q _).memoriesWf w
  have linked := cellBooks_updMessage w1 d (f := Message.link q) fun _ => ⟨rfl, rfl⟩
  have words : ((s.appendWords n d lq).setQueue q (.live (lq.append n).afterAppend)).cellBooks = s.cellBooks := by
    rw [e]
    rfl
  unfold appendNode
  dsimp only
  split_ifs
  · exact linked.trans words
  · exact linked.trans words

theorem cellBooks_appendAll (w : s.memoriesWf = true) (d : DescNo) (qs : List QueueNo) (ns : List NodeNo) :
    (s.appendAll d qs ns).cellBooks = s.cellBooks := by
  induction qs generalizing s ns with
  | nil => rfl
  | cons q qs ih =>
    cases ns with
    | nil => rfl
    | cons n ns =>
      unfold appendAll
      split
      · exact (ih ((Quiet.refl.appendNode n d q _).memoriesWf w) ns).trans (cellBooks_appendNode w n d q _)
      · exact ih w ns

/-! ### Rebuilds (R41) -/

/-- A rebuild frees every cell and every descriptor, and charges nothing. -/
theorem cellBooks_rebuilt (free : s.pool.freeCells = 2048) (stranded : s.pool.strandedCells = 0)
    (charged : ∀ p, (s.share p).charged = 0) (desc : ∀ d, s.desc d = .free) : s.cellBooks.total = 2048 ∧ s.cellBooks.Counted := by
  unfold CellBooks.total CellBooks.Counted cellBooks
  simp [free, stranded, charged, desc, Descriptor.charge, chargeCells, chargeTo]

/-! ### Every step -/

/-- The two laws of the cells, each where the state that the step starts from satisfied it (`A`, `B`). -/
def CellsFollow (A B : Prop) (s : State) : Prop :=
  s.memoriesWf = true ∧ (A → s.cellBooks.total = 2048) ∧ (B → s.cellBooks.Counted)

/-- What a grant and a BEGIN ask of the tables and of the cell free list. -/
def CellsReady (A B : Prop) (s : State) : Prop :=
  s.CellsFollow A B ∧ s.DescriptorsAccounted ∧ (s.pool.cellHead ≠ none → 1 ≤ s.pool.freeCells)

variable {A B : Prop}

theorem CellsFollow.wf (h : s.CellsFollow A B) : s.memoriesWf = true := by
  obtain ⟨w, -⟩ := h
  exact w

theorem CellsFollow.balanced (h : s.CellsFollow A B) (w : s.memoriesWf = true → t.memoriesWf = true) (b : Balanced s t) :
    t.CellsFollow A B := by
  obtain ⟨wf, conserved, counted⟩ := h
  obtain ⟨total, charges⟩ := b
  exact ⟨w wf, fun a => total.trans (conserved a), fun b => charges (counted b)⟩

/-- An operation of the data path that leaves the cells alone. -/
theorem CellsFollow.quiet (h : s.CellsFollow A B) (q : Quiet s t) (e : t.cellBooks = s.cellBooks) : t.CellsFollow A B :=
  h.balanced q.memoriesWf (.of_books e)

theorem CellsFollow.dropHolder (h : s.CellsFollow A B) (d : DescNo) : (s.dropHolder d).CellsFollow A B :=
  h.balanced (Quiet.refl.dropHolder d).memoriesWf (balanced_dropHolder h.wf d)

theorem CellsFollow.returnNode (h : s.CellsFollow A B) (n : NodeNo) : (s.returnNode n).CellsFollow A B :=
  h.quiet (Quiet.refl.returnNode n) (cellBooks_returnNode n)

theorem CellsFollow.allocateNodes (h : s.CellsFollow A B) {p : Port} {k : Nat} {r : Option (List NodeNo)}
    (e : s.allocateNodes p k = (u, r)) : u.CellsFollow A B := by
  have quiet := (Quiet.refl (s := s)).allocateNodes p k
  rw [e] at quiet
  exact h.quiet quiet (cellBooks_allocateNodes e)

theorem CellsFollow.appendAll (h : s.CellsFollow A B) (d : DescNo) (qs : List QueueNo) (ns : List NodeNo) :
    (s.appendAll d qs ns).CellsFollow A B :=
  h.quiet (Quiet.refl.appendAll d qs ns) (cellBooks_appendAll h.wf d qs ns)

theorem cellsFollow_rebuilt (w : s.memoriesWf = true) (free : s.pool.freeCells = 2048) (stranded : s.pool.strandedCells = 0)
    (charged : ∀ p, (s.share p).charged = 0) (desc : ∀ d, s.desc d = .free) : s.CellsFollow A B := by
  obtain ⟨total, counted⟩ := cellBooks_rebuilt free stranded charged desc
  exact ⟨w, fun _ => total, fun _ => counted⟩

theorem conserves_cells (A B : Prop) : Conserves (CellsReady A B) (CellsFollow A B) where
  wf h := h.wf
  weaken h := by
    obtain ⟨follow, -⟩ := h
    exact follow
  pending _ h := h
  same w _ _ b h := h.balanced w (.of_books (congrArg Prod.snd b))
  opened _ _ _ h := h.quiet (Quiet.refl.queue _ _) rfl
  closed _ h := h.quiet ((Quiet.refl.strandNodes _).queue _ _) rfl
  grantStep {s p c k x} hk hx h := by
    obtain ⟨follow, ⟨-, -, -, -, composes, -⟩, counts⟩ := h
    obtain ⟨m, live, port⟩ := composes p c k (by rw [hk]; rfl)
    exact follow.balanced (Quiet.refl.grantStep p c k x).memoriesWf
      (balanced_grantStep follow.wf p c (counts (by rw [hx]; exact nofun)) live port)
  dropHolder d h := h.dropHolder d
  releaseSlot {s p r x} _ h := ((h.returnNode x.node).dropHolder x.desc).quiet (Quiet.refl.receive p r _) rfl
  held {s p r x q lq y} _ _ _ _ h := h.quiet ((Quiet.refl.queue q y).receive p r x) rfl
  strandedHead _ _ h := h.quiet ((Quiet.refl.strandNodes _).queue _ _) rfl
  drained n d _ _ h := ((h.returnNode n).dropHolder d).quiet (Quiet.refl.queue _ _) rfl
  unallocated e _ h := h.allocateNodes e
  linked e _ _ h := (h.allocateNodes e).appendAll _ _ _
  begun {s u p c b qs d rest room ns} hf e _ _ h := by
    obtain ⟨follow, ⟨-, -, fifo, -⟩, -⟩ := h
    have free : s.desc d = .free := (fifo d).mp (by rw [hf]; exact List.mem_cons_self)
    have taken : (u.setPool { u.pool with fifo := rest }).CellsFollow A B :=
      (follow.allocateNodes e).quiet (Quiet.refl.pool _) rfl
    have unused : (u.setPool { u.pool with fifo := rest }).desc d = .free := by
      obtain ⟨m, i, pl, rfl⟩ := s.allocateNodes_some_footprint p room.length e
      exact free
    exact (taken.balanced (Quiet.refl.desc d _).memoriesWf (balanced_newMessage taken.wf unused p c b qs)).appendAll _ _ _
  powerOn ma n l := cellsFollow_rebuilt (kept_memoriesWf.powerOn ma n l) rfl rfl (fun p => by fin_cases p <;> rfl) reset_desc
  released {s} hr h := by
    obtain ⟨follow, -⟩ := h
    exact cellsFollow_rebuilt (kept_memoriesWf.released hr follow.wf) rfl rfl
      (fun p => congrArg Share.charged (s.rebuildLinks.share_rebuildPool p)) fun _ => rfl
  initialised _ _ h := h.balanced (fun w => w) (.of_books rfl)
  restarted {s} b hr h := cellsFollow_rebuilt (kept_memoriesWf.restarted b hr h.wf) rfl rfl
    (fun p => congrArg Share.charged (s.rebuildLinks.share_rebuildPool p)) fun _ => rfl
  resumed _ _ h := h.balanced (fun w => w) (.of_books rfl)
  stopped _ h := h.balanced (fun w => w) (.of_books rfl)

end State

open State in
/-- Settles O56: each operation that moves cells moves them between the free list, one message and the stranded count, and charges the port of that
message accordingly. -/
theorem everyStepConservesTheCells : Obligations.EveryStepConservesTheCells := fun s t hd hc e => by
  have start : s.CellsReady s.CellsConserved s.ChargesCounted :=
    ⟨⟨hd.1, s.cellsConserved_iff.mp, s.chargesCounted_iff.mp⟩, hd, hc⟩
  obtain ⟨-, conserved, counted⟩ := (conserves_cells _ _).step start e
  exact ⟨fun h => t.cellsConserved_iff.mpr (conserved h), fun h => t.chargesCounted_iff.mpr (counted h)⟩

end Sys2Proof.Machine
end

section
/-!
SUPPORT. The queue commands (R45, R47, R48, R54, R60, R64, R68): the checks of OPEN_QUEUE, MODIFY_QUEUE, CLOSE_QUEUE and QUERY_QUEUE, and what
each taken command does; O14, O15, O16 and O17.
-/
namespace Sys2Proof.Machine
variable {s : State} {p : Port} {f : CommandFields} {q : QueueNo} {lq : LiveQueue}

/-! ### A command that its owner carries out whole, and its queue number -/

/-- What a taken command leaves, from what its owner gives back (R166). -/
theorem exec_of_takeCommand {i : Instr} {c : CommandWord} {owner : State → CommandOutcome} {o : CommandOutcome}
    (hi : exec i s = .next (s.takeCommand p c owner)) (h : s.Ready p) (ho : owner s = o) :
    exec i s = .next (o.state.commandTaken p c o.code o.result1 o.unit) := by
  rw [hi, State.takeCommand_ready h, ho]
  rfl

theorem queueNo_none (h : 31 < f.queue.toNat) : queueNo f = none := dif_neg (by omega)

/-! ### Parameters (11.3) -/

theorem decodeMode_none {n : Nat} (h : 1 < n) : decodeMode n = none := by
  rw [decodeMode, if_neg (by omega), if_neg (by omega)]

theorem decodeMode_some {n : Nat} (h : ¬1 < n) : decodeMode n = some (if n = 0 then .cut else .store) := by
  rw [decodeMode]
  split_ifs
  · rfl
  · rfl
  · omega

theorem decodePolicy_none {n : Nat} (h : 1 < n) : decodePolicy n = none := by
  rw [decodePolicy, if_neg (by omega), if_neg (by omega)]

theorem decodePolicy_some {n : Nat} (h : ¬1 < n) : decodePolicy n = some (if n = 0 then .refuse else .skip) := by
  rw [decodePolicy]
  split_ifs
  · rfl
  · rfl
  · omega

theorem limitsRefused_iff {x : QueueParams} {depth : Nat} : limitsRefused x depth = true ↔
    x.limit = 0 ∨ 1024 < x.limit ∨ x.limit < depth ∨ x.threshold = 0 ∨ x.limit < x.threshold := decide_eq_true_iff

/-- A queue that is being opened lists nothing, so that no limit falls below its depth. -/
theorem limitsRefused_zero_iff {x : QueueParams} : limitsRefused x 0 = true ↔
    x.limit = 0 ∨ 1024 < x.limit ∨ x.threshold = 0 ∨ x.limit < x.threshold := by
  rw [limitsRefused_iff]
  simp only [Nat.not_lt_zero, false_or]

/-! ### OPEN_QUEUE (R45) -/

theorem openQueue_noQueue (hf : queueNo f = none) : openQueue p f s = { state := s, code := .refusedParam } := by
  rw [openQueue, hf]

theorem openQueue_live (hf : queueNo f = some q) (hq : s.queue q = .live lq) :
    openQueue p f s = { state := s, code := .refusedState } := by
  simp only [openQueue, hf, hq]

theorem openQueue_badParams (hf : queueNo f = some q) (hq : s.queue q = .closed) {x : QueueParams}
    (hx : queueParams (s.front p).params = x) (h : 1 < x.mode ∨ 1 < x.policy ∨ limitsRefused x 0 = true) :
    openQueue p f s = { state := s, code := .refusedParam } := by
  simp only [openQueue, hf, hq, hx]
  split
  · rename_i mode policy hm hp
    have modeOk : ¬1 < x.mode := fun k => nomatch (decodeMode_none k).symm.trans hm
    have policyOk : ¬1 < x.policy := fun k => nomatch (decodePolicy_none k).symm.trans hp
    exact if_pos ((h.resolve_left modeOk).resolve_left policyOk)
  · rfl

theorem openQueue_opens (hf : queueNo f = some q) (hq : s.queue q = .closed) {x : QueueParams}
    (hx : queueParams (s.front p).params = x) (hm : ¬1 < x.mode) (hp : ¬1 < x.policy) (hl : ¬limitsRefused x 0 = true) :
    openQueue p f s =
      { state := s.setQueue q (.live (openedQueue p x (if x.mode = 0 then .cut else .store)
          (if x.policy = 0 then .refuse else .skip)))
        code := .ok, result1 := .depth 0 } := by
  simp only [openQueue, hf, hq, hx]
  rw [decodeMode_some hm, decodePolicy_some hp]
  exact if_neg hl

/-- Settles O14: the queue number, the state of the queue, and the parameters. -/
theorem openQueueChecksThenOpens : Obligations.OpenQueueChecksThenOpens := by
  refine fun p f s h => ⟨fun hf => exec_of_takeCommand rfl h (openQueue_noQueue (queueNo_none hf)), fun q hf => ?_⟩
  have hf := queueNo_eq hf
  cases hq : s.queue q with
  | live lq => exact exec_of_takeCommand rfl h (openQueue_live hf hq)
  | closed =>
    rw [if_neg (not_not_intro rfl)]
    split
    · rename_i hx
      exact exec_of_takeCommand rfl h (openQueue_badParams hf hq rfl
        (hx.imp_right (Or.imp_right limitsRefused_zero_iff.mpr)))
    · rename_i hx
      obtain ⟨hm, hx⟩ := not_or.mp hx
      obtain ⟨hp, hl⟩ := not_or.mp hx
      exact exec_of_takeCommand rfl h (openQueue_opens hf hq rfl hm hp (mt limitsRefused_zero_iff.mp hl))

/-! ### MODIFY_QUEUE (R47, R54) -/

theorem modifyQueue_noQueue (hf : queueNo f = none) : modifyQueue p f s = { state := s, code := .refusedParam } := by
  rw [modifyQueue, hf]

theorem modifyQueue_closed (hf : queueNo f = some q) (hq : s.queue q = .closed) :
    modifyQueue p f s = { state := s, code := .refusedState } := by
  simp only [modifyQueue, hf, hq]

theorem modifyQueue_notOwner (hf : queueNo f = some q) (hq : s.queue q = .live lq) (hc : lq.consumer ≠ p) :
    modifyQueue p f s = { state := s, code := .refusedOwner } := by
  simp only [modifyQueue, hf, hq]
  exact if_pos hc

theorem modifyQueue_quarantined (hf : queueNo f = some q) (hq : s.queue q = .live lq) (hc : lq.consumer = p)
    (hp : lq.phase = .quarantined) : modifyQueue p f s = { state := s, code := .refusedQuarantined } := by
  simp only [modifyQueue, hf, hq, if_neg (not_not_intro hc), hp]

theorem modifyQueue_draining (hf : queueNo f = some q) (hq : s.queue q = .live lq) (hc : lq.consumer = p)
    {c : CloseRecord} (hp : lq.phase = .draining c) : modifyQueue p f s = { state := s, code := .refusedState } := by
  simp only [modifyQueue, hf, hq, if_neg (not_not_intro hc), hp]

theorem modifyQueue_badParams (hf : queueNo f = some q) (hq : s.queue q = .live lq) (hc : lq.consumer = p)
    (hp : lq.phase = .opened) {x : QueueParams} (hx : queueParams (s.front p).params = x)
    (h : 1 < x.policy ∨ limitsRefused x lq.depth = true) :
    modifyQueue p f s = { state := s, code := .refusedParam } := by
  simp only [modifyQueue, hf, hq, if_neg (not_not_intro hc), hp, hx]
  split
  · rfl
  · rename_i policy hy
    exact if_pos (h.resolve_left fun k => nomatch (decodePolicy_none k).symm.trans hy)

theorem modifyQueue_modifies (hf : queueNo f = some q) (hq : s.queue q = .live lq) (hc : lq.consumer = p)
    (hp : lq.phase = .opened) {x : QueueParams} (hx : queueParams (s.front p).params = x) (hy : ¬1 < x.policy)
    (hl : ¬limitsRefused x lq.depth = true) :
    modifyQueue p f s = { state := modifyTaken s q lq x (if x.policy = 0 then .refuse else .skip)
                          code := .ok, result1 := .depth lq.depth } := by
  simp only [modifyQueue, hf, hq, if_neg (not_not_intro hc), hp, hx]
  rw [decodePolicy_some hy]
  exact if_neg hl

/-- The record and the event of a taken MODIFY_QUEUE, with the flag of R54. -/
theorem modifyTaken_eq (s : State) (q : QueueNo) (lq : LiveQueue) (x : QueueParams) (policy : FullPolicy) :
    modifyTaken s q lq x policy =
      if lq.armed = true ∧ x.threshold ≤ lq.depth then
        (s.setQueue q (.live { lq with mask := x.mask, policy := policy, limit := x.limit, threshold := x.threshold
                                       armed := decide (lq.depth < x.threshold) })).sendEvent lq.consumer
          ⟨.queueReady, some q.val, none, min lq.depth 255⟩
      else s.setQueue q (.live { lq with mask := x.mask, policy := policy, limit := x.limit, threshold := x.threshold
                                         armed := decide (lq.depth < x.threshold) }) := by
  have ready : (lq.modified x policy).ready = true ↔ lq.armed = true ∧ x.threshold ≤ lq.depth := by
    rw [LiveQueue.ready, Bool.and_eq_true, decide_eq_true_iff]
    rfl
  rw [modifyTaken]
  exact if_congr ready rfl rfl

/-- Settles O15: the queue number, the state of the queue, its consumer and phase, the parameters, and the threshold. -/
theorem modifyQueueChecksThenReplaces : Obligations.ModifyQueueChecksThenReplaces := by
  refine fun p f s h => ⟨fun hf => exec_of_takeCommand rfl h (modifyQueue_noQueue (queueNo_none hf)), fun q hf => ?_⟩
  have hf := queueNo_eq hf
  refine ⟨fun hq => exec_of_takeCommand rfl h (modifyQueue_closed hf hq), fun lq hq => ?_⟩
  by_cases hc : lq.consumer = p
  swap
  · rw [if_pos hc]
    exact exec_of_takeCommand rfl h (modifyQueue_notOwner hf hq hc)
  subst hc
  rw [if_neg (not_not_intro rfl)]
  cases hp : lq.phase with
  | quarantined => exact exec_of_takeCommand rfl h (modifyQueue_quarantined hf hq rfl hp)
  | draining c => exact exec_of_takeCommand rfl h (modifyQueue_draining hf hq rfl hp)
  | opened =>
    rw [if_neg nofun, if_neg (not_not_intro rfl)]
    split
    · rename_i hx
      exact exec_of_takeCommand rfl h (modifyQueue_badParams hf hq rfl hp rfl (hx.imp_right limitsRefused_iff.mpr))
    · rename_i hx
      obtain ⟨hy, hl⟩ := not_or.mp hx
      have e := modifyQueue_modifies hf hq rfl hp rfl hy (mt limitsRefused_iff.mp hl)
      rw [modifyTaken_eq, hp] at e
      exact exec_of_takeCommand rfl h e

/-! ### Closing a queue at once (R64, R68) -/

theorem State.closeAtOnce_quarantined (s : State) (q : QueueNo) (hp : lq.phase = .quarantined) :
    s.closeAtOnce q lq = (({ s with
      pool := { s.pool with strandedNodes := s.pool.strandedNodes + lq.depth } }).setQueue q .closed).sendEvent lq.consumer
        ⟨.queueClosed, some q.val, none, min lq.depth 255⟩ := by
  rw [State.closeAtOnce, hp]
  rfl

theorem State.closeAtOnce_opened (s : State) (q : QueueNo) (hp : lq.phase = .opened) :
    s.closeAtOnce q lq = (s.setQueue q .closed).sendEvent lq.consumer ⟨.queueClosed, some q.val, none, 0⟩ := by
  rw [State.closeAtOnce, hp]
  rfl

/-! ### CLOSE_QUEUE (R60) -/

theorem closeQueue_noQueue (hf : queueNo f = none) : closeQueue p f s = { state := s, code := .refusedParam } := by
  rw [closeQueue, hf]

theorem closeQueue_closed (hf : queueNo f = some q) (hq : s.queue q = .closed) :
    closeQueue p f s = { state := s, code := .refusedState } := by
  simp only [closeQueue, hf, hq]

theorem closeQueue_notOwner (hf : queueNo f = some q) (hq : s.queue q = .live lq) (hc : lq.consumer ≠ p) :
    closeQueue p f s = { state := s, code := .refusedOwner } := by
  simp only [closeQueue, hf, hq]
  exact if_pos hc

theorem closeQueue_draining (hf : queueNo f = some q) (hq : s.queue q = .live lq) (hc : lq.consumer = p)
    {c : CloseRecord} (hp : lq.phase = .draining c) : closeQueue p f s = { state := s, code := .refusedState } := by
  simp only [closeQueue, hf, hq, if_neg (not_not_intro hc), hp]

theorem closeQueue_quarantined (hf : queueNo f = some q) (hq : s.queue q = .live lq) (hc : lq.consumer = p)
    (hp : lq.phase = .quarantined) :
    closeQueue p f s = { state := s.closeAtOnce q lq, code := .ok, result1 := .close 0 lq.depth } := by
  simp only [closeQueue, hf, hq, if_neg (not_not_intro hc), hp]

theorem closeQueue_empty (hf : queueNo f = some q) (hq : s.queue q = .live lq) (hc : lq.consumer = p)
    (hp : lq.phase = .opened) (hd : lq.depth = 0) :
    closeQueue p f s = { state := s.closeAtOnce q lq, code := .ok, result1 := .close 0 0 } := by
  simp only [closeQueue, hf, hq, if_neg (not_not_intro hc), hp]
  exact if_pos hd

theorem closeQueue_drains (hf : queueNo f = some q) (hq : s.queue q = .live lq) (hc : lq.consumer = p)
    (hp : lq.phase = .opened) (hd : lq.depth ≠ 0) :
    closeQueue p f s = { state := s.setQueue q (.live { lq with phase := .draining ⟨p, true, false, 0, 0⟩ })
                         code := .pending, unit := .closing q } := by
  simp only [closeQueue, hf, hq, if_neg (not_not_intro hc), hp]
  exact if_neg hd

/-- Settles O16: the checks, the two closes at once, and the drain. -/
theorem closeQueueClosesOrStartsADrain : Obligations.CloseQueueClosesOrStartsADrain := by
  refine fun p f s h => ⟨fun hf => exec_of_takeCommand rfl h (closeQueue_noQueue (queueNo_none hf)), fun q hf => ?_⟩
  have hf := queueNo_eq hf
  refine ⟨fun hq => exec_of_takeCommand rfl h (closeQueue_closed hf hq), fun lq hq =>
    ⟨fun hc => exec_of_takeCommand rfl h (closeQueue_notOwner hf hq hc), ?_⟩⟩
  rintro rfl
  refine ⟨fun c hp => exec_of_takeCommand rfl h (closeQueue_draining hf hq rfl hp), fun hp => ?_, fun hp hd => ?_,
    fun hp hd => exec_of_takeCommand rfl h (closeQueue_drains hf hq rfl hp hd)⟩
  · rw [← s.closeAtOnce_quarantined q hp]
    exact exec_of_takeCommand rfl h (closeQueue_quarantined hf hq rfl hp)
  · rw [← s.closeAtOnce_opened q hp]
    exact exec_of_takeCommand rfl h (closeQueue_empty hf hq rfl hp hd)

/-! ### QUERY_QUEUE (R48) -/

theorem queryQueue_noQueue (hf : queueNo f = none) : queryQueue f s = { state := s, code := .refusedParam } := by
  rw [queryQueue, hf]

theorem queryQueue_reports (hf : queueNo f = some q) {x : Queue} (hq : s.queue q = x) :
    queryQueue f s = { state := s, code := .ok, result1 := .query x.tag x.depth x.queryLive } := by
  rw [queryQueue, hf, ← hq]

/-- Settles O17: the queue number, and the record of a CLOSED queue and of any other. -/
theorem queryQueueReportsAnyQueue : Obligations.QueryQueueReportsAnyQueue := by
  refine fun p f s h => ⟨fun hf => exec_of_takeCommand rfl h (queryQueue_noQueue (queueNo_none hf)), fun q hf =>
    ⟨fun hq => exec_of_takeCommand rfl h (queryQueue_reports (queueNo_eq hf) hq), fun lq hq => ?_⟩⟩
  obtain ⟨phase⟩ := lq
  cases phase <;> exact exec_of_takeCommand rfl h (queryQueue_reports (queueNo_eq hf) hq)

end Sys2Proof.Machine
end

section
/-!
SUPPORT. FETCH as far as it is refused or detaches a node (R53, R55, R56, R99, R100): the checks of the Receive Unit and of the Queue Engine,
and the head node whose two words are read; O31 and O32.
-/
namespace Sys2Proof.Machine
variable {s : State} {p : Port} {f : CommandFields} {r : ReceiveNo} {q : QueueNo} {lq : LiveQueue}

/-! ### The Receive Unit's own checks (R99) -/

theorem fetchMessage_noSlot (h : 1 < f.slot.toNat) : fetchMessage p f s = { state := s, code := .refusedParam } := by
  have noSlot : receiveNo f = none := dif_neg (by omega)
  rw [fetchMessage, noSlot]

theorem fetchMessage_busySlot (hr : f.slot.toNat = r.val) (hi : (s.receiveSlot p r).phase ≠ .idle) :
    fetchMessage p f s = { state := s, code := .refusedState } := by
  rw [fetchMessage, State.receiveNo_eq hr]
  dsimp only
  split
  · rfl
  · rename_i idle
    exact absurd idle hi

theorem fetchMessage_idleSlot (hr : f.slot.toNat = r.val) (hi : (s.receiveSlot p r).phase = .idle) :
    fetchMessage p f s = fetchFrom s p r f := by
  simp only [fetchMessage, State.receiveNo_eq hr, hi]

/-! ### The checks of the Queue Engine (R55) -/

theorem fetchFrom_noQueue (hf : queueNo f = none) : fetchFrom s p r f = { state := s, code := .refusedParam } := by
  rw [fetchFrom, hf]

theorem fetchFrom_closed (hf : queueNo f = some q) (hq : s.queue q = .closed) :
    fetchFrom s p r f = { state := s, code := .refusedState } := by
  simp only [fetchFrom, hf, hq]

theorem fetchFrom_notOwner (hf : queueNo f = some q) (hq : s.queue q = .live lq) (hc : lq.consumer ≠ p) :
    fetchFrom s p r f = { state := s, code := .refusedOwner } := by
  simp only [fetchFrom, hf, hq]
  exact if_pos hc

theorem fetchFrom_quarantined (hf : queueNo f = some q) (hq : s.queue q = .live lq) (hc : lq.consumer = p)
    (hp : lq.phase = .quarantined) : fetchFrom s p r f = { state := s, code := .refusedQuarantined } := by
  simp only [fetchFrom, hf, hq, if_neg (not_not_intro hc), hp]

theorem fetchFrom_draining (hf : queueNo f = some q) (hq : s.queue q = .live lq) (hc : lq.consumer = p)
    {c : CloseRecord} (hp : lq.phase = .draining c) : fetchFrom s p r f = { state := s, code := .refusedState } := by
  simp only [fetchFrom, hf, hq, if_neg (not_not_intro hc), hp]

theorem fetchFrom_empty (hf : queueNo f = some q) (hq : s.queue q = .live lq) (hc : lq.consumer = p)
    (hp : lq.phase = .opened) (hd : lq.depth = 0) : fetchFrom s p r f = { state := s, code := .empty } := by
  simp only [fetchFrom, hf, hq, if_neg (not_not_intro hc), hp]
  exact if_pos hd

theorem fetchFrom_detaches (hf : queueNo f = some q) (hq : s.queue q = .live lq) (hc : lq.consumer = p)
    (hp : lq.phase = .opened) (hd : lq.depth ≠ 0) :
    fetchFrom s p r f = (detach s p r q lq).completing s.requests := by
  simp only [fetchFrom, hf, hq, if_neg (not_not_intro hc), hp]
  exact if_neg hd

/-- Settles O31: the slot number and the slot, then the queue number, the queue and its depth. -/
theorem fetchChecksInOrder : Obligations.FetchChecksInOrder := by
  refine fun p f s h => ⟨fun hr => exec_of_takeCommand rfl h (fetchMessage_noSlot hr), fun r hr =>
    ⟨fun hi => exec_of_takeCommand rfl h (fetchMessage_busySlot hr hi), fun hi => ?_⟩⟩
  have fetch : ∀ {code}, fetchFrom s p r f = { state := s, code := code } →
      exec (.fetchMessage p f) s = .next (s.commandTaken p ⟨0x20, f⟩ code .absent .idle) := fun e =>
    exec_of_takeCommand rfl h ((fetchMessage_idleSlot hr hi).trans e)
  refine ⟨fun hf => fetch (fetchFrom_noQueue (queueNo_none hf)), fun q hf => ?_⟩
  have hf := queueNo_eq hf
  exact ⟨fun hq => fetch (fetchFrom_closed hf hq), fun lq hq => ⟨fun hc => fetch (fetchFrom_notOwner hf hq hc), fun hc =>
    ⟨fun hp => fetch (fetchFrom_quarantined hf hq hc hp), fun c hp => fetch (fetchFrom_draining hf hq hc hp),
      fun hp hd => fetch (fetchFrom_empty hf hq hc hp hd)⟩⟩⟩

/-! ### The node detached (R56, R100) -/

/-- Both words of the head node are read: the list moves on past it, and the slot holds it. The reads change no descriptor. -/
theorem detach_delivers {h : NodeNo} {d : DescNo} {x : NodeLink} {m : Message} (hh : lq.head = some h)
    (hv : (s.readNode h).2 = (some d, some x)) (hm : s.desc d = .live m) :
    detach s p r q lq =
      { state := ((s.readNode h).1.setQueue q (.live (lq.behead x).rearm)).setReceiveSlot p r (filledSlot q h d m)
        code := .ok, result1 := fetchResult d m } := by
  have read : s.readNode h = ((s.readNode h).1, some d, some x) := Prod.ext rfl hv
  have message : ((s.readNode h).1.setQueue q (.live (lq.behead x).rearm)).messageOf d = m := by
    obtain ⟨c, l, k, e⟩ := s.readNode_frame h
    rw [e]
    show s.messageOf d = m
    rw [State.messageOf, State.message, hm]
    rfl
  rw [detach, State.headNode, hh]
  dsimp only
  rw [read]
  dsimp only
  rw [message]

/-- A FETCH that detaches its node makes no report, so that its completion changes nothing. -/
theorem completing_detached {h : NodeNo} {x : Queue} {y : ReceiveSlot} :
    (((s.readNode h).1.setQueue q x).setReceiveSlot p r y).completeRequest s.requests =
      ((s.readNode h).1.setQueue q x).setReceiveSlot p r y := by
  obtain ⟨c, l, k, e⟩ := s.readNode_frame h
  rw [e]
  exact State.completeRequest_of_integrity rfl

theorem State.readNode_of_clean {h : NodeNo} {d : DescNo} {x : NodeLink} (hd : (s.contentWord h).check = .clean d)
    (hx : (s.nodeLinkWord h).check = .clean x) : s.readNode h = (s, some d, some x) := by
  rw [State.readNode_eq, State.readContent_of_clean hd, State.readNodeLink_of_clean hx]

/-- Settles O32: the checks passed, the two words read, and the node detached. -/
theorem fetchDetachesTheHeadNode : Obligations.FetchDetachesTheHeadNode := by
  intro p f r q lq h d x m s ready hr hf hi hq hc hp hd hh content link hm
  have values : (s.readNode h).2 = (some d, some x) := by
    rw [State.readNode_eq, State.readContent_value content, State.readNodeLink_value link]
  have taken : fetchMessage p f s =
      { state := ((s.readNode h).1.setQueue q (.live (lq.behead x).rearm)).setReceiveSlot p r (filledSlot q h d m)
        code := .ok, result1 := fetchResult d m } :=
    calc fetchMessage p f s
      _ = fetchFrom s p r f := fetchMessage_idleSlot hr hi
      _ = (detach s p r q lq).completing s.requests := fetchFrom_detaches (queueNo_eq hf) hq hc hp hd
      _ = _ := by rw [detach_delivers hh values hm, CommandOutcome.completing, completing_detached]
  rw [rearm_behead hp] at taken
  exact ⟨exec_of_takeCommand rfl ready taken, fun hd hx => by rw [State.readNode_of_clean hd hx]⟩

end Sys2Proof.Machine
end

section
/-!
SUPPORT. Step 3 of a teardown (R60, R68, R153): the queue number passed, the close that is waited for, and the report of its end; O52.
-/
namespace Sys2Proof.Machine.State
variable {s : State} {p : Port} {t : Teardown} {q : QueueNo} {lq : LiveQueue}

/-! ### The record after a queue number -/

/-- Queue 31 is the last number of step 3. -/
theorem advance_queues (h : t.step = 3) : t.advance 31 =
    if t.cursor < 31 then { t with cursor := t.cursor + 1, queue := none, reported := false }
    else { t with step := 4, cursor := 0, queue := none, reported := false } := by
  rw [Teardown.advance, h]

/-! ### The steps made and not made -/

theorem exec_teardownClose (h : s.TearsDown p t 3) (hn : t.queue = none) (hq : t.cursor = q.val) :
    exec (.teardownClose p) s = .next (s.teardownCloseQueue p t q) := by
  have number : Fin.ofNat 32 t.cursor = q := by rw [hq, Fin.ofNat_val_eq_self]
  show execTeardownClose p s = _
  simp only [execTeardownClose, teardownAt_of_tearsDown h, hn, number]

theorem exec_teardownClose_awaited (h : s.TearsDown p t 3) (hq : t.queue = some q) :
    exec (.teardownClose p) s = .next s := by
  show execTeardownClose p s = _
  simp only [execTeardownClose, teardownAt_of_tearsDown h, hq]

theorem exec_teardownCloseComplete (h : s.TearsDown p t 3) :
    exec (.teardownCloseComplete p) s = if t.reported then .next (s.setTeardown p (t.advance 31)) else .next s := by
  show execTeardownCloseComplete p s = _
  simp only [execTeardownCloseComplete, teardownAt_of_tearsDown h]

/-! ### The close request for one queue -/

theorem teardownCloseQueue_closed (hq : s.queue q = .closed) :
    s.teardownCloseQueue p t q = s.setTeardown p (t.advance 31) := by
  rw [teardownCloseQueue, hq]

theorem teardownCloseQueue_notConsumer (hq : s.queue q = .live lq) (hc : lq.consumer ≠ p) :
    s.teardownCloseQueue p t q = s.setTeardown p (t.advance 31) := by
  rw [teardownCloseQueue, hq]
  exact if_pos hc

theorem teardownCloseQueue_quarantined (hq : s.queue q = .live lq) (hc : lq.consumer = p) (hp : lq.phase = .quarantined) :
    s.teardownCloseQueue p t q = (s.closeAtOnce q lq).setTeardown p (t.advance 31) := by
  simp only [teardownCloseQueue, hq, if_neg (not_not_intro hc), hp]

theorem teardownCloseQueue_empty (hq : s.queue q = .live lq) (hc : lq.consumer = p) (hp : lq.phase = .opened)
    (hd : lq.depth = 0) : s.teardownCloseQueue p t q = (s.closeAtOnce q lq).setTeardown p (t.advance 31) := by
  simp only [teardownCloseQueue, hq, if_neg (not_not_intro hc), hp]
  exact if_pos hd

theorem teardownCloseQueue_drains (hq : s.queue q = .live lq) (hc : lq.consumer = p) (hp : lq.phase = .opened)
    (hd : lq.depth ≠ 0) : s.teardownCloseQueue p t q =
      (s.setQueue q (.live { lq with phase := .draining ⟨p, false, true, 0, 0⟩ })).setTeardown p
        { t with queue := some q, reported := false } := by
  simp only [teardownCloseQueue, hq, if_neg (not_not_intro hc), hp]
  exact if_neg hd

theorem teardownCloseQueue_joins (hq : s.queue q = .live lq) (hc : lq.consumer = p) {c : CloseRecord}
    (hp : lq.phase = .draining c) : s.teardownCloseQueue p t q =
      (s.setQueue q (.live { lq with phase := .draining { c with teardown := true } })).setTeardown p
        { t with queue := some q, reported := false } := by
  simp only [teardownCloseQueue, hq, if_neg (not_not_intro hc), hp]

/-- Settles O52: the report taken, a step not due, and the close request for the queue at the cursor. -/
theorem teardownClosesTheQueues : Obligations.TeardownClosesTheQueues := by
  intro p t q s h passed waits
  have passed_eq : ∀ u : State, u.setTeardown p (t.advance 31) = passed u := fun u => by
    rw [setTeardown, advance_queues h.2.2.1]
  refine ⟨fun hr => ?_, fun hr => ?_, fun e he => exec_teardownClose_awaited h he, fun hn hc => ?_⟩
  · rw [exec_teardownCloseComplete h, if_pos hr, passed_eq]
  · rw [exec_teardownCloseComplete h, hr]
    rfl
  rw [exec_teardownClose h hn hc]
  refine ⟨fun hq => ?_, fun lq hq => ⟨fun hc => ?_, ?_⟩⟩
  · rw [teardownCloseQueue_closed hq, passed_eq]
  · rw [teardownCloseQueue_notConsumer hq hc, passed_eq]
  rintro rfl
  refine ⟨fun hp => ?_, fun hp hd => ?_, fun hp hd => ?_, fun c hp => ?_⟩
  · rw [teardownCloseQueue_quarantined hq rfl hp, passed_eq, closeAtOnce_quarantined s q hp]
  · rw [teardownCloseQueue_empty hq rfl hp hd, passed_eq, closeAtOnce_opened s q hp]
  · rw [teardownCloseQueue_drains hq rfl hp hd]
    rfl
  · rw [teardownCloseQueue_joins hq rfl hp]
    rfl

end Sys2Proof.Machine.State
end

section
/-!
SUPPORT. A seal refused in its examination (R85, R86), once for SEAL, for a BEGIN of length 0 and for the auto-seal; the
checks of SEAL (R72, R84); O22.
-/
namespace Sys2Proof.Machine
variable {s s1 : State} {p : Port} {c : ComposeNo} {k : Composing} {m : Message} {n : Nat} {code : ResultCode}
  {failing : Option Nat} {f : CommandFields}

namespace State

/-! ### The refused seal -/

/-- R85: the examination of port p's seal of `m` is refused from state `s` with a code and a failing position, and leaves
`s1`. -/
inductive SealRefused (s : State) (p : Port) (m : Message) : State → ResultCode → Option Nat → Prop where
  | full {pos : Nat} {x : Destination} (at_pos : m.dests[pos]? = some x) (stops : s.sealStops p x = true)
      (first : ∀ i, i < pos → ∀ e, m.dests[i]? = some e → s.sealStops p e = false) :
      SealRefused s p m s .refusedFull (some pos)
  | few (admits : ∀ x ∈ m.dests, s.sealStops p x = false) (short : s.pool.freeNodes < (s.sealRoom p m).length) :
      SealRefused s p m s .refusedNoNode none
  | truncated {s1 : State} (admits : ∀ x ∈ m.dests, s.sealStops p x = false)
      (enough : (s.sealRoom p m).length ≤ s.pool.freeNodes)
      (taken : s.allocateNodes p (s.sealRoom p m).length = (s1, none)) : SealRefused s p m s1 .refusedNoNode none

theorem SealRefused.examine (h : s.SealRefused p m s1 code failing) (d : DescNo) :
    s.examine p d m = (s1, .refused code failing) := by
  cases h with
  | full at_pos stops first => exact examine_stops d at_pos stops first
  | few admits short => exact examine_few d admits short
  | truncated admits enough taken => exact examine_truncated d admits enough taken

/-- A refused examination writes neither a descriptor nor a compose slot. -/
theorem SealRefused.frame (h : s.SealRefused p m s1 code failing) :
    s1.descriptors = s.descriptors ∧ s1.compose = s.compose := by
  cases h with
  | full | few => exact ⟨rfl, rfl⟩
  | truncated _ _ taken =>
    obtain ⟨_, _, _, _, _, e⟩ := s.allocateNodes_footprint p (s.sealRoom p m).length
    rw [taken] at e
    rw [show s1 = _ from e]
    exact ⟨rfl, rfl⟩

/-- The slot is HELD with the length fixed and its timer restarted (R86). -/
theorem sealSlot_refused (hm : s.desc k.desc = .live m) (h : s.SealRefused p m s1 code failing) :
    s.sealSlot p c k m n = ⟨s1.setComposeSlot p c { s.composeSlot p c with
      phase := .held { k with timer := 0, due := false } n }, m, .refused code failing⟩ := by
  obtain ⟨descs, slots⟩ := h.frame
  have live : s1.desc k.desc = .live m := (desc_of_descriptors descs _).trans hm
  rw [sealSlot, h.examine]
  dsimp only
  rw [composeSlot_of_compose slots, messageOf_of_live live]

end State

/-! ### The checks of SEAL (R72, R84) -/

theorem composeNo_none (h : 3 < f.slot.toNat) : composeNo f = none := dif_neg (by omega)

theorem sealTaken_noSlot (h : composeNo f = none) : sealTaken p f s = { state := s, code := .refusedParam } := by
  rw [sealTaken, h]

theorem sealTaken_idle (hc : composeNo f = some c) (h : (s.composeSlot p c).phase = .idle) :
    sealTaken p f s = { state := s, code := .refusedState } := by
  simp only [sealTaken, hc, h]

theorem sealTaken_declared (hc : composeNo f = some c) (h : (s.composeSlot p c).phase = .filling k)
    (hm : s.desc k.desc = .live m) (hd : m.declared ≠ none) :
    sealTaken p f s = { state := s, code := .refusedState } := by
  simp only [sealTaken, hc, h, State.messageOf_of_live hm]
  exact if_pos (Option.isSome_iff_ne_none.mpr hd)

theorem sealTaken_badLength (hc : composeNo f = some c) (h : (s.composeSlot p c).phase = .filling k)
    (hm : s.desc k.desc = .live m) (hd : m.declared = none)
    (hl : validLength (bits ((s.front p).params.get 0) 0 16) m.written = false) :
    sealTaken p f s = { state := s, code := .refusedParam } := by
  have length : validLength (sealLength (s.front p).params) m.written = false := hl
  simp only [sealTaken, hc, h, State.messageOf_of_live hm, hd, length]
  rfl

/-- A length outside the window of R84. -/
theorem validLength_false {l w : Nat} (h : (w = 0 ∧ l ≠ 0) ∨ (w ≠ 0 ∧ (l + 4 ≤ w ∨ w < l))) :
    validLength l w = false := by
  rw [validLength]
  rcases h with ⟨rfl, h⟩ | ⟨hw, h⟩
  · exact decide_eq_false h
  · rw [if_neg hw, Bool.and_eq_false_iff, decide_eq_false_iff_not, decide_eq_false_iff_not]
    omega

/-- A SEAL that makes no report has nothing to complete. -/
theorem exec_sealMessage_quiet {o : CommandOutcome} (h : s.Ready p) (ho : sealTaken p f s = o)
    (hi : o.state.integrity = s.integrity) :
    exec (.sealMessage p f) s = .next (o.state.commandTaken p ⟨0x11, f⟩ o.code o.result1 o.unit) := by
  refine exec_of_takeCommand rfl h ?_
  rw [sealMessage, ho, CommandOutcome.completing, State.completeRequest_of_integrity (congrArg (·.waiting) hi)]

/-- A SEAL refused in its examination, without a truncation. -/
theorem exec_sealMessage_held (h : s.SealReaches p f c k m n) (hr : s.SealRefused p m s code failing) :
    exec (.sealMessage p f) s = .next ((s.setComposeSlot p c { s.composeSlot p c with
        phase := .held { desc := k.desc, cell := k.cell, timer := 0, due := false } n }).commandTaken p ⟨0x11, f⟩ code
      (.message { holders := some m.holders, failing := failing, poisoned := some m.poison.isSome }) .idle) := by
  obtain ⟨ready, -, live, -⟩ := id h
  have taken : sealTaken p f s = { state := s.setComposeSlot p c { s.composeSlot p c with
                                     phase := .held { desc := k.desc, cell := k.cell, timer := 0, due := false } n }
                                   code := code
                                   result1 := .message { holders := some m.holders, failing := failing
                                                         poisoned := some m.poison.isSome } } := by
    rw [sealTaken_reaches h, State.sealSlot_refused live hr, sealResult, ← State.holders_of_live live]
    rfl
  exact exec_sealMessage_quiet ready taken rfl

/-- Settles O22: the checks in their order, and the two refusals of the examination. -/
theorem sealChecksAndRefusals : Obligations.SealChecksAndRefusals := by
  refine ⟨fun p f s h => ⟨fun hc => ?_, fun c hc => ⟨fun hi => ?_, fun k m hk hm => ⟨fun hd => ?_, fun hd hl => ?_⟩⟩⟩,
    fun p f c k m n s h => ⟨fun pos x hx hs first => ?_, fun hs short => ?_⟩⟩
  · exact exec_sealMessage_quiet h (sealTaken_noSlot (composeNo_none hc)) rfl
  · exact exec_sealMessage_quiet h (sealTaken_idle (composeNo_eq hc) hi) rfl
  · exact exec_sealMessage_quiet h (sealTaken_declared (composeNo_eq hc) hk hm hd) rfl
  · exact exec_sealMessage_quiet h (sealTaken_badLength (composeNo_eq hc) hk hm hd (validLength_false hl)) rfl
  · exact exec_sealMessage_held h (.full hx hs first)
  · exact exec_sealMessage_held h (.few hs short)

end Sys2Proof.Machine
end

section
/-!
SUPPORT. The checks of BEGIN in their order (R74, R75, R78): the slot, the parameters with the first bad queue number, the
destinations not open to the port, the descriptor, the nodes and the full destinations; O18.
-/
namespace Sys2Proof.Machine
variable {s : State} {p : Port} {c : ComposeNo} {f : CommandFields} {part : BeginPart} {b : BeginParams}
  {qs : List QueueNo} {code : ResultCode} {failing : Option Nat}

/-! ### The first position of a list where a check fails -/

/-- A search along positions finds the first one where the check `bad` fails. -/
theorem find?_zipIdx_first {α : Type} {bad : α → Bool} {l : List α} {pos : Nat} {x : α} (hx : l[pos]? = some x)
    (hb : bad x = true) (first : ∀ i, i < pos → ∀ e, l[i]? = some e → bad e = false) (n : Nat) :
    (l.zipIdx n).find? (fun t => bad t.1) = some (x, n + pos) := by
  induction l generalizing n pos with
  | nil => cases hx
  | cons y l ih =>
    rw [List.zipIdx_cons, List.find?_cons]
    cases pos with
    | zero =>
      cases hx
      rw [hb]
      rfl
    | succ pos =>
      have skipped : bad y = false := first 0 (Nat.succ_pos _) y rfl
      rw [skipped, ih hx (fun i hi e he => first (i + 1) (Nat.succ_lt_succ hi) e he), Nat.add_right_comm, Nat.add_assoc]

/-- The first bad queue number behind those already seen (R74 check 2; log 17). -/
theorem firstBadQueue_first {seen qs : List Nat} {pos q : Nat} (hq : qs[pos]? = some q)
    (bad : 31 < q ∨ q ∈ seen ∨ q ∈ qs.take pos)
    (first : ∀ i, i < pos → ∀ e, qs[i]? = some e → e ≤ 31 ∧ e ∉ seen ∧ e ∉ qs.take i) (n : Nat) :
    firstBadQueue seen n qs = some (n + pos) := by
  induction qs generalizing seen n pos with
  | nil => cases hq
  | cons y qs ih =>
    rw [firstBadQueue]
    cases pos with
    | zero =>
      cases hq
      rw [List.take_zero] at bad
      exact if_pos (bad.imp_right (Or.resolve_right · List.not_mem_nil))
    | succ pos =>
      obtain ⟨low, fresh, -⟩ := first 0 (Nat.succ_pos _) y rfl
      rw [if_neg (not_or.mpr ⟨Nat.not_lt_of_le low, fresh⟩), Nat.add_comm pos 1, ← Nat.add_assoc]
      refine ih hq ?_ (fun i hi e he => ?_) (n + 1)
      · rw [List.take_succ_cons, List.mem_cons] at bad
        rw [List.mem_cons]
        tauto
      · obtain ⟨h31, hs, ht⟩ := first (i + 1) (Nat.succ_lt_succ hi) e he
        rw [List.take_succ_cons, List.mem_cons] at ht
        rw [List.mem_cons]
        tauto

/-! ### The parameters (R74 check 2) -/

theorem beginParamRefusal_count (h : b.count = 0 ∨ 4 < b.count) : beginParamRefusal b = some none := if_pos h

theorem beginParamRefusal_queue (h : ¬(b.count = 0 ∨ 4 < b.count)) {pos : Nat}
    (hq : firstBadQueue [] 0 b.queues = some pos) : beginParamRefusal b = some (some pos) := by
  rw [beginParamRefusal, if_neg h, hq]

theorem beginParamRefusal_length (h : ¬(b.count = 0 ∨ 4 < b.count)) (hq : firstBadQueue [] 0 b.queues = none) {n : Nat}
    (hd : b.declared = some n) (hn : 16384 < n) : beginParamRefusal b = some none := by
  rw [beginParamRefusal, if_neg h, hq, hd]
  exact if_pos hn

/-! ### The slot and the parameters (R72, R74 checks 1 and 2) -/

theorem beginFirst_noSlot (h : composeNo f = none) : beginFirst p f s = beginRefused s .refusedParam none := by
  rw [beginFirst, h]

theorem beginFirst_busy (hc : composeNo f = some c) (h : (s.composeSlot p c).phase ≠ .idle) :
    beginFirst p f s = beginRefused s .refusedState none := by
  rw [beginFirst, hc]
  dsimp only
  cases e : (s.composeSlot p c).phase with
  | idle => exact absurd e h
  | filling | held => rfl

theorem beginFirst_badParams (hc : composeNo f = some c) (h : (s.composeSlot p c).phase = .idle) {pos : Option Nat}
    (hr : beginParamRefusal (beginParams (s.front p).params) = some pos) :
    beginFirst p f s = beginRefused s .refusedParam pos := by
  simp only [beginFirst, hc, h, hr]

/-- With its parameters in order a BEGIN makes its link request for the destinations that they number. -/
theorem beginFirst_links (hc : composeNo f = some c) (h : (s.composeSlot p c).phase = .idle)
    (hr : beginParamRefusal (beginParams (s.front p).params) = none)
    (hq : qs.map (·.val) = (beginParams (s.front p).params).queues) :
    beginFirst p f s = beginLink s p c (beginParams (s.front p).params) qs := by
  simp only [beginFirst, hc, h, hr, ← hq, State.map_ofNat_val]

/-! ### The link request (R74 checks 3 to 6, R75) -/

theorem beginLink_notAdmitted {pos : Nat} {q : QueueNo} (hq : qs[pos]? = some q) (ha : s.admits p q = false)
    (first : ∀ i, i < pos → ∀ e, qs[i]? = some e → s.admits p e = true) :
    beginLink s p c b qs = beginRefused s .refusedDest (some pos) := by
  have refused : ∀ q, (s.admitted p q).isNone = !s.admits p q := fun q => by
    rw [← s.admitted_isSome, Option.not_isSome]
  have position : s.refusedDest p qs = some pos := by
    rw [State.refusedDest, find?_zipIdx_first (bad := fun q => (s.admitted p q).isNone) hq
      (by rw [refused, ha]; rfl) (fun i hi e he => by rw [refused, first i hi e he]; rfl), Nat.zero_add]
    rfl
  rw [beginLink, position]

theorem beginLink_noDesc (ha : ∀ q ∈ qs, s.admits p q = true) (hf : s.pool.fifo = []) :
    beginLink s p c b qs = beginRefused s .refusedNoDesc none := by
  rw [beginLink, State.refusedDest_none ha, hf]

/-- The destinations of a BEGIN with their positions. -/
def placed (qs : List QueueNo) : List (Nat × QueueNo) := qs.zipIdx.map fun t => (t.2, t.1)

theorem placed_queues (qs : List QueueNo) : (placed qs).map (·.2) = qs := by
  rw [placed, List.map_map]
  exact List.zipIdx_map_fst 0 qs

theorem admits_placed (ha : ∀ q ∈ qs, s.admits p q = true) : ∀ x ∈ placed qs, s.admits p x.2 = true := fun x hx =>
  ha x.2 (by rw [← placed_queues qs]; exact List.mem_map_of_mem hx)

/-- The link request of a BEGIN with every destination open to the port and a descriptor at hand: the nodes are counted before
the full destinations are looked for. -/
theorem beginLink_counts (ha : ∀ q ∈ qs, s.admits p q = true) (hf : s.pool.fifo ≠ []) :
    (s.pool.freeNodes < (s.cutRoom qs).length → beginLink s p c b qs = beginRefused s .refusedNoNode none) ∧
    ((s.cutRoom qs).length ≤ s.pool.freeNodes → ∀ pos,
      State.fullPosition (cutDests (s.admittedDests p (placed qs))) = some pos →
      beginLink s p c b qs = beginRefused s .refusedFull (some pos)) := by
  obtain ⟨d, rest, hf⟩ := List.exists_cons_of_ne_nil hf
  obtain ⟨room, -⟩ := State.cutDests_admitted (admits_placed ha)
  rw [placed_queues, placed] at room
  refine ⟨fun h => ?_, fun h pos hpos => ?_⟩
  · rw [beginLink, State.refusedDest_none ha, hf]
    dsimp only
    rw [room]
    exact if_pos h
  · rw [placed] at hpos
    rw [beginLink, State.refusedDest_none ha, hf]
    dsimp only
    rw [room, if_neg (Nat.not_lt_of_le h), hpos]

/-- The destinations that refuse a BEGIN as full, in the words of the statements (R75). -/
theorem fullPosition_cutDests_eq {l : List (Nat × QueueNo)} (h : ∀ x ∈ l, s.admits p x.2 = true) :
    State.fullPosition (cutDests (s.admittedDests p l)) =
      (l.find? fun x => s.isCut x.2 && s.limitReached x.2 && s.refusesFull x.2).map (·.1) := by
  induction l with
  | nil => rfl
  | cons x l ih =>
    obtain ⟨lq, live, e⟩ := State.admittedDests_cons (h x List.mem_cons_self) l
    have tail := ih fun y hy => h y (List.mem_cons_of_mem _ hy)
    rw [State.fullPosition] at tail
    rw [e, State.fullPosition, cutDests, List.filter_cons, List.find?_cons]
    dsimp only
    rw [State.cut_of_live live]
    cases s.isCut x.2 with
    | false => exact tail
    | true =>
      rw [if_pos rfl, List.find?_cons]
      dsimp only
      rw [State.refuses_of_live live, State.atLimit_of_live live, Bool.true_and, Bool.and_comm]
      cases s.limitReached x.2 && s.refusesFull x.2 with
      | false => exact tail
      | true => rfl

theorem beginLink_full (ha : ∀ q ∈ qs, s.admits p q = true) (hf : s.pool.fifo ≠ [])
    (hn : (s.cutRoom qs).length ≤ s.pool.freeNodes) {pos : Nat} {q : QueueNo} (hq : qs[pos]? = some q)
    (full : q ∈ s.cutFull qs) (refuses : s.refusesFull q = true)
    (first : ∀ i, i < pos → ∀ e, qs[i]? = some e → ¬(e ∈ s.cutFull qs ∧ s.refusesFull e = true)) :
    beginLink s p c b qs = beginRefused s .refusedFull (some pos) := by
  have stops : ∀ e ∈ qs, (s.isCut e && s.limitReached e && s.refusesFull e) = true ↔
      e ∈ s.cutFull qs ∧ s.refusesFull e = true := fun e he => by
    rw [State.cutFull, List.mem_filter, Bool.and_eq_true, and_iff_right he]
  refine (beginLink_counts ha hf).2 hn pos ?_
  rw [fullPosition_cutDests_eq (admits_placed ha), placed, List.find?_map]
  rw [show ((fun x : Nat × QueueNo => s.isCut x.2 && s.limitReached x.2 && s.refusesFull x.2) ∘
    fun t : QueueNo × Nat => (t.2, t.1)) = fun t => s.isCut t.1 && s.limitReached t.1 && s.refusesFull t.1 from rfl,
    find?_zipIdx_first (bad := fun q => s.isCut q && s.limitReached q && s.refusesFull q) hq
      ((stops q (List.mem_of_getElem? hq)).mpr ⟨full, refuses⟩)
      (fun i hi e he => by
        rw [Bool.eq_false_iff, Ne, stops e (List.mem_of_getElem? he)]
        exact first i hi e he), Nat.zero_add]
  rfl

/-! ### The refused BEGIN (R78) -/

/-- A BEGIN refused before it takes a node changes nothing but its results, taken whole or as its first part. -/
theorem exec_beginMessage_refused (h : s.Ready p) (hp : part ≠ .second)
    (hr : beginFirst p f s = beginRefused s code failing) :
    exec (.beginMessage p ⟨f, part⟩) s =
      .next (s.commandTaken p ⟨0x10, f⟩ code (.message { failing := failing }) .idle) := by
  have quiet : (beginRefused s code failing).toCommandOutcome.completing s.requests =
      (beginRefused s code failing).toCommandOutcome :=
    congrArg (fun u => { (beginRefused s code failing).toCommandOutcome with state := u })
      (State.completeRequest_of_integrity rfl)
  rw [State.exec_beginMessage h hp (by rw [hr]; rfl), hr, quiet]
  rfl

/-- Settles O18: one check after the other, each with the checks before it passed. -/
theorem beginChecksInOrder : Obligations.BeginChecksInOrder := by
  intro p f part s h hp w0 w1 w2 nums refused
  have answer : ∀ {code failing}, beginFirst p f s = beginRefused s code failing →
      exec (.beginMessage p ⟨f, part⟩) s = refused code failing := exec_beginMessage_refused h hp
  refine ⟨fun hc => answer (beginFirst_noSlot (composeNo_none hc)), fun c hc => ?_⟩
  have hc := composeNo_eq hc
  refine ⟨fun busy => answer (beginFirst_busy hc busy), fun idle => ?_⟩
  have param : ∀ {pos}, beginParamRefusal (beginParams (s.front p).params) = some pos →
      exec (.beginMessage p ⟨f, part⟩) s = refused .refusedParam pos := fun e =>
    answer (beginFirst_badParams hc idle e)
  refine ⟨fun hn => param (beginParamRefusal_count hn), fun h1 h4 => ?_⟩
  have count : ¬((beginParams (s.front p).params).count = 0 ∨ 4 < (beginParams (s.front p).params).count) := by
    show ¬(bits w0 16 3 = 0 ∨ 4 < bits w0 16 3)
    omega
  refine ⟨fun pos n hn bad before => param (beginParamRefusal_queue count ?_), fun qs hq nodup => ?_⟩
  · refine (firstBadQueue_first (seen := []) hn (bad.imp_right .inr) (fun i hi e he => ?_) 0).trans
      (congrArg some (Nat.zero_add pos))
    obtain ⟨low, fresh⟩ := before i hi e he
    exact ⟨low, List.not_mem_nil, fresh⟩
  have numbers : qs.map (·.val) = (beginParams (s.front p).params).queues := hq
  have distinct : firstBadQueue [] 0 (beginParams (s.front p).params).queues = none := by
    rw [← numbers]
    exact State.firstBadQueue_none nodup fun _ _ => List.not_mem_nil
  refine ⟨fun long absent => param (beginParamRefusal_length count distinct (if_neg absent) long), fun hd => ?_⟩
  have link : ∀ {code failing}, beginLink s p c (beginParams (s.front p).params) qs = beginRefused s code failing →
      exec (.beginMessage p ⟨f, part⟩) s = refused code failing := fun e =>
    answer ((beginFirst_links hc idle (State.beginParamRefusal_none h1 h4 hq nodup hd) numbers).trans e)
  exact ⟨fun pos q hq ha before => link (beginLink_notAdmitted hq ha before), fun ha =>
    ⟨fun hf => link (beginLink_noDesc ha hf), fun hf hn => link ((beginLink_counts ha hf).1 hn),
      fun hf hn pos q hq full refuses before => link (beginLink_full ha hf hn hq full refuses before)⟩⟩

end Sys2Proof.Machine
end

section
/-!
SUPPORT. A BEGIN of declared length 0 (R77, R78, R85 to R87): its second link request, made at once or from the
state that its second part finds; O21.
-/
namespace Sys2Proof.Machine
variable {s u u1 : State} {p : Port} {c : ComposeNo} {k : Composing} {m : Message} {code : ResultCode}
  {failing : Option Nat} {f : CommandFields}

/-! ### The second link request -/

/-- The two kinds of drop, counted together (R87). -/
theorem Message.droppedCount_eq (m : Message) : m.droppedCount = (m.dests.filter fun x =>
    decide (x.disposition = .droppedFull ∨ x.disposition = .droppedClosed)).length := by
  rw [Message.droppedCount, Message.countDests, Message.countDests]
  simp only [Bool.decide_or]
  induction m.dests with
  | nil => rfl
  | cons x l ih =>
    simp only [List.filter_cons]
    cases x.disposition <;> simp <;> omega

/-- The seal of a BEGIN is refused: the slot is HELD with length 0 (R77, R86). -/
theorem beginSeal_refused (hm : u.desc k.desc = .live m) (h : u.SealRefused p m u1 code failing) :
    beginSeal u p c k =
      { state := u1.setComposeSlot p c { u.composeSlot p c with phase := .held { k with timer := 0, due := false } 0 }
        code := .ok
        result1 := .message
          { desc := some k.desc
            linked := some (m.dests.filter fun x => decide (x.disposition = .linked)).length
            dropped := some (m.dests.filter fun x =>
              decide (x.disposition = .droppedFull ∨ x.disposition = .droppedClosed)).length
            holders := some m.holders, failing := failing, sealOutcome := some code } } := by
  have live : u1.desc k.desc = .live m := (State.desc_of_descriptors h.frame.1 _).trans hm
  rw [beginSeal, State.messageOf_of_live hm, State.sealSlot_refused hm h, ← m.droppedCount_eq,
    ← State.holders_of_live live]
  rfl

/-- The second link request of a BEGIN, and the results of the BEGIN after it (R77, R78). -/
theorem sealsAtZero_beginSeal (w : u.memoriesWf = true) (hm : u.desc k.desc = .live m)
    (hn : (m.dests.map (·.queue)).Nodup) (hh : 1 ≤ m.holders) (word : CommandWord) (n : Nat) :
    SealsAtZero u p c k m word n (.next (State.writeResults ((beginSeal u p c k).completing n) p word)) := by
  unfold SealsAtZero
  intro room held
  have refused : ∀ {u1 code failing}, u.SealRefused p m u1 code failing →
      .next (State.writeResults ((beginSeal u p c k).completing n) p word) = held u1 code failing := fun h => by
    rw [beginSeal_refused hm h]
    rfl
  refine ⟨fun pos x hx hs first => refused (.full hx hs first), fun hs => ⟨fun short => refused (.few hs short),
    fun enough => ⟨fun u1 ha => refused (.truncated hs enough ha), fun u1 xs ha => ?_⟩⟩⟩
  obtain ⟨done, entries, passed, linked, dropped, -, -, holders, integrity, fronts, control⟩ :=
    State.sealSlot_sealed (c := c) (n := 0) w hm hn hh hs enough ha
  have result : beginSeal u p c k =
      { state := (u.sealSlot p c k m 0).state, code := .ok
        result1 := .message
          { desc := some k.desc, linked := some (m.linkedWith room), dropped := some (m.droppedWith room)
            holders := some (m.holders + room.length - 1), sealOutcome := some .ok } } := by
    rw [beginSeal, State.messageOf_of_live hm, linked, dropped, holders, passed]
    rfl
  have params : ((u.sealSlot p c k m 0).state.front p).params = (u.front p).params := by
    rw [State.front_of_fronts fronts]
  rw [result]
  generalize (u.sealSlot p c k m 0).state = t at *
  refine ⟨_, rfl, done, entries, congrArg (·.complete n) integrity, State.reported_writeResults _ _ _, ?_,
    State.otherFronts_writeResults (s := u) fronts _ _, control⟩
  rw [State.writeResults, State.front_setFront_self]
  exact params

/-! ### The first link request, with a second to come (R77; log 29) -/

theorem exec_beginMessage_whole (h : s.Ready p) (hs : (beginFirst p f s).sealing = some (c, k)) :
    exec (.beginMessage p ⟨f, .whole⟩) s =
      .next (State.writeResults ((beginSeal (beginFirst p f s).state p c k).completing s.requests) p ⟨0x10, f⟩) := by
  refine congrArg Host.Outcome.next ((State.takeCommand_ready h _ _).trans ?_)
  rw [beginMessage, BeginOutcome.finish, hs]
  rfl

theorem exec_beginMessage_first (h : s.Ready p) (hs : (beginFirst p f s).sealing = some (c, k)) {u : State}
    (hu : (beginFirst p f s).state = u) : exec (.beginMessage p ⟨f, .first⟩) s = .next { u with
      integrity := { u.integrity with
        waiting := u.integrity.waiting.take s.requests ++
          requestOf (.inProgress p) ((u.integrity.waiting.drop s.requests).flatMap (·.reports)) }
      fronts := u.fronts.set p { u.front p with opening := some ⟨⟨0x10, f⟩, c⟩ } } := by
  refine congrArg Host.Outcome.next ((State.commandAccess_ready h _).trans ?_)
  rw [beginOpen]
  dsimp only
  rw [hs, hu]
  dsimp only
  rw [Integrity.suspend, remaining_eq]
  rfl

theorem begunMessage_queues (s : State) (p : Port) (c : ComposeNo) (qs : List QueueNo) :
    (s.begunMessage p c qs).dests.map (·.queue) = qs := by
  rw [State.begunMessage, List.map_map]
  exact List.map_id qs

/-! ### The second part -/

/-- A second part completes the BEGIN that its port has open, from the state that it finds (R77). -/
theorem exec_beginMessage_second {v : State} {o : Opening} (ho : (v.front p).opening = some o)
    (hk : (v.composeSlot p o.slot).phase = .filling k) (f : CommandFields) :
    exec (.beginMessage p ⟨f, .second⟩) v = .next (State.writeResults
      ((beginSeal ((v.setFront p { v.front p with opening := none }).setIntegrity (v.integrity.resume p)) p o.slot
        k).completing (v.integrity.others p).length) p o.command) := by
  refine congrArg Host.Outcome.next ?_
  have slot : ((v.setFront p { v.front p with opening := none }).setIntegrity (v.integrity.resume p)).composeSlot p
      o.slot = v.composeSlot p o.slot := rfl
  rw [State.endOpening, ho]
  dsimp only
  rw [slot, hk]

/-- The requests with the open BEGIN of port p last (R77; log 29). -/
theorem Integrity.others_eq (i : Integrity) (p : Port) :
    i.others p = i.waiting.filter fun g => !decide (g.stage = .inProgress p) :=
  List.filter_congr fun _ _ => decide_not

theorem Integrity.resume_eq (i : Integrity) (p : Port) : i.resume p = { i with
    waiting := (i.waiting.filter fun g => !decide (g.stage = .inProgress p)) ++
      i.waiting.filter fun g => decide (g.stage = .inProgress p) } := by
  rw [Integrity.resume, Integrity.others_eq]

/-- Settles O21: the whole BEGIN and its first part, the second part, and a second part without a BEGIN open. -/
theorem beginOfLengthZeroSeals : Obligations.BeginOfLengthZeroSeals := by
  refine ⟨fun p f c qs d rest ns s s1 h hz => ?_, ?_,
    fun p f s ho => congrArg Host.Outcome.next (State.endOpening_of_none s ho)⟩
  · obtain ⟨reaches, w, alloc⟩ := h
    have first := (State.beginFirst_reaches reaches).2 s1 ns alloc
    have wf : (beginFirst p f s).state.memoriesWf = true := (Quiet.refl.beginFirst p f).memoriesWf w
    obtain ⟨ready, -, -, -, -, -, nodup, -, admits, -⟩ := reaches
    obtain ⟨begun, integrity, fronts⟩ := State.beginTaken_begun (c := c) (d := d) (rest := rest) w nodup admits alloc
    have declared : (beginParams (s.front p).params).declared = some 0 := by
      show (if bits ((s.front p).params.get 1) 0 15 = 0x7FFF then none
        else some (bits ((s.front p).params.get 1) 0 15)) = _
      rw [hz]
      rfl
    have state : (beginFirst p f s).state = _ := congrArg (·.state) first
    have sealing : (beginFirst p f s).sealing = some (c, ⟨d, none, 0, false⟩) := by
      rw [first]
      exact if_pos declared
    have whole := exec_beginMessage_whole ready sealing
    have part := exec_beginMessage_first ready sealing state
    rw [state] at whole wf
    dsimp only [beginResult] at whole part wf
    generalize beginTaken s1 p c (beginParams (s.front p).params) qs d rest (s.cutRoom qs) (s.cutFull qs) ns = u at *
    refine ⟨u, begun, fronts, integrity, ?_, ?_⟩
    · rw [whole]
      exact sealsAtZero_beginSeal wf begun.1 (by rw [begunMessage_queues]; exact nodup) (Nat.le_add_right 1 _) _ _
    · rw [part, integrity, State.front_of_fronts fronts, fronts]
  · intro p f o k m v ho hk hm w hn hh own
    have begun := sealsAtZero_beginSeal (u := (v.setFront p { v.front p with opening := none }).setIntegrity
      (v.integrity.resume p)) (p := p) (c := o.slot) (k := k) w hm hn hh o.command (v.integrity.others p).length
    rw [← exec_beginMessage_second ho hk f, Integrity.resume_eq, Integrity.others_eq] at begun
    exact begun

end Sys2Proof.Machine
end

section
/-!
SUPPORT. The word that a data write stores (R16, R81 steps 2 to 4), inside a cell and at the start of a granted one; the
auto-seal of the write that reaches the declared length (R81 step 5, R89, R90); O27 and O30.
-/
namespace Sys2Proof.Machine.State
variable {s u u1 t : State} {p : Port} {c : ComposeNo} {k : Composing} {m x : Message} {n : Nat} {cell : CellNo}
  {pos : Fin 16} {data : Word}

/-! ### The word (R81 steps 2 to 4) -/

/-- The word stored at position `pos` of cell `cell`, counted in the written bytes of `m`, and the timer restarted;
the auto-seal and the answer are still to come. -/
def wordStored (s : State) (p : Port) (c : ComposeNo) (k : Composing) (m : Message) (cell : CellNo) (pos : Fin 16)
    (data : Word) : State :=
  ((s.writePayload cell pos data).setDesc k.desc (.live { m with written := m.written + 4 })).setComposeSlot p c
    { s.composeSlot p c with phase := .filling { desc := k.desc, cell := some cell, timer := 0, due := false } }

theorem wordStored_frame (s : State) (p : Port) (c : ComposeNo) (k : Composing) (m : Message) (cell : CellNo)
    (pos : Fin 16) (data : Word) : ∃ l a i ds cm, s.wordStored p c k m cell pos data = { s with
      payload := l, arm := a, lastInjection := i, descriptors := ds, compose := cm } := by
  obtain ⟨l, a, i, e⟩ := s.writePayload_footprint cell pos data
  exact ⟨l, a, i, _, _, by rw [wordStored, e]; rfl⟩

theorem memoriesWf_wordStored (w : s.memoriesWf = true) (p : Port) (c : ComposeNo) (k : Composing) (m : Message)
    (cell : CellNo) (pos : Fin 16) (data : Word) : (s.wordStored p c k m cell pos data).memoriesWf = true :=
  (((Quiet.refl.writePayload cell pos data).desc k.desc _).compose p c _).memoriesWf w

/-- An arm that only a payload write may have taken, in the words of the statements (R16). -/
theorem payloadArm_taken (h : InjectionTaken s t fun x =>
      if x = .payload then some (bankOf cell, .payload pos, cell.val) else none) :
    (∀ kind, s.arm = some ⟨.payload, kind⟩ → t.arm = none ∧ t.lastInjection = some
      ⟨if cell.val % 2 = 0 then .payloadBank0 else .payloadBank1, .payload pos, cell.val, kind⟩) ∧
    ((∀ kind, s.arm ≠ some ⟨.payload, kind⟩) → SameInjection s t) := by
  refine ⟨fun kind ha => h.taken ha (if_pos rfl), fun hn => ?_⟩
  cases ha : s.arm with
  | none =>
    obtain ⟨arm, last⟩ := h.arm_none ha
    exact ⟨arm.trans ha.symm, last⟩
  | some a =>
    have other : a.target ≠ .payload := fun e => hn a.kind (by rw [ha, ← e])
    obtain ⟨arm, last⟩ := h.kept ha (if_neg other)
    exact ⟨arm.trans ha.symm, last⟩

theorem storedWord_wordStored (w : s.memoriesWf = true) (p : Port) (c : ComposeNo) (k : Composing) (m : Message)
    (cell : CellNo) (pos : Fin 16) (data : Word) :
    StoredWord s (s.wordStored p c k m cell pos data) p c k m cell pos data := by
  have words := fun e i => payloadWord_writePayload w cell e pos i data
  obtain ⟨armed, unarmed⟩ := payloadArm_taken (s.writePayload_taken cell pos data)
  have wf : Memory.wf descDefault (s.writePayload cell pos data).descriptors = true :=
    wf_descriptors ((Quiet.refl.writePayload cell pos data).memoriesWf w)
  have descs := fun e => desc_setDesc _ wf k.desc e (.live { m with written := m.written + 4 })
  unfold wordStored
  obtain ⟨l, a, i, e⟩ := s.writePayload_footprint cell pos data
  generalize s.writePayload cell pos data = y at *
  subst e
  exact ⟨(words cell pos).trans (if_pos rfl), fun x i hx => (words x i).trans (if_neg hx),
    (descs k.desc).trans (if_pos rfl), fun e he => (descs e).trans (if_neg he), composeSlot_setComposeSlot_self _ _ _ _,
    otherCompose_setComposeSlot (fun _ _ _ => rfl) _, armed, unarmed, rfl, ⟨rfl, rfl⟩, rfl, rfl, rfl, rfl, rfl, rfl,
    ⟨rfl, rfl, rfl, rfl, rfl, rfl, rfl, rfl⟩⟩

/-- Steps 2 to 5 of R81: the word, the auto-seal where it is due, and the answer. -/
theorem storeWord_wordStored (hd : s.desc k.desc = .live m) (hk : k.cell = some cell)
    (hp : pos.val = m.written % 64 / 4) : storeWord s p c k data =
      (autoSeal (s.wordStored p c k m cell pos data) p c ⟨k.desc, some cell, 0, false⟩).answer p .okayWrite := by
  have position : Fin.ofNat 16 (m.written % 64 / 4) = pos := by rw [← hp, Fin.ofNat_val_eq_self]
  obtain ⟨l, a, i, e⟩ := s.writePayload_footprint cell pos data
  have live : (s.writePayload cell pos data).desc k.desc = .live m := by
    rw [e]
    exact hd
  have slot : ((s.writePayload cell pos data).setDesc k.desc
      (.live { m with written := m.written + 4 })).composeSlot p c = s.composeSlot p c := by
    rw [e]
    rfl
  rw [storeWord, messageOf_of_live hd, hk, position]
  dsimp only
  rw [updMessage_of_live live, slot, wordStored]

/-! ### The write inside a cell (R80, R81) -/

theorem dataWrite_inside (a : BitVec 16) (data : Word) (hf : (s.composeSlot p c).phase = .filling k)
    (hd : s.desc k.desc = .live m) (hw : m.written < 16384) (h64 : m.written % 64 ≠ 0) :
    dataWrite p c a data s = (storeWord s p c k data).completeRequest s.requests := by
  rw [dataWrite, hf]
  dsimp only
  rw [messageOf_of_live hd, if_neg (Nat.not_le_of_lt (by exact hw)), if_neg h64]

/-- Short of the declared length nothing is sealed (R89). -/
theorem autoSeal_short (hd : s.desc k.desc = .live m) (hn : ∀ n, m.declared = some n → m.written < n) :
    autoSeal s p c k = s := by
  rw [autoSeal, messageOf_of_live hd]
  dsimp only
  split
  · rfl
  · rename_i n hm
    exact if_neg (Nat.not_le_of_lt (hn n hm))

/-- Settles O27: the word stored, with nothing to seal and nothing to complete. -/
theorem dataWriteStoresTheNextWord : Obligations.DataWriteStoresTheNextWord := by
  intro p c word data k m cell pos s hs w hf hd hk hw h64 hp hn
  have stored := storedWord_wordStored w p c k m cell pos data
  have step : exec (.composeApertureWrite p c word data) s =
      .next ((s.wordStored p c k m cell pos data).answer p .okayWrite) := by
    rw [exec_composeApertureWrite hs, dataWrite_inside _ _ hf hd hw h64, storeWord_wordStored hd hk hp]
    obtain ⟨-, -, live, -⟩ := id stored
    rw [autoSeal_short (k := ⟨k.desc, some cell, 0, false⟩) live hn, completeRequest_of_integrity]
    obtain ⟨_, _, _, _, _, e⟩ := s.wordStored_frame p c k m cell pos data
    rw [e]
    rfl
  refine ⟨_, step, ?_, stored⟩
  obtain ⟨_, _, _, _, _, e⟩ := s.wordStored_frame p c k m cell pos data
  rw [e]
  rfl

/-! ### The auto-seal (R81 step 5, R89, R90) -/

theorem autoSeal_reaches (hd : u.desc k.desc = .live x) (hn : x.declared = some n) (hl : n ≤ x.written) :
    autoSeal u p c k = (u.sealSlot p c k x n).state.sendEvent p (autoSealEntry c (u.sealSlot p c k x n)) := by
  rw [autoSeal, messageOf_of_live hd, hn]
  exact if_pos hl

/-- R90: the seal is refused, the slot HELD and SEAL_HELD sent. -/
theorem autoSeal_refused {code : ResultCode} {failing : Option Nat} (hd : u.desc k.desc = .live x)
    (hn : x.declared = some n) (hl : n ≤ x.written) (h : u.SealRefused p x u1 code failing) :
    autoSeal u p c k = (u1.setComposeSlot p c { u.composeSlot p c with
      phase := .held { k with timer := 0, due := false } n }).sendEvent p
        ⟨.sealHeld, some c.val, some x.tag, code.value⟩ := by
  rw [autoSeal_reaches hd hn hl, sealSlot_refused hd h]
  rfl

/-- The rest of a data write that reaches the declared length, from the state `u` with the word stored, in the words of the
statement: `s` is the state before the write, where the slot composes `m` (R89, R90). -/
def AutoSeals (s u : State) (p : Port) (c : ComposeNo) (k1 : Composing) (m : Message) (n : Nat)
    (result : Host.Outcome State Fault Refusal) : Prop :=
  ∀ x, u.desc k1.desc = .live x →
    let room := s.sealRoom p m
    let held := fun (u1 : State) (code : Nat) => Host.Outcome.next
      ((((u1.setComposeSlot p c { u.composeSlot p c with phase := .held k1 n }).sendEvent p
        ⟨.sealHeld, some c.val, some m.tag, code⟩).answered p .okayWrite).completeRequest s.requests)
    ((∃ y ∈ m.dests, s.sealStops p y = true) → result = held u 7) ∧
    ((∀ y ∈ m.dests, s.sealStops p y = false) →
      (s.pool.freeNodes < room.length → result = held u 9) ∧
      (room.length ≤ s.pool.freeNodes →
        (∀ u1, u.allocateNodes p room.length = (u1, none) → result = held u1 9) ∧
        ∀ u1 xs, u.allocateNodes p room.length = (u1, some xs) →
          ∃ t, result = .next t ∧ Sealed u u1 t p c k1 x n xs ∧ t.fronts = (s.answered p .okayWrite).fronts ∧
            EventsSent u t (fun q => sealEntries u t p x q ++
              if q = p then [⟨.sealDone, some c.val, some m.tag, m.linkedWith room⟩] else []) ∧
            t.integrity = u1.integrity.complete s.requests ∧ SameControl s t))

/-- What a seal reads of the state and of the message, which storing a word does not change. -/
structure SealsAlike (s u : State) (m x : Message) : Prop where
  queues : u.queues = s.queues
  freeNodes : u.pool.freeNodes = s.pool.freeNodes
  dests : x.dests = m.dests
  holders : x.holders = m.holders
  tag : x.tag = m.tag

/-- A destination is examined in the same way. -/
theorem admits_of_queues (h : u.queues = s.queues) (q : QueueNo) : u.admits p q = s.admits p q := by
  rw [admits, admits, queue_of_queues h]

theorem limitReached_of_queues (h : u.queues = s.queues) (q : QueueNo) : u.limitReached q = s.limitReached q := by
  rw [limitReached, limitReached, queue_of_queues h]

theorem SealsAlike.stops (h : SealsAlike s u m x) (y : Destination) : u.sealStops p y = s.sealStops p y := by
  rw [sealStops, sealStops, admits_of_queues h.queues, limitReached_of_queues h.queues, refusesFull, refusesFull,
    queue_of_queues h.queues]

theorem SealsAlike.room (h : SealsAlike s u m x) : u.sealRoom p x = s.sealRoom p m := by
  rw [sealRoom, sealRoom, h.dests]
  congr 1
  funext q
  rw [admits_of_queues h.queues, limitReached_of_queues h.queues]

/-- The first position on which a seal is refused, where there is one. -/
theorem exists_first_stop (h : ∃ y ∈ m.dests, s.sealStops p y = true) : ∃ (pos : Nat) (y : Destination),
    m.dests[pos]? = some y ∧ s.sealStops p y = true ∧
      ∀ i, i < pos → ∀ e, m.dests[i]? = some e → s.sealStops p e = false := by
  classical
  obtain ⟨y, hy, stops⟩ := h
  obtain ⟨i, hi⟩ := List.getElem?_of_mem hy
  have some_pos : ∃ pos : Nat, ∃ y, m.dests[pos]? = some y ∧ s.sealStops p y = true := ⟨i, y, hi, stops⟩
  obtain ⟨y, hy, stops⟩ := Nat.find_spec some_pos
  exact ⟨Nat.find some_pos, y, hy, stops, fun i hi e he =>
    Bool.eq_false_iff.mpr fun stops => Nat.find_min some_pos hi ⟨e, he, stops⟩⟩

/-- One entry sent to port p (R116). -/
theorem eventsSent_sendEvent (s : State) (p : Port) (x : EventEntry) :
    EventsSent s (s.sendEvent p x) fun q => if q = p then [x] else [] := fun q => by
  dsimp only
  split_ifs with h
  · rw [h]
    exact event_setEvent_self _ _ _
  · exact event_setEvent_ne _ h _

theorem sameControl_trans (h : SameControl s u) (k : SameControl u t) : SameControl s t := by
  obtain ⟨h1, h2, h3, h4, h5, h6, h7, h8⟩ := h
  obtain ⟨k1, k2, k3, k4, k5, k6, k7, k8⟩ := k
  exact ⟨k1.trans h1, k2.trans h2, k3.trans h3, k4.trans h4, k5.trans h5, k6.trans h6, k7.trans h7, k8.trans h8⟩

/-- R89, R90: the auto-seal from the state with the word stored, refused or made, with the answer and the completion. -/
theorem autoSeals_autoSeal {d : DescNo} (cell : CellNo) (w : u.memoriesWf = true) (hx : u.desc d = .live x)
    (alike : SealsAlike s u m x) (hd : x.declared = some n) (hl : n ≤ x.written) (hn : (m.dests.map (·.queue)).Nodup)
    (hh : 1 ≤ m.holders) (hf : u.fronts = s.fronts) (hc : SameControl s u) :
    AutoSeals s u p c ⟨d, some cell, 0, false⟩ m n
      (.next (((autoSeal u p c ⟨d, some cell, 0, false⟩).answer p .okayWrite).completeRequest s.requests)) := by
  intro y hy
  cases hx.symm.trans hy
  intro room held
  have refused : ∀ {u1 code failing v}, u.SealRefused p x u1 code failing → code.value = v →
      Host.Outcome.next (((autoSeal u p c ⟨d, some cell, 0, false⟩).answer p .okayWrite).completeRequest s.requests) =
        held u1 v := fun h hv => by
    rw [autoSeal_refused hx hd hl h, alike.tag, hv]
    rfl
  have dests := alike.dests
  have same : u.sealRoom p x = room := alike.room
  refine ⟨fun stop => ?_, fun admits => ?_⟩
  · obtain ⟨pos, y, hpos, stops, first⟩ := exists_first_stop stop
    refine refused (.full (pos := pos) (x := y) ?_ ?_ fun i hi e he => ?_) rfl
    · rw [dests, hpos]
    · rw [alike.stops, stops]
    · rw [alike.stops]
      exact first i hi e (by rw [← dests, he])
  · have admits : ∀ y ∈ x.dests, u.sealStops p y = false := fun y hy => by
      rw [alike.stops]
      exact admits y (by rwa [← dests])
    rw [← same, ← alike.freeNodes]
    refine ⟨fun short => refused (.few admits short) rfl, fun enough =>
      ⟨fun u1 ha => refused (.truncated admits enough ha) rfl, fun u1 xs ha => ?_⟩⟩
    obtain ⟨done, entries, passed, linked, -, -, tag, -, integrity, fronts, control⟩ :=
      sealSlot_sealed (c := c) (k := ⟨d, some cell, 0, false⟩) (n := n) w hx (by rwa [dests]) (by rwa [alike.holders])
        admits enough ha
    have entry : autoSealEntry c (u.sealSlot p c ⟨d, some cell, 0, false⟩ x n) =
        ⟨.sealDone, some c.val, some m.tag, m.linkedWith (u.sealRoom p x)⟩ := by
      have count : x.linkedWith (u.sealRoom p x) = m.linkedWith (u.sealRoom p x) := by
        rw [Message.linkedWith, Message.linkedWith, dests]
      rw [autoSealEntry, passed, tag, alike.tag, linked, count]
    rw [autoSeal_reaches hx hd hl, entry]
    generalize (u.sealSlot p c ⟨d, some cell, 0, false⟩ x n).state = t at *
    refine ⟨_, rfl, done, ?_, eventsSent_trans entries (eventsSent_sendEvent _ _ _),
      congrArg (·.complete s.requests) integrity, sameControl_trans hc control⟩
    show t.fronts.set p { t.fronts.get p with answer := some .okayWrite } = _
    rw [fronts, hf]
    rfl

/-! ### The granted write (R25, R81) -/

/-- The grant step and the word stored, from what each of them leaves: the reports are those of the grant (R27). -/
theorem grantedWord_wordStored (w : s.memoriesWf = true) (p : Port) (c : ComposeNo) (k : Composing) (h : CellNo)
    (hd : s.desc k.desc = .live m) (data : Word) :
    let u := (grantStep s p c k h).wordStored p c k (m.addCell h) h 0 data
    GrantedWord s u p c k m h data ∧ Reports s u (s.grantReports p h) ∧ u.fronts = s.fronts := by
  have wf : (grantStep s p c k h).memoriesWf = true := (Quiet.refl.grantStep p c k h).memoriesWf w
  have taken := (grantStep_writePayload_taken w p c k h data).congr_right
    (u := (grantStep s p c k h).wordStored p c k (m.addCell h) h 0 data) ⟨rfl, rfl⟩
  obtain ⟨word, words, desc, descs, slot, slots, -⟩ := storedWord_wordStored wf p c k (m.addCell h) h 0 data
  obtain ⟨_, _, _, _, _, hu⟩ := (grantStep s p c k h).wordStored_frame p c k (m.addCell h) h 0 data
  have chain := (chainedOf_spec w p k h).2
  rw [messageOf_of_live hd] at chain
  obtain ⟨reads, truncates, lowWater, fifo, nodes⟩ := pool_grantCell w p k.desc h
  have entries := s.event_grantCell p k.desc h
  obtain ⟨-, -, otherDescs⟩ := grantCell_desc w p k.desc h
  obtain ⟨reports, noFault, fault⟩ := faults_grantCell w p k.desc h
  obtain ⟨l, hg⟩ := grantStep_frame w p c k h
  have bits : injected (grantStep s p c k h) .payload = injected s .payload := by
    rw [hg]
    exact (s.grantCell_taken p k.desc h).injected_of_kept (if_neg (by decide))
  have chained : ∀ e, (grantStep s p c k h).cellLinkWord e = (s.chainedOf p k h).cellLinkWord e := fun _ => rfl
  rw [bits] at word
  simp only [← chained] at chain
  obtain ⟨_, _, _, _, _, _, hv⟩ := s.grantCell_frame p k.desc h
  dsimp only
  generalize (grantStep s p c k h).wordStored p c k (m.addCell h) h 0 data = t at *
  generalize grantStep s p c k h = g at *
  generalize s.grantCell p k.desc h = v at *
  subst hu hg
  have shares : v.shares = s.shares.set p { s.share p with charged := (s.share p).charged + 1, starving := false } :=
    congrArg (·.shares) hv
  have frame : ∀ x i, v.payloadWord x i = s.payloadWord x i := fun x i => by
    rw [hv]
    rfl
  have otherSlots : SameOtherCompose s v p c := fun q e _ => composeSlot_of_compose (congrArg (·.compose) hv) q e
  have slotsKept : SameOtherCompose s (State.setComposeSlot { v with cellLinks := l } p c _) p c :=
    otherCompose_setComposeSlot otherSlots
      { s.composeSlot p c with phase := .filling { k with cell := some h }, starved := false }
  refine ⟨⟨word, fun x i hx => (words x i hx).trans (frame x i), desc, fun e he => (descs e he).trans (otherDescs e he),
    ?_, fun q e he => (slots q e he).trans (slotsKept q e he), fun l hl => (chain l).trans (if_pos hl),
    fun hl => ((chain h).trans (if_neg hl)).trans (if_pos rfl),
    fun x hx hl => ((chain x).trans (if_neg hl)).trans (if_neg hx), ?_, fun q hq => ?_, fun x hx => ?_, taken,
    fun hx => ?_, lowWater, entries, fifo, nodes, ⟨congrArg (·.nodeContents) hv, congrArg (·.nodeLinks) hv⟩,
    congrArg (·.queues) hv, congrArg (·.receive) hv, congrArg (·.resetAsserted) hv, congrArg (·.ma) hv,
    congrArg (·.exchange) hv, congrArg (·.ports) hv, congrArg (·.timeouts) hv, congrArg (·.mint) hv,
    congrArg (·.mgmt) hv, congrArg (·.pending) hv⟩, reports.congr rfl, congrArg (·.fronts) hv⟩
  · rw [slot, composeSlot_setComposeSlot_self]
  · exact (congrArg (·.get p) shares).trans (Quad.get_set_self _ _ _)
  · exact (congrArg (·.get q) shares).trans (Quad.get_set_ne _ hq _)
  · obtain ⟨h1, h2, h3, h4⟩ := reads x hx
    exact ⟨h1, h2, h3, h4, noFault x hx⟩
  · obtain ⟨h1, h2, h3, h4⟩ := truncates hx
    exact ⟨h1, h2, h3, h4, (fault hx).congr ⟨rfl, rfl, rfl⟩ ⟨rfl, rfl, rfl⟩⟩

/-- A write at the start of a cell stores its word in the granted cell. -/
theorem grantedWrite_wordStored (w : s.memoriesWf = true) {h : CellNo} (hd : s.desc k.desc = .live m)
    (h64 : m.written % 64 = 0) (data : Word) : grantedWrite s p c k h data =
      ((autoSeal ((grantStep s p c k h).wordStored p c k (m.addCell h) h 0 data) p c
        ⟨k.desc, some h, 0, false⟩).answer p .okayWrite).completeRequest s.requests := by
  obtain ⟨l, e⟩ := grantStep_frame w p c k h
  have live : (grantStep s p c k h).desc k.desc = .live (m.addCell h) := by
    rw [e]
    exact (grantCell_desc w p k.desc h).1 m hd
  have start : (0 : Fin 16).val = (m.addCell h).written % 64 / 4 := by
    show 0 = m.written % 64 / 4
    rw [h64]
  rw [grantedWrite, storeWord_wordStored (k := { k with cell := some h }) live rfl start]
  rfl

/-- What the seal reads of a state with the word stored inside a cell. -/
theorem sealsAlike_of_storedWord (h : StoredWord s u p c k m cell pos data) :
    u.desc k.desc = .live { m with written := m.written + 4 } ∧
      SealsAlike s u m { m with written := m.written + 4 } ∧ SameControl s u := by
  obtain ⟨-, -, live, -, -, -, -, -, -, -, queues, pool, -, -, -, -, control⟩ := h
  exact ⟨live, ⟨queues, congrArg (·.freeNodes) pool, rfl, rfl, rfl⟩, control⟩

/-- What it reads of a state with the word stored in the cell `cell` granted for it. -/
theorem sealsAlike_of_grantedWord (h : GrantedWord s u p c k m cell data) :
    u.desc k.desc = .live { m.addCell cell with written := m.written + 4 } ∧
      SealsAlike s u m { m.addCell cell with written := m.written + 4 } ∧ SameControl s u := by
  obtain ⟨-, -, live, -, -, -, -, -, -, -, -, -, -, -, -, -, -, nodes, -, queues, -, control⟩ := h
  obtain ⟨-, -, freeNodes, -⟩ := nodes
  exact ⟨live, ⟨queues, freeNodes, rfl, rfl, rfl⟩, control⟩

/-- Settles O30: a word inside a cell, and one that opens a cell; the auto-seal after either. -/
theorem reachingTheDeclaredLengthSeals : Obligations.ReachingTheDeclaredLengthSeals := by
  intro p c word data k m n cell s hs w hf hd hw hn hl nodup holders sealing
  have step := exec_composeApertureWrite hs c word data
  refine ⟨fun h64 hk pos hp => ?_, fun h64 hh hq => ?_⟩
  · have stored := storedWord_wordStored w p c k m cell pos data
    have wf := memoriesWf_wordStored w p c k m cell pos data
    have fronts : (s.wordStored p c k m cell pos data).fronts = s.fronts := by
      obtain ⟨_, _, _, _, _, e⟩ := s.wordStored_frame p c k m cell pos data
      rw [e]
    obtain ⟨live, alike, control⟩ := sealsAlike_of_storedWord stored
    have seals := autoSeals_autoSeal (p := p) (c := c) cell wf live alike hn hl nodup holders fronts control
    rw [dataWrite_inside _ _ hf hd hw h64, storeWord_wordStored hd hk hp] at step
    rw [← step] at seals
    exact ⟨_, stored, fronts, seals⟩
  · obtain ⟨granted, reports, fronts⟩ := grantedWord_wordStored w p c k cell hd data
    have wf := memoriesWf_wordStored ((Quiet.refl.grantStep p c k cell).memoriesWf w) p c k (m.addCell cell) cell 0 data
    obtain ⟨live, alike, control⟩ := sealsAlike_of_grantedWord granted
    have seals := autoSeals_autoSeal (p := p) (c := c) cell wf live alike hn hl nodup holders fronts control
    rw [dataWrite_granted _ data hf hd hw h64 hh hq, grantedWrite_wordStored w hd h64] at step
    rw [← step] at seals
    exact ⟨_, granted, reports.made, fronts, seals⟩

end Sys2Proof.Machine.State
end

section
/-!
SUPPORT. The compose timers (R92 to R94): a unit boundary at every slot, and the expiry that abandons its slot; O48.
-/
namespace Sys2Proof.Machine.State
variable {s : State} {p : Port} {c : ComposeNo} {k : Composing} {m : Message}

/-! ### The unit boundary (R92) -/

theorem get_tickedSlots (s : State) (p : Port) (c : ComposeNo) :
    ((Quad.mk (s.tickedSlots 0) (s.tickedSlots 1) (s.tickedSlots 2) (s.tickedSlots 3)).get p).get c =
      ((s.compose.get p).get c).tick (s.timeouts.get p) (s.counting p) := by
  have port : (Quad.mk (s.tickedSlots 0) (s.tickedSlots 1) (s.tickedSlots 2) (s.tickedSlots 3)).get p =
      s.tickedSlots p := by
    fin_cases p <;> rfl
  rw [port, tickedSlots, Quad.get_map]

/-- The compose timers of a port count while the exchange is RUNNING and the port ACTIVE (R92). -/
theorem counting_iff (s : State) (p : Port) : s.counting p = true ↔ s.exchange = .running ∧ s.port p = .active := by
  rw [counting, Bool.and_eq_true, decide_eq_true_iff, decide_eq_true_iff]

/-- One boundary at a timer, in the words of the statements (R92; logs 13, 14). -/
theorem tick_counting (s : State) (p : Port) (k : Composing) (t : Nat) : k.tick t (s.counting p) =
    if t = 0 then { k with timer := 0 }
    else if s.exchange = .running ∧ s.port p = .active ∧ k.due = false then
      { k with timer := k.timer + 1, due := decide (t + 1 ≤ k.timer + 1) }
    else k := by
  have counts : (s.counting p && !k.due) = true ↔ s.exchange = .running ∧ s.port p = .active ∧ k.due = false := by
    rw [Bool.and_eq_true, counting_iff, Bool.not_eq_true', and_assoc]
  exact if_congr Iff.rfl rfl (if_congr counts rfl rfl)

/-! ### The expiry (R93) -/

theorem exec_timerExpiry_notDue (h : ∀ k, ((s.composeSlot p c).phase = .filling k ∨
    ∃ n, (s.composeSlot p c).phase = .held k n) → k.due = false) : exec (.timerExpiry p c) s = .next s := by
  show execTimerExpiry p c s = _
  rw [execTimerExpiry]
  split_ifs
  · cases e : (s.composeSlot p c).phase with
    | idle => rfl
    | filling k => exact if_neg (by rw [h k (.inl e)]; decide)
    | held k n => exact if_neg (by rw [h k (.inr ⟨n, e⟩)]; decide)
  · rfl

/-- While a BEGIN of the port stands between its link requests, no timer of it expires (log 29). -/
theorem exec_timerExpiry_opening {o : Opening} (h : (s.front p).opening = some o) :
    exec (.timerExpiry p c) s = .next s := by
  refine if_neg ?_
  rw [h, Option.isNone_some, Bool.and_false]
  decide

/-- The timer of a slot that composes `k` expires. -/
theorem exec_timerExpiry_due (hs : s.Serves p) (hc : s.Composes p c k m) (hd : k.due = true) :
    exec (.timerExpiry p c) s = .next ((s.abandonSlot p c k).sendEvent p ⟨.slotExpired, some c.val, some m.tag,
      (if (s.composeSlot p c).phase = .filling k then 0 else 1) +
        (if (s.composeSlot p c).starved = true then 2 else 0)⟩) := by
  obtain ⟨running, active, opening⟩ := hs
  obtain ⟨live, phase⟩ := hc
  have taken : (s.counting p && (s.front p).opening.isNone) = true := by
    rw [(s.counting_iff p).mpr ⟨running, active⟩, opening]
    rfl
  have starved : 2 * boolBit (s.composeSlot p c).starved = if (s.composeSlot p c).starved = true then 2 else 0 := by
    cases (s.composeSlot p c).starved <;> rfl
  show execTimerExpiry p c s = _
  rw [execTimerExpiry, if_pos taken, ← starved]
  rcases phase with phase | ⟨n, phase⟩
  · rw [phase, if_pos rfl]
    dsimp only
    rw [if_pos hd, expireSlot, messageOf_of_live live]
    rfl
  · rw [phase, if_neg nofun]
    dsimp only
    rw [if_pos hd, expireSlot, messageOf_of_live live]
    rfl

/-- Settles O48: the boundary at every slot, an expiry that is not due or not taken, and one that abandons its slot. -/
theorem timersAdvanceAndExpire : Obligations.TimersAdvanceAndExpire := by
  refine fun s => ⟨⟨_, rfl, fun p c => ?_⟩, fun p c => ⟨exec_timerExpiry_notDue, fun o => exec_timerExpiry_opening,
    fun k m hc hd hs w hh => ?_⟩⟩
  · intro old new t count
    have ticked : new = old.tick t (s.counting p) := get_tickedSlots s p c
    have counted : ∀ k, k.tick t (s.counting p) = count k := fun k => tick_counting s p k t
    rw [ticked]
    refine ⟨fun h => ?_, fun k h => ?_, fun k n h => ?_⟩
    · rw [ComposeSlot.tick, h]
    · rw [ComposeSlot.tick, h, ← counted]
    · rw [ComposeSlot.tick, h, ← counted]
  · have step := exec_timerExpiry_due hs hc hd
    obtain ⟨live, -⟩ := hc
    have A := abandonSlot_abandoned (p := p) (c := c) live w hh
    have fronts : (s.abandonSlot p c k).fronts = s.fronts := by
      obtain ⟨_, _, _, _, _, _, _, _, e⟩ := s.abandonSlot_footprint p c k
      rw [e]
    generalize s.abandonSlot p c k = u at *
    have F := A.frame
    refine ⟨_, step, A.slot, A.otherSlots, fun hn => ?_, A.freed, A.injection, A.descriptors,
      eventsSent_trans A.events (eventsSent_sendEvent _ _ _), fronts, congrArg (·.queues) F, congrArg (·.receive) F,
      congrArg (·.integrity) F, ⟨congrArg (·.nodeContents) F, congrArg (·.nodeLinks) F⟩, congrArg (·.payload) F,
      congrArg (·.resetAsserted) F, congrArg (·.ma) F, congrArg (·.exchange) F, congrArg (·.ports) F,
      congrArg (·.timeouts) F, congrArg (·.mint) F, congrArg (·.mgmt) F, congrArg (·.pending) F⟩
    obtain ⟨kept, pool, shares, -, cells, injection⟩ := A.kept hn
    exact ⟨kept, pool, shares, cells, injection⟩

end Sys2Proof.Machine.State
end

section
/-!
SUPPORT. The receive slots (R98 to R111): REWIND, and a receive aperture read by the case of R102 that applies: no message, a mark, the end, the
word delivered, and the damage found; O34, O36, O37 and O38.
-/
namespace Sys2Proof.Machine.State
variable {s u t : State} {p : Port} {r : ReceiveNo} {h : Holding} {m : Message} {c c0 : CellNo} {pos : Fin 16} {v : Word}
  {f : CommandFields} {o : Nat}

/-! ### REWIND (R111) -/

theorem rewindMessage_noSlot (hf : 1 < f.slot.toNat) : rewindMessage p f s = { state := s, code := .refusedParam } := by
  have noSlot : receiveNo f = none := dif_neg (by omega)
  rw [rewindMessage, noSlot]

theorem rewindMessage_idle (hf : f.slot.toNat = r.val) (hi : (s.receiveSlot p r).phase = .idle) :
    rewindMessage p f s = { state := s, code := .refusedState } := by
  simp only [rewindMessage, receiveNo_eq hf, hi]

theorem rewindMessage_holding (hf : f.slot.toNat = r.val) (hr : s.Receives p r h m) : rewindMessage p f s =
    { state := s.setReceiveSlot p r
        { s.receiveSlot p r with phase := .holding { h with offset := 0, cell := m.first }, overread := false }
      code := .ok, result1 := fetchResult h.desc m } := by
  obtain ⟨live, phase⟩ := hr
  simp only [rewindMessage, receiveNo_eq hf, phase, messageOf_of_live live]

/-- Settles O34: the slot number, an IDLE slot, and a slot that holds a message. -/
theorem rewindStartsAgain : Obligations.RewindStartsAgain := fun _ _ _ ready =>
  ⟨fun hf => exec_of_takeCommand rfl ready (rewindMessage_noSlot hf), fun _ hf =>
    ⟨fun hi => exec_of_takeCommand rfl ready (rewindMessage_idle hf hi),
      fun _ _ hr => exec_of_takeCommand rfl ready (rewindMessage_holding hf hr)⟩⟩

/-! ### The cases of a read (R102) -/

theorem exec_receiveApertureRead (hs : s.Serves p) (r : ReceiveNo) (word : BitVec 8) :
    exec (.receiveApertureRead p r word) s = .next (dataRead p r (receiveAddress r word) s) :=
  congrArg Host.Outcome.next (acting_serves hs _ _)

theorem poisonedAt_of_le {x : Nat} (hm : m.poison = some x) (hx : x ≤ o) : m.poisonedAt o = true := by
  rw [Message.poisonedAt, hm]
  exact decide_eq_true hx

theorem poisonedAt_of_lt (hx : ∀ x, m.poison = some x → o < x) : m.poisonedAt o = false := by
  rw [Message.poisonedAt]
  split
  · rename_i x e
    exact decide_eq_false (Nat.not_le_of_lt (hx x e))
  · rfl

theorem readable_of_sealed {n : Nat} (hm : m.state = .isSealed) (hn : m.final = some n) : m.readable = n := by
  rw [Message.readable, hm, hn]
  rfl

theorem readable_of_unsealed (hm : m.state ≠ .isSealed) : m.readable = m.written := by
  rw [Message.readable]
  split
  · rename_i e
    exact absurd e hm
  · rfl
  · rfl

theorem lt_readable (hw : m.state ≠ .isSealed → o < m.written)
    (hn : m.state = .isSealed → ∃ n, m.final = some n ∧ o < n) : o < m.readable := by
  by_cases hm : m.state = .isSealed
  · obtain ⟨n, final, lt⟩ := hn hm
    rwa [readable_of_sealed hm final]
  · rw [readable_of_unsealed hm]
    exact hw hm

theorem dataRead_idle (a : BitVec 16) (hi : (s.receiveSlot p r).phase = .idle) :
    dataRead p r a s = s.refusedAccess p a .notHolding := by
  rw [dataRead, hi]
  rfl

theorem dataRead_poisoned (a : BitVec 16) (hr : s.Receives p r h m) (hm : m.poisonedAt h.offset = true) :
    dataRead p r a s = poisonedRead s p r a m := by
  obtain ⟨live, phase⟩ := hr
  rw [dataRead, phase]
  dsimp only
  rw [messageOf_of_live live, if_pos hm]

theorem dataRead_atEnd (a : BitVec 16) (hr : s.Receives p r h m) (hm : m.poisonedAt h.offset = false)
    (ho : m.readable ≤ h.offset) : dataRead p r a s = readAtEnd s p r a m := by
  obtain ⟨live, phase⟩ := hr
  rw [dataRead, phase]
  dsimp only
  rw [messageOf_of_live live, hm, if_neg nofun, if_pos ho]

theorem dataRead_delivers (a : BitVec 16) (hr : s.Receives p r h m) (hm : m.poisonedAt h.offset = false)
    (ho : h.offset < m.readable) : dataRead p r a s = (deliver s p r a h m).completeRequest s.requests := by
  obtain ⟨live, phase⟩ := hr
  rw [dataRead, phase]
  dsimp only
  rw [messageOf_of_live live, hm, if_neg nofun, if_neg (Nat.not_le_of_lt ho)]

/-! ### Reads that reach no memory (R98, R105, R106, R109) -/

theorem poisonedRead_eq (s : State) (p : Port) (r : ReceiveNo) (a : BitVec 16) (m : Message) :
    (m.linkBroken = false → poisonedRead s p r a m =
      (s.setReceiveSlot p r { s.receiveSlot p r with poisonHit := true }).refusedAccess p a .poisoned) ∧
    (m.linkBroken = true → poisonedRead s p r a m =
      (s.setReceiveSlot p r { s.receiveSlot p r with linkHit := true }).refusedAccess p a .link) :=
  ⟨fun e => if_neg (by rw [e]; decide), fun e => if_pos e⟩

theorem readAtEnd_sealed (a : BitVec 16) (hm : m.state = .isSealed) : readAtEnd s p r a m =
    (s.setReceiveSlot p r { s.receiveSlot p r with overread := true }).answered p (.okayRead 0) := by
  rw [readAtEnd, hm]
  rfl

theorem readAtEnd_filling (a : BitVec 16) (hm : m.state = .filling) :
    readAtEnd s p r a m = s.answered p .retry := by
  rw [readAtEnd, hm]
  rfl

theorem readAtEnd_abandoned (a : BitVec 16) (hm : m.state = .abandoned) : readAtEnd s p r a m =
    (s.setReceiveSlot p r { s.receiveSlot p r with abandonSeen := true }).refusedAccess p a .abandoned := by
  rw [readAtEnd, hm]
  rfl

/-- Settles O37: the write, the IDLE slot, the mark, and the end by the state of the message. -/
theorem readsThatReachNoMemory : Obligations.ReadsThatReachNoMemory := by
  intro p r word data s hs
  have read := exec_receiveApertureRead hs r word
  refine ⟨congrArg Host.Outcome.next (acting_serves hs _ _), fun hi => ?_, fun h m hr => ⟨fun x hm hx => ?_, fun hx => ?_⟩⟩
  · rw [read, dataRead_idle _ hi]
    rfl
  · rw [read, dataRead_poisoned _ hr (poisonedAt_of_le hm hx)]
    obtain ⟨poisoned, broken⟩ := poisonedRead_eq s p r (receiveAddress r word) m
    exact ⟨fun e => congrArg _ (poisoned e), fun e => congrArg _ (broken e)⟩
  · have ended := fun ho => read.trans (congrArg _ (dataRead_atEnd _ hr (poisonedAt_of_lt hx) ho))
    refine ⟨fun n hm hn ho => ?_, fun hm ho => ?_, fun hm ho => ?_⟩
    · rw [ended ((readable_of_sealed hm hn).trans_le ho), readAtEnd_sealed _ hm]
    · rw [ended ((readable_of_unsealed (by rw [hm]; decide)).trans_le ho), readAtEnd_filling _ hm]
    · rw [ended ((readable_of_unsealed (by rw [hm]; decide)).trans_le ho), readAtEnd_abandoned _ hm]
      rfl

/-! ### The two reads of a delivery (R7, R11, R103) -/

/-- A read of a cell link word writes that memory and the tracking alone. -/
theorem readCellLink_frame (s : State) (c : CellNo) : ∃ l k, (s.readCellLink c).1 =
    { s with cellLinks := l, integrity := { s.integrity with tracking := k } } := by
  rw [readCellLink]
  split
  · exact ⟨_, _, rfl⟩
  · exact ⟨_, _, rfl⟩
  · exact ⟨_, _, rfl⟩

/-- The same for a payload word. -/
theorem readPayload_frame (s : State) (c : CellNo) (w : Fin 16) : ∃ l k, (s.readPayload c w).1 =
    { s with payload := l, integrity := { s.integrity with tracking := k } } := by
  rw [readPayload]
  split
  · exact ⟨_, _, rfl⟩
  · exact ⟨_, _, rfl⟩
  · exact ⟨_, _, rfl⟩

theorem readCellLink_value {x : CellLink}
    (hx : (s.cellLinkWord c).check = .clean x ∨ (s.cellLinkWord c).check = .corrected x) :
    (s.readCellLink c).2 = some x := by
  rcases hx with hx | hx
  · rw [readCellLink_of_clean hx]
  · rw [readCellLink_of_corrected hx]

theorem readPayload_value (hv : (s.payloadWord c pos).check = .clean v ∨ (s.payloadWord c pos).check = .corrected v) :
    (s.readPayload c pos).2 = some v := by
  rcases hv with hv | hv
  · rw [readPayload_of_clean hv]
  · rw [readPayload_of_corrected hv]

/-- The state after the chain advance, where a delivery at the offset of `h` from cell `c0` makes one (R103 step 1). -/
def advanced (s : State) (h : Holding) (c0 : CellNo) : State :=
  if h.offset ≠ 0 ∧ h.offset % 64 = 0 then (s.readCellLink c0).1 else s

/-- The chain advance, where one is made, finds its link word readable, and `c` is the cell that holds the offset of `h`. -/
def AdvancesTo (s : State) (h : Holding) (c0 c : CellNo) : Prop :=
  if h.offset ≠ 0 ∧ h.offset % 64 = 0 then
    (s.cellLinkWord c0).check = .clean (some c) ∨ (s.cellLinkWord c0).check = .corrected (some c)
  else c = c0

theorem advanced_frame (s : State) (h : Holding) (c0 : CellNo) : ∃ l k, s.advanced h c0 =
    { s with cellLinks := l, integrity := { s.integrity with tracking := k } } := by
  rw [advanced]
  split_ifs
  · exact s.readCellLink_frame c0
  · exact ⟨_, _, rfl⟩

theorem payloadWord_advanced (s : State) (h : Holding) (c0 c : CellNo) (pos : Fin 16) :
    (s.advanced h c0).payloadWord c pos = s.payloadWord c pos := by
  obtain ⟨l, k, e⟩ := s.advanced_frame h c0
  rw [e]
  rfl

/-- The current cell, or the first one of the message where it is absent. -/
theorem currentCell_eq (hc : h.cell = some c0 ∨ (h.cell = none ∧ m.first = some c0)) : currentCell s h m = (s, c0) := by
  rcases hc with hc | ⟨hc, hf⟩
  · rw [currentCell, hc]
  · rw [currentCell, hc, hf]

theorem findCell_found (hc : s.AdvancesTo h c0 c) : findCell s h c0 = (s.advanced h c0, some c) := by
  unfold AdvancesTo at hc
  unfold findCell advanced
  split_ifs at hc ⊢
  · have read : s.readCellLink c0 = ((s.readCellLink c0).1, some (some c)) := Prod.ext rfl (readCellLink_value hc)
    rw [read]
  · rw [hc]

theorem findCell_broken (h0 : h.offset ≠ 0) (h64 : h.offset % 64 = 0)
    (hl : (s.cellLinkWord c0).check = .uncorrectable) : findCell s h c0 = (s, none) := by
  rw [findCell, if_pos ⟨h0, h64⟩, readCellLink_of_uncorrectable hl]

theorem ofNat_position {n : Nat} (hp : pos.val = n) : Fin.ofNat 16 n = pos := by
  rw [← hp, Fin.ofNat_val_eq_self]

/-! ### The word delivered (R103, R104) -/

theorem fillWord_unsealed (hm : m.state ≠ .isSealed) (o : Nat) (v : Word) : fillWord m o v = v := by
  rw [fillWord]
  split
  · rename_i e
    exact absurd e hm
  · rfl
  · rfl

/-- The bytes at and beyond the final length are 0, the others those of the word (R104). -/
theorem getLsbD_fillWord {n : Nat} (hm : m.state = .isSealed) (hn : m.final = some n) (o : Nat) (v : Word) (i : Nat) :
    (fillWord m o v).getLsbD i = (decide (o + i / 8 < n) && v.getLsbD i) := by
  rw [fillWord, hm]
  dsimp only
  rw [readable_of_sealed hm hn, BitVec.getLsbD_ofNat, Nat.testBit_mod_two_pow]
  by_cases hi : i < 32
  · have delivered : i < 8 * min 4 (n - o) ↔ o + i / 8 < n := by omega
    rw [decide_eq_true hi, Bool.true_and, decide_eq_decide.mpr delivered]
    rfl
  · rw [decide_eq_false hi, Bool.false_and, BitVec.getLsbD_of_ge v i (Nat.le_of_not_lt hi), Bool.and_false]

/-- The state after the reads of a delivery that found its word, the slot's offset and cell advanced. -/
def deliveredWord (s : State) (p : Port) (r : ReceiveNo) (h : Holding) (c0 c : CellNo) (pos : Fin 16) : State :=
  ((s.advanced h c0).readPayload c pos).1.setReceiveSlot p r
    { s.receiveSlot p r with phase := .holding { h with offset := h.offset + 4, cell := some c } }

theorem deliver_word (a : BitVec 16) (hc : h.cell = some c0 ∨ (h.cell = none ∧ m.first = some c0))
    (hf : s.AdvancesTo h c0 c) (hp : pos.val = h.offset % 64 / 4)
    (hv : (s.payloadWord c pos).check = .clean v ∨ (s.payloadWord c pos).check = .corrected v) :
    deliver s p r a h m = (s.deliveredWord p r h c0 c pos).answered p (.okayRead (fillWord m h.offset v)) := by
  have read : (s.advanced h c0).readPayload c pos = (((s.advanced h c0).readPayload c pos).1, some v) :=
    Prod.ext rfl (readPayload_value (by rwa [payloadWord_advanced]))
  have slot : ((s.advanced h c0).readPayload c pos).1.receiveSlot p r = s.receiveSlot p r := by
    obtain ⟨_, _, e1⟩ := s.advanced_frame h c0
    obtain ⟨_, _, e2⟩ := (s.advanced h c0).readPayload_frame c pos
    rw [e2, e1]
    rfl
  rw [deliver, currentCell_eq hc]
  dsimp only
  rw [findCell_found hf]
  dsimp only
  rw [ofNat_position hp, read]
  dsimp only
  rw [slot]
  rfl

/-- A delivery that found its word makes no report, so that its completion changes nothing. -/
theorem completeRequest_deliveredWord (s : State) (p : Port) (r : ReceiveNo) (h : Holding) (c0 c : CellNo) (pos : Fin 16)
    (a : Answer) : ((s.deliveredWord p r h c0 c pos).answered p a).completeRequest s.requests =
      (s.deliveredWord p r h c0 c pos).answered p a := by
  obtain ⟨_, _, e1⟩ := s.advanced_frame h c0
  obtain ⟨_, _, e2⟩ := (s.advanced h c0).readPayload_frame c pos
  refine completeRequest_of_integrity ?_
  rw [deliveredWord, e2, e1]
  rfl

/-- Settles O36: the case of the read, the two reads, and the bits of the word delivered. -/
theorem readDeliversTheNextWord : Obligations.ReadDeliversTheNextWord := by
  intro p r word h m c0 c pos v s hs hr hx hw hn hc hf hp hv
  refine ⟨fillWord m h.offset v, ?_, fun hm => fillWord_unsealed hm _ _,
    fun n hm hn => getLsbD_fillWord hm hn h.offset v⟩
  rw [exec_receiveApertureRead hs, dataRead_delivers _ hr (poisonedAt_of_lt hx) (lt_readable hw hn),
    deliver_word _ hc hf hp hv, completeRequest_deliveredWord]
  rfl

/-! ### Damage found by a reader (R107, R108, R110) -/

/-- The poison offset that a finding below any earlier one leaves (R20). -/
theorem poisonAt_of_lt (hx : ∀ x, m.poison = some x → o < x) : m.poisonAt o = { m with poison := some o } := by
  rw [Message.poisonAt]
  split
  · rename_i x e
    rw [Nat.min_eq_right (Nat.le_of_lt (hx x e))]
  · rfl

theorem breakAt_of_lt (hx : ∀ x, m.poison = some x → o < x) :
    m.breakAt o = { m with poison := some o, linkBroken := true } := by
  rw [Message.breakAt, poisonAt_of_lt hx]

/-- The marks of a finding of either kind: the slot `y` with its flag, the marked message `m1`, the event `k` for the source port
of `m`, and ERROR with its reason. -/
def markFinding (s : State) (p : Port) (r : ReceiveNo) (a : BitVec 16) (d : DescNo) (m m1 : Message) (y : ReceiveSlot)
    (k : Finding) (e : ErrorReason) : State :=
  (((s.setReceiveSlot p r y).setDesc d (.live m1)).sendEvent m.port (poisonedEntry m k p)).answerError p a e

/-- The marks are no part of the report, so that its request may complete before or after them (R130). -/
theorem completeRequest_markFinding (s : State) (p : Port) (r : ReceiveNo) (a : BitVec 16) (d : DescNo) (m m1 : Message)
    (y : ReceiveSlot) (k : Finding) (e : ErrorReason) (n : Nat) :
    (s.markFinding p r a d m m1 y k e).completeRequest n = (s.completeRequest n).markFinding p r a d m m1 y k e := rfl

theorem updMessage_setReceiveSlot {d : DescNo} (hd : s.desc d = .live m) (y : ReceiveSlot) (g : Message → Message) :
    (s.setReceiveSlot p r y).updMessage d g = (s.setReceiveSlot p r y).setDesc d (.live (g m)) :=
  updMessage_of_live (s := s.setReceiveSlot p r y) hd g

/-- The report of a payload word lost (R107, R130). -/
def payloadReport (p : Port) (h : Holding) (c : CellNo) (pos : Fin 16) : ErrorReport :=
  ⟨bankOf c, .payload pos, c.val, .payloadRead, p, none, some h.desc⟩

/-- The report of a chain link lost (R108, R130). -/
def linkReport (p : Port) (h : Holding) (c : CellNo) : ErrorReport :=
  ⟨.cellLink, .link, c.val, .chainAdvance, p, none, some h.desc⟩

theorem foundPoison_eq (a : BitVec 16) (hd : s.desc h.desc = .live m) (hx : ∀ x, m.poison = some x → h.offset < x)
    (c : CellNo) (pos : Fin 16) : foundPoison s p r a h m c pos =
      (s.report (payloadReport p h c pos) .poison).markFinding p r a h.desc m { m with poison := some h.offset }
        { s.receiveSlot p r with poisonHit := true } .payload .poisoned := by
  have live : (s.report (payloadReport p h c pos) .poison).desc h.desc = .live m := hd
  rw [← poisonAt_of_lt hx, markFinding, ← updMessage_setReceiveSlot live]
  rfl

theorem foundBreak_eq (a : BitVec 16) (hd : s.desc h.desc = .live m) (hx : ∀ x, m.poison = some x → h.offset < x)
    (c : CellNo) : foundBreak s p r a h m c =
      (s.report (linkReport p h c) .poison).markFinding p r a h.desc m
        { m with poison := some h.offset, linkBroken := true } { s.receiveSlot p r with linkHit := true } .link .link := by
  have live : (s.report (linkReport p h c) .poison).desc h.desc = .live m := hd
  rw [← breakAt_of_lt hx, markFinding, ← updMessage_setReceiveSlot live]
  rfl

/-- The payload word lost, after a chain advance or without one. -/
theorem deliver_foundPoison (a : BitVec 16) (hd : s.desc h.desc = .live m) (hx : ∀ x, m.poison = some x → h.offset < x)
    (hc : h.cell = some c0 ∨ (h.cell = none ∧ m.first = some c0)) (hf : s.AdvancesTo h c0 c)
    (hp : pos.val = h.offset % 64 / 4) (hv : (s.payloadWord c pos).check = .uncorrectable) : deliver s p r a h m =
      ((s.advanced h c0).report (payloadReport p h c pos) .poison).markFinding p r a h.desc m
        { m with poison := some h.offset } { s.receiveSlot p r with poisonHit := true } .payload .poisoned := by
  have read : (s.advanced h c0).readPayload c pos = (s.advanced h c0, none) :=
    readPayload_of_uncorrectable (by rwa [payloadWord_advanced])
  obtain ⟨_, _, e⟩ := s.advanced_frame h c0
  have slot : (s.advanced h c0).receiveSlot p r = s.receiveSlot p r := by
    rw [e]
    rfl
  have live : (s.advanced h c0).desc h.desc = .live m := by
    rw [e]
    exact hd
  rw [deliver, currentCell_eq hc]
  dsimp only
  rw [findCell_found hf]
  dsimp only
  rw [ofNat_position hp, read]
  dsimp only
  rw [foundPoison_eq a live hx, slot]

theorem deliver_foundBreak (a : BitVec 16) (hd : s.desc h.desc = .live m) (hx : ∀ x, m.poison = some x → h.offset < x)
    (hc : h.cell = some c0 ∨ (h.cell = none ∧ m.first = some c0)) (h0 : h.offset ≠ 0) (h64 : h.offset % 64 = 0)
    (hl : (s.cellLinkWord c0).check = .uncorrectable) : deliver s p r a h m =
      (s.report (linkReport p h c0) .poison).markFinding p r a h.desc m
        { m with poison := some h.offset, linkBroken := true } { s.receiveSlot p r with linkHit := true } .link .link := by
  rw [deliver, currentCell_eq hc]
  dsimp only
  rw [findCell_broken h0 h64 hl]
  exact foundBreak_eq a hd hx c0

/-- A read that was taken in `s` and advanced to `u` ended in `t` with a finding: ERROR, the slot `y`, the marked message `m1`,
the event `k`, and the report `x`. -/
structure FindingMarked (s u t : State) (p : Port) (r : ReceiveNo) (a : BitVec 16) (d : DescNo) (m m1 : Message)
    (x : ErrorReport) (y : ReceiveSlot) (k : Finding) (e : ErrorReason) : Prop where
  fronts : t.fronts = (s.refusedAccess p a e).fronts
  slot : t.receiveSlot p r = y
  otherSlots : SameOtherReceive s t p r
  desc : t.desc d = .live m1
  otherDescs : SameOtherDescriptors s t d
  event : t.event m.port = (s.event m.port).arrive (poisonedEntry m k p)
  otherEvents : SameOtherEvents s t m.port
  fault : ReportedFault s t (s.faultRecord x .poison)
  waits : WaitsFor s t [(x.cls, x.port)]
  tracking : t.integrity.tracking = u.integrity.tracking
  cells : SameCellStore u t
  nodes : SameNodeRam s t
  queues : t.queues = s.queues
  pool : t.pool = s.pool

/-- The finding of a request that only advanced before, when it has completed. -/
theorem findingMarked (w : s.memoriesWf = true)
    (hu : ∃ l k, u = { s with cellLinks := l, integrity := { s.integrity with tracking := k } })
    (p : Port) (r : ReceiveNo) (a : BitVec 16) (d : DescNo) (m m1 : Message) (x : ErrorReport) (y : ReceiveSlot)
    (k : Finding) (e : ErrorReason) :
    FindingMarked s u (((u.report x .poison).markFinding p r a d m m1 y k e).completeRequest s.requests) p r a d m m1 x y
      k e := by
  rw [completeRequest_markFinding]
  obtain ⟨l, tracking, hu⟩ := hu
  obtain ⟨fault, waits⟩ := Tracked.completed ⟨tracking, congrArg (·.integrity) hu⟩ x .poison (s := s)
    (t := ((u.report x .poison).completeRequest s.requests).markFinding p r a d m m1 y k e) rfl
  have corrections : ((u.report x .poison).completeRequest s.requests).integrity.tracking = u.integrity.tracking := rfl
  obtain ⟨i, reported⟩ : ∃ i, (u.report x .poison).completeRequest s.requests = { u with integrity := i } := ⟨_, rfl⟩
  have descs := fun g => s.desc_setDesc (wf_descriptors w) d g (.live m1)
  generalize (u.report x .poison).completeRequest s.requests = v at *
  subst reported hu
  exact {
    fronts := rfl
    slot := receiveSlot_setReceiveSlot_self s p r y
    otherSlots := otherReceive_setReceiveSlot (t := s) rfl p r y
    desc := (descs d).trans (if_pos rfl)
    otherDescs := fun g hg => (descs g).trans (if_neg hg)
    event := event_setEvent_self s _ _
    otherEvents := fun q hq => event_setEvent_ne s hq _
    fault := fault
    waits := waits
    tracking := corrections
    cells := ⟨rfl, rfl⟩
    nodes := ⟨rfl, rfl⟩
    queues := rfl
    pool := rfl }

/-- Edits of the data path leave the control records as they were. -/
theorem sameControl_of_quiet (q : Quiet s t) : SameControl s t :=
  ⟨q.resetAsserted, q.ma, q.exchange, q.ports, q.timeouts, q.mint, q.mgmt, q.pending⟩

/-- Settles O38: the payload word lost, after a chain advance or without one, and the link word lost. -/
theorem findingsMarkTheMessage : Obligations.FindingsMarkTheMessage := by
  intro p r word h m c0 s hs w hr hx hw hn hc
  have read := exec_receiveApertureRead hs r word
  have control := sameControl_of_quiet (Quiet.dataRead p r (receiveAddress r word) (.refl : Quiet s s))
  rw [dataRead_delivers _ hr (poisonedAt_of_lt hx) (lt_readable hw hn)] at read control
  obtain ⟨live, -⟩ := hr
  refine ⟨fun c pos hf hp hv => ?_, fun h0 h64 hl => ?_⟩
  · rw [deliver_foundPoison _ live hx hc hf hp hv] at read control
    have F := findingMarked w (s.advanced_frame h c0) p r (receiveAddress r word) h.desc m
      { m with poison := some h.offset } (payloadReport p h c pos) { s.receiveSlot p r with poisonHit := true } .payload
      .poisoned
    have event := F.event
    rw [poisonedEntry, Finding.value, Nat.zero_add] at event
    exact ⟨_, read, F.fronts, F.slot, F.otherSlots, F.desc, F.otherDescs, event, F.otherEvents, F.fault, F.waits,
      F.tracking, F.cells, F.nodes, F.queues, F.pool, control⟩
  · rw [deliver_foundBreak _ live hx hc h0 h64 hl] at read control
    have F := findingMarked w ⟨s.cellLinks, s.integrity.tracking, rfl⟩ p r (receiveAddress r word) h.desc m
      { m with poison := some h.offset, linkBroken := true } (linkReport p h c0)
      { s.receiveSlot p r with linkHit := true } .link .link
    exact ⟨_, read, F.fronts, F.slot, F.otherSlots, F.desc, F.otherDescs, F.event, F.otherEvents, F.fault, F.waits,
      F.tracking, F.cells, F.nodes, F.queues, F.pool, control⟩

end Sys2Proof.Machine.State
end

section
/-!
SUPPORT. What the fields of a packed word read, as simp lemmas: a field is named by its lowest bit and its width, and a word whose fields
lie apart reads the value of each, cut to its width (11.2 to 11.6, R180).
-/
namespace Sys2Proof.Machine

@[simp] theorem apart_nil (lo k : Nat) : apart lo k [] = true := rfl

@[simp] theorem apart_cons (lo k a b v : Nat) (fs : List (Nat × Nat × Nat)) :
    apart lo k ((a, b, v) :: fs) = ((decide (a + b ≤ lo) || decide (lo + k ≤ a)) && apart lo k fs) := rfl

/-- A field of a packed word: the first one where that is the field meant, else a field of the rest. -/
@[simp] theorem bits_pack_cons (lo k a b v : Nat) (fs : List (Nat × Nat × Nat)) (h32 : lo + k ≤ 32)
    (h : if a = lo ∧ b = k then apart lo k fs = true else a + b ≤ lo ∨ lo + k ≤ a) :
    bits (pack ((a, b, v) :: fs)) lo k = if a = lo ∧ b = k then v % 2 ^ k else bits (pack fs) lo k := by
  by_cases here : a = lo ∧ b = k
  · rw [if_pos here] at h ⊢
    obtain ⟨rfl, rfl⟩ := here
    exact bits_pack_here a b v fs h h32
  · rw [if_neg here] at h ⊢
    exact bits_pack_skip a b v lo k fs h h32

/-- A field that no entry names is 0 (R180). -/
@[simp] theorem bits_pack_nil (lo k : Nat) : bits (pack []) lo k = 0 := by
  simp [bits, pack]

/-- A flag in a field of one bit. -/
@[simp] theorem boolBit_mod_two (b : Bool) : boolBit b % 2 = boolBit b := by cases b <;> rfl

@[simp] theorem boolBit_eq_one (b : Bool) : boolBit b = 1 ↔ b = true := by cases b <;> decide

/-- An optional field whose value fits its width reads the value, or all ones (R180). -/
theorem optional_mod (k : Nat) (v : Option Nat) (h : ∀ n, v = some n → n < 2 ^ k) :
    optional k v % 2 ^ k = v.getD (2 ^ k - 1) := by
  cases v with
  | none => exact Nat.mod_eq_of_lt (Nat.sub_lt (Nat.two_pow_pos k) Nat.one_pos)
  | some n => exact Nat.mod_eq_of_lt (h n rfl)

/-- An optional index whose table fits the field. -/
@[simp] theorem optional_fin_mod {m : Nat} (k n : Nat) (v : Option (Fin m)) (hn : n = 2 ^ k) (hm : m ≤ n) :
    optional k (v.map (·.val)) % n = (v.map (·.val)).getD (n - 1) := by
  subst hn
  exact optional_mod k _ fun i hi => by
    obtain ⟨x, -, rfl⟩ := Option.map_eq_some_iff.mp hi
    exact x.isLt.trans_le hm

/-- An optional bit field as wide as the field that shows it. -/
@[simp] theorem optional_bitVec_mod (k n : Nat) (v : Option (BitVec k)) (hn : n = 2 ^ k) :
    optional k (v.map (·.toNat)) % n = (v.map (·.toNat)).getD (n - 1) := by
  subst hn
  exact optional_mod k _ fun i hi => by
    obtain ⟨x, -, rfl⟩ := Option.map_eq_some_iff.mp hi
    exact x.isLt

end Sys2Proof.Machine
end

section
/-!
SUPPORT. The event queues (R116, R120): an arrival at one port and at all four, and the pop of a head register read; O11 and O12.
-/
namespace Sys2Proof.Machine
variable {s : State} {p : Port}

/-! ### Arrivals (R116) -/

/-- The fate of an arrival, with the enable of its kind and the size of the queue written out. -/
theorem EventPort.arrive_eq (e : EventPort) (x : EventEntry) :
    e.arrive x = if e.enables.getLsbD (x.kind.value - 1) = false then e
      else if 16 ≤ e.queue.length then { e with overflow := true } else { e with queue := e.queue ++ [x] } := by
  unfold arrive enabled
  cases e.enables.getLsbD (x.kind.value - 1) <;> rfl

/-- Settles O12, by the fate of one arrival, and by port for the four. -/
theorem arrivalsJoinAreLostOrDiscarded : Obligations.ArrivalsJoinAreLostOrDiscarded := by
  refine fun p x s => ⟨?_, fun q => ?_⟩
  · rw [State.sendEvent, EventPort.arrive_eq]
    rfl
  · exact (State.event_sendAll s x q).trans (State.event_setEvent_self s q _).symm

/-! ### The pop (R120) -/

theorem EventKind.value_lt (k : EventKind) : k.value < 16 := by cases k <;> decide

/-- The fields of the head word (11.4). -/
theorem EventEntry.headWord_fields (x : EventEntry) (overflow more : Bool) :
    let w := x.headWord overflow more
    bits w 0 4 = x.kind.value ∧ (bits w 4 1 = 1 ↔ x.tag ≠ none) ∧ (bits w 5 1 = 1 ↔ overflow = true) ∧
      (bits w 6 1 = 1 ↔ more = true) ∧ bits w 8 6 = optional 6 x.subject % 2 ^ 6 ∧ bits w 16 8 = x.detail % 2 ^ 8 := by
  simp [headWord, Nat.mod_eq_of_lt x.kind.value_lt, Option.isSome_iff_ne_none]

theorem noEventWord_fields : bits noEventWord 0 4 = 0 ∧ bits noEventWord 4 1 = 0 ∧ bits noEventWord 5 1 = 0 ∧
    bits noEventWord 6 1 = 0 ∧ bits noEventWord 8 6 = 0x3F ∧ bits noEventWord 16 8 = 0 := by
  decide

theorem exec_eventHeadRead (hs : s.Serves p) : exec (.eventHeadRead p) s = .next (popEvent p s) :=
  congrArg Host.Outcome.next (State.acting_serves hs _ _)

theorem popEvent_nil (h : (s.event p).queue = []) :
    popEvent p s = (s.setEvent p { s.event p with tagLatch := none }).answered p (.okayRead noEventWord) := by
  simp only [popEvent, h]
  rfl

theorem popEvent_cons {x : EventEntry} {xs : List EventEntry} (h : (s.event p).queue = x :: xs) :
    popEvent p s = (s.setEvent p { s.event p with
      queue := xs, tagLatch := x.tag, overflow := if xs = [] then false else (s.event p).overflow }).answered p
        (.okayRead (x.headWord (s.event p).overflow (!xs.isEmpty))) := by
  have cleared : ((s.event p).overflow && !xs.isEmpty) = if xs = [] then false else (s.event p).overflow := by
    cases xs <;> simp
  simp only [popEvent, h, cleared]
  rfl

/-- Settles O11: an empty queue, and one with an oldest entry. -/
theorem eventHeadReadPops : Obligations.EventHeadReadPops := by
  refine fun p s hs => ⟨fun h => ⟨noEventWord, ?_, noEventWord_fields⟩, fun x xs h =>
    ⟨x.headWord (s.event p).overflow (!xs.isEmpty), ?_, ?_⟩⟩
  · rw [exec_eventHeadRead hs, popEvent_nil h]
    rfl
  · rw [exec_eventHeadRead hs, popEvent_cons h]
    rfl
  · obtain ⟨kind, tag, overflow, more, subject, detail⟩ :=
      x.headWord_fields (s.event p).overflow (!xs.isEmpty)
    refine ⟨kind, tag, overflow, by simpa using more, fun h => ?_, fun n h hn => ?_, fun hd => ?_⟩
    · rw [subject, h]
      rfl
    · rw [subject, h]
      exact Nat.mod_eq_of_lt (show n < 2 ^ 6 by omega)
    · rw [detail]
      exact Nat.mod_eq_of_lt hd

end Sys2Proof.Machine
end

section
/-!
SUPPORT. Register writes of an agent port (R165, R180), the event registers and INT_N (R117, R123); O10.
-/
namespace Sys2Proof.Machine
variable {s : State} {p : Port}

/-! ### The register that an address names (R161) -/

theorem decodeAddress_param {a : BitVec 16} {k : Fin 4} (h : a.toNat = 0x10 + 4 * k.val) :
    decodeAddress a = .register (.param k) := by
  obtain rfl : a = BitVec.ofNat 16 (0x10 + 4 * k.val) := by rw [← h, BitVec.ofNat_toNat, BitVec.setWidth_eq]
  match k with
  | 0 | 1 | 2 | 3 => rfl

/-- The address names a register that cannot be written (R165): every one but PARAM, COMMAND and the two event enables. -/
def namesReadOnly (a : BitVec 16) : Bool :=
  match decodeAddress a with
  | .register (.param _) | .register .command | .register .eventEnable | .register .interruptEnable => false
  | .register _ => true
  | _ => false

/-- The offsets of the registers that cannot be written (11.2). -/
def readOnlyOffsets : List Nat :=
  [0x00, 0x04, 0x08, 0x20, 0x24, 0x28, 0x2C, 0x30, 0x40, 0x44, 0x48, 0x4C, 0x50, 0x54, 0x58, 0x5C, 0x60, 0x64, 0x68, 0x6C,
    0x70, 0x74, 0x80, 0x84, 0x88, 0x8C, 0x90, 0x94]

theorem namesReadOnly_of_offset {a : BitVec 16} (h : a.toNat ∈ readOnlyOffsets) : namesReadOnly a = true := by
  have each : ∀ n ∈ readOnlyOffsets, namesReadOnly (BitVec.ofNat 16 n) = true := by decide
  simpa using each _ h

/-! ### Register writes (R165) -/

theorem exec_registerWrite (hs : s.Serves p) {a : BitVec 16} {reg : PortRegister} (ha : decodeAddress a = .register reg)
    (data : Word) : exec (.registerWrite p a data) s = .next (writeRegister p a reg data s) := by
  show Host.Outcome.next (agentAccess p a (.write data) s) = _
  obtain ⟨-, -, idle⟩ := hs
  rw [agentAccess, State.oneAccess, idle]
  simp only [decodedAccess, ha]

/-- The bits of a PARAM register that a parameter table assigns (R180; log 27). -/
theorem paramBits_get (k : Fin 4) :
    paramBits.get k = if k = 0 then 0x0007FFFF else if k = 3 then 0 else 0xFFFFFFFF := by
  match k with
  | 0 | 1 | 2 | 3 => rfl

theorem writeParam_eq (p : Port) (k : Fin 4) (data : Word) (s : State) :
    writeParam p k data s = { s with fronts := s.fronts.set p ({ s.front p with
      params := (s.front p).params.set k (data &&& paramBits.get k), answer := some .okayWrite }) } := by
  simp [writeParam, State.answer, State.setFront, State.front]

theorem exec_registerWrite_readOnly (hs : s.Serves p) {a : BitVec 16} (h : namesReadOnly a = true) (data : Word) :
    exec (.registerWrite p a data) s = .next (s.refusedAccess p a .readOnly) := by
  have refused : s.acting p a (·.answerError p a .readOnly) = s.refusedAccess p a .readOnly := State.acting_serves hs _ _
  cases ha : decodeAddress a with
  | register reg =>
    rw [exec_registerWrite hs ha, ← refused]
    rw [namesReadOnly, ha] at h
    cases reg with
    | param | command | eventEnable | interruptEnable => cases h
    | _ => rfl
  | _ => simp [namesReadOnly, ha] at h

/-! ### The event registers and INT_N (R117, R123) -/

theorem exec_eventEnableWrite (hs : s.Serves p) (data : Word) :
    exec (.eventEnableWrite p data) s =
      .next ((s.setEvent p { s.event p with enables := enablesOf data }).answered p .okayWrite) :=
  congrArg Host.Outcome.next (State.acting_serves hs _ _)

theorem exec_interruptEnableWrite (hs : s.Serves p) (data : Word) :
    exec (.interruptEnableWrite p data) s =
      .next ((s.setEvent p { s.event p with interrupt := data.getLsbD 0 }).answered p .okayWrite) :=
  congrArg Host.Outcome.next (State.acting_serves hs _ _)

/-- An enable write sets the ten kinds that it may, and leaves the two fixed ones enabled. -/
theorem getLsbD_enablesOf (data : Word) (k : Nat) (h : k < 12) :
    (enablesOf data).getLsbD k = (data.getLsbD k || decide (10 ≤ k)) := by
  have fixed : ∀ k < 12, (0xC00 : BitVec 12).getLsbD k = decide (10 ≤ k) := by decide
  rw [enablesOf, BitVec.getLsbD_or, BitVec.getLsbD_ofNat, testBit_bits, fixed k h]
  simp [h]

theorem EventPort.intAsserted_iff (e : EventPort) : e.intAsserted = true ↔ e.queue ≠ [] ∧ e.interrupt = true := by
  simp [intAsserted]

/-- Settles O10: a PARAM register, a register that cannot be written, and the two event registers. -/
theorem registerWritesAndTheInterruptLine : Obligations.RegisterWritesAndTheInterruptLine := by
  refine ⟨fun p a data s hs => ⟨fun k hk => ?_, fun h => ?_⟩, fun p data s hs =>
    ⟨⟨enablesOf data, exec_eventEnableWrite hs data, fun k hk => ?_, ?_, ?_⟩, exec_interruptEnableWrite hs data,
      EventPort.intAsserted_iff⟩⟩
  · rw [exec_registerWrite hs (decodeAddress_param hk), writeRegister, State.acting_serves hs, writeParam_eq,
      paramBits_get]
  · exact exec_registerWrite_readOnly hs (namesReadOnly_of_offset h) data
  · rw [getLsbD_enablesOf data k (by omega), decide_eq_false (by omega), Bool.or_false]
  · rw [getLsbD_enablesOf data 10 (by decide), decide_eq_true (by decide), Bool.or_true]
  · rw [getLsbD_enablesOf data 11 (by decide), decide_eq_true (by decide), Bool.or_true]

end Sys2Proof.Machine
end

section
/-!
SUPPORT. A word written to the management register file, by the index that the pointer names (R172, R174, R127), and the command words that
no owner takes (R176, R177); the conditions of MINT_N (R126); O44.
-/
namespace Sys2Proof.Machine
variable {s : State}

/-! ### The word (R172) -/

/-- The bytes before the last one stand eight bits higher. -/
theorem extractByte_append {n : Nat} (x : BitVec n) (b : Byte) (start : Nat) :
    (x ++ b).extractLsb' (start + 8) 8 = x.extractLsb' start 8 :=
  BitVec.extractLsb'_append_eq_of_le (Nat.le_add_left 8 start)

theorem bytesOf_joinBytes (b3 b2 b1 b0 : Byte) : bytesOf (joinBytes b3 b2 b1 b0) = [b3, b2, b1, b0] := by
  have first : (b3 ++ b2 ++ b1 ++ b0).extractLsb' 24 8 = b3 :=
    (extractByte_append _ b0 16).trans ((extractByte_append _ b1 8).trans BitVec.extractLsb'_append_eq_left)
  have second : (b3 ++ b2 ++ b1 ++ b0).extractLsb' 16 8 = b2 :=
    (extractByte_append _ b0 8).trans ((extractByte_append _ b1 0).trans BitVec.extractLsb'_append_eq_right)
  have third : (b3 ++ b2 ++ b1 ++ b0).extractLsb' 8 8 = b1 :=
    (extractByte_append _ b0 0).trans BitVec.extractLsb'_append_eq_right
  have last : (b3 ++ b2 ++ b1 ++ b0).extractLsb' 0 8 = b0 := BitVec.extractLsb'_append_eq_right
  simp only [bytesOf, joinBytes, List.cons.injEq, and_true]
  exact ⟨first, second, third, last⟩

/-- The four bytes of a word, at the start of a word, write it to the register that the pointer names. -/
theorem State.mgmtWord_atWord (h : s.AtWord) (b3 b2 b1 b0 : Byte) :
    s.mgmtWord none ⟨b3, b2, b1, b0⟩ =
      ((s.threeBytes (joinBytes b3 b2 b1 b0)).writeMgmtRegister (joinBytes b3 b2 b1 b0)).mgmtAdvance := by
  rw [← State.dataBytes_word h, bytesOf_joinBytes]
  rfl

/-- A row of one word, by what the write of the word leaves; a MINT_N_ENABLE_WRITE is the same row (log 18). -/
theorem exec_managementRegisterWrite (h : s.AtWord) {b3 b2 b1 b0 : Byte} {t : State}
    (ht : (s.threeBytes (joinBytes b3 b2 b1 b0)).writeMgmtRegister (joinBytes b3 b2 b1 b0) = t) :
    exec (.managementRegisterWrite none ⟨b3, b2, b1, b0⟩) s = .next t.mgmtAdvance :=
  congrArg Host.Outcome.next ((State.mgmtWord_atWord h b3 b2 b1 b0).trans (congrArg State.mgmtAdvance ht))

theorem exec_mintNEnableWrite (start : Option WriteStart) (b : WordBytes) (s : State) :
    exec (.mintNEnableWrite start b) s = exec (.managementRegisterWrite start b) s := rfl

/-! ### The registers (R174) -/

theorem decodeMgmtRegister_param (k : Fin 4) : decodeMgmtRegister (0xF0 + BitVec.ofNat 8 k.val) = some (.param k) := by
  match k with
  | 0 | 1 | 2 | 3 => rfl

theorem State.writeMgmtRegister_param {k : Fin 4} (h : decodeMgmtRegister s.mgmt.pointer = some (.param k)) (w : Word) :
    s.writeMgmtRegister w = s.setMgmt { s.mgmt with params := s.mgmt.params.set k w } := by
  rw [writeMgmtRegister, h]

theorem State.writeMgmtRegister_mintEnable (h : decodeMgmtRegister s.mgmt.pointer = some .mintEnable) (w : Word) :
    s.writeMgmtRegister w = s.writeMintEnables w := by
  rw [writeMgmtRegister, h]

theorem State.writeMgmtRegister_command (h : decodeMgmtRegister s.mgmt.pointer = some .command) (w : Word) :
    s.writeMgmtRegister w = s.mgmtCommand (mgmtWordOf w) := by
  rw [writeMgmtRegister, h]

theorem State.writeMgmtRegister_unmapped (h : decodeMgmtRegister s.mgmt.pointer = none) (w : Word) :
    s.writeMgmtRegister w = s.mgmtReason .unmapped := by
  rw [writeMgmtRegister, h]

/-- A register other than the parameters, the enables of MINT_N and the command register is not written. -/
theorem State.writeMgmtRegister_readOnly {reg : MgmtRegister} (h : decodeMgmtRegister s.mgmt.pointer = some reg)
    (param : ∀ k, reg ≠ .param k) (enable : reg ≠ .mintEnable) (command : reg ≠ .command) (w : Word) :
    s.writeMgmtRegister w = s.mgmtReason .readOnly := by
  rw [writeMgmtRegister, h]
  cases reg with
  | param k => exact absurd rfl (param k)
  | mintEnable => exact absurd rfl enable
  | command => exact absurd rfl command
  | _ => rfl

/-! ### Command words that no owner takes (R176, R177) -/

/-- A command row at the command register is the command unit's, BUSY or IDLE. -/
theorem State.commandBytes_atCommand (h : s.AtWord) (hp : s.mgmt.pointer = 0xF4) (c : MgmtWord) :
    s.commandBytes none c = ((s.threeBytes c.toWord).mgmtCommand c).mgmtAdvance := by
  have command : decodeMgmtRegister (s.threeBytes c.toWord).mgmt.pointer = some .command := by
    show decodeMgmtRegister s.mgmt.pointer = _
    rw [hp]
    rfl
  show s.dataBytes (bytesOf c.toWord) id = _
  rw [State.dataBytes_word h, writeMgmtRegister_command command, mgmtWordOf_toWord]

/-- A refusal without an owner: the result register and the pointer. -/
theorem State.mgmtResult_refused (hp : s.mgmt.pointer = 0xF4) (w : Word) (c : MgmtWord) (r : ResultCode) :
    ((s.threeBytes w).mgmtResult c.code r none).mgmtAdvance = s.mgmtRefused c r := by
  have next : (0xF5 : BitVec 8) = s.mgmt.pointer + 1 := by
    rw [hp]
    rfl
  rw [State.mgmtRefused, next]
  rfl

theorem State.commandBytes_busy (h : s.AtWord) (hp : s.mgmt.pointer = 0xF4) (busy : s.mgmt.busy = true) (c : MgmtWord) :
    s.commandBytes none c = s.mgmtRefused c .refusedBusy := by
  rw [commandBytes_atCommand h hp, mgmtCommand, if_pos (by exact busy), mgmtResult_refused hp]

theorem State.commandBytes_unassigned (h : s.AtWord) (hp : s.mgmt.pointer = 0xF4) (idle : s.mgmt.busy = false)
    {c : MgmtWord} (hc : decodeMgmtCommand c.code = none) : s.commandBytes none c = s.mgmtRefused c .refusedParam := by
  have notBusy : (s.threeBytes c.toWord).mgmt.busy ≠ true := by
    show s.mgmt.busy ≠ true
    rw [idle]
    decide
  rw [commandBytes_atCommand h hp, mgmtCommand, if_neg notBusy, hc]
  exact mgmtResult_refused hp _ _ _

theorem decodeMgmtCommand_none {code : BitVec 8}
    (h : code ∉ [0x01, 0x02, 0x03, 0x04, 0x10, 0x11, 0x12, 0x20, 0x21, 0x22, 0x23]) : decodeMgmtCommand code = none := by
  simp only [List.mem_cons, List.not_mem_nil, not_or] at h
  simp only [decodeMgmtCommand, h, if_false]

/-! ### MINT_N (R126) -/

theorem exists_fin_four {P : Fin 4 → Prop} : (∃ m, P m) ↔ P 0 ∨ P 1 ∨ P 2 ∨ P 3 := by
  simp [Fin.exists_fin_succ]

theorem State.faultCondition_iff (s : State) : s.faultCondition = true ↔ s.integrity.faults ≠ [] := by
  simp [faultCondition]

theorem State.overflowCondition_iff (s : State) :
    s.overflowCondition = true ↔ ∃ m : Fin 4, (s.integrity.tracking.get m).overflow = true := by
  simp [overflowCondition, exists_fin_four, Quad.get, or_assoc]

theorem State.stoppedCondition_iff (s : State) : s.stoppedCondition = true ↔ s.exchange = .stopped := by
  simp [stoppedCondition]

theorem State.mintAsserted_iff (s : State) : s.mintAsserted = true ↔
    (s.integrity.faults ≠ [] ∧ s.mint.fault = true) ∨
      (∃ m : Fin 4, (s.integrity.tracking.get m).overflow = true ∧ s.mint.overflow.get m = true) ∨
      s.exchange = .stopped := by
  simp [mintAsserted, faultCondition_iff, stoppedCondition_iff, exists_fin_four, Quad.get, or_assoc]

/-- Settles O44: the word by the register at its index, and the command words of a BUSY unit and of no code. -/
theorem managementWordsByIndex : Obligations.ManagementWordsByIndex := by
  refine ⟨fun b3 b2 b1 b0 s h => ⟨fun k hk => ?_, fun hk => ?_, fun reg hreg param enable command => ?_, fun hnone => ?_,
    s.mintAsserted_iff⟩, fun code f s h hp => ⟨fun busy => ?_, fun idle hc => ?_⟩⟩
  · exact exec_managementRegisterWrite h (State.writeMgmtRegister_param (by exact hk ▸ decodeMgmtRegister_param k) _)
  · rw [exec_mintNEnableWrite]
    exact exec_managementRegisterWrite h (State.writeMgmtRegister_mintEnable (by exact hk ▸ rfl) _)
  · exact exec_managementRegisterWrite h (State.writeMgmtRegister_readOnly (by exact hreg) param enable command _)
  · exact exec_managementRegisterWrite h (State.writeMgmtRegister_unmapped (by exact hnone) _)
  · have refused : ∀ c, (.next (s.commandBytes none c) : Host.Outcome State Fault Refusal) =
        .next (s.mgmtRefused c .refusedBusy) :=
      fun c => congrArg _ (State.commandBytes_busy h hp busy c)
    exact ⟨refused _, refused _, refused _⟩
  · exact congrArg Host.Outcome.next (State.commandBytes_unassigned h hp idle (decodeMgmtCommand_none hc))

end Sys2Proof.Machine
end

section
/-!
SUPPORT. The management registers (R175, 11.5, 11.6): the index of each, and the fields of each word by the record that it shows; O43.
-/
namespace Sys2Proof.Machine

/-! ### Codes fit their fields (chapter 11) -/

@[simp] theorem Exchange.value_mod (x : Exchange) : x.value % 4 = x.value := by cases x <;> rfl

@[simp] theorem PortTag.value_mod (x : PortTag) : x.value % 4 = x.value := by cases x <;> rfl

@[simp] theorem ResultCode.value_mod (x : ResultCode) : x.value % 16 = x.value := by cases x <;> rfl

@[simp] theorem TeardownOrigin.value_mod (x : TeardownOrigin) : x.value % 4 = x.value := by cases x <;> rfl

@[simp] theorem TeardownEnd.value_mod (x : TeardownEnd) : x.value % 2 = x.value := by cases x <;> rfl

@[simp] theorem QueueTag.value_mod (x : QueueTag) : x.value % 4 = x.value := by cases x <;> rfl

@[simp] theorem FaultClass.value_mod (x : FaultClass) : x.value % 8 = x.value := by cases x <;> rfl

@[simp] theorem MemoryName.value_mod (x : MemoryName) : x.value % 4 = x.value := by cases x <;> rfl

@[simp] theorem BaseAction.value_mod (x : BaseAction) : x.value % 4 = x.value := by cases x <;> rfl

@[simp] theorem Escalation.value_mod (x : Escalation) : x.value % 4 = x.value := by cases x <;> rfl

@[simp] theorem WordKind.value_mod (x : WordKind) : x.value % 4 = x.value := by cases x <;> rfl

@[simp] theorem InjectKind.value_mod (x : InjectKind) : x.value % 2 = x.value := by cases x <;> rfl

@[simp] theorem MgmtReason.value_mod (x : MgmtReason) : x.value % 4 = x.value := by cases x <;> rfl

/-! ### The registers at their indices (R175) -/

theorem decodeMgmtRegister_queue (q : QueueNo) : decodeMgmtRegister (BitVec.ofNat 8 (0x20 + q.val)) = some (.queue q) := by
  revert q
  decide

/-! ### The fields of the words -/

namespace State
variable (s : State)

theorem mgmtStatusWord_fields :
    bits s.mgmtStatusWord 0 2 = s.exchange.value ∧ (bits s.mgmtStatusWord 2 1 = 1 ↔ s.mgmt.busy = true) ∧
      bits s.mgmtStatusWord 4 2 = (s.mgmt.record.map (·.reason.value)).getD 0 ∧
      bits s.mgmtStatusWord 8 8 = (s.mgmt.record.map (·.index.toNat)).getD 0xFF ∧
      ∀ p : Port, bits s.mgmtStatusWord (24 + 2 * p.val) 2 = (s.port p).tag.value := by
  refine ⟨by simp [mgmtStatusWord], by simp [mgmtStatusWord], ?_, ?_, fun p => ?_⟩
  · cases h : s.mgmt.record with
    | none => simp [mgmtStatusWord, h]
    | some x => simp [mgmtStatusWord, h]
  · cases h : s.mgmt.record with
    | none => simp [mgmtStatusWord, h, optional]
    | some x => simp [mgmtStatusWord, h, optional, Nat.mod_eq_of_lt x.index.isLt]
  · match p with
    | 0 | 1 | 2 | 3 => simp [mgmtStatusWord]

theorem mgmtResultWord_fields :
    bits s.mgmtResultWord 0 8 = (s.mgmt.result.code.map (·.toNat)).getD 0xFF ∧
      bits s.mgmtResultWord 8 4 = s.mgmt.result.result.value ∧
      bits s.mgmtResultWord 16 16 = (s.mgmt.result.detail.map (·.toNat)).getD 0xFFFF := by
  simp [mgmtResultWord]

theorem mintEnableWord_fields : (bits s.mintEnableWord 0 1 = 1 ↔ s.mint.fault = true) ∧
    ∀ k : Fin 4, bits s.mintEnableWord (1 + k.val) 1 = 1 ↔ s.mint.overflow.get k = true := by
  refine ⟨by simp [mintEnableWord], fun k => ?_⟩
  match k with
  | 0 | 1 | 2 | 3 => simp [mintEnableWord, Quad.get]

theorem mintConditionsWord_fields :
    (bits s.mintConditionsWord 0 1 = 1 ↔ s.integrity.faults ≠ []) ∧
      (bits s.mintConditionsWord 1 1 = 1 ↔ ∃ k : Fin 4, (s.integrity.tracking.get k).overflow = true) ∧
      (bits s.mintConditionsWord 2 1 = 1 ↔ s.exchange = .stopped) ∧
      (bits s.mintConditionsWord 3 1 = 1 ↔ s.mintAsserted = true) := by
  simp [mintConditionsWord, faultCondition_iff, overflowCondition_iff, stoppedCondition_iff]

theorem timeoutsWord_field {p : Port} (h : s.timeouts.get p ≤ 255) :
    bits s.timeoutsWord (8 * p.val) 8 = s.timeouts.get p := by
  have fits := Nat.mod_eq_of_lt (show s.timeouts.get p < 256 by omega)
  match p with
  | 0 | 1 | 2 | 3 => simpa [timeoutsWord, Quad.get] using fits

theorem queueWord_fields (q : QueueNo) :
    bits (s.queueWord q) 0 2 = (s.queue q).tag.value ∧
      bits (s.queueWord q) 2 2 = ((s.queue q).consumer.map (·.val)).getD 3 ∧
      bits (s.queueWord q) 16 11 = (s.queue q).depth % 2048 := by
  simp [queueWord]

theorem faultListWord_fields :
    (s.integrity.faults.length ≤ 4 → bits s.faultListWord 0 3 = s.integrity.faults.length) ∧
      (bits s.faultListWord 4 1 = 1 ↔ s.integrity.full = true) := by
  refine ⟨fun h => ?_, by simp [faultListWord]⟩
  simpa [faultListWord] using Nat.mod_eq_of_lt (show s.integrity.faults.length < 8 by omega)

theorem countersWord_field {k : Fin 4} (h : (s.integrity.tracking.get k).count ≤ 255) :
    bits s.countersWord (8 * k.val) 8 = (s.integrity.tracking.get k).count := by
  have fits := Nat.mod_eq_of_lt (show (s.integrity.tracking.get k).count < 256 by omega)
  match k with
  | 0 | 1 | 2 | 3 => simpa [countersWord, Quad.get] using fits

theorem overflowsWord_field (k : Fin 4) :
    bits s.overflowsWord k.val 1 = 1 ↔ (s.integrity.tracking.get k).overflow = true := by
  match k with
  | 0 | 1 | 2 | 3 => simp [overflowsWord, Quad.get]

theorem policyWord_field (c : FaultClass) : bits s.policyWord (2 * c.value) 2 = (s.integrity.policy.of c).value := by
  cases c <;> simp [policyWord, FaultClass.value, Policy.of]

theorem nextSequence_word : s.mgmtRegister .nextSequence = s.integrity.nextSequence.setWidth 32 := by
  have fits := s.integrity.nextSequence.isLt
  simp [mgmtRegister, pack, Nat.mod_eq_of_lt fits]

theorem faultWords_none {k : Fin 4} (h : s.integrity.faults[k.val]? = none) :
    s.mgmtRegister (.faultRecordA k) = absentWord ∧ s.mgmtRegister (.faultRecordB k) = absentWord := by
  simp [mgmtRegister, h]

theorem faultWords_some {k : Fin 4} {x : FaultRecord} (h : s.integrity.faults[k.val]? = some x) :
    s.mgmtRegister (.faultRecordA k) = x.wordA ∧ s.mgmtRegister (.faultRecordB k) = x.wordB := by
  simp [mgmtRegister, h]

theorem commandWord_none (h : s.mgmt.lastCommand = none) : s.mgmtRegister .command = absentWord := by
  simp only [mgmtRegister, h]

theorem commandWord_some {c : MgmtWord} (h : s.mgmt.lastCommand = some c) : s.mgmtRegister .command = c.toWord := by
  simp only [mgmtRegister, h]

end State

theorem PortState.teardownWord_absent {x : PortState} (h : ∀ t, x ≠ .resetting t) : x.teardownWord = 0xFFFFFFFF := by
  cases x with
  | resetting t => exact absurd rfl (h t)
  | active | fenced => rfl

theorem PortState.teardownWord_fields (t : Teardown) :
    let w := (PortState.resetting t).teardownWord
    bits w 0 2 = t.origin.value ∧ bits w 2 1 = t.endState.value ∧ (t.step ≤ 5 → bits w 4 3 = t.step) ∧
      bits w 8 6 = (t.queue.map (·.val)).getD 0x3F := by
  refine ⟨by simp [teardownWord], by simp [teardownWord], fun h => ?_, by simp [teardownWord]⟩
  simpa [teardownWord] using Nat.mod_eq_of_lt (show t.step < 8 by omega)

theorem FaultRecord.wordA_fields (x : FaultRecord) :
    bits x.wordA 0 8 = x.sequence.toNat ∧ bits x.wordA 8 3 = x.cls.value ∧ bits x.wordA 12 2 = x.memory.value ∧
      bits x.wordA 16 2 = x.base.value ∧ bits x.wordA 18 2 = x.escalation.value ∧ bits x.wordA 20 2 = x.port.val ∧
      bits x.wordA 24 6 = (x.queue.map (·.val)).getD 0x3F := by
  simp [wordA, Nat.mod_eq_of_lt x.port.isLt, Nat.mod_eq_of_lt x.sequence.isLt]

theorem FaultRecord.wordB_fields (x : FaultRecord) :
    (x.index < 2048 → bits x.wordB 0 12 = x.index) ∧ bits x.wordB 16 10 = (x.desc.map (·.val)).getD 0x3FF ∧
      bits x.wordB 26 5 = (x.position.map (·.val)).getD 0x1F := by
  refine ⟨fun h => ?_, by simp [wordB], by simp [wordB]⟩
  simpa [wordB] using Nat.mod_eq_of_lt (show x.index < 4096 by omega)

theorem armWord_none : bits (armWord none) 0 1 = 0 ∧ bits (armWord none) 4 2 = 3 ∧ bits (armWord none) 8 1 = 1 := by
  decide

theorem armWord_some (a : Arm) : bits (armWord (some a)) 0 1 = 1 ∧ bits (armWord (some a)) 4 2 = a.target.value ∧
    bits (armWord (some a)) 8 1 = a.kind.value := by
  obtain ⟨target, kind⟩ := a
  cases target <;> cases kind <;> decide

theorem injectionWord_fields (x : InjectionRecord) :
    let w := injectionWord (some x)
    bits w 0 2 = x.memory.value ∧ bits w 4 2 = x.word.value ∧ bits w 8 4 = (x.word.position.map (·.val)).getD 15 ∧
      bits w 12 1 = x.kind.value ∧ (x.index < 2048 → bits w 16 12 = x.index) := by
  refine ⟨by simp [injectionWord], by simp [injectionWord], by simp [injectionWord], by simp [injectionWord], fun h => ?_⟩
  simpa [injectionWord] using Nat.mod_eq_of_lt (show x.index < 4096 by omega)

theorem MgmtWord.toWord_fields (c : MgmtWord) :
    bits c.toWord 0 8 = c.code.toNat ∧ bits c.toWord 8 4 = c.fields.port.toNat ∧ bits c.toWord 16 4 = c.fields.a.toNat ∧
      bits c.toWord 20 4 = c.fields.b.toNat := by
  simp [toWord, Nat.mod_eq_of_lt c.code.isLt, Nat.mod_eq_of_lt c.fields.port.isLt, Nat.mod_eq_of_lt c.fields.a.isLt,
    Nat.mod_eq_of_lt c.fields.b.isLt]

/-- Settles O43: the indices, and the words in the order of the statement, each by its fields. -/
theorem managementRegisterWords : Obligations.ManagementRegisterWords := by
  refine ⟨by decide, by decide, decodeMgmtRegister_queue, fun s => ⟨rfl, fun _ => rfl, fun _ _ => rfl, fun _ _ => rfl,
    fun _ => rfl, ?status, ?result, s.mintEnableWord_fields, s.mintConditionsWord_fields, ?teardown,
    fun _ => s.timeoutsWord_field, ?queue, ?fault, s.faultListWord_fields.1, s.faultListWord_fields.2,
    s.nextSequence_word, fun k => ⟨s.countersWord_field, s.overflowsWord_field k⟩, ?policy, ?arm, ?injection, ?command⟩⟩
  case status =>
    obtain ⟨exchange, busy, reason, index, ports⟩ := s.mgmtStatusWord_fields
    refine ⟨exchange.trans ?_, busy, fun h => ?_, fun x h => ?_, fun p => (ports p).trans ?_⟩
    · cases s.exchange <;> rfl
    · rw [h] at reason index
      exact ⟨reason, index⟩
    · rw [h] at reason index
      obtain ⟨_ | _ | _, _⟩ := x <;> exact ⟨reason, index⟩
    · cases s.port p <;> rfl
  case result =>
    obtain ⟨code, result, detail⟩ := s.mgmtResultWord_fields
    exact ⟨code.trans (by cases s.mgmt.result.code <;> rfl), result,
      detail.trans (by cases s.mgmt.result.detail <;> rfl)⟩
  case teardown =>
    refine fun p => ⟨PortState.teardownWord_absent, fun t h => ?_⟩
    obtain ⟨origin, ends, step, queue⟩ := PortState.teardownWord_fields t
    rw [← h] at origin ends step queue
    exact ⟨origin.trans (by cases t.origin <;> rfl), ends.trans (by cases t.endState <;> rfl), step,
      queue.trans (by cases t.queue <;> rfl)⟩
  case queue =>
    intro q
    obtain ⟨tag, consumer, depth⟩ := s.queueWord_fields q
    refine ⟨fun h => ?_, fun lq h => ?_⟩ <;> rw [h] at tag consumer depth
    · exact ⟨tag, consumer, depth⟩
    · have phase : bits (s.queueWord q) 0 2 = lq.phase.tag.value := tag
      exact ⟨phase.trans (by cases lq.phase <;> rfl), consumer,
        fun fits => depth.trans (Nat.mod_eq_of_lt (show lq.depth < 2048 by omega))⟩
  case fault =>
    refine fun k => ⟨fun h => s.faultWords_none h, fun x h => ?_⟩
    obtain ⟨wordA, wordB⟩ := s.faultWords_some h
    obtain ⟨sequence, cls, memory, base, escalation, port, queue⟩ := x.wordA_fields
    obtain ⟨index, desc, position⟩ := x.wordB_fields
    rw [← wordA] at sequence cls memory base escalation port queue
    rw [← wordB] at index desc position
    exact ⟨sequence, cls.trans (by cases x.cls <;> rfl), memory.trans (by cases x.memory <;> rfl),
      base.trans (by cases x.base <;> rfl), escalation.trans (by cases x.escalation <;> rfl), port,
      queue.trans (by cases x.queue <;> rfl), index, desc.trans (by cases x.desc <;> rfl),
      position.trans (by cases x.position <;> rfl)⟩
  case policy =>
    exact fun c => (congrArg (bits s.policyWord · 2) (by cases c <;> rfl)).trans
      ((s.policyWord_field c).trans (by cases s.integrity.policy.of c <;> rfl))
  case arm =>
    refine ⟨fun h => ?_, fun a h => ?_⟩
    · have absent := armWord_none
      rwa [← h] at absent
    · obtain ⟨armed, target, kind⟩ := armWord_some a
      rw [← h] at armed target kind
      exact ⟨armed, target.trans (by cases a.target <;> rfl), kind.trans (by cases a.kind <;> rfl)⟩
  case injection =>
    refine ⟨fun h => congrArg injectionWord h, fun x h => ?_⟩
    obtain ⟨memory, word, position, kind, index⟩ := injectionWord_fields x
    rw [← h] at memory word position kind index
    exact ⟨memory.trans (by cases x.memory <;> rfl), word.trans (by cases x.word <;> rfl),
      position.trans (by cases x.word <;> rfl), kind.trans (by cases x.kind <;> rfl), index⟩
  case command =>
    refine ⟨fun h => s.commandWord_none h, fun c h => ?_⟩
    have fields := c.toWord_fields
    rwa [← s.commandWord_some h] at fields

end Sys2Proof.Machine
end

section
/-!
SUPPORT. One report (R128, R130, R135 to R137): its class by access and word, the request that it waits in, and the completion of a request;
O40.
-/
namespace Sys2Proof.Machine

/-- R128: the access decides alone, but for a node that a fetch or a drain reads, where the word does. -/
theorem ErrorReport.cls_eq (x : ErrorReport) : x.cls =
    if x.access = .payloadRead then .payload
    else if x.access = .chainAdvance then .cellLink
    else if x.access = .headRead then .freeLink
    else if x.access ≠ .freeNodeTake ∧ x.word = .content then .nodeContent else .nodeLink := by
  obtain ⟨memory, word, index, access, port, queue, desc⟩ := x
  cases access with
  | payloadRead | chainAdvance | headRead | freeNodeTake => rfl
  | fetch | drain => cases word <;> rfl

namespace State

theorem faultRecord_eq (s : State) (x : ErrorReport) (b : BaseAction) :
    s.faultRecord x b = s.recordOf x.cls x.memory x.index x.port x.queue x.desc x.word.position b := rfl

/-- A report alone knows its record by its place, the end of the fault list as it was (log 11). -/
theorem waiting_report (s : State) (x : ErrorReport) (b : BaseAction) :
    (s.report x b).integrity.waiting = s.integrity.waiting ++
      [⟨.completed, [⟨x.cls, x.port,
        if s.integrity.faults.length < 4 then some s.integrity.faults.length else none⟩]⟩] := by
  by_cases room : s.integrity.faults.length < 4 <;> simp [report, Config.faultListSize, room]

theorem completeRequest_eq (s : State) (n : Nat) :
    s.completeRequest n = { s with integrity := { s.integrity with
      waiting := s.integrity.waiting.take n ++
        requestOf .completed (stopping s.integrity.policy (s.integrity.reportsFrom n))
      faults := shownIn s.integrity.faults (passing s.integrity.policy (s.integrity.reportsFrom n)) .none } } := by
  rw [completeRequest, Integrity.complete_eq]
  rfl

end State

/-- Settles O40: the record, the report that waits, what stays, and the completion. -/
theorem reportsAreClassedNumberedAndListed : Obligations.ReportsAreClassedNumberedAndListed := by
  intro s x base cls t
  have class_eq : cls = x.cls := x.cls_eq.symm
  rw [class_eq, ← s.faultRecord_eq x base]
  exact ⟨reportedFault_report s x base, s.waiting_report x base, rfl, rfl, rfl, s.completeRequest_eq⟩

end Sys2Proof.Machine
end

section
/-!
SUPPORT. The escalation requests (R130 to R134, R141, R149): the report that a row makes step 3 of, and what the FENCE or the STOP does; the
teardown steps that an escalation still to come, or an open BEGIN, holds back (R141, R152); O50.
-/
namespace Sys2Proof.Machine

/-! ### The requests that do not call for an escalation -/

/-- The next report of a completed request is its first one that is left. -/
theorem ReportingRequest.next_completed {g : ReportingRequest} (h : ∀ p, g.stage ≠ .inProgress p) :
    g.next = g.reports.head? := by
  obtain ⟨stage, ws⟩ := g
  cases stage with
  | inProgress p => exact absurd rfl (h p)
  | completed | escalating => rfl

/-- A request in progress, or one whose first report gives something else, does not call for `e`. -/
theorem ReportingRequest.policy_next_ne {table : Policy} {e : Escalation} {g : ReportingRequest}
    (h : (∃ p, g.stage = .inProgress p) ∨ ∀ w, g.reports.head? = some w → table.of w.cls ≠ e) (w : Waiting)
    (hw : g.next = some w) : table.of w.cls ≠ e := by
  obtain ⟨stage, ws⟩ := g
  cases stage with
  | inProgress p => cases hw
  | completed | escalating =>
    rcases h with ⟨p, hp⟩ | h
    · cases hp
    · exact h w hw

/-! ### Step 3 of the report (R130) -/

/-- The Integrity Monitor after step 3, with `e`, of report `w` of a request that stood between `pre` and `post` with the reports `ws`
behind it. -/
def Integrity.escalated (i : Integrity) (e : Escalation) (pre post : List ReportingRequest) (w : Waiting)
    (ws : List Waiting) : Integrity :=
  { i with
    waiting := pre ++ requestOf .escalating (stopping i.policy ws) ++ post
    faults := shownIn (shownIn i.faults [w] e) (passing i.policy ws) .none }

namespace State
variable {s u : State} {e : Escalation} {p : Port}

theorem escalation_none (h : ∀ g ∈ s.integrity.waiting, (∃ p, g.stage = .inProgress p) ∨
    ∀ w, g.reports.head? = some w → s.integrity.policy.of w.cls ≠ e) : s.escalation e = none := by
  rw [escalation, escalate_none _ fun g hg => ReportingRequest.policy_next_ne (h g hg)]
  rfl

theorem escalation_first {pre post : List ReportingRequest} {stage : RequestStage} {w : Waiting} {ws : List Waiting}
    (hw : s.integrity.waiting = pre ++ ⟨stage, w :: ws⟩ :: post) (completed : ∀ p, stage ≠ .inProgress p)
    (he : s.integrity.policy.of w.cls = e)
    (passed : ∀ g ∈ pre, (∃ p, g.stage = .inProgress p) ∨
      ∀ v, g.reports.head? = some v → s.integrity.policy.of v.cls ≠ e) :
    s.escalation e = some (w.port, s.setIntegrity (s.integrity.escalated e pre post w ws)) := by
  rw [escalation, hw, escalate_first _ (fun g hg => ReportingRequest.policy_next_ne (passed g hg))
    (ReportingRequest.next_completed completed) rfl he]
  rfl

/-! ### The rows -/

theorem exec_fenceRequest_none (h : s.escalation .fence = none) : exec .fenceRequest s = .next s := by
  show execFenceRequest s = _
  rw [execFenceRequest, h]

theorem exec_fenceRequest_some (h : s.escalation .fence = some (p, u)) :
    exec .fenceRequest s = .next (u.fenceRequested p) := by
  show execFenceRequest s = _
  rw [execFenceRequest, h]

theorem exec_stopRequest_none (h : s.escalation .stop = none) : exec .stopRequest s = .next s := by
  show execStopRequest s = _
  rw [execStopRequest, h]

theorem exec_stopRequest_some (h : s.escalation .stop = some (p, u)) : exec .stopRequest s = .next u.stopRequested := by
  show execStopRequest s = _
  rw [execStopRequest, h]

/-! ### The FENCE (R133) and the STOP (R134, R149) -/

theorem fenceRequested_active (hx : s.exchange = .running) (hp : s.port p = .active) :
    s.fenceRequested p = s.startTeardown p .escalation .fenced := by
  simp only [fenceRequested, hx, fenceBy, hp]

theorem fenceRequested_resetting {t : Teardown} (hx : s.exchange = .running) (hp : s.port p = .resetting t) :
    s.fenceRequested p = s.setPort p (.resetting { t with endState := .fenced }) := by
  simp only [fenceRequested, hx, fenceBy, hp]

theorem fenceRequested_fenced (hx : s.exchange = .running) (hp : s.port p = .fenced) : s.fenceRequested p = s := by
  simp only [fenceRequested, hx, fenceBy, hp]

theorem fenceRequested_notRunning (hx : s.exchange ≠ .running) : s.fenceRequested p = s := by
  rw [fenceRequested]
  split
  · exact absurd ‹_› hx
  all_goals rfl

theorem stopRequested_running (hx : s.exchange = .running) :
    s.stopRequested = { s with exchange := .stopped, ports := .all .fenced } := by
  rw [stopRequested, hx]

theorem stopRequested_notRunning (hx : s.exchange ≠ .running) : s.stopRequested = s := by
  rw [stopRequested]
  split
  · exact absurd ‹_› hx
  all_goals rfl

/-! ### Teardown steps held back (R141, R152) -/

theorem betweenEscalations_iff : s.betweenEscalations p = true ↔
    ∃ g ∈ s.integrity.waiting, g.stage = .escalating ∧ (g.reports.head?).map (·.port) = some p := by
  simp only [betweenEscalations, List.any_eq_true, decide_eq_true_eq]

theorem teardownAt_heldBack (h : s.betweenEscalations p = true ∨ (s.front p).opening ≠ none) (n : Nat) :
    s.teardownAt p n = none := by
  rw [teardownAt]
  split
  · refine if_neg fun ⟨_, between, opening⟩ => ?_
    rcases h with h | h
    · rw [h] at between
      cases between
    · exact h opening
  · rfl

/-- No row of a teardown changes anything where no step of the teardown is made (log 9). -/
theorem exec_teardown_notMade (h : ∀ n, s.teardownAt p n = none) :
    exec (.teardownAbandon p) s = .next s ∧ exec (.teardownRelease p) s = .next s ∧
      exec (.teardownClose p) s = .next s ∧ exec (.teardownCloseComplete p) s = .next s ∧
      exec (.teardownEventReset p) s = .next s ∧ exec (.teardownEnd p) s = .next s := by
  refine ⟨?_, ?_, ?_, ?_, ?_, ?_⟩
  · show execTeardownAbandon p s = _
    rw [execTeardownAbandon, h]
  · show execTeardownRelease p s = _
    rw [execTeardownRelease, h]
  · show execTeardownClose p s = _
    rw [execTeardownClose, h]
  · show execTeardownCloseComplete p s = _
    rw [execTeardownCloseComplete, h]
  · show execTeardownEventReset p s = _
    rw [execTeardownEventReset, h]
  · show execTeardownEnd p s = _
    rw [execTeardownEnd, h]

end State

/-- Settles O50: no request calls for the row; the first that does, by the exchange state and, for a FENCE, the state of the reading
port; and the teardown steps held back. -/
theorem escalationsFenceOrStop : Obligations.EscalationsFenceOrStop := by
  refine ⟨fun e s h => ⟨?_, ?_⟩, ?called, fun p s h => ?heldBack⟩
  · rintro rfl
    exact State.exec_fenceRequest_none (State.escalation_none h)
  · rintro rfl
    exact State.exec_stopRequest_none (State.escalation_none h)
  case called =>
    intro e pre post stage w ws s hw completed he passed settled
    have step3 := State.escalation_first hw completed he passed
    refine ⟨?fence, ?stop⟩
    case fence =>
      rintro rfl
      rw [State.exec_fenceRequest_some step3]
      exact ⟨fun running => ⟨fun active => congrArg Host.Outcome.next (State.fenceRequested_active running active),
          fun t resetting => congrArg Host.Outcome.next (State.fenceRequested_resetting running resetting),
          fun fenced => congrArg Host.Outcome.next (State.fenceRequested_fenced running fenced)⟩,
        fun notRunning => congrArg Host.Outcome.next (State.fenceRequested_notRunning notRunning)⟩
    case stop =>
      rintro rfl
      rw [State.exec_stopRequest_some step3]
      exact ⟨fun running => congrArg Host.Outcome.next (State.stopRequested_running running),
        fun notRunning => congrArg Host.Outcome.next (State.stopRequested_notRunning notRunning)⟩
  case heldBack =>
    exact State.exec_teardown_notMade (State.teardownAt_heldBack (h.imp_left State.betweenEscalations_iff.mpr))

end Sys2Proof.Machine
end

section
/-!
SUPPORT. The power-on values (R146) and the end of a RESTART (R148): every record that RESET_N_ASSERT leaves, and the
announcement of RESTART_REBUILD_END to each port; O3 and O6.
-/
namespace Sys2Proof.Machine.State
variable {s : State}

/-! ### RESET_N_ASSERT (R146) -/

/-- The state that RESET_N_ASSERT leads to; the two records that it keeps are the model's own. -/
def poweredOn (s : State) (ma : BitVec 2) : State := { State.reset with ma := ma, fresh := s.fresh, pending := s.pending }

theorem exec_resetNAssert (s : State) (ma : BitVec 2) : exec (.resetNAssert ma) s = .next (s.poweredOn ma) := rfl

theorem port_poweredOn (s : State) (ma : BitVec 2) (p : Port) : (s.poweredOn ma).port p = .active := Quad.get_all _ _

theorem front_poweredOn (s : State) (ma : BitVec 2) (p : Port) : (s.poweredOn ma).front p = .reset := Quad.get_all _ _

theorem event_poweredOn (s : State) (ma : BitVec 2) (p : Port) : (s.poweredOn ma).event p = .reset := Quad.get_all _ _

theorem share_poweredOn (s : State) (ma : BitVec 2) (p : Port) : (s.poweredOn ma).share p = .reset := Quad.get_all _ _

theorem tracking_poweredOn (s : State) (ma : BitVec 2) (m : MemoryName) : (s.poweredOn ma).tracking m = ⟨0, false⟩ :=
  Quad.get_all _ _

theorem composeSlot_poweredOn (s : State) (ma : BitVec 2) (p : Port) (c : ComposeNo) :
    (s.poweredOn ma).composeSlot p c = .reset := by
  show ((Quad.all (.all .reset) : Quad (Quad ComposeSlot)).get p).get c = _
  rw [Quad.get_all, Quad.get_all]

theorem receiveSlot_poweredOn (s : State) (ma : BitVec 2) (p : Port) (r : ReceiveNo) :
    (s.poweredOn ma).receiveSlot p r = .reset := by
  show ((Quad.all (.all .reset) : Quad (Pair ReceiveSlot)).get p).get r = _
  rw [Quad.get_all, Pair.get_all]

/-- A front end at power-on: its command unit, its records, and its parameters (R164, R165, R168). -/
theorem frontEnd_reset_values : FrontEnd.reset.unit = .idle ∧ FrontEnd.reset.result0 = .ok ∧
    FrontEnd.reset.result1 = .absent ∧ FrontEnd.reset.lastCommand = none ∧ FrontEnd.reset.errorRecord = none ∧
      FrontEnd.reset.opening = none ∧ ∀ k, FrontEnd.reset.params.get k = 0 :=
  ⟨rfl, rfl, rfl, rfl, rfl, rfl, Quad.get_all _⟩

/-- Settles O3, record by record: the tables of each port by their accessors, the memories by what an empty one reads. -/
theorem resetAssertGivesPowerOnValues : Obligations.ResetAssertGivesPowerOnValues := by
  intro ma s
  have fifo : (s.poweredOn ma).pool.fifo = List.finRange 512 := reset_fifo
  have shares : ∀ p, ((s.poweredOn ma).share p).reserve = 128 ∧ ((s.poweredOn ma).share p).limit = 1024 ∧
      ((s.poweredOn ma).share p).charged = 0 ∧ ((s.poweredOn ma).share p).refused = 0 ∧
      ((s.poweredOn ma).share p).starving = false ∧ (s.poweredOn ma).timeouts.get p = 0 := fun p => by
    rw [share_poweredOn]
    exact ⟨rfl, rfl, rfl, rfl, rfl, Quad.get_all _ _⟩
  exact ⟨s.poweredOn ma, s.exec_resetNAssert ma, rfl, rfl, s.port_poweredOn ma,
    fun p => (s.front_poweredOn ma p).symm ▸ frontEnd_reset_values, s.composeSlot_poweredOn ma,
    s.receiveSlot_poweredOn ma, s.event_poweredOn ma, queue_rebuilt rfl, desc_rebuilt rfl, fifo, rfl, rfl, rfl, rfl, rfl,
    rfl, rfl, rfl, rfl, rfl, rfl, shares, rfl, rfl, rfl, rfl, s.tracking_poweredOn ma, rfl, rfl, rfl, rfl, rfl,
    Quad.get_all _, rfl, rfl, rfl, rfl⟩

/-! ### RESTART_REBUILD_END (R148, R176) -/

/-- RUNNING again, and the result of the RESTART shows OK. -/
def restartEnded (s : State) : State :=
  { s with exchange := .running, mgmt := { s.mgmt with busy := false, result := ⟨some 0x01, .ok, none⟩ } }

/-- An entry of its own for each port. -/
def sendEach (s : State) (x : Port → EventEntry) : State :=
  (((s.sendEvent 0 (x 0)).sendEvent 1 (x 1)).sendEvent 2 (x 2)).sendEvent 3 (x 3)

theorem event_sendEach (s : State) (x : Port → EventEntry) (p : Port) :
    (s.sendEach x).event p = (s.event p).arrive (x p) := by
  fin_cases p <;> rfl

theorem exec_restartRebuildEnd {o : RestartOrigin} (h : s.exchange = .restarting o) :
    exec .restartRebuildEnd s = .next (s.restartEnded.sendEach (restartedEntry o)) := by
  show execRestartRebuildEnd s = _
  rw [execRestartRebuildEnd, h]
  rfl

/-- An EXCHANGE_RESTARTED entry joins the empty queue of an event part with its power-on values (R116, R117). -/
theorem reset_arrive_exchangeRestarted (n : Nat) : EventPort.reset.arrive ⟨.exchangeRestarted, none, none, n⟩ =
    { EventPort.reset with queue := [⟨.exchangeRestarted, none, none, n⟩] } := by
  have enabled : ¬EventPort.reset.enables.getLsbD (EventKind.exchangeRestarted.value - 1) = false := by decide
  have room : ¬16 ≤ EventPort.reset.queue.length := by decide
  rw [EventPort.arrive_eq, if_neg enabled, if_neg room]
  rfl

/-- Settles O6: the entry that each port is sent, and what becomes of it where RESTART left the event part. -/
theorem restartEndAnnouncesItself : Obligations.RestartEndAnnouncesItself := by
  intro o s h
  have sent : ∀ p, (s.restartEnded.sendEach (restartedEntry o)).event p = (s.event p).arrive (restartedEntry o p) :=
    s.restartEnded.event_sendEach (restartedEntry o)
  refine ⟨_, exec_restartRebuildEnd h, rfl, rfl, sent, fun p fresh => ?_, rfl, rfl, rfl, rfl, rfl, rfl, rfl, rfl, rfl⟩
  have joined : (s.restartEnded.sendEach (restartedEntry o)).event p =
      { EventPort.reset with queue := [restartedEntry o p] } := by
    rw [sent, fresh]
    exact reset_arrive_exchangeRestarted _
  rw [joined]
  exact ⟨rfl, rfl⟩

end Sys2Proof.Machine.State
end

section
/-!
SUPPORT. The port commands of the management port (R150, R152, R158, R177): the checks that the three share, and what each
does by the state of the port; O47.
-/
namespace Sys2Proof.Machine
variable {s : State} {f : MgmtFields} {p : Port}

/-! ### The checks that the three commands share: the port number, then the exchange state -/

theorem portCommand_badPort (h : 3 < f.port.toNat) (act : Port → MgmtOutcome) :
    portCommand f s act = { state := s, result := .refusedParam } := by
  rw [portCommand, mgmtPort_none h]

theorem portCommand_stopped (hp : f.port.toNat = p.val) (hx : s.exchange = .stopped) (act : Port → MgmtOutcome) :
    portCommand f s act = { state := s, result := .refusedState } := by
  simp only [portCommand, mgmtPort_some hp, hx]

theorem portCommand_running (hp : f.port.toNat = p.val) (hx : s.exchange = .running) (act : Port → MgmtOutcome) :
    portCommand f s act = act p := by
  simp only [portCommand, mgmtPort_some hp, hx]

/-! ### What each command does, by the state of the port (R150, R158) -/

/-- What the owners of RESET_PORT, FENCE_PORT and UNFENCE_PORT give back. -/
structure PortOwners (f : MgmtFields) (s : State) (reset fence unfence : MgmtOutcome) : Prop where
  reset : resetPortOwner f s = reset
  fence : fencePortOwner f s = fence
  unfence : unfencePortOwner f s = unfence

theorem portOwners_badPort (h : 3 < f.port.toNat) : PortOwners f s { state := s, result := .refusedParam }
    { state := s, result := .refusedParam } { state := s, result := .refusedParam } :=
  ⟨portCommand_badPort h _, portCommand_badPort h _, portCommand_badPort h _⟩

theorem portOwners_stopped (hp : f.port.toNat = p.val) (hx : s.exchange = .stopped) : PortOwners f s { state := s, result := .refusedState }
    { state := s, result := .refusedState } { state := s, result := .refusedState } :=
  ⟨portCommand_stopped hp hx _, portCommand_stopped hp hx _, portCommand_stopped hp hx _⟩

theorem portOwners_active (hp : f.port.toNat = p.val) (hx : s.exchange = .running) (h : s.port p = .active) : PortOwners f s
    { state := s.startTeardown p .resetPort .active, result := .ok }
    { state := s.startTeardown p .fencePort .fenced, result := .ok }
    { state := s, result := .refusedState } where
  reset := by simp only [resetPortOwner, portCommand_running hp hx, h]
  fence := by simp only [fencePortOwner, portCommand_running hp hx, h, State.fenceBy]
  unfence := by simp only [unfencePortOwner, portCommand_running hp hx, h]

theorem portOwners_resetting {t : Teardown} (hp : f.port.toNat = p.val) (hx : s.exchange = .running)
    (h : s.port p = .resetting t) : PortOwners f s
      { state := s, result := .ok }
      { state := s.setPort p (.resetting { t with endState := .fenced }), result := .ok }
      { state := s, result := .refusedState } where
  reset := by simp only [resetPortOwner, portCommand_running hp hx, h]
  fence := by simp only [fencePortOwner, portCommand_running hp hx, h, State.fenceBy]
  unfence := by simp only [unfencePortOwner, portCommand_running hp hx, h]

theorem portOwners_fenced (hp : f.port.toNat = p.val) (hx : s.exchange = .running) (h : s.port p = .fenced) : PortOwners f s
    { state := s, result := .refusedState }
    { state := s, result := .refusedState }
    { state := (s.setPort p .active).sendEvent p (resetDoneEntry 2), result := .ok } where
  reset := by simp only [resetPortOwner, portCommand_running hp hx, h]
  fence := by simp only [fencePortOwner, portCommand_running hp hx, h]
  unfence := by simp only [unfencePortOwner, portCommand_running hp hx, h]

/-! ### The rows -/

/-- A command row whose owner refuses it changes no state outside the result register (R177). -/
theorem next_commandBytes_refused (hs : s.MgmtReady) {k : MgmtCommand} {code : BitVec 8}
    (hk : decodeMgmtCommand code = some k)
    {r : ResultCode} (hr : r = .refusedParam ∨ r = .refusedState)
    (owner : ∀ w, MgmtCommand.owner k f (s.threeBytes w) = { state := s.threeBytes w, result := r }) :
    (.next (s.commandBytes none ⟨code, f⟩) : Host.Outcome State Fault Refusal) = .next (s.mgmtRefused ⟨code, f⟩ r) := by
  rw [s.commandBytes_owned hs hk, owner]
  exact congrArg Host.Outcome.next (State.mgmtOwned_refused hs.2.1 _ _ hr)

/-- A command row whose owner carries it out (R176). -/
theorem next_commandBytes_taken (hs : s.MgmtReady) {k : MgmtCommand} {code : BitVec 8}
    (hk : decodeMgmtCommand code = some k)
    {u : State} (hu : u.mgmt = s.mgmt)
    (owner : ∀ w, MgmtCommand.owner k f (s.threeBytes w) = { state := u.threeBytes w, result := .ok }) :
    (.next (s.commandBytes none ⟨code, f⟩) : Host.Outcome State Fault Refusal) = .next (u.mgmtTaken ⟨code, f⟩ .ok none) :=
  congrArg Host.Outcome.next (exec_owner_taken hs hk hu owner)

/-- The three rows, from owners that all refuse. -/
theorem exec_portCommands_refused (hs : s.MgmtReady) {r : ResultCode} (hr : r = .refusedParam ∨ r = .refusedState)
    (owners : ∀ w, PortOwners f (s.threeBytes w) { state := s.threeBytes w, result := r }
      { state := s.threeBytes w, result := r } { state := s.threeBytes w, result := r }) :
    exec (.resetPort none f) s = .next (s.mgmtRefused ⟨0x02, f⟩ r) ∧
      exec (.fencePort none f) s = .next (s.mgmtRefused ⟨0x03, f⟩ r) ∧
      exec (.unfencePort none f) s = .next (s.mgmtRefused ⟨0x04, f⟩ r) :=
  ⟨next_commandBytes_refused hs (k := .resetPort) rfl hr fun w => (owners w).reset,
    next_commandBytes_refused hs (k := .fencePort) rfl hr fun w => (owners w).fence,
    next_commandBytes_refused hs (k := .unfencePort) rfl hr fun w => (owners w).unfence⟩

/-- Settles O47: the port number, the exchange state, and the state of the port. -/
theorem portCommandsFollowThePortState : Obligations.PortCommandsFollowThePortState := by
  intro f s hs started
  refine ⟨fun h => exec_portCommands_refused hs (.inl rfl) fun w => portOwners_badPort h, fun p hp => ⟨fun stopped =>
    exec_portCommands_refused hs (.inr rfl) fun w => portOwners_stopped hp stopped, fun running => ⟨fun active => ?active,
      fun t resetting => ?resetting, fun fenced => ?fenced⟩⟩⟩
  case active =>
    have owners := fun w => portOwners_active (s := s.threeBytes w) hp running active
    exact ⟨next_commandBytes_taken hs (k := .resetPort) rfl rfl fun w => (owners w).reset,
      next_commandBytes_taken hs (k := .fencePort) rfl rfl fun w => (owners w).fence,
      next_commandBytes_refused hs (k := .unfencePort) rfl (.inr rfl) fun w => (owners w).unfence⟩
  case resetting =>
    have owners := fun w => portOwners_resetting (s := s.threeBytes w) hp running resetting
    exact ⟨next_commandBytes_taken hs (k := .resetPort) rfl rfl fun w => (owners w).reset,
      next_commandBytes_taken hs (k := .fencePort) rfl rfl fun w => (owners w).fence,
      next_commandBytes_refused hs (k := .unfencePort) rfl (.inr rfl) fun w => (owners w).unfence⟩
  case fenced =>
    have owners := fun w => portOwners_fenced (s := s.threeBytes w) hp running fenced
    exact ⟨next_commandBytes_refused hs (k := .resetPort) rfl (.inr rfl) fun w => (owners w).reset,
      next_commandBytes_refused hs (k := .fencePort) rfl (.inr rfl) fun w => (owners w).fence,
      next_commandBytes_taken hs (k := .unfencePort) rfl rfl fun w => (owners w).unfence⟩

end Sys2Proof.Machine
end

section
/-!
SUPPORT. A teardown's first and last steps (R151, R152, R154, R155): PORT_RESET, which starts one, the reset of the
event part, and the end; O53.
-/
namespace Sys2Proof.Machine
variable {s : State} {p : Port} {t : Teardown}

/-- R154: the command unit is IDLE; the results change only for origin PORT_RESET. -/
theorem FrontEnd.tornDown_eq (x : FrontEnd) (o : TeardownOrigin) : x.tornDown o =
    if o = .portReset then { x with unit := .idle, result0 := .ok, result1 := .absent } else { x with unit := .idle } := by
  cases o <;> rfl

namespace State

theorem exec_teardownEventReset (h : s.TearsDown p t 4) : exec (.teardownEventReset p) s =
    .next (((s.setEvent p .reset).setFront p ((s.front p).tornDown t.origin)).setTeardown p { t with step := 5 }) := by
  show execTeardownEventReset p s = _
  rw [execTeardownEventReset, teardownAt_of_tearsDown h]

theorem exec_teardownEnd_fenced (h : s.TearsDown p t 5) (he : t.endState = .fenced) :
    exec (.teardownEnd p) s = .next (s.setPort p .fenced) := by
  show execTeardownEnd p s = _
  simp only [execTeardownEnd, teardownAt_of_tearsDown h, he]

theorem exec_teardownEnd_active (h : s.TearsDown p t 5) (he : t.endState = .active) : exec (.teardownEnd p) s =
    .next ((s.setPort p .active).sendEvent p (resetDoneEntry t.origin.value)) := by
  show execTeardownEnd p s = _
  simp only [execTeardownEnd, teardownAt_of_tearsDown h, he]

end State

/-- The detail of PORT_RESET_DONE for the two origins whose teardown can end ACTIVE (11.4). -/
theorem TeardownOrigin.value_of_reset {o : TeardownOrigin} (h : o = .portReset ∨ o = .resetPort) :
    o.value = if o = .portReset then 0 else 1 := by
  rcases h with rfl | rfl <;> rfl

/-- Settles O53: the start by PORT_RESET, step 4, and step 5 by the end state. -/
theorem portResetStartsAndTeardownEnds : Obligations.PortResetStartsAndTeardownEnds := by
  refine fun p s => ⟨fun f ready => exec_of_takeCommand (owner := portReset p) rfl ready rfl,
    fun t h => ?step4, fun t h => ⟨fun fenced => State.exec_teardownEnd_fenced h fenced, fun active origin => ?ends⟩⟩
  case step4 =>
    rw [State.exec_teardownEventReset h, FrontEnd.tornDown_eq]
    rfl
  case ends =>
    rw [State.exec_teardownEnd_active h active, TeardownOrigin.value_of_reset origin]
    rfl

end Sys2Proof.Machine
end

section
/-!
SUPPORT. Accesses that decode refuses and status reads (R160 to R162, R164), and the place of each register in the agent window (11.2);
O7.
-/
namespace Sys2Proof.Machine
variable {s : State} {p : Port} {a : BitVec 16}

/-! ### Decode (R161) -/

theorem decodeAddress_misaligned (h : a.toNat % 4 ≠ 0) : decodeAddress a = .misaligned := if_pos h

/-- The gaps of the register range. -/
theorem decodeRegister_none {n : Nat} (h : 0x98 ≤ n ∨ n = 0x3C ∨ n = 0x78 ∨ n = 0x7C) : decodeRegister n = none := by
  simp (disch := omega) only [decodeRegister, if_neg]

/-- The registers end at 0x94 and have three gaps; no range lies between them and the compose apertures or above the receive ones. -/
theorem decodeAddress_unmapped (aligned : a.toNat % 4 = 0)
    (h : 0x2800 ≤ a.toNat ∨ (0x0100 ≤ a.toNat ∧ a.toNat < 0x1000) ∨ (0x98 ≤ a.toNat ∧ a.toNat < 0x0100) ∨
      a.toNat = 0x3C ∨ a.toNat = 0x78 ∨ a.toNat = 0x7C) : decodeAddress a = .unmapped := by
  by_cases low : a.toNat ≤ 0x00FF
  · have gap : decodeRegister a.toNat = none := decodeRegister_none (by omega)
    simp only [decodeAddress, aligned, ne_eq, not_true, if_false, if_pos low, gap]
  · simp (disch := omega) only [decodeAddress, if_neg]

/-! ### The access (R160, R162) -/

theorem agentAccess_opening {o : Opening} (h : (s.front p).opening = some o) (a : BitVec 16) (x : Access) :
    agentAccess p a x s = s := by
  rw [agentAccess, State.oneAccess, h]

theorem agentAccess_free (h : (s.front p).opening = none) (a : BitVec 16) (x : Access) :
    agentAccess p a x s = decodedAccess p a x s := by
  rw [agentAccess, State.oneAccess, h]

theorem decodedAccess_misaligned (h : decodeAddress a = .misaligned) (p : Port) (x : Access) (s : State) :
    decodedAccess p a x s = s.refusedAccess p a .misaligned := by
  rw [decodedAccess, h]
  rfl

theorem decodedAccess_unmapped (h : decodeAddress a = .unmapped) (p : Port) (x : Access) (s : State) :
    decodedAccess p a x s = s.refusedAccess p a .unmapped := by
  rw [decodedAccess, h]
  rfl

/-- R162: every register but the event head is read in every exchange and port state. -/
theorem readRegister_status {reg : PortRegister} (h : reg ≠ .eventHead) (p : Port) (a : BitVec 16) (s : State) :
    readRegister p a reg s = s.answered p (.okayRead (s.portRegister p reg)) := by
  cases reg with
  | eventHead => exact absurd rfl h
  | _ => rfl

theorem decodedAccess_status {reg : PortRegister} (ha : decodeAddress a = .register reg) (h : reg ≠ .eventHead)
    (p : Port) (s : State) : decodedAccess p a .read s = s.answered p (.okayRead (s.portRegister p reg)) := by
  simp only [decodedAccess, ha, readRegister_status h]

/-- Settles O7: an open BEGIN, the two refusals of decode, the status read, and the places of the registers. -/
theorem decodeErrorsAndStatusReadsChangeNothingElse : Obligations.DecodeErrorsAndStatusReadsChangeNothingElse := by
  refine ⟨fun p a x o s opened => congrArg _ (agentAccess_opening opened a x),
    fun p a x s free => ⟨fun odd => congrArg Host.Outcome.next ?misaligned,
      fun aligned gap => congrArg Host.Outcome.next ?unmapped⟩,
    fun p a reg s ha other free => congrArg Host.Outcome.next ?status, by decide, by decide, by decide⟩
  case misaligned => rw [agentAccess_free free, decodedAccess_misaligned (decodeAddress_misaligned odd)]
  case unmapped => rw [agentAccess_free free, decodedAccess_unmapped (decodeAddress_unmapped aligned gap)]
  case status => rw [agentAccess_free free, decodedAccess_status ha other]

end Sys2Proof.Machine
end

section
/-!
SUPPORT. What an acting access is answered outside RUNNING and ACTIVE (R160, R163), what each agent row runs as, and the taking of a
command word (R166); O8 and O9.
-/
namespace Sys2Proof.Machine
variable {s : State} {p : Port} {a : BitVec 16}

/-! ### The gate (R160, R163) -/

namespace State

theorem acting_opening {o : Opening} (h : (s.front p).opening = some o) (a : BitVec 16) (f : State → State) :
    s.acting p a f = s := by
  rw [acting, oneAccess, h]

/-- R160 is asked once: an acting access asks it itself. -/
theorem oneAccess_acting (s : State) (p : Port) (a : BitVec 16) (f : State → State) :
    s.oneAccess p (·.acting p a f) = s.acting p a f := by
  cases h : (s.front p).opening with
  | none => rw [oneAccess, h]
  | some o => rw [oneAccess, h, acting_opening h]

theorem acting_init (ho : (s.front p).opening = none) (hx : s.exchange = .init) (a : BitVec 16) (f : State → State) :
    s.acting p a f = s.answered p .retry := by
  simp only [acting, oneAccess, ho, hx]
  rfl

theorem acting_restarting (ho : (s.front p).opening = none) {o : RestartOrigin} (hx : s.exchange = .restarting o)
    (a : BitVec 16) (f : State → State) : s.acting p a f = s.answered p .retry := by
  simp only [acting, oneAccess, ho, hx]
  rfl

theorem acting_stopped (ho : (s.front p).opening = none) (hx : s.exchange = .stopped) (a : BitVec 16)
    (f : State → State) : s.acting p a f = s.refusedAccess p a .stopped := by
  simp only [acting, oneAccess, ho, hx]
  rfl

theorem acting_resetting (ho : (s.front p).opening = none) (hx : s.exchange = .running) {t : Teardown}
    (hp : s.port p = .resetting t) (a : BitVec 16) (f : State → State) : s.acting p a f = s.answered p .retry := by
  simp only [acting, oneAccess, ho, hx, hp]
  rfl

theorem acting_fenced (ho : (s.front p).opening = none) (hx : s.exchange = .running) (hp : s.port p = .fenced)
    (a : BitVec 16) (f : State → State) : s.acting p a f = s.refusedAccess p a .fenced := by
  simp only [acting, oneAccess, ho, hx, hp]
  rfl

/-- R166: a BUSY command unit answers RETRY. -/
theorem commandAccess_busy (h : s.Serves p) (busy : (s.front p).unit ≠ .idle) (f : State → State) :
    s.commandAccess p f = s.answered p .retry := by
  rw [commandAccess, acting_serves h]
  cases hu : (s.front p).unit with
  | idle => exact absurd hu busy
  | closing q => rfl
  | resetting => rfl

/-! ### The read data (R160) -/

theorem readData_answered (s : State) (p : Port) (x : Answer) : (s.answered p x).readData p = x.readData :=
  congrArg (fun y : FrontEnd => y.answer.bind (·.readData)) (front_setFront_self s p { s.front p with answer := some x })

theorem readData_refusedAccess (s : State) (p : Port) (a : BitVec 16) (r : ErrorReason) :
    (s.refusedAccess p a r).readData p = some 0 :=
  congrArg (fun y : FrontEnd => y.answer.bind (·.readData))
    (front_setFront_self s p { s.front p with answer := some .error, errorRecord := some ⟨r, a⟩ })

end State

/-! ### What an agent row runs as (R162, R166) -/

/-- The row of an acting access: a command word for the command register, or an access of another target. -/
def RunsAsAccess (i : Instr) (p : Port) (a : BitVec 16) : Prop :=
  (a = commandAddress ∧ ∃ f, ∀ s, exec i s = .next (s.commandAccess p f)) ∨
    (a ≠ commandAddress ∧ ∃ f, ∀ s, exec i s = .next (s.acting p a f))

/-- Either way the exchange and port states are asked first (R163). -/
theorem RunsAsAccess.acting {i : Instr} (h : RunsAsAccess i p a) : ∃ f, ∀ s, exec i s = .next (s.acting p a f) := by
  obtain ⟨rfl, f, hf⟩ | ⟨-, h⟩ := h
  · exact ⟨_, hf⟩
  · exact h

theorem RunsAsAccess.command {i : Instr} (h : RunsAsAccess i p commandAddress) :
    ∃ f, ∀ s, exec i s = .next (s.commandAccess p f) := by
  obtain ⟨-, h⟩ | ⟨other, -⟩ := h
  · exact h
  · exact absurd rfl other

theorem decodeAddress_commandAddress : decodeAddress commandAddress = .register .command := rfl

theorem ne_commandAddress (h : decodeAddress a ≠ .register .command) : a ≠ commandAddress := fun e =>
  h (e ▸ decodeAddress_commandAddress)

theorem composeAddress_ne_commandAddress (c : ComposeNo) (word : BitVec 8) : composeAddress c word ≠ commandAddress :=
  ne_commandAddress (by rw [Laws.decode_composeAddress]; exact nofun)

theorem receiveAddress_ne_commandAddress (r : ReceiveNo) (word : BitVec 8) : receiveAddress r word ≠ commandAddress :=
  ne_commandAddress (by rw [Laws.decode_receiveAddress]; exact nofun)

/-- A write to a register that has no row of its own names a register other than the command register. -/
theorem decode_of_writeHasNoRow (h : writeHasNoRow a = true) :
    ∃ reg, decodeAddress a = .register reg ∧ reg ≠ .command := by
  cases ha : decodeAddress a with
  | register reg =>
    refine ⟨reg, rfl, ?_⟩
    rintro rfl
    simp [writeHasNoRow, ha] at h
  | _ => simp [writeHasNoRow, ha] at h

/-- A register write other than a command word is an acting access of its register (R165). -/
theorem writeRegister_acting {reg : PortRegister} (h : reg ≠ .command) (p : Port) (a : BitVec 16) (data : Word) :
    ∃ f, ∀ s, writeRegister p a reg data s = s.acting p a f := by
  cases reg with
  | command => exact absurd rfl h
  | _ => exact ⟨_, fun _ => rfl⟩

theorem registerWrite_runs (h : writeHasNoRow a = true) (p : Port) (data : Word) :
    RunsAsAccess (.registerWrite p a data) p a := by
  obtain ⟨reg, ha, other⟩ := decode_of_writeHasNoRow h
  obtain ⟨f, hf⟩ := writeRegister_acting other p a data
  have decoded : decodedAccess p a (.write data) = fun s => s.acting p a f := by
    funext s
    simp only [decodedAccess, ha]
    exact hf s
  refine .inr ⟨ne_commandAddress (by simpa [ha] using other), f, fun s => congrArg Host.Outcome.next ?_⟩
  rw [agentAccess, decoded]
  exact s.oneAccess_acting p a f

/-- A BEGIN, whole or as far as its first link request; its second part is no access of its own (R77). -/
theorem beginMessage_runs {q : Port} {f : BeginFields} (h : actingAccess (.beginMessage q f) = some (p, a)) :
    RunsAsAccess (.beginMessage q f) p a := by
  obtain ⟨fields, part⟩ := f
  cases part with
  | whole | first =>
    cases h
    exact .inl ⟨rfl, _, fun _ => rfl⟩
  | second => cases h

/-- Every agent row is the access that the statements read from it. -/
theorem runsAsAccess_of_actingAccess {i : Instr} (wf : WellFormed i = true) (h : actingAccess i = some (p, a)) :
    RunsAsAccess i p a := by
  cases i with
  | registerWrite _ b data =>
    cases h
    exact registerWrite_runs wf p data
  | beginMessage => exact beginMessage_runs h
  | commandCodeInvalid | openQueue | modifyQueue | closeQueue | queryQueue | sealMessage | abandonMessage | fetchMessage
  | rewindMessage | releaseMessage | portReset =>
    cases h
    exact .inl ⟨rfl, _, fun _ => rfl⟩
  | composeApertureWrite q c word | composeApertureRead q c word =>
    cases h
    exact .inr ⟨composeAddress_ne_commandAddress c word, _, fun _ => rfl⟩
  | receiveApertureRead q r word | receiveApertureWrite q r word =>
    cases h
    exact .inr ⟨receiveAddress_ne_commandAddress r word, _, fun _ => rfl⟩
  | eventHeadRead | eventEnableWrite | interruptEnableWrite =>
    cases h
    exact .inr ⟨by decide, _, fun _ => rfl⟩
  | _ => cases h

/-- Settles O8: a port whose BEGIN is open, the exchange and port states, and the read data. -/
theorem actingAccessesAreGatedByExchangeAndPort : Obligations.ActingAccessesAreGatedByExchangeAndPort := by
  refine ⟨fun i p a o s wf access opened => ?opened, fun i p a s wf access ho => ?gated, fun p a r v s =>
    ⟨s.readData_answered p _, s.readData_answered p _, s.readData_refusedAccess p a r⟩⟩
  case opened =>
    obtain ⟨f, hf⟩ := (runsAsAccess_of_actingAccess wf access).acting
    rw [hf, State.acting_opening opened]
  case gated =>
    obtain ⟨f, hf⟩ := (runsAsAccess_of_actingAccess wf access).acting
    rw [hf]
    exact ⟨fun hx => congrArg _ (State.acting_init ho hx a f), fun o hx => congrArg _ (State.acting_restarting ho hx a f),
      fun hx => congrArg _ (State.acting_stopped ho hx a f),
      fun hx t hp => congrArg _ (State.acting_resetting ho hx hp a f),
      fun hx hp => congrArg _ (State.acting_fenced ho hx hp a f)⟩

/-! ### Command words (R166) -/

theorem decodeAgentCommand_none {code : BitVec 8}
    (h : code ∉ [0x01, 0x02, 0x03, 0x04, 0x10, 0x11, 0x12, 0x20, 0x21, 0x22, 0x30]) : decodeAgentCommand code = none := by
  simp only [List.mem_cons, List.not_mem_nil, not_or] at h
  simp only [decodeAgentCommand, h, if_false]

/-- A word whose code is no command has no owner. -/
theorem commandOwner_unassigned {c : CommandWord} (h : decodeAgentCommand c.code = none) (p : Port) (s : State) :
    commandOwner p c s = { state := s, code := .refusedParam } := by
  rw [commandOwner, h]

/-- Settles O9: a BUSY unit, and an IDLE one with a word of no code. -/
theorem busyUnitsRetryAndInvalidCodesAreRefused : Obligations.BusyUnitsRetryAndInvalidCodesAreRefused := by
  refine ⟨fun i p s wf access serves busy => ?_, fun p code f s ready unassigned =>
    exec_of_takeCommand rfl ready (commandOwner_unassigned (decodeAgentCommand_none unassigned) p s)⟩
  obtain ⟨f, hf⟩ := (runsAsAccess_of_actingAccess wf access).command
  rw [hf, State.commandAccess_busy serves busy]

end Sys2Proof.Machine
end

section
/-!
SUPPORT. The words of the port registers (R164, R168 to R170, 11.2, 11.3), each by the fields of the record that it shows; O13.
-/
namespace Sys2Proof.Machine
variable {s : State} {p : Port}

/-! ### Fields of a word (R180) -/

/-- A word with one field, at its low end. -/
theorem pack_low {k v : Nat} (h : v < 2 ^ k) : pack [(0, k, v)] = BitVec.ofNat 32 v := by
  simp [pack, Nat.mod_eq_of_lt h]

theorem bits_of_optional_none {w : Word} {lo k : Nat} {v : Option Nat} (hw : bits w lo k = optional k v % 2 ^ k)
    (h : v = none) : bits w lo k = 2 ^ k - 1 := by
  rw [hw, optional_mod k v (by simp [h]), h]
  rfl

theorem bits_of_optional_some {w : Word} {lo k n : Nat} {v : Option Nat} (hw : bits w lo k = optional k v % 2 ^ k)
    (h : v = some n) (hn : n < 2 ^ k) : bits w lo k = n := by
  rw [hw, optional_mod k v (by simpa [h] using hn), h]
  rfl

/-- A count shown in a field that is wide enough. -/
theorem eq_of_mod_two_pow {w : Word} {lo k n : Nat} (hw : bits w lo k = n % 2 ^ k) (hn : n < 2 ^ k) : bits w lo k = n :=
  hw.trans (Nat.mod_eq_of_lt hn)

/-! ### Codes fit their fields (chapter 11) -/

theorem ErrorReason.value_lt (x : ErrorReason) : x.value < 16 := by cases x <;> decide

theorem ResultCode.value_lt (x : ResultCode) : x.value < 16 := by cases x <;> decide

@[simp] theorem MessageState.value_mod (x : MessageState) : x.value % 4 = x.value := by cases x <;> rfl

theorem QueueMode.value_lt (x : QueueMode) : x.value < 4 := by cases x <;> decide

@[simp] theorem ComposePhase.value_mod (x : ComposePhase) : x.value % 4 = x.value := by cases x <;> rfl

theorem desc_mod (d : DescNo) : d.val % 1024 = d.val := Nat.mod_eq_of_lt (d.isLt.trans_le (by decide : 512 ≤ 1024))

theorem queue_mod (q : QueueNo) : q.val % 64 = q.val := Nat.mod_eq_of_lt (q.isLt.trans_le (by decide : 32 ≤ 64))

@[simp] theorem port_mod (x : Port) : x.val % 4 = x.val := Nat.mod_eq_of_lt x.isLt

/-! ### Port status, the error record and the command word (R164, R168, R169) -/

theorem State.portStatusWord_fields (s : State) (p : Port) :
    bits (s.portStatusWord p) 0 2 = p.val ∧ bits (s.portStatusWord p) 2 2 = s.exchange.value ∧
      bits (s.portStatusWord p) 4 2 = (s.port p).tag.value ∧
      bits (s.portStatusWord p) 6 1 = boolBit (decide ((s.front p).unit ≠ .idle)) ∧
      bits (s.portStatusWord p) 8 8 = optional 8 (s.front p).unit.progress.1 % 2 ^ 8 ∧
      bits (s.portStatusWord p) 16 6 = optional 6 (s.front p).unit.progress.2 % 2 ^ 6 := by
  simp [portStatusWord]

theorem FrontEnd.errorWord_none {f : FrontEnd} (h : f.errorRecord = none) :
    bits f.errorWord 0 4 = 0 ∧ bits f.errorWord 16 16 = 0xFFFF := by
  simp [errorWord, h, optional]

theorem FrontEnd.errorWord_some {f : FrontEnd} {r : ErrorRecord} (h : f.errorRecord = some r) :
    bits f.errorWord 0 4 = r.reason.value ∧ bits f.errorWord 16 16 = r.offset.toNat := by
  simp [errorWord, h, Nat.mod_eq_of_lt r.reason.value_lt, Nat.mod_eq_of_lt r.offset.isLt]

theorem CommandWord.toWord_fields (c : CommandWord) :
    bits c.toWord 0 8 = c.code.toNat ∧ bits c.toWord 8 4 = c.fields.slot.toNat ∧
      bits c.toWord 16 8 = c.fields.queue.toNat := by
  simp [toWord, Nat.mod_eq_of_lt c.code.isLt, Nat.mod_eq_of_lt c.fields.slot.isLt, Nat.mod_eq_of_lt c.fields.queue.isLt]

theorem State.lastCommandWord_none (h : (s.front p).lastCommand = none) : s.portRegister p .command = absentWord := by
  simp only [portRegister, h]

theorem State.lastCommandWord_some {c : CommandWord} (h : (s.front p).lastCommand = some c) :
    s.portRegister p .command = c.toWord := by
  simp only [portRegister, h]

/-! ### RESULT1 (R168, 11.3) -/

namespace Result1

theorem word_depth {n : Nat} (h : n ≤ 1024) : bits (Result1.depth n).word 0 11 = n :=
  eq_of_mod_two_pow (bits_pack_last 0 11 n (by decide)) (by omega)

theorem word_query_closed {n : Nat} (h : n ≤ 1024) :
    let w := (Result1.query .closed n none).word
    bits w 0 11 = n ∧ bits w 11 11 = 0x7FF ∧ bits w 22 2 = 0 ∧ bits w 24 2 = 3 ∧ bits w 26 4 = 15 ∧ bits w 30 2 = 3 := by
  have depth : n % 2048 = n := Nat.mod_eq_of_lt (by omega)
  simp [word, optional, QueueTag.value, depth]

theorem word_query_live (st : QueueTag) {n : Nat} (lv : QueryLive) (h : n ≤ 1024) (hl : lv.limit ≤ 1024) :
    let w := (Result1.query st n (some lv)).word
    bits w 0 11 = n ∧ bits w 11 11 = lv.limit ∧ bits w 22 2 = st.value ∧ bits w 24 2 = lv.consumer.val ∧
      bits w 26 4 = lv.mask.toNat ∧ bits w 30 2 = lv.mode.value := by
  have depth : n % 2048 = n := Nat.mod_eq_of_lt (by omega)
  have limit : lv.limit % 2048 = lv.limit := Nat.mod_eq_of_lt (by omega)
  simp [word, optional, depth, limit, Nat.mod_eq_of_lt lv.mask.isLt, Nat.mod_eq_of_lt lv.mode.value_lt]

theorem word_close {drained stranded : Nat} (hd : drained ≤ 1024) (hs : stranded ≤ 1024) :
    let w := (Result1.close drained stranded).word
    bits w 0 11 = drained ∧ bits w 16 11 = stranded := by
  have first : drained % 2048 = drained := Nat.mod_eq_of_lt (by omega)
  have second : stranded % 2048 = stranded := Nat.mod_eq_of_lt (by omega)
  simp [word, first, second]

end Result1

theorem MessageResult.word_fields {m : MessageResult} (h : m ≠ {}) :
    bits m.word 0 10 = (m.desc.map (·.val)).getD 0x3FF ∧ bits m.word 10 2 = (m.poisoned.map boolBit).getD 3 ∧
      bits m.word 12 3 = optional 3 m.linked % 2 ^ 3 ∧ bits m.word 16 3 = optional 3 m.dropped % 2 ^ 3 ∧
      bits m.word 20 3 = optional 3 m.holders % 2 ^ 3 ∧ bits m.word 24 3 = optional 3 m.failing % 2 ^ 3 ∧
      bits m.word 28 4 = (m.sealOutcome.map (·.value)).getD 15 := by
  have poisoned : optional 2 (m.poisoned.map boolBit) % 4 = (m.poisoned.map boolBit).getD 3 := by
    rcases m.poisoned with _ | _ | _ <;> rfl
  have outcome : optional 4 (m.sealOutcome.map (·.value)) % 16 = (m.sealOutcome.map (·.value)).getD 15 :=
    optional_mod 4 _ fun n hn => by
      obtain ⟨c, -, rfl⟩ := Option.map_eq_some_iff.mp hn
      exact c.value_lt
  simp [word, h, poisoned, outcome]

theorem MessageResult.word_absent : MessageResult.word {} = absentWord := if_pos rfl

theorem FetchResult.word_fields (x : FetchResult) :
    bits x.word 0 10 = x.desc.val ∧ bits x.word 10 2 = x.source.val ∧ bits x.word 12 2 = x.state.value ∧
      (bits x.word 14 1 = 1 ↔ x.poisoned = true) ∧ (bits x.word 15 1 = 1 ↔ x.linkBroken = true) ∧
      bits x.word 16 16 = x.tag.toNat := by
  simp [word, desc_mod, Nat.mod_eq_of_lt x.tag.isLt]

/-! ### The event registers (R117, R120, R123) -/

theorem EventPort.tagWord_fields (e : EventPort) :
    bits e.tagWord 0 16 = (e.tagLatch.map (·.toNat)).getD 0xFFFF ∧ bits e.tagWord 16 1 = boolBit e.tagLatch.isSome := by
  simp [tagWord]

theorem EventPort.statusWord_fields (e : EventPort) :
    bits e.statusWord 0 5 = e.queue.length % 2 ^ 5 ∧ (bits e.statusWord 8 1 = 1 ↔ e.overflow = true) ∧
      (bits e.statusWord 9 1 = 1 ↔ e.interrupt = true) ∧ (bits e.statusWord 10 1 = 1 ↔ e.intAsserted = true) := by
  simp [statusWord]

theorem enableWord_eq (e : BitVec 12) : pack [(0, 12, e.toNat)] = e.setWidth 32 :=
  (pack_low e.isLt).trans (BitVec.eq_of_toNat_eq (by simp))

theorem interruptWord_eq (b : Bool) : pack [(0, 1, boolBit b)] = if b then 1 else 0 := by
  cases b <;> rfl

/-! ### The slot status registers (R170) -/

namespace State

theorem composeStatusA_flags (s : State) (p : Port) (c : ComposeNo) :
    bits (s.composeStatusA p c) 0 2 = (s.composeSlot p c).phase.value ∧
      (bits (s.composeStatusA p c) 2 1 = 1 ↔ (s.composeSlot p c).starved = true) ∧
      (bits (s.composeStatusA p c) 3 1 = 1 ↔ (s.composeSlot p c).lengthError = true) := by
  simp [composeStatusA]

theorem composeStatusA_idle {c : ComposeNo} (h : (s.composeSlot p c).phase = .idle) :
    bits (s.composeStatusA p c) 0 2 = 0 ∧ bits (s.composeStatusA p c) 4 10 = 0x3FF ∧
      bits (s.composeStatusA p c) 16 15 = 0x7FFF := by
  simp [composeStatusA, h, ComposePhase.value, ComposePhase.composing, optional]

theorem composeStatusA_composes {c : ComposeNo} {k : Composing} {m : Message} (h : s.Composes p c k m) :
    bits (s.composeStatusA p c) 4 10 = k.desc.val ∧ bits (s.composeStatusA p c) 16 15 = m.written % 2 ^ 15 := by
  simp [composeStatusA, composing_of_composes h, message_of_live h.1, optional, desc_mod]

theorem composeStatusB_held {c : ComposeNo} {k : Composing} {n : Nat} (h : (s.composeSlot p c).phase = .held k n)
    (hn : n ≤ 16384) : bits (s.composeStatusB p c) 0 15 = n := by
  have fits : n % 32768 = n := Nat.mod_eq_of_lt (by omega)
  simp [composeStatusB, h, ComposePhase.heldLength, fits]

theorem composeStatusB_absent {c : ComposeNo} (h : ∀ k n, (s.composeSlot p c).phase ≠ .held k n) :
    s.composeStatusB p c = absentWord := by
  cases hc : (s.composeSlot p c).phase with
  | held k n => exact absurd hc (h k n)
  | idle | filling => simp only [composeStatusB, hc, ComposePhase.heldLength]

theorem receiveStatusA_flags (s : State) (p : Port) (r : ReceiveNo) :
    (bits (s.receiveStatusA p r) 1 1 = 1 ↔ (s.receiveSlot p r).overread = true) ∧
      (bits (s.receiveStatusA p r) 2 1 = 1 ↔ (s.receiveSlot p r).poisonHit = true) ∧
      (bits (s.receiveStatusA p r) 3 1 = 1 ↔ (s.receiveSlot p r).abandonSeen = true) ∧
      (bits (s.receiveStatusA p r) 4 1 = 1 ↔ (s.receiveSlot p r).linkHit = true) := by
  simp [receiveStatusA]

theorem receiveStatusA_idle {r : ReceiveNo} (h : (s.receiveSlot p r).phase = .idle) :
    bits (s.receiveStatusA p r) 0 1 = 0 ∧ bits (s.receiveStatusA p r) 5 6 = 0x3F ∧
      bits (s.receiveStatusA p r) 16 10 = 0x3FF ∧ bits (s.receiveStatusA p r) 28 2 = 3 ∧
      bits (s.receiveStatusA p r) 30 1 = 1 ∧ bits (s.receiveStatusA p r) 31 1 = 1 := by
  simp [receiveStatusA, h, ReceivePhase.holds, optional, boolBit]

theorem receiveStatusBC_idle {r : ReceiveNo} (h : (s.receiveSlot p r).phase = .idle) :
    s.receiveStatusB p r = absentWord ∧ s.receiveStatusC p r = absentWord := by
  simp [receiveStatusB, receiveStatusC, h, ReceivePhase.holds]

section
variable {r : ReceiveNo} {h : Holding} {m : Message}

theorem receiveStatusA_receives (hr : s.Receives p r h m) :
    bits (s.receiveStatusA p r) 0 1 = 1 ∧ bits (s.receiveStatusA p r) 5 6 = h.source.val ∧
      bits (s.receiveStatusA p r) 16 10 = h.desc.val ∧ bits (s.receiveStatusA p r) 28 2 = m.state.value ∧
      (bits (s.receiveStatusA p r) 30 1 = 1 ↔ m.poison ≠ none) ∧
      (bits (s.receiveStatusA p r) 31 1 = 1 ↔ m.linkBroken = true) := by
  obtain ⟨live, phase⟩ := hr
  simp [receiveStatusA, phase, ReceivePhase.holds, message_of_live live, optional, desc_mod, queue_mod,
    Option.isSome_iff_ne_none]

theorem receiveStatusB_receives (hr : s.Receives p r h m) :
    bits (s.receiveStatusB p r) 0 15 = h.offset % 2 ^ 15 ∧ bits (s.receiveStatusB p r) 16 15 = m.readable % 2 ^ 15 := by
  obtain ⟨live, phase⟩ := hr
  simp [receiveStatusB, phase, ReceivePhase.holds, message_of_live live, optional]

theorem receiveStatusC_clean (hr : s.Receives p r h m) (hm : m.poison = none) : s.receiveStatusC p r = absentWord := by
  obtain ⟨live, phase⟩ := hr
  simp [receiveStatusC, phase, ReceivePhase.holds, message_of_live live, hm]

theorem receiveStatusC_poisoned (hr : s.Receives p r h m) {o : Nat} (hm : m.poison = some o) (ho : o ≤ 16380) :
    bits (s.receiveStatusC p r) 0 15 = o := by
  obtain ⟨live, phase⟩ := hr
  have fits : o % 32768 = o := Nat.mod_eq_of_lt (by omega)
  simp [receiveStatusC, phase, ReceivePhase.holds, message_of_live live, hm, fits]

end

/-! ### The pool and the partition (R24 to R37, 11.2) -/

theorem poolWord_fields (s : State) :
    bits (s.poolWord 0) 0 12 = s.pool.freeCells % 2 ^ 12 ∧ bits (s.poolWord 0) 16 12 = s.pool.freeNodes % 2 ^ 12 ∧
      bits (s.poolWord 1) 0 12 = s.pool.strandedCells % 2 ^ 12 ∧
      bits (s.poolWord 1) 16 10 = s.pool.fifo.length % 2 ^ 10 ∧
      bits (s.poolWord 2) 0 11 = s.pool.strandedNodes % 2 ^ 11 ∧
      bits (s.poolWord 2) 31 1 = (if s.pool.lowWater = .tripped then 1 else 0) % 2 ^ 1 ∧
      bits (s.poolWord 3) 0 12 = s.pool.lowMark % 2 ^ 12 ∧ bits (s.poolWord 3) 16 12 = s.pool.recoverMark % 2 ^ 12 := by
  simp [poolWord]

theorem partitionWord_fields (s : State) (p : Port) :
    bits (s.partitionWord p 0) 0 12 = (s.share p).reserve % 2 ^ 12 ∧
      bits (s.partitionWord p 0) 16 12 = (s.share p).limit % 2 ^ 12 ∧
      bits (s.partitionWord p 1) 0 12 = (s.share p).charged % 2 ^ 12 ∧
      (bits (s.partitionWord p 1) 12 1 = 1 ↔ (s.share p).starving = true) ∧
      bits (s.partitionWord p 1) 16 16 = (s.share p).refused % 2 ^ 16 := by
  simp [partitionWord]

end State

/-! ### The registers -/

/-- Settles O13, one register after the other, each by the fields of its word. -/
theorem agentRegisterWords : Obligations.AgentRegisterWords := by
  intro p s
  refine ⟨rfl, fun _ => rfl, ?portStatus, ⟨FrontEnd.errorWord_none, fun r => FrontEnd.errorWord_some⟩, by decide,
    ?command, ⟨pack_low (s.front p).result0.value_lt, by decide⟩, ?result1, ?events, fun c => ?compose,
    fun r => ?receive, ?pool⟩
  case portStatus =>
    obtain ⟨port, exchange, tag, busy, code, queue⟩ := s.portStatusWord_fields p
    refine ⟨port, exchange.trans ?_, tag.trans ?_, (congrArg₂ Prod.mk busy (congrArg₂ Prod.mk code queue)).trans ?_⟩
    · cases s.exchange <;> rfl
    · cases s.port p <;> rfl
    · cases (s.front p).unit with
      | idle | resetting => rfl
      | closing q => exact congrArg (fun n => (1, 0x03, n)) (queue_mod q)
  case command =>
    refine ⟨fun h => State.lastCommandWord_none h, fun c h => ?_⟩
    have fields := c.toWord_fields
    rwa [← State.lastCommandWord_some h] at fields
  case result1 =>
    refine ⟨fun h => congrArg Result1.word h, fun n h fits => ?depth, fun n h fits => ?closed,
      fun st n lv h fits limited => ?query, fun a b h drained stranded => ?close, fun m h present => ?message,
      fun h => ?absent, fun x h => ?fetch⟩
    case depth =>
      have fields := Result1.word_depth fits
      rwa [← h] at fields
    case closed =>
      have fields := Result1.word_query_closed fits
      rwa [← h] at fields
    case query =>
      have fields := Result1.word_query_live st lv fits limited
      rw [← h] at fields
      obtain ⟨depth, limit, state, consumer, mask, mode⟩ := fields
      exact ⟨depth, limit, state.trans (by cases st <;> rfl), consumer, mask, mode.trans (by cases lv.mode <;> rfl)⟩
    case close =>
      have fields := Result1.word_close drained stranded
      rwa [← h] at fields
    case message =>
      obtain ⟨desc, poisoned, linked, dropped, holders, failing, outcome⟩ := MessageResult.word_fields present
      have word : s.portRegister p .result1 = m.word := congrArg Result1.word h
      rw [← word] at desc poisoned linked dropped holders failing outcome
      exact ⟨desc.trans (by cases m.desc <;> rfl), poisoned.trans (by rcases m.poisoned with _ | _ | _ <;> rfl),
        bits_of_optional_none linked, fun n h fits => bits_of_optional_some linked h (by omega),
        bits_of_optional_none dropped, fun n h fits => bits_of_optional_some dropped h (by omega),
        bits_of_optional_none holders, fun n h fits => bits_of_optional_some holders h (by omega),
        bits_of_optional_none failing, fun n h fits => bits_of_optional_some failing h (by omega),
        outcome.trans (by cases m.sealOutcome <;> rfl)⟩
    case absent => exact (congrArg Result1.word h).trans MessageResult.word_absent
    case fetch =>
      obtain ⟨desc, source, state, poisoned, broken, tag⟩ := x.word_fields
      have word : s.portRegister p .result1 = x.word := congrArg Result1.word h
      rw [← word] at desc source state poisoned broken tag
      exact ⟨desc, source, state.trans (by cases x.state <;> rfl), poisoned, broken, tag⟩
  case events =>
    obtain ⟨tag, present⟩ := (s.event p).tagWord_fields
    obtain ⟨length, overflow, interrupt, asserted⟩ := (s.event p).statusWord_fields
    refine ⟨⟨fun h => ?_, fun x h => ?_⟩, fun h => eq_of_mod_two_pow length (by omega), overflow, interrupt, asserted,
      enableWord_eq _, interruptWord_eq _, by decide⟩ <;>
    · rw [h] at tag present
      exact ⟨tag, present⟩
  case compose =>
    obtain ⟨phase, starved, lengthError⟩ := s.composeStatusA_flags p c
    refine ⟨starved, lengthError, State.composeStatusA_idle, fun k m h => ?_, fun k h => ?_, fun k n h => ?_,
      State.composeStatusB_absent⟩
    · obtain ⟨desc, written⟩ := State.composeStatusA_composes h
      exact ⟨desc, fun fits => eq_of_mod_two_pow written (by omega)⟩
    · rw [h] at phase
      exact phase
    · rw [h] at phase
      exact ⟨phase, State.composeStatusB_held h⟩
  case receive =>
    obtain ⟨overread, poisonHit, abandonSeen, linkHit⟩ := s.receiveStatusA_flags p r
    refine ⟨overread, poisonHit, abandonSeen, linkHit, fun idle => ?_, fun h m hr => ?_⟩
    · obtain ⟨held, source, desc, state, poisoned, broken⟩ := State.receiveStatusA_idle idle
      obtain ⟨statusB, statusC⟩ := State.receiveStatusBC_idle idle
      exact ⟨held, source, desc, state, poisoned, broken, statusB, statusC⟩
    · obtain ⟨held, source, desc, state, poisoned, broken⟩ := State.receiveStatusA_receives hr
      obtain ⟨offset, readable⟩ := State.receiveStatusB_receives hr
      exact ⟨held, source, desc, state.trans (by cases m.state <;> rfl), poisoned, broken,
        fun fits => eq_of_mod_two_pow offset (by omega),
        fun other fits => eq_of_mod_two_pow (State.readable_of_unsealed other ▸ readable) (by omega),
        fun n final hn fits => eq_of_mod_two_pow (State.readable_of_sealed final hn ▸ readable) (by omega),
        State.receiveStatusC_clean hr, fun o => State.receiveStatusC_poisoned hr⟩
  case pool =>
    obtain ⟨cells, nodes, strandedCells, fifo, strandedNodes, tripped, low, recover⟩ := s.poolWord_fields
    obtain ⟨reserve, limit, charged, starving, refused⟩ := s.partitionWord_fields p
    exact ⟨fun h => eq_of_mod_two_pow cells (by omega), fun h => eq_of_mod_two_pow nodes (by omega),
      fun h => eq_of_mod_two_pow strandedCells (by omega), fun h => eq_of_mod_two_pow fifo (by omega),
      fun h => eq_of_mod_two_pow strandedNodes (by omega), tripped.trans (by cases s.pool.lowWater <;> rfl),
      fun h => eq_of_mod_two_pow low (by omega), fun h => eq_of_mod_two_pow recover (by omega),
      fun h => eq_of_mod_two_pow reserve (by omega), fun h => eq_of_mod_two_pow limit (by omega),
      fun h => eq_of_mod_two_pow charged (by omega), starving, fun h => eq_of_mod_two_pow refused (by omega)⟩

end Sys2Proof.Machine
end

section
/-!
SUPPORT. The transactions of the I2C target (R171, R172): which address byte it takes, what its index byte does, the data bytes of every
row that carries some, and a word left unfinished (R174); O41.
-/
namespace Sys2Proof.Machine
namespace State
variable {s : State} {addr : BitVec 7}

/-! ### The address byte (R171) -/

theorem i2cSelected_iff : s.i2cSelected addr = true ↔ s.Hears addr := by
  rw [i2cSelected, Bool.and_eq_true, Bool.not_eq_true', decide_eq_true_iff]
  rfl

/-- The target does not acknowledge, and takes part in no transaction. -/
def unaddressed (s : State) : State := s.setMgmt { s.mgmt with acknowledged := some false, transaction := .none }

/-- The data bytes that follow are not acknowledged (R171). -/
def ignoresBytes (s : State) : State := s.setMgmt { s.mgmt with acknowledged := some false }

/-- The target acknowledges its address byte and takes part in the transaction. -/
def addressed (s : State) (kind : Transaction) : State :=
  s.setMgmt { s.mgmt with acknowledged := some true, transaction := kind }

@[simp] theorem transaction_unaddressed (s : State) : s.unaddressed.mgmt.transaction = .none := rfl

theorem startTransaction_heard (h : s.Hears addr) (kind : Transaction) :
    s.startTransaction addr kind = s.addressed kind := if_pos (i2cSelected_iff.mpr h)

theorem startTransaction_unheard (h : ¬s.Hears addr) (kind : Transaction) :
    s.startTransaction addr kind = s.unaddressed := if_neg (mt i2cSelected_iff.mp h)

/-! ### The open transaction -/

theorem writeOpen_iff : s.writeOpen = true ↔ s.resetAsserted = false ∧ s.mgmt.transaction = .write := by
  simp [writeOpen]

theorem readOpen_iff : s.readOpen = true ↔ s.Sending := by
  simp [readOpen, Sending]

theorem writeOpen_ne_true (h : s.resetAsserted = true ∨ s.mgmt.transaction ≠ .write) : ¬s.writeOpen = true := by
  rintro isOpen
  obtain ⟨released, write⟩ := writeOpen_iff.mp isOpen
  exact h.elim (by simp [released]) (· write)

theorem readOpen_ne_true (h : s.resetAsserted = true ∨ s.mgmt.transaction ≠ .read) : ¬s.readOpen = true := by
  rintro isOpen
  obtain ⟨released, read⟩ := readOpen_iff.mp isOpen
  exact h.elim (by simp [released]) (· read)

theorem dataBytes_closed (h : s.resetAsserted = true ∨ s.mgmt.transaction ≠ .write) (bs : List Byte)
    (finish : State → State) : s.dataBytes bs finish = s.ignoresBytes := if_neg (writeOpen_ne_true h)

theorem mgmtRead_closed (h : s.resetAsserted = true ∨ s.mgmt.transaction ≠ .read) (last : Fin 4) :
    s.mgmtRead none last = s := if_neg (readOpen_ne_true h)

/-! ### A transaction for another target, or in reset (R171) -/

theorem indexByte_unheard (h : ¬s.Hears addr) (index : Byte) : s.indexByte addr index = s.unaddressed := by
  rw [indexByte, startTransaction_unheard h]
  exact if_neg (writeOpen_ne_true (.inr (by simp)))

/-- The bytes after an address byte that is not acknowledged are not acknowledged either. -/
theorem mgmtData_unheard {w : WriteStart} (h : ¬s.Hears w.addr) (bs : List Byte) (finish : State → State) :
    s.mgmtData (some w) bs finish = s.unaddressed := by
  show (s.indexByte w.addr w.index).dataBytes bs finish = _
  rw [indexByte_unheard h, dataBytes_closed (.inr (by simp))]
  rfl

theorem mgmtRead_unheard (h : ¬s.Hears addr) (last : Fin 4) : s.mgmtRead (some addr) last = s.unaddressed := by
  rw [mgmtRead, startTransaction_unheard h]
  exact if_neg (readOpen_ne_true (.inr (by simp)))

/-! ### The index byte and an unfinished word (R172, R174) -/

theorem indexByte_heard (h : s.Hears addr) (index : Byte) : s.indexByte addr index = s.setMgmt { s.mgmt with
    acknowledged := some true, transaction := .write, pointer := index, assembly := [] } := by
  rw [indexByte, startTransaction_heard h]
  obtain ⟨released, -⟩ := h
  exact if_pos (writeOpen_iff.mpr (by exact ⟨released, rfl⟩))

/-- One to three bytes at the start of a word complete no word: they are kept. -/
theorem receiveBytes_part (h : s.mgmt.assembly = []) (part : WordPart) :
    s.receiveBytes (partBytes part) = s.setMgmt { s.mgmt with assembly := partBytes part } := by
  cases part with
  | one b0 | two b0 b1 | three b0 b1 b2 => simp [partBytes, receiveBytes, receiveByte, h, setMgmt]

theorem mgmtData_part (h : s.AtWord) (part : WordPart) :
    s.mgmtData none (partBytes part) (·.endPartial) = s.setMgmt { s.mgmt with
      acknowledged := some true, transaction := .none, record := some ⟨.incomplete, s.mgmt.pointer⟩
      assembly := partBytes part } := by
  obtain ⟨released, write, empty⟩ := h
  show s.dataBytes _ _ = _
  rw [dataBytes, if_pos (writeOpen_iff.mpr ⟨released, write⟩), receiveBytes_part (by exact empty)]
  rfl

end State

/-! ### The rows of data bytes (R172, R176) -/

/-- Every row that starts a write transaction is the index byte and then the bytes of the row that goes on in it. -/
theorem exec_startingRow {i j : Instr} {w : WriteStart} (h : startingRow i = some (w, j)) :
    ∃ bs finish, ∀ s : State, exec i s = .next (s.mgmtData (some w) bs finish) ∧
      exec j s = .next (s.mgmtData none bs finish) := by
  unfold startingRow at h
  split at h
  case h_17 => exact absurd h nofun
  all_goals
    cases h
    exact ⟨_, _, fun s => ⟨rfl, rfl⟩⟩

/-- A row that goes on in a write transaction runs on its data bytes alone. -/
theorem exec_i2cData {i : Instr} {bs : List Byte} (h : i2cData i = some bs) :
    ∃ finish, ∀ s : State, exec i s = .next (s.dataBytes bs finish) := by
  unfold i2cData at h
  split at h
  case h_17 => exact absurd h nofun
  all_goals
    cases h
    exact ⟨_, fun s => rfl⟩

/-- Each row that carries an address byte: the index byte alone, a read, or one that starts with its index byte. -/
theorem i2cAddress_cases {i : Instr} {addr : BitVec 7} (h : i2cAddress i = some addr) :
    (∃ index, i = .i2cIndexByte addr index) ∨
      (∃ last, i = .managementRegisterRead (some addr) last ∨ i = .managementUnmappedRead (some addr) last) ∨
      ∃ w j, startingRow i = some (w, j) ∧ w.addr = addr := by
  unfold i2cAddress at h
  split at h
  case h_1 a index =>
    cases h
    exact .inl ⟨index, rfl⟩
  case h_2 start last =>
    cases h
    exact .inr (.inl ⟨last, .inl rfl⟩)
  case h_3 start last =>
    cases h
    exact .inr (.inl ⟨last, .inr rfl⟩)
  case h_4 =>
    obtain ⟨⟨w, j⟩, starts, same⟩ := Option.map_eq_some_iff.mp h
    exact .inr (.inr ⟨w, j, starts, same⟩)

/-- R171: a row for another target, or in reset, is not acknowledged and changes nothing else. -/
theorem exec_unheard {s : State} {addr : BitVec 7} (deaf : ¬s.Hears addr) {i : Instr} (h : i2cAddress i = some addr) :
    exec i s = .next s.unaddressed := by
  obtain ⟨index, rfl⟩ | ⟨last, rfl | rfl⟩ | ⟨w, j, starts, rfl⟩ := i2cAddress_cases h
  · exact congrArg Host.Outcome.next (State.indexByte_unheard deaf index)
  · exact congrArg Host.Outcome.next (State.mgmtRead_unheard deaf last)
  · exact congrArg Host.Outcome.next (State.mgmtRead_unheard deaf last)
  · obtain ⟨bs, finish, runs⟩ := exec_startingRow starts
    exact (runs s).1.trans (congrArg Host.Outcome.next (State.mgmtData_unheard deaf bs finish))

/-- R172: a row that starts its transaction is the index byte's row and then the row of its bytes. -/
theorem exec_startingRow_split {i j : Instr} {w : WriteStart} (h : startingRow i = some (w, j)) (s : State) :
    exec i s = exec j (s.indexByte w.addr w.index) := by
  obtain ⟨bs, finish, runs⟩ := exec_startingRow h
  obtain ⟨whole, -⟩ := runs s
  obtain ⟨-, rest⟩ := runs (s.indexByte w.addr w.index)
  rw [whole, rest, State.mgmtData_start]

/-- Settles O41: the rows by their address byte and their data bytes, the index byte, RESET_N, and the unfinished word. -/
theorem transactionsAddressIndexAndPartialWords : Obligations.TransactionsAddressIndexAndPartialWords := by
  refine fun s => ⟨fun addr i deaf h => exec_unheard deaf h, fun addr index h => ?index, fun i j w h => ?starting,
    fun ma => ⟨s.poweredOn ma, s.exec_resetNAssert ma, rfl, rfl⟩, fun i bs h closed => ?data, fun last closed => ?reads,
    fun part h => ?part⟩
  case index => exact congrArg Host.Outcome.next (State.indexByte_heard h index)
  case starting => exact ⟨s.indexByte w.addr w.index, rfl, exec_startingRow_split h s⟩
  case data =>
    obtain ⟨finish, runs⟩ := exec_i2cData h
    exact (runs s).trans (congrArg Host.Outcome.next (State.dataBytes_closed closed bs finish))
  case reads =>
    have idle := congrArg (Host.Outcome.next (φ := Fault) (ρ := Refusal)) (State.mgmtRead_closed closed last)
    exact ⟨idle, idle⟩
  case part =>
    refine (congrArg Host.Outcome.next (State.mgmtData_part h part)).trans ?_
    cases part with
    | one b0 | two b0 b1 | three b0 b1 b2 => rfl

end Sys2Proof.Machine
end

section
/-!
SUPPORT. The register reads of the I2C target (R173): the row that starts or goes on in a read transaction, the capture and the bytes sent
of an assigned and of an unassigned index; O42.
-/
namespace Sys2Proof.Machine
namespace State
variable {s : State}

/-- The target takes part in the read transaction of a row: it is open, or the row's address byte starts it (R171, R173). -/
def TakesRead (s : State) (start : Option (BitVec 7)) : Prop :=
  (start = none ∧ s.Sending) ∨ ∃ addr, start = some addr ∧ s.Hears addr

/-- The state in which the bytes of the row are sent; an address byte has been acknowledged. -/
def reading (s : State) (start : Option (BitVec 7)) : State :=
  s.setMgmt { s.mgmt with
    acknowledged := if start = none then s.mgmt.acknowledged else some true
    transaction := .read }

/-- The management port after `last + 1` bytes of the word `v` (R173). -/
def mgmtSent (s : State) (v : Word) (last : Fin 4) : Mgmt :=
  { s.mgmt with
    capture := some v
    sent := (bytesOf v).take (last.val + 1)
    pointer := if last = 3 then s.mgmt.pointer + 1 else s.mgmt.pointer
    transaction := if last = 3 then .read else .none }

theorem reading_none (h : s.mgmt.transaction = .read) : s.reading none = s := by
  unfold reading
  rw [← h]
  rfl

theorem mgmtRead_taken {start : Option (BitVec 7)} (h : s.TakesRead start) (last : Fin 4) :
    s.mgmtRead start last = (s.reading start).sendRegister last := by
  obtain ⟨rfl, sending⟩ | ⟨addr, rfl, heard⟩ := h
  · rw [reading_none sending.2]
    exact if_pos (readOpen_iff.mpr sending)
  · rw [mgmtRead, startTransaction_heard heard]
    obtain ⟨released, -⟩ := heard
    exact if_pos (readOpen_iff.mpr (by exact ⟨released, rfl⟩))

/-- No register shows the acknowledgement or the transaction (R175). -/
theorem mgmtRegister_reading (s : State) (start : Option (BitVec 7)) (reg : MgmtRegister) :
    (s.reading start).mgmtRegister reg = s.mgmtRegister reg := by
  cases reg <;> rfl

theorem sendRegister_assigned {reg : MgmtRegister} (h : decodeMgmtRegister s.mgmt.pointer = some reg) (last : Fin 4) :
    s.sendRegister last = s.setMgmt (s.mgmtSent (s.mgmtRegister reg) last) := by
  simp only [sendRegister, h]
  rfl

theorem sendRegister_unassigned (h : decodeMgmtRegister s.mgmt.pointer = none) (last : Fin 4) :
    s.sendRegister last =
      s.setMgmt { s.mgmtSent 0 last with record := some ⟨.unmapped, s.mgmt.pointer⟩ } := by
  simp only [sendRegister, h]
  rfl

end State

/-- Indices that 11.6 assigns to no register. -/
theorem decodeMgmtRegister_unassigned : ∀ k : BitVec 8,
    k ∈ [0x05, 0x06, 0x07, 0x0C, 0x0F, 0x1D, 0x1F, 0x44, 0x47, 0x55, 0x57, 0x5A, 0xEF, 0xF5, 0xFF] →
      decodeMgmtRegister k = none := by decide

/-- Settles O42: the row comes to the sending of a register, of an assigned index and of an unassigned one. -/
theorem managementReadsCaptureAndSend : Obligations.ManagementReadsCaptureAndSend := by
  refine fun start last s takes => ⟨fun reg assigned => congrArg Host.Outcome.next ?assigned,
    fun k gap at_k => at_k ▸ decodeMgmtRegister_unassigned k gap, fun unassigned => congrArg Host.Outcome.next ?unassigned⟩
  case assigned =>
    rw [State.mgmtRead_taken takes, State.sendRegister_assigned (by exact assigned), State.mgmtRegister_reading]
    rfl
  case unassigned =>
    rw [State.mgmtRead_taken takes, State.sendRegister_unassigned (by exact unassigned)]
    rfl

end Sys2Proof.Machine
end

section
/-!
SUPPORT. The queue of waiting commands (log 1): no operation of the block changes it, and every row of the table leads to a next state;
O1 and O2.
-/
namespace Sys2Proof.Machine

/-! ### Edits leave the queue alone -/

theorem edits_pending (l : List Instr) : Edits fun u => u.pending = l :=
  Edits.of_quiet (fun q h => q.pending.trans h) (fun _ _ _ h => h) (fun _ _ _ h => h) (fun _ _ h => h) (fun _ _ h => h)
    fun _ _ _ _ h => h

namespace State

variable {s t : State}

/-! ### Accesses of an agent port -/

theorem pending_acting (p : Port) (a : BitVec 16) {f : State → State} (h : (f s).pending = s.pending) :
    (s.acting p a f).pending = s.pending := (edits_pending s.pending).acting p a rfl fun _ => h

theorem pending_takeCommand (p : Port) (c : CommandWord) {f : State → CommandOutcome}
    (h : (f s).state.pending = s.pending) : (s.takeCommand p c f).pending = s.pending :=
  (edits_pending s.pending).takeCommand p c rfl fun _ => h

theorem pending_agentOwner (k : AgentCommand) (p : Port) (f : CommandFields) :
    (AgentCommand.owner k p f s).state.pending = s.pending := by
  cases k with
  | openQueue => exact (Quiet.openQueue p f .refl).pending
  | modifyQueue => exact (Quiet.modifyQueue p f .refl).pending
  | closeQueue => exact (Quiet.closeQueue p f .refl).pending
  | queryQueue => exact (Quiet.queryQueue f .refl).pending
  | beginMessage => exact (Quiet.beginMessage p f .refl).pending
  | sealMessage => exact (Quiet.sealMessage p f .refl).pending
  | abandonMessage => exact (Quiet.abandonMessage p f .refl).pending
  | fetchMessage => exact (Quiet.fetchMessage p f .refl).pending
  | rewindMessage => exact (Quiet.rewindMessage p f .refl).pending
  | releaseMessage => exact (Quiet.releaseMessage p f .refl).pending
  | portReset => rfl

theorem pending_command (k : AgentCommand) (p : Port) (f : CommandFields) :
    (s.takeCommand p ⟨k.code, f⟩ (AgentCommand.owner k p f)).pending = s.pending :=
  pending_takeCommand p _ (pending_agentOwner k p f)

theorem pending_commandOwner (p : Port) (c : CommandWord) : (commandOwner p c s).state.pending = s.pending := by
  unfold commandOwner
  split
  · exact pending_agentOwner _ _ _
  · rfl

theorem pending_popEvent (p : Port) : (popEvent p s).pending = s.pending := (edits_pending s.pending).popEvent p rfl

theorem pending_dataWrite (p : Port) (c : ComposeNo) (a : BitVec 16) (w : Word) :
    (dataWrite p c a w s).pending = s.pending := (Quiet.dataWrite p c a w .refl).pending

theorem pending_dataRead (p : Port) (r : ReceiveNo) (a : BitVec 16) : (dataRead p r a s).pending = s.pending :=
  (Quiet.dataRead p r a .refl).pending

theorem pending_readRegister (p : Port) (a : BitVec 16) (reg : PortRegister) :
    (readRegister p a reg s).pending = s.pending := by
  unfold readRegister
  split
  · exact pending_acting p a (pending_popEvent p)
  · rfl

theorem pending_writeRegister (p : Port) (a : BitVec 16) (reg : PortRegister) (w : Word) :
    (writeRegister p a reg w s).pending = s.pending := by
  unfold writeRegister
  split
  case h_2 => exact pending_takeCommand p _ (pending_commandOwner p _)
  all_goals exact pending_acting p a rfl

theorem pending_decodedAccess (p : Port) (a : BitVec 16) (x : Access) : (decodedAccess p a x s).pending = s.pending := by
  unfold decodedAccess
  split
  · rfl
  · rfl
  · cases x with
    | read => exact pending_readRegister p a _
    | write w => exact pending_writeRegister p a _ w
  · cases x with
    | read => exact pending_acting p a rfl
    | write w => exact pending_acting p a (pending_dataWrite p _ a w)
  · cases x with
    | read => exact pending_acting p a (pending_dataRead p _ a)
    | write w => exact pending_acting p a rfl

theorem pending_agentAccess (p : Port) (a : BitVec 16) (x : Access) : (agentAccess p a x s).pending = s.pending := by
  unfold agentAccess oneAccess
  split
  · rfl
  · exact pending_decodedAccess p a x

/-! ### The management port -/

theorem pending_restart (s : State) (stopped : Bool) : (s.restart stopped).pending = s.pending :=
  ((((Quiet.refl.endOpening 0).endOpening 1).endOpening 2).endOpening 3 : Quiet s s.completeOpenings).pending

theorem pending_mgmtOwner (k : MgmtCommand) (f : MgmtFields) : (MgmtCommand.owner k f s).state.pending = s.pending := by
  have E := edits_pending s.pending
  cases k with
  | restartExchange =>
    show (restartOwner s).state.pending = _
    unfold restartOwner
    split
    · exact pending_restart s false
    · exact pending_restart s true
    all_goals rfl
  | resetPort => exact E.resetPortOwner f rfl
  | fencePort => exact E.fencePortOwner f rfl
  | unfencePort => exact E.unfencePortOwner f rfl
  | setPartition => exact E.setPartitionOwner rfl
  | setPoolMarks => exact E.setPoolMarksOwner rfl
  | setTimeout => exact E.setTimeoutOwner f rfl
  | setPolicy => exact E.setPolicyOwner f rfl
  | ackFault => exact E.ackFaultOwner rfl
  | clearCounters => exact E.clearCountersOwner rfl
  | inject => exact E.injectOwner f rfl

theorem pending_mgmtOwned (o : MgmtOutcome) (c : MgmtWord) : (mgmtOwned o c).pending = o.state.pending := by
  unfold mgmtOwned
  split <;> rfl

theorem pending_mgmtCommand (s : State) (c : MgmtWord) : (s.mgmtCommand c).pending = s.pending := by
  unfold mgmtCommand
  split
  · rfl
  · split
    · rfl
    · rw [pending_mgmtOwned, pending_mgmtOwner]

theorem pending_writeMgmtRegister (s : State) (w : Word) : (s.writeMgmtRegister w).pending = s.pending := by
  unfold writeMgmtRegister
  split
  case h_2 => exact pending_mgmtCommand s _
  all_goals rfl

theorem pending_receiveByte (s : State) (b : Byte) : (s.receiveByte b).pending = s.pending := by
  unfold receiveByte
  split
  · exact pending_writeMgmtRegister s _
  · rfl

theorem pending_receiveBytes (s : State) (bs : List Byte) : (s.receiveBytes bs).pending = s.pending := by
  induction bs generalizing s with
  | nil => rfl
  | cons b bs ih => exact (ih _).trans (pending_receiveByte s b)

theorem pending_startTransaction (s : State) (a : BitVec 7) (x : Transaction) :
    (s.startTransaction a x).pending = s.pending := by
  unfold startTransaction
  split <;> rfl

theorem pending_indexByte (s : State) (a : BitVec 7) (i : Byte) : (s.indexByte a i).pending = s.pending := by
  unfold indexByte
  dsimp only
  split <;> exact pending_startTransaction s a .write

theorem pending_dataBytes (s : State) (bs : List Byte) {finish : State → State} (hf : ∀ u, (finish u).pending = u.pending) :
    (s.dataBytes bs finish).pending = s.pending := by
  unfold dataBytes
  split
  · rw [hf, pending_receiveBytes]
    rfl
  · rfl

theorem pending_mgmtData (start : Option WriteStart) (bs : List Byte) {finish : State → State}
    (hf : ∀ u, (finish u).pending = u.pending) : (s.mgmtData start bs finish).pending = s.pending := by
  cases start with
  | none => exact pending_dataBytes s bs hf
  | some w => exact (pending_dataBytes _ bs hf).trans (pending_indexByte s w.addr w.index)

theorem pending_sendRegister (s : State) (last : Fin 4) : (s.sendRegister last).pending = s.pending := by
  unfold sendRegister
  dsimp only
  split <;> rfl

theorem pending_mgmtRead (start : Option (BitVec 7)) (last : Fin 4) : (s.mgmtRead start last).pending = s.pending := by
  have sent : ∀ u : State, (if u.readOpen then u.sendRegister last else u).pending = u.pending := fun u => by
    split
    · exact pending_sendRegister u last
    · rfl
  cases start with
  | none => exact sent s
  | some a => exact (sent _).trans (pending_startTransaction s a .read)

/-! ### Teardowns -/

theorem pending_teardownAbandonSlot (p : Port) (c : ComposeNo) : (s.teardownAbandonSlot p c).pending = s.pending := by
  unfold teardownAbandonSlot
  split
  · exact (Quiet.refl.abandonSlot p c _).pending
  · rfl

theorem pending_teardownReleaseSlot (p : Port) (r : ReceiveNo) : (s.teardownReleaseSlot p r).pending = s.pending := by
  unfold teardownReleaseSlot
  split
  · exact (Quiet.refl.releaseSlot p r _).pending
  · rfl

end State

/-! ### Rows that ask first whether they are due -/

/-- The outcome of a command taken in `s`: a next state, in which the same commands wait. -/
def CompletesKeepingQueue (s : State) (o : Host.Outcome State Fault Refusal) : Prop :=
  ∃ t, o = .next t ∧ t.pending = s.pending

namespace CompletesKeepingQueue

variable {s t : State}

theorem next (h : t.pending = s.pending) : CompletesKeepingQueue s (.next t) := ⟨t, rfl, h⟩

/-- A row that is not due changes nothing (log 9). -/
theorem idle : CompletesKeepingQueue s (.next s) := .next rfl

theorem quiet (q : Quiet s t) : CompletesKeepingQueue s (.next t) := .next q.pending

variable (s)

theorem resetNRelease : CompletesKeepingQueue s (execResetNRelease s) := by
  unfold execResetNRelease
  split
  · exact .next rfl
  · exact .idle

theorem initRebuildEnd : CompletesKeepingQueue s (execInitRebuildEnd s) := by
  unfold execInitRebuildEnd
  split
  · exact .idle
  · split
    · exact .next rfl
    all_goals exact .idle

theorem restartRebuildEnd : CompletesKeepingQueue s (execRestartRebuildEnd s) := by
  unfold execRestartRebuildEnd
  split
  · exact .next rfl
  all_goals exact .idle

theorem beginMessage (p : Port) (f : BeginFields) : CompletesKeepingQueue s (execBeginMessage p f s) := by
  unfold execBeginMessage
  split
  · exact .next (State.pending_command .beginMessage p _)
  · exact .quiet (Quiet.refl.commandAccess p (Quiet.beginOpen p _ .refl))
  · exact .quiet (Quiet.refl.endOpening p)

theorem timerExpiry (p : Port) (c : ComposeNo) : CompletesKeepingQueue s (execTimerExpiry p c s) := by
  have expired : ∀ k held, CompletesKeepingQueue s (.next (expireSlot s p c k held)) := fun k _ =>
    .quiet ((Quiet.refl.abandonSlot p c k).arrive p _)
  unfold execTimerExpiry
  split
  · split
    · exact .idle
    · split
      · exact expired _ _
      · exact .idle
    · split
      · exact expired _ _
      · exact .idle
  · exact .idle

theorem drainStep (q : QueueNo) : CompletesKeepingQueue s (execDrainStep q s) := by
  have E := edits_pending s.pending
  unfold execDrainStep
  split
  · rename_i running _
    split
    · split
      · exact .next (E.finishClose _ _ _ running rfl)
      · exact .next (E.completeRequest _ (E.drainHead_of_quiet (fun k h => k.pending.trans h) _ _ _ running rfl))
    all_goals exact .idle
  · exact .idle

theorem fenceRequest : CompletesKeepingQueue s (execFenceRequest s) := by
  have E := edits_pending s.pending
  unfold execFenceRequest
  split
  · rename_i found
    have kept := E.escalation found rfl
    unfold State.fenceRequested
    split
    · rename_i running
      exact .next (E.fenceBy _ _ running kept)
    all_goals exact .next kept
  · exact .idle

theorem stopRequest : CompletesKeepingQueue s (execStopRequest s) := by
  unfold execStopRequest
  split
  · rename_i found
    have kept := (edits_pending s.pending).escalation found rfl
    unfold State.stopRequested
    split <;> exact .next kept
  · exact .idle

theorem teardownAbandon (p : Port) : CompletesKeepingQueue s (execTeardownAbandon p s) := by
  unfold execTeardownAbandon
  split
  · exact .next (State.pending_teardownAbandonSlot p _)
  · exact .idle

theorem teardownRelease (p : Port) : CompletesKeepingQueue s (execTeardownRelease p s) := by
  unfold execTeardownRelease
  split
  · exact .next (State.pending_teardownReleaseSlot p _)
  · exact .idle

theorem teardownClose (p : Port) : CompletesKeepingQueue s (execTeardownClose p s) := by
  unfold execTeardownClose
  split
  · rename_i due
    split
    · exact .next ((edits_pending s.pending).teardownCloseQueue _ _ (Edits.teardownAt_running due) rfl)
    · exact .idle
  · exact .idle

theorem teardownCloseComplete (p : Port) : CompletesKeepingQueue s (execTeardownCloseComplete p s) := by
  unfold execTeardownCloseComplete
  split
  · split
    · exact .next rfl
    · exact .idle
  · exact .idle

theorem teardownEventReset (p : Port) : CompletesKeepingQueue s (execTeardownEventReset p s) := by
  unfold execTeardownEventReset
  split
  · exact .next rfl
  · exact .idle

theorem teardownEnd (p : Port) : CompletesKeepingQueue s (execTeardownEnd p s) := by
  unfold execTeardownEnd
  split
  · split <;> exact .next rfl
  · exact .idle

/-! ### Every command -/

/-- What every command comes to, by its row of the table. -/
theorem exec (c : Instr) : CompletesKeepingQueue s (Machine.exec c s) := by
  cases c with
  | resetNAssert | unitBoundary => exact .next rfl
  | resetNRelease => exact resetNRelease s
  | initRebuildEnd => exact initRebuildEnd s
  | restartRebuildEnd => exact restartRebuildEnd s
  | accessDecodeError p a x => exact .next (State.pending_agentAccess p a x)
  | registerWrite p a w => exact .next (State.pending_agentAccess p a (.write w))
  | commandCodeInvalid p code f => exact .next (State.pending_takeCommand p _ (State.pending_commandOwner p _))
  | openQueue p f => exact .next (State.pending_command .openQueue p f)
  | modifyQueue p f => exact .next (State.pending_command .modifyQueue p f)
  | closeQueue p f => exact .next (State.pending_command .closeQueue p f)
  | queryQueue p f => exact .next (State.pending_command .queryQueue p f)
  | beginMessage p f => exact beginMessage s p f
  | sealMessage p f => exact .next (State.pending_command .sealMessage p f)
  | abandonMessage p f => exact .next (State.pending_command .abandonMessage p f)
  | fetchMessage p f => exact .next (State.pending_command .fetchMessage p f)
  | rewindMessage p f => exact .next (State.pending_command .rewindMessage p f)
  | releaseMessage p f => exact .next (State.pending_command .releaseMessage p f)
  | portReset p f => exact .next (State.pending_command .portReset p f)
  | composeApertureWrite p c w d => exact .next (State.pending_acting p _ (State.pending_dataWrite p c _ d))
  | receiveApertureRead p r w => exact .next (State.pending_acting p _ (State.pending_dataRead p r _))
  | eventHeadRead p => exact .next (State.pending_acting p _ (State.pending_popEvent p))
  | composeApertureRead p | receiveApertureWrite p | eventEnableWrite p | interruptEnableWrite p =>
    exact .next (State.pending_acting p _ rfl)
  | i2cIndexByte a i => exact .next (State.pending_indexByte s a i)
  | managementUnmappedRead start last | managementRegisterRead start last => exact .next (State.pending_mgmtRead start last)
  | partialWord start | managementRegisterWrite start | mintNEnableWrite start | managementCodeInvalid start
  | refusedBusy start | restartExchange start | resetPort start | fencePort start | unfencePort start | setPartition start
  | setPoolMarks start | setTimeout start | setPolicy start | ackFault start | clearCounters start | inject start =>
    exact .next (State.pending_mgmtData start _ fun _ => rfl)
  | timerExpiry p c => exact timerExpiry s p c
  | drainStep q => exact drainStep s q
  | fenceRequest => exact fenceRequest s
  | stopRequest => exact stopRequest s
  | teardownAbandon p => exact teardownAbandon s p
  | teardownRelease p => exact teardownRelease s p
  | teardownClose p => exact teardownClose s p
  | teardownCloseComplete p => exact teardownCloseComplete s p
  | teardownEventReset p => exact teardownEventReset s p
  | teardownEnd p => exact teardownEnd s p

end CompletesKeepingQueue

/-- Settles O2, by the rows of the table. -/
theorem everyCommandCompletesAndKeepsTheQueue : Obligations.EveryCommandCompletesAndKeepsTheQueue :=
  fun c s => CompletesKeepingQueue.exec s c

/-! ### One step -/

theorem step_front (c : Instr) (rest : List Instr) (s : State) :
    step { s with pending := c :: rest } = exec c { s with pending := rest } := rfl

theorem step_idle {s : State} (h : s.pending = []) : step s = .next s := by
  unfold step
  rw [h]

/-- Settles O1: the queue of waiting commands begins with a command or is empty. -/
theorem stepTakesTheFrontCommandOrIdles : Obligations.StepTakesTheFrontCommandOrIdles :=
  ⟨step_front, fun _ => step_idle⟩

end Sys2Proof.Machine
end
